-- ==== Sys2Proof/Word.lean ====
section
/-! DEFINITION. The words of the link: what the manual carries as bits. -/

namespace Sys2Proof

/-- One byte of a request or reply frame (R187). -/
abbrev Byte := BitVec 8

/-- An address as the link carries it: 22 bits, 0 to 4,194,303 (R2, R190). -/
abbrev Addr := BitVec 22

/-- A reading of the millisecond counter: 32 bits, wrapping (00, "Time"). -/
abbrev Time := BitVec 32

end Sys2Proof
end

