-- ==== Sys2Proof/Config.lean ====
section
/-! DEFINITION. What the part is built with, and the model's three free values. -/

namespace Sys2Proof.Config

/-- Places of a report queue (R194, R195). -/
def queueCapacity : Nat := 12

/-- Live tickets a port may hold (R123, R194). -/
def ticketLimit : Nat := 2

/-- Records the position map may hold (R4, R194). -/
def mapCapacity : Nat := 32

/-- Entries of the disturbance history (R171). -/
def historyCapacity : Nat := 8

/-- Part code and revision of READ IDENTITY (R194). -/
def partCode : Nat := 0x6201
def revision : Nat := 0x41

/-- FREE VALUE (entry 2): which of the timers that are due in one millisecond fires first. The spec says of
each such race that either may be taken first; nothing constrains the choice. -/
opaque dueChoice : Nat → Nat

/-- FREE VALUE (entry 6): whether the master of a port, by its number, has clocked the turnaround byte when a millisecond
has passed. The spec sets no limit on the time between two clocks (R186); nothing constrains the choice. -/
opaque turnaroundClocked : Nat → Byte → Bool

/-- FREE VALUE (entry 34): what CLEAR FAULT does after a RELEASE that SPINDLE_STOP_FAIL ended FAULTED with a class held, where
R124 starts an identification and R167 stops the drive; nothing constrains the choice. -/
opaque latchedFaultIdentifies : Bool

end Sys2Proof.Config
end

