-- ==== Sys2Proof/Syntax.lean ====
section
/-! DEFINITION. The commands of the part: one constructor per row of spec/opcode_table.json. -/

namespace Sys2Proof

/-- The three ports (R187, R191). -/
inductive Port where
  | control
  | stream
  | mechanism
  deriving DecidableEq, Repr

/-- A command the part takes, whole and indivisible. A request carries the port it arrived on, the tag byte of
its frame and its parameters as the frame holds them (R187, R191); an event carries what its sensor says. -/
inductive Instr where
  -- requests served on every port
  | readStatus (p : Port) (tag : Byte)
  | readReport (p : Port) (tag : Byte)
  | setNoticeMask (p : Port) (tag : Byte) (mask : BitVec 16)
  | setHoldoff (p : Port) (tag : Byte) (value : Byte)
  | readIdentity (p : Port) (tag : Byte)
  -- requests of the control port
  | seek (p : Port) (tag : Byte) (target : Addr) (speed : Byte)
  | follow (p : Port) (tag : Byte) (start : Addr) (speed : Byte) (endAddr : Option Addr)
  | stop (p : Port) (tag : Byte)
  | cancel (p : Port) (tag : Byte) (which : Byte)
  | setZone (p : Port) (tag : Byte) (index enabled : Byte) (base mask : Addr) (cap access : Byte)
  | readZone (p : Port) (tag : Byte) (index : Byte)
  | setDefaultZone (p : Port) (tag : Byte) (cap : Byte)
  | readMap (p : Port) (tag : Byte) (index : Byte)
  | mapImport (p : Port) (tag : Byte) (address : Addr) (coordinate : BitVec 16)
  | recoverySettings (p : Port) (tag : Byte) (retry time : Byte)
  | readFault (p : Port) (tag : Byte)
  | clearFault (p : Port) (tag : Byte)
  | softReset (p : Port) (tag : Byte)
  -- requests of the stream port
  | addressReport (p : Port) (tag : Byte) (address : Addr) (flag : Byte)
  | resumeAt (p : Port) (tag : Byte) (address : Option Addr)
  | rejoin (p : Port) (tag : Byte) (target : Addr)
  -- requests of the mechanism port
  | release (p : Port) (tag : Byte)
  | clampState (p : Port) (tag : Byte) (value : Byte)
  | supplyState (p : Port) (tag : Byte) (value : Byte)
  -- the link
  | unknownKind (p : Port) (frame : List Byte)
  | selectRelease (p : Port)
  | replyComplete (p : Port)
  | powerOnReset
  | holdoffExpiry (p : Port)
  -- timers
  | addressMonitorTimerExpiry
  | settleEnd
  -- sensors and timers of the actuators
  | tachometerReading (rpm : Nat)
  | lockTestComplete
  | lockLimitExpiry
  | stopLimitExpiry
  | profileSwitchComplete
  | focusCapture
  | attemptTimerExpiry
  /-- The returned light has stayed below half its locked level for `lowUs` microseconds (R88; entry 9). -/
  | focusDrop (lowUs : Nat)
  /-- The spot has lain off the track centre for `offUs` microseconds (R91; entry 9). -/
  | offTrack (offUs : Nat)
  | trackCrossing
  /-- The stepper completes a step; `closed` is the home switch after it (R98, R100; entry 10). -/
  | sledStep (closed : Bool)
  | homeSwitchClose
  | creepThreshold
  | candidateWindowEnd
  | sagTimerExpiry
  | retrackWindowEnd
  | roughExit
  | selectFall (p : Port)
  | trackingClosed
  deriving DecidableEq, Repr

end Sys2Proof
end

