-- ==== Sys2Proof/Decode.lean ====
section
/-! DEFINITION. Request frames: from bytes to commands, and from commands to bytes (R187 to R191). -/

namespace Sys2Proof

/-- A complete request frame: kind code, tag, length, as many parameter bytes as the length says, check (R187). -/
def frameComplete : List Byte → Bool
  | _ :: _ :: len :: rest => rest.length == len.toNat + 1
  | _ => false

/-- The sum of the bytes of a frame modulo 256 (R187, R189). -/
def sumBytes : List Byte → Byte
  | [] => 0
  | b :: bs => b + sumBytes bs

/-- The check byte that makes a frame with these bytes before it sum to 0 modulo 256 (R187). -/
def checkByte (bs : List Byte) : Byte := - sumBytes bs

/-- A 3-byte address parameter: the low 22 bits of the field, the two top bits ignored (R190). -/
def addrOfBytes (b2 b1 b0 : Byte) : Addr := ((b2 ++ b1 ++ b0 : BitVec 24)).setWidth 22

/-- An address as 3 bytes, most significant first, the two top bits 0 (R190). -/
def bytesOfAddr (a : Addr) : List Byte :=
  let w : BitVec 24 := a.setWidth 24
  [w.extractLsb' 16 8, w.extractLsb' 8 8, w.extractLsb' 0 8]

/-- Two bytes, most significant first (R190). -/
def bytesOfWord (w : BitVec 16) : List Byte := [w.extractLsb' 8 8, w.extractLsb' 0 8]

/-- The request kinds (R191). -/
inductive Kind where
  | readStatus | readReport | setNoticeMask | setHoldoff | readIdentity
  | seek | follow | stop | cancel | setZone | readZone | setDefaultZone | readMap | mapImport
  | recoverySettings | readFault | clearFault | softReset
  | addressReport | resumeAt | rejoin
  | clampState | supplyState | release
  deriving DecidableEq, Repr

/-- The kind codes (R191). -/
def Kind.code : Kind → Byte
  | .readStatus => 0x01 | .readReport => 0x02 | .setNoticeMask => 0x03 | .setHoldoff => 0x04 | .readIdentity => 0x05
  | .seek => 0x10 | .follow => 0x11 | .stop => 0x12 | .cancel => 0x13 | .setZone => 0x14 | .readZone => 0x15
  | .setDefaultZone => 0x16 | .readMap => 0x17 | .mapImport => 0x18 | .recoverySettings => 0x19 | .readFault => 0x1A
  | .clearFault => 0x1B | .softReset => 0x1C
  | .addressReport => 0x20 | .resumeAt => 0x21 | .rejoin => 0x22
  | .clampState => 0x30 | .supplyState => 0x31 | .release => 0x32

/-- All kinds. -/
def kinds : List Kind :=
  [.readStatus, .readReport, .setNoticeMask, .setHoldoff, .readIdentity, .seek, .follow, .stop, .cancel, .setZone,
   .readZone, .setDefaultZone, .readMap, .mapImport, .recoverySettings, .readFault, .clearFault, .softReset,
   .addressReport, .resumeAt, .rejoin, .clampState, .supplyState, .release]

/-- The kind a code names; none for an unknown code (R191). -/
def kindOf (code : Byte) : Option Kind := kinds.find? (fun k => k.code == code)

/-- The parameter lengths a kind allows (R191). -/
def Kind.lengths : Kind → List Nat
  | .readStatus | .readReport | .readIdentity | .stop | .readFault | .clearFault | .softReset | .release => [0]
  | .setHoldoff | .cancel | .readZone | .setDefaultZone | .readMap | .clampState | .supplyState => [1]
  | .setNoticeMask | .recoverySettings => [2]
  | .rejoin => [3]
  | .seek | .addressReport => [4]
  | .follow => [4, 7]
  | .setZone => [10]
  | .mapImport => [5]
  | .resumeAt => [0, 3]

/-- The parameter lengths a known kind allows; none for an unknown kind code (R191). -/
def allowedLengths (code : Byte) : Option (List Nat) := (kindOf code).map Kind.lengths

/-- Whether a port serves a kind (R191). -/
def Kind.servedOn (p : Port) : Kind → Bool
  | .readStatus | .readReport | .setNoticeMask | .setHoldoff | .readIdentity => true
  | .seek | .follow | .stop | .setZone | .readZone | .setDefaultZone | .readMap | .mapImport => p == .control
  | .recoverySettings | .readFault | .clearFault | .softReset => p == .control
  | .cancel => p == .control || p == .stream
  | .addressReport | .resumeAt | .rejoin => p == .stream
  | .clampState | .supplyState | .release => p == .mechanism

/-- The ports that serve a kind code; none serves an unknown one (R191). -/
def servedOn (code : Byte) (p : Port) : Bool := (kindOf code).any (Kind.servedOn p)

/-- The request a kind and its parameters spell (R191). -/
def Kind.request (p : Port) (tag : Byte) : Kind → List Byte → Option Instr
  | .readStatus, [] => some (.readStatus p tag)
  | .readReport, [] => some (.readReport p tag)
  | .setNoticeMask, [m1, m0] => some (.setNoticeMask p tag (m1 ++ m0))
  | .setHoldoff, [v] => some (.setHoldoff p tag v)
  | .readIdentity, [] => some (.readIdentity p tag)
  | .seek, [t2, t1, t0, v] => some (.seek p tag (addrOfBytes t2 t1 t0) v)
  | .follow, [t2, t1, t0, v] => some (.follow p tag (addrOfBytes t2 t1 t0) v none)
  | .follow, [t2, t1, t0, v, e2, e1, e0] =>
      some (.follow p tag (addrOfBytes t2 t1 t0) v (some (addrOfBytes e2 e1 e0)))
  | .stop, [] => some (.stop p tag)
  | .cancel, [w] => some (.cancel p tag w)
  | .setZone, [i, en, b2, b1, b0, m2, m1, m0, c, a] =>
      some (.setZone p tag i en (addrOfBytes b2 b1 b0) (addrOfBytes m2 m1 m0) c a)
  | .readZone, [i] => some (.readZone p tag i)
  | .setDefaultZone, [c] => some (.setDefaultZone p tag c)
  | .readMap, [i] => some (.readMap p tag i)
  | .mapImport, [a2, a1, a0, c1, c0] => some (.mapImport p tag (addrOfBytes a2 a1 a0) (c1 ++ c0))
  | .recoverySettings, [r, t] => some (.recoverySettings p tag r t)
  | .readFault, [] => some (.readFault p tag)
  | .clearFault, [] => some (.clearFault p tag)
  | .softReset, [] => some (.softReset p tag)
  | .addressReport, [a2, a1, a0, f] => some (.addressReport p tag (addrOfBytes a2 a1 a0) f)
  | .resumeAt, [] => some (.resumeAt p tag none)
  | .resumeAt, [a2, a1, a0] => some (.resumeAt p tag (some (addrOfBytes a2 a1 a0)))
  | .rejoin, [t2, t1, t0] => some (.rejoin p tag (addrOfBytes t2 t1 t0))
  | .clampState, [v] => some (.clampState p tag v)
  | .supplyState, [v] => some (.supplyState p tag v)
  | .release, [] => some (.release p tag)
  | _, _ => none

/-- The refusals of the frame checks 1 to 3 of R189. Check 4 (WRONG_PORT) is made where the request is served. -/
inductive FrameRefusal where
  /-- The bytes do not sum to 0 modulo 256. -/
  | linkError
  /-- The parameter length is above 12, or not one the known kind allows. -/
  | badLength
  /-- The kind code is unknown. -/
  | unknownKind
  deriving DecidableEq, Repr

/-- The command that a complete request frame on port p spells, or the refusal of the first check of R189 that
fails, in that rule's order. -/
def decodeFrame (p : Port) (frame : List Byte) : Except FrameRefusal Instr :=
  match frame with
  | code :: tag :: len :: rest =>
    if sumBytes frame ≠ 0 then .error .linkError
    else if 12 < len.toNat then .error .badLength
    else match kindOf code with
      | none => .error .unknownKind
      | some k =>
        if len.toNat ∈ k.lengths then
          match k.request p tag rest.dropLast with
          | some i => .ok i
          | none => .error .badLength
        else .error .badLength
  | _ => .error .linkError

/-- The kind of a request; none for an event. -/
def requestKind : Instr → Option Kind
  | .readStatus _ _ => some .readStatus
  | .readReport _ _ => some .readReport
  | .setNoticeMask _ _ _ => some .setNoticeMask
  | .setHoldoff _ _ _ => some .setHoldoff
  | .readIdentity _ _ => some .readIdentity
  | .seek _ _ _ _ => some .seek
  | .follow _ _ _ _ _ => some .follow
  | .stop _ _ => some .stop
  | .cancel _ _ _ => some .cancel
  | .setZone _ _ _ _ _ _ _ _ => some .setZone
  | .readZone _ _ _ => some .readZone
  | .setDefaultZone _ _ _ => some .setDefaultZone
  | .readMap _ _ _ => some .readMap
  | .mapImport _ _ _ _ => some .mapImport
  | .recoverySettings _ _ _ _ => some .recoverySettings
  | .readFault _ _ => some .readFault
  | .clearFault _ _ => some .clearFault
  | .softReset _ _ => some .softReset
  | .addressReport _ _ _ _ => some .addressReport
  | .resumeAt _ _ _ => some .resumeAt
  | .rejoin _ _ _ => some .rejoin
  | .clampState _ _ _ => some .clampState
  | .supplyState _ _ _ => some .supplyState
  | .release _ _ => some .release
  | .unknownKind _ _ | .selectRelease _ | .replyComplete _ | .powerOnReset | .holdoffExpiry _ => none
  | .addressMonitorTimerExpiry | .settleEnd | .tachometerReading _ | .lockTestComplete => none
  | .lockLimitExpiry | .stopLimitExpiry | .profileSwitchComplete | .focusCapture => none
  | .attemptTimerExpiry | .focusDrop _ | .offTrack _ | .trackCrossing | .sledStep _ => none
  | .homeSwitchClose | .creepThreshold | .candidateWindowEnd | .sagTimerExpiry => none
  | .retrackWindowEnd | .roughExit | .selectFall _ | .trackingClosed => none

/-- The kind code of a request (R191); none for an event. -/
def requestCode (i : Instr) : Option Byte := (requestKind i).map Kind.code

/-- The port and tag of a request; none for an event. -/
def requestPortTag : Instr → Option (Port × Byte)
  | .readStatus p t | .readReport p t | .setNoticeMask p t _ | .setHoldoff p t _ | .readIdentity p t => some (p, t)
  | .seek p t _ _ | .follow p t _ _ _ | .stop p t | .cancel p t _ => some (p, t)
  | .setZone p t _ _ _ _ _ _ | .readZone p t _ | .setDefaultZone p t _ => some (p, t)
  | .readMap p t _ | .mapImport p t _ _ | .recoverySettings p t _ _ => some (p, t)
  | .readFault p t | .clearFault p t | .softReset p t => some (p, t)
  | .addressReport p t _ _ | .resumeAt p t _ | .rejoin p t _ => some (p, t)
  | .release p t | .clampState p t _ | .supplyState p t _ => some (p, t)
  | .unknownKind _ _ | .selectRelease _ | .replyComplete _ | .powerOnReset | .holdoffExpiry _ => none
  | .addressMonitorTimerExpiry | .settleEnd | .tachometerReading _ | .lockTestComplete => none
  | .lockLimitExpiry | .stopLimitExpiry | .profileSwitchComplete | .focusCapture => none
  | .attemptTimerExpiry | .focusDrop _ | .offTrack _ | .trackCrossing | .sledStep _ => none
  | .homeSwitchClose | .creepThreshold | .candidateWindowEnd | .sagTimerExpiry => none
  | .retrackWindowEnd | .roughExit | .selectFall _ | .trackingClosed => none

/-- The parameter bytes of a request, in the order of R191. -/
def paramBytes : Instr → List Byte
  | .setNoticeMask _ _ m => bytesOfWord m
  | .setHoldoff _ _ v => [v]
  | .seek _ _ t v => bytesOfAddr t ++ [v]
  | .follow _ _ t v none => bytesOfAddr t ++ [v]
  | .follow _ _ t v (some e) => bytesOfAddr t ++ [v] ++ bytesOfAddr e
  | .cancel _ _ w => [w]
  | .setZone _ _ i en b m c a => [i, en] ++ bytesOfAddr b ++ bytesOfAddr m ++ [c, a]
  | .readZone _ _ i => [i]
  | .setDefaultZone _ _ c => [c]
  | .readMap _ _ i => [i]
  | .mapImport _ _ a c => bytesOfAddr a ++ bytesOfWord c
  | .recoverySettings _ _ r t => [r, t]
  | .addressReport _ _ a f => bytesOfAddr a ++ [f]
  | .resumeAt _ _ (some a) => bytesOfAddr a
  | .rejoin _ _ t => bytesOfAddr t
  | .clampState _ _ v => [v]
  | .supplyState _ _ v => [v]
  | .readStatus _ _ | .readReport _ _ | .readIdentity _ _ | .stop _ _ | .readFault _ _ => []
  | .clearFault _ _ | .softReset _ _ | .resumeAt _ _ none | .release _ _ => []
  | .unknownKind _ _ | .selectRelease _ | .replyComplete _ | .powerOnReset | .holdoffExpiry _ => []
  | .addressMonitorTimerExpiry | .settleEnd | .tachometerReading _ | .lockTestComplete => []
  | .lockLimitExpiry | .stopLimitExpiry | .profileSwitchComplete | .focusCapture => []
  | .attemptTimerExpiry | .focusDrop _ | .offTrack _ | .trackCrossing | .sledStep _ => []
  | .homeSwitchClose | .creepThreshold | .candidateWindowEnd | .sagTimerExpiry => []
  | .retrackWindowEnd | .roughExit | .selectFall _ | .trackingClosed => []

/-- A frame of the given kind, tag and parameters, with its length and check bytes (R187). -/
def frameOf (code tag : Byte) (params : List Byte) : List Byte :=
  let body := [code, tag, BitVec.ofNat 8 params.length] ++ params
  body ++ [checkByte body]

/-- The frame that carries a request; none for an event. -/
def encodeFrame (i : Instr) : Option (List Byte) :=
  match requestCode i, requestPortTag i with
  | some code, some (_, tag) => some (frameOf code tag (paramBytes i))
  | _, _ => none

/-- The command a word spells by the bits of spec/opcode_table.json: the table gives no row any bits, so no word
spells a command. On the link a command is a frame of bytes: see `decodeFrame`. -/
def decodeTableWord (_nbits _w : Nat) : Option Instr := none

end Sys2Proof
end

