-- ==== Sys2Proof/Machine/State.lean ====
section
/-! DEFINITION. The state of the part: every block's fields as plain data, and the machine after reset.
Fields marked (implied) are state the rules imply without naming a field (entry 12 of the assumption log). -/

namespace Sys2Proof.Machine

/-! ### Values -/

/-- The two disc classes, and the two optical profiles (R1). -/
inductive DiscClass where
  | L
  | H
  deriving DecidableEq, Repr

/-- A speed multiple (00, "Speed multiple"). -/
inductive Multiple where
  | one
  | two
  | four
  deriving DecidableEq, Repr

/-- How a record entered the position map (R4). -/
inductive Origin where
  | seed
  | learned
  | imported
  deriving DecidableEq, Repr

/-- Whether the pickup may be sent to a zone (R23). -/
inductive Access where
  | opened
  | avoid
  deriving DecidableEq, Repr

/-- The index of a governing zone: an entry, or the default zone (R25). -/
inductive ZoneId where
  | entry (index : Nat)
  | default
  deriving DecidableEq, Repr

/-- The drive states (R146). -/
inductive DriveState where
  | empty
  | identifying
  | stopped
  | onTrack
  | moving
  | recovering
  | sagHold
  | parking
  | releasing
  | released
  | faulted
  deriving DecidableEq, Repr

inductive ClampState where
  | unknown
  | clamped
  | unclamped
  deriving DecidableEq, Repr

inductive SupplyState where
  | normal
  | sag
  deriving DecidableEq, Repr

/-- The kinds of motion (R118). -/
inductive MotionKind where
  | seek
  | follow
  | stop
  | rejoin
  | release
  deriving DecidableEq, Repr

/-- The status of a motion record (R121). -/
inductive MotionStatus where
  | pending
  | active
  | attached
  | done
  deriving DecidableEq, Repr

/-- The phases of an active motion (R122). -/
inductive Phase where
  | acquire
  | leg
  | settle
  | verify
  | approach
  | following
  | recovering
  | suspended
  | braking
  | homing
  deriving DecidableEq, Repr

/-- Why a motion was preempted (R144). -/
inductive Reason where
  | release
  | supply
  deriving DecidableEq, Repr

/-- The results of a motion (R144). -/
inductive Result where
  | reached
  | ended
  | zoneLimit
  | done
  | unreached
  | superseded
  | cancelled
  | preempted (reason : Reason)
  | faulted
  deriving DecidableEq, Repr

/-- The checks of R45 that end a plan. -/
inductive Cause where
  | legBudget
  | sledBudget
  | sledLimit
  deriving DecidableEq, Repr

/-- The kinds of fault (R165). -/
inductive FaultKind where
  | focusUnrecoverable
  | addressUnrecoverable
  | spindleUnlocked
  | spindleStopFail
  | homeFailed
  | discUnreadable
  deriving DecidableEq, Repr

/-- The kinds of disturbance (R179). -/
inductive Disturbance where
  | focusLost
  | trackSlip
  | addressJump
  | addressStarved
  | spindleSlip
  deriving DecidableEq, Repr

/-- The phases of a recovery (R169). -/
inductive RecoveryPhase where
  | none
  | refocus
  | retrack
  | refix
  | respin
  | return
  deriving DecidableEq, Repr

/-- How a FOLLOW entered its FOLLOWING phase (R134). -/
inductive FollowEntry where
  | start
  | rejoin
  | return
  deriving DecidableEq, Repr

/-- Which reset was made (R197, R202). -/
inductive ResetCause where
  | powerOn
  | softReset
  deriving DecidableEq, Repr

/-- The events of a DISC notice (R155). -/
inductive DiscEvent where
  | candidateH
  | candidateL
  | identified
  deriving DecidableEq, Repr

/-- What the address monitor did with a report (R105). -/
inductive Disposition where
  | fix
  | confirm
  | jump
  | bad
  | ignored
  deriving DecidableEq, Repr

/-- The statuses of a reply (R192). -/
inductive Status where
  | accepted
  | empty
  | linkError
  | badLength
  | unknownKind
  | wrongPort
  | limit
  | tagInUse
  | noDisc
  | faulted
  | releasing
  | outOfRange
  | zoneAvoided
  | unknownTag
  | notCancellable
  deriving DecidableEq, Repr

/-! ### Ports (R186 to R203) -/

/-- The states of a frame decoder (R188). The select line is low exactly when it is not IDLE. -/
inductive Decoder where
  | idle
  | receiving
  | turnaround
  | replying
  | finished
  | blocked
  deriving DecidableEq, Repr

/-- The states of an attention line (R200). -/
inductive Attention where
  | quiet
  | asserted
  | holdoff
  deriving DecidableEq, Repr

/-- The reply frame being sent, without its length and check bytes (R187, R192). -/
structure Reply where
  status : Status
  tag : Byte
  data : List Byte
  deriving DecidableEq, Repr

/-- The content of a completion report (R144). -/
structure Completion where
  tag : Byte
  kind : MotionKind
  result : Result
  final : Option Nat
  legs : Nat
  bad : Nat
  deriving DecidableEq, Repr

/-- A notice with its content (R197). -/
inductive Notice where
  | restarted (cause : ResetCause)
  | disc (event : DiscEvent) (cls : DiscClass) (fix : Option Nat)
  | drive (new previous : DriveState) (cls : Option DiscClass) (time : Time)
  | speed (m : Multiple) (target : Nat) (clamped : Bool) (measured : Nat)
  | disturbance (kind : Disturbance) (time : Time) (fix : Option Nat) (phase : RecoveryPhase) (rough : Bool)
      (recent : Nat)
  | rough (flag : Bool) (time : Time) (recent : Nat)
  | fault (kind : FaultKind) (lastGood : Option Nat) (time : Time) (first : Bool)
  | zone (zone : ZoneId) (previous : Option ZoneId) (fix : Nat) (cap : Multiple) (access : Access)
  | supply (supply : SupplyState) (drive : DriveState) (time : Time)
  | following (tag : Byte) (fix : Nat) (endAddr : Nat) (entry : FollowEntry)
  deriving DecidableEq, Repr

/-- An entry of a report queue (R195). -/
inductive Report where
  | completion (c : Completion)
  | notice (n : Notice) (repeats : Nat)
  deriving DecidableEq, Repr

/-- One port interface (R188, R195, R199, R200, R201, R123). -/
structure PortState where
  decoder : Decoder
  reply : Option Reply
  /-- (implied) the reply in progress reads the head entry of the queue (R198). -/
  reading : Bool
  /-- (implied) a notice was coalesced into the head entry while it was being read (R198). -/
  headRenewed : Bool
  /-- (implied) an accepted SOFT RESET waits for the end of its reply (R202). -/
  resetArmed : Bool
  queue : List Report
  mask : BitVec 16
  holdoff : Byte
  attention : Attention
  /-- What is left of the holdoff running, in units of 100 µs (R200, R201). -/
  holdoffLeft : Nat
  tickets : List Byte
  deriving DecidableEq, Repr

/-! ### Motion arbiter (R118 to R144) -/

/-- A motion record (R120). -/
structure Motion where
  port : Port
  tag : Byte
  kind : MotionKind
  target : Option Nat
  endAddr : Option Nat
  speed : Option Multiple
  status : MotionStatus
  phase : Option Phase
  cancelPending : Bool
  lastOpen : Option Nat
  /-- (implied) The attached REJOIN of this FOLLOW ended in a recovery or a sag: it re-enters FOLLOWING with entry REJOIN
  (R134, R138; entries 12 and 18). -/
  rejoinEnded : Bool
  legs : Nat
  bad : Nat
  seq : Time
  result : Option Result
  deriving DecidableEq, Repr

/-- The arbiter's state (R120). `waiting` is the pending list of R130; `done` are the records kept until their
reports are read (R121). -/
structure Arbiter where
  active : Option Motion
  attached : Option Motion
  waiting : List Motion
  arrivals : Time
  releaseLatch : Bool
  done : List Motion
  deriving DecidableEq, Repr

/-! ### Seek planner (R36 to R65) -/

/-- Whose target the planner works toward (R37). -/
inductive Owner where
  | none
  | active
  | attached
  | internal
  deriving DecidableEq, Repr

inductive LegKind where
  | none
  | fine
  | sled
  deriving DecidableEq, Repr

inductive LegStage where
  | idle
  | running
  | settling
  | landing
  deriving DecidableEq, Repr

/-- (implied) The step of ACQUIRE in progress (R39). -/
inductive AcquireStep where
  | none
  | spin
  | search
  | close
  | wait
  deriving DecidableEq, Repr

/-- The most recent UNREACHED outcome of a motion (R64). -/
structure Unreached where
  port : Port
  tag : Byte
  target : Option Nat
  lastGood : Option Nat
  legs : Nat
  cause : Cause
  deriving DecidableEq, Repr

/-- The planner's state (R36). -/
structure Planner where
  owner : Owner
  target : Option Nat
  targetCoord : Option Nat
  startCoord : Option Nat
  distance : Option Int
  legKind : LegKind
  legCount : Int
  legStage : LegStage
  legDisturbed : Bool
  /-- (implied) the leg ended complete, or full (R47, R50). -/
  legDone : Bool
  /-- (implied) when the settle in progress began (R51). -/
  settleSince : Time
  acquireStep : AcquireStep
  /-- (implied) the target is the return target of a FOLLOW that was FOLLOWING (R136, R180). -/
  returning : Bool
  sessionLegs : Nat
  sessionSled : Nat
  trim : Nat
  unreached : Option Unreached
  deriving DecidableEq, Repr

/-! ### Position map (R4, R5) and zone table (R23, R24, R32) -/

structure MapRecord where
  address : Nat
  coord : Nat
  origin : Origin
  seq : Nat
  deriving DecidableEq, Repr

structure PosMap where
  records : List MapRecord
  cls : Option DiscClass
  counter : Nat
  deriving DecidableEq, Repr

structure ZoneEntry where
  enabled : Bool
  base : Addr
  mask : Addr
  cap : Multiple
  access : Access
  deriving DecidableEq, Repr

structure ZoneTable where
  entries : List ZoneEntry
  defaultCap : Multiple
  announced : Option ZoneId
  deriving DecidableEq, Repr

/-! ### Address monitor (R104) -/

structure Fix where
  address : Nat
  coord : Nat
  time : Time
  zone : ZoneId
  fresh : Bool
  deriving DecidableEq, Repr

/-- The address monitor. The timer state of R113 is IDLE when it is not `started`; RUNNING and STANDING are told
apart by the loop and spindle states. -/
structure Monitor where
  fix : Option Fix
  resume : Option Nat
  expectedBase : Option Nat
  jumpSum : Int
  started : Bool
  elapsed : Nat
  limit : Nat
  deriving DecidableEq, Repr

/-! ### Optical loop controller (R83) -/

inductive FocusState where
  | off
  | search
  | locked
  | lost
  deriving DecidableEq, Repr

inductive TrackingState where
  | off
  | closed
  | jump
  | hold
  deriving DecidableEq, Repr

/-- A block that commands an actuator and is told the outcome (R83, R90, R97). -/
inductive Requester where
  | planner
  | recovery
  | supervisor
  deriving DecidableEq, Repr

inductive JumpOrigin where
  | leg
  | hold
  deriving DecidableEq, Repr

structure Optics where
  profile : Option DiscClass
  switch : Option (DiscClass × Time)
  focus : FocusState
  allowed : Nat
  attempt : Nat
  attemptTimer : Option Time
  requester : Option Requester
  tracking : TrackingState
  jumpCount : Int
  crossings : Nat
  jumpOrigin : JumpOrigin
  openPending : Bool
  holdAddress : Option Nat
  robustGain : Bool
  /-- (implied) the senders of the tracking close in progress (R90). -/
  closers : List Requester
  /-- (implied) a search command stored during a profile switch (R86). -/
  storedSearch : Option (Requester × Nat)
  /-- (implied) a fine-leg jump stored behind a back-jump (R92). -/
  storedJump : Option Int
  deriving DecidableEq, Repr

/-! ### Sled driver (R97) -/

inductive SledState where
  | idle
  | creep
  | leg
  | homing
  deriving DecidableEq, Repr

structure Sled where
  state : SledState
  position : Option Nat
  legSteps : Int
  taken : Nat
  stopPending : Bool
  paused : Bool
  requester : Option Requester
  /-- The home switch input (10.1). -/
  homeClosed : Bool
  deriving DecidableEq, Repr

/-! ### Spindle controller (R66) -/

inductive SpindleState where
  | stopped
  | spinup
  | coarse
  | locked
  | braking
  | coast
  deriving DecidableEq, Repr

inductive DriveMode where
  | stop
  | fixed
  | clv
  deriving DecidableEq, Repr

structure Spindle where
  state : SpindleState
  mode : DriveMode
  basis : Option Nat
  held : Multiple
  m : Multiple
  target : Nat
  clamped : Bool
  measured : Nat
  lockTest : Option Time
  lockLimit : Option Time
  stopLimit : Option Time
  deriving DecidableEq, Repr

/-! ### Recovery controller (R169) -/

structure HistoryEntry where
  time : Time
  kind : Disturbance
  fix : Option Nat
  deriving DecidableEq, Repr

structure Recovery where
  phase : RecoveryPhase
  refocusCount : Nat
  retrackCount : Nat
  refixCount : Nat
  respinCount : Nat
  retryLimit : Nat
  keptPhase : Option Phase
  returnAddr : Option Nat
  holdCopy : Option Nat
  window : Option Time
  fixReported : Bool
  history : List HistoryEntry
  rough : Bool
  roughExit : Option Time
  retryCount : Nat
  amTime : Nat
  deriving DecidableEq, Repr

/-! ### Drive supervisor (R145, R151, R165) -/

inductive IdentOrigin where
  | clamp
  | clearFault
  deriving DecidableEq, Repr

inductive IdentStage where
  | homing
  | positioning
  | spinning
  | profileH
  | profileL
  deriving DecidableEq, Repr

inductive ProfileStep where
  | switching
  | searching
  | closing
  | window
  deriving DecidableEq, Repr

/-- An identification record (R151). `window` is what the candidate window has run, when it runs. -/
structure Ident where
  origin : IdentOrigin
  stage : IdentStage
  step : Option ProfileStep
  candidate : Option DiscClass
  window : Option Nat
  paused : Bool
  /-- (implied) a try that a sag interrupted waits for the spindle to report COARSE or LOCKED (R161). -/
  restart : Bool
  deriving DecidableEq, Repr

structure FaultRecord where
  kind : FaultKind
  lastGood : Option Nat
  time : Time
  deriving DecidableEq, Repr

structure Supervisor where
  drive : DriveState
  cls : Option DiscClass
  clamp : ClampState
  supply : SupplyState
  sagTimer : Option Time
  focusLostInSag : Bool
  suspendedPhase : Option Phase
  ident : Option Ident
  fault : Option FaultRecord
  deriving DecidableEq, Repr

/-! ### The part -/

/-- The whole part, and the queue of commands waiting. -/
structure State where
  clock : Time
  control : PortState
  stream : PortState
  mechanism : PortState
  arbiter : Arbiter
  planner : Planner
  map : PosMap
  zones : ZoneTable
  monitor : Monitor
  optics : Optics
  sled : Sled
  spindle : Spindle
  recovery : Recovery
  supervisor : Supervisor
  /-- MODEL's own: how many times free choices have been made, among due timers or of turnaround bytes (entries 2 and
  6). -/
  picks : Nat
  /-- Commands waiting, first in, first out (entry 4). -/
  pending : List Instr
  deriving DecidableEq, Repr

/-- What stops the part: nothing does. Every command the spec gives has an effect, a refusal in its reply included,
so the type has no constructor and no command can stop the model. Safe: the model stops nowhere the part goes on. -/
inductive Fault where
  deriving DecidableEq, Repr

/-- Why a command has no meaning in the model. -/
inductive Refusal where
  /-- Raised by an arm of `exec` that gives its command no meaning; no arm does. Safe. -/
  | notModelled (mnemonic : String)
  deriving DecidableEq, Repr

/-- The outcome of a command or a step. -/
abbrev Outcome := Host.Outcome State Fault Refusal

/-! ### Named updates, one per block -/

def State.setClock (s : State) (x : Time) : State := { s with clock := x }
def State.setArbiter (s : State) (x : Arbiter) : State := { s with arbiter := x }
def State.setPlanner (s : State) (x : Planner) : State := { s with planner := x }
def State.setMap (s : State) (x : PosMap) : State := { s with map := x }
def State.setZones (s : State) (x : ZoneTable) : State := { s with zones := x }
def State.setMonitor (s : State) (x : Monitor) : State := { s with monitor := x }
def State.setOptics (s : State) (x : Optics) : State := { s with optics := x }
def State.setSled (s : State) (x : Sled) : State := { s with sled := x }
def State.setSpindle (s : State) (x : Spindle) : State := { s with spindle := x }
def State.setRecovery (s : State) (x : Recovery) : State := { s with recovery := x }
def State.setSupervisor (s : State) (x : Supervisor) : State := { s with supervisor := x }

/-- The interface of a port. -/
def State.port (s : State) : Port → PortState
  | .control => s.control
  | .stream => s.stream
  | .mechanism => s.mechanism

def State.setPort (s : State) (p : Port) (x : PortState) : State :=
  match p with
  | .control => { s with control := x }
  | .stream => { s with stream := x }
  | .mechanism => { s with mechanism := x }

/-! ### Reset values -/

/-- The notice mask a port takes at reset (R199). -/
def defaultMask : Port → BitVec 16
  | .control => 0x03FF
  | .stream => 0x025B
  | .mechanism => 0x0043

/-- A port interface after a reset that leaves its decoder at `d` (R202). -/
def PortState.afterReset (p : Port) (cause : ResetCause) (d : Decoder) : PortState where
  decoder := d
  reply := none
  reading := false
  headRenewed := false
  resetArmed := false
  queue := [.notice (.restarted cause) 0]
  mask := defaultMask p
  holdoff := 10
  attention := .asserted
  holdoffLeft := 0
  tickets := []

/-- R120. -/
def Arbiter.reset : Arbiter where
  active := none
  attached := none
  waiting := []
  arrivals := 0
  releaseLatch := false
  done := []

/-- R36. -/
def Planner.reset : Planner where
  owner := .none
  target := none
  targetCoord := none
  startCoord := none
  distance := none
  legKind := .none
  legCount := 0
  legStage := .idle
  legDisturbed := false
  legDone := false
  settleSince := 0
  acquireStep := .none
  returning := false
  sessionLegs := 0
  sessionSled := 0
  trim := 4096
  unreached := none

/-- R5. -/
def PosMap.empty : PosMap where
  records := []
  cls := none
  counter := 0

/-- R23. -/
def ZoneEntry.reset : ZoneEntry where
  enabled := false
  base := 0
  mask := 0
  cap := .four
  access := .opened

/-- R23, R24, R32. -/
def ZoneTable.reset : ZoneTable where
  entries := List.replicate 8 ZoneEntry.reset
  defaultCap := .four
  announced := none

/-- R104. -/
def Monitor.reset : Monitor where
  fix := none
  resume := none
  expectedBase := none
  jumpSum := 0
  started := false
  elapsed := 0
  limit := 60

/-- R83. -/
def Optics.reset : Optics where
  profile := none
  switch := none
  focus := .off
  allowed := 1
  attempt := 0
  attemptTimer := none
  requester := none
  tracking := .off
  jumpCount := 0
  crossings := 0
  jumpOrigin := .leg
  openPending := false
  holdAddress := none
  robustGain := false
  closers := []
  storedSearch := none
  storedJump := none

/-- R97, with the home switch reading as given (a pin keeps its level through a reset). -/
def Sled.reset (homeClosed : Bool) : Sled where
  state := .idle
  position := none
  legSteps := 0
  taken := 0
  stopPending := false
  paused := false
  requester := none
  homeClosed := homeClosed

/-- R66 and R82: the reset values, and the reading taken at the reset deciding between STOPPED and BRAKING. -/
def Spindle.reset (measured : Nat) : Spindle where
  state := if measured < 30 then .stopped else .braking
  mode := .stop
  basis := none
  held := .one
  m := .one
  target := 0
  clamped := false
  measured := measured
  lockTest := none
  lockLimit := none
  stopLimit := if measured < 30 then none else some 0

/-- R169. -/
def Recovery.reset : Recovery where
  phase := .none
  refocusCount := 0
  retrackCount := 0
  refixCount := 0
  respinCount := 0
  retryLimit := 3
  keptPhase := none
  returnAddr := none
  holdCopy := none
  window := none
  fixReported := false
  history := []
  rough := false
  roughExit := none
  retryCount := 3
  amTime := 60

/-- R145. -/
def Supervisor.reset : Supervisor where
  drive := .empty
  cls := none
  clamp := .unknown
  supply := .normal
  sagTimer := none
  focusLostInSag := false
  suspendedPhase := none
  ident := none
  fault := none

/-- The part right after power-on reset (R202), its select lines high, its home switch open and its motor at rest
(DESIGN CHOICE, entry 10), no command waiting. -/
def State.reset : State where
  clock := 0
  control := PortState.afterReset .control .powerOn .idle
  stream := PortState.afterReset .stream .powerOn .idle
  mechanism := PortState.afterReset .mechanism .powerOn .idle
  arbiter := Arbiter.reset
  planner := Planner.reset
  map := PosMap.empty
  zones := ZoneTable.reset
  monitor := Monitor.reset
  optics := Optics.reset
  sled := Sled.reset false
  spindle := Spindle.reset 0
  recovery := Recovery.reset
  supervisor := Supervisor.reset
  picks := 0
  pending := []

end Sys2Proof.Machine
end

