-- ==== Sys2Proof/Machine/Arith.lean ====
section
/-! DEFINITION. The manual's arithmetic: rounding, clamping, times modulo 2^32, big-endian bytes. -/

namespace Sys2Proof.Machine

/-- "Rounded" (00, Conventions): half up, floor((num + floor(den / 2)) / den). -/
def rounded (num den : Nat) : Nat := (num + den / 2) / den

/-- A value clamped to lo .. hi (00, Conventions). -/
def clampTo (lo hi v : Nat) : Nat := if v < lo then lo else if hi < v then hi else v

/-- A counter increased by 1 that stays at its top value. -/
def bump (top v : Nat) : Nat := if v < top then v + 1 else v

/-- The milliseconds from `since` to `now`, modulo 2^32 (00, "Time"). -/
def elapsedSince (since now : Time) : Nat := (now - since).toNat

/-- The time `ms` milliseconds after `t`. -/
def later (t : Time) (ms : Nat) : Time := t + BitVec.ofNat 32 ms

/-- The signed difference of two coordinates, positive outward (00, "Signed distances"). -/
def trackDistance (target start : Nat) : Int := (target : Int) - (start : Int)

/-- The byte of a number that fits one. -/
def byte (n : Nat) : Byte := BitVec.ofNat 8 n

/-- Two, three and four bytes of a number, most significant first (R190). -/
def bytes2 (n : Nat) : List Byte := [byte (n / 256), byte n]
def bytes3 (n : Nat) : List Byte := [byte (n / 65536), byte (n / 256), byte n]
def bytes4 (n : Nat) : List Byte := [byte (n / 16777216), byte (n / 65536), byte (n / 256), byte n]

/-- A field that may be absent: filled with ones when it is (R190). -/
def absent (width : Nat) : List Byte := List.replicate width 0xFF

/-- An address field, absent as 0xFFFFFF (R190). -/
def addrField : Option Nat → List Byte
  | some a => bytes3 a
  | none => absent 3

/-- A time field (R190). -/
def timeField (t : Time) : List Byte := bytes4 t.toNat

/-- A yes/no field (R190). -/
def flagByte (b : Bool) : Byte := if b then 1 else 0

end Sys2Proof.Machine
end

