-- ==== Sys2Proof/Machine/Geometry.lean ====
section
/-! DEFINITION. The class constants (R1), the radius of a coordinate (R3), the seed records (R6). -/

namespace Sys2Proof.Machine

/-- Track pitch in nm (R1). -/
def DiscClass.pitch : DiscClass → Nat
  | .L => 1600
  | .H => 740

/-- Nominal linear velocity at 1×, in mm/s (R1). -/
def DiscClass.velocity : DiscClass → Nat
  | .L => 1300
  | .H => 3490

/-- Length of one address unit along the track, in µm (R1). No computation of the part uses it: the seeds were
computed from it (R6). -/
def DiscClass.unitLength : DiscClass → Nat
  | .L => 17333
  | .H => 5160

/-- Radius of address 0, in µm (R1). -/
def DiscClass.baseRadius : DiscClass → Nat
  | .L => 25000
  | .H => 24000

/-- Highest address (R1). -/
def DiscClass.maxAddress : DiscClass → Nat
  | .L => 310270
  | .H => 2293830

/-- Highest coordinate (R1). -/
def DiscClass.maxCoord : DiscClass → Nat
  | .L => 20625
  | .H => 45946

/-- The radius of a coordinate, in µm (R3). -/
def radius (k : DiscClass) (c : Nat) : Nat := k.baseRadius + c * k.pitch / 1000

/-- A seed record: origin SEED, sequence 0 (R6). -/
def seedRecord (address coord : Nat) : MapRecord := ⟨address, coord, .seed, 0⟩

/-- The five seed records of a class (R6). -/
def seeds : DiscClass → List MapRecord
  | .L => [seedRecord 0 0, seedRecord 52561 5000, seedRecord 119622 10000, seedRecord 201183 15000,
           seedRecord 310270 20625]
  | .H => [seedRecord 0 0, seedRecord 368592 10811, seedRecord 842497 21622, seedRecord 1421714 32432,
           seedRecord 2293830 45946]

end Sys2Proof.Machine
end

