-- ==== Sys2Proof/Machine/Operands.lean ====
section
/-! DEFINITION. What request parameters mean, and how replies and reports code their fields (R190 to R198). -/

namespace Sys2Proof.Machine

/-! ### Parameters -/

/-- The value of a speed multiple. -/
def Multiple.val : Multiple → Nat
  | .one => 1
  | .two => 2
  | .four => 4

/-- The lesser of two multiples (R71). -/
def Multiple.least (a b : Multiple) : Multiple := if a.val ≤ b.val then a else b

/-- A speed or cap byte brought into the set 1, 2, 4: 0 becomes 1, 3 becomes 2, above 4 becomes 4 (R119, R27). -/
def clampSpeed (v : Byte) : Multiple :=
  if v.toNat ≤ 1 then .one else if v.toNat ≤ 3 then .two else .four

/-- A retry count clamped to 1 to 8 (R185). -/
def clampRetry (v : Byte) : Nat := clampTo 1 8 v.toNat

/-- An address-monitor time clamped to 20 to 250 ms (R185). -/
def clampMonitorTime (v : Byte) : Nat := clampTo 20 250 v.toNat

/-- The check flag of an ADDRESS REPORT: GOOD 0, BAD 1 (R191). -/
def goodFlag? (v : Byte) : Option Bool := if v = 0 then some true else if v = 1 then some false else none

/-- The access value of SET ZONE: OPEN 0, AVOID 1 (R191). -/
def access? (v : Byte) : Option Access := if v = 0 then some .opened else if v = 1 then some .avoid else none

/-- The value of CLAMP STATE: CLAMPED 1, UNCLAMPED 2 (R191). -/
def clamp? (v : Byte) : Option ClampState :=
  if v = 1 then some .clamped else if v = 2 then some .unclamped else none

/-- The value of SUPPLY STATE: NORMAL 0, SAG 1 (R191). -/
def supply? (v : Byte) : Option SupplyState := if v = 0 then some .normal else if v = 1 then some .sag else none

/-- A notice mask as stored: bit 0 set, bits 10 to 15 clear (R199). -/
def storedMask (v : BitVec 16) : BitVec 16 := (v &&& 0x03FF) ||| 1

/-! ### Codes. Values are numbered from 0 in the order the owning rule lists them (R190; entry 27). -/

def portCode : Port → Byte
  | .control => 0 | .stream => 1 | .mechanism => 2

def classCode : Option DiscClass → Byte
  | none => 0 | some .L => 1 | some .H => 2

def DriveState.code : DriveState → Byte
  | .empty => 0 | .identifying => 1 | .stopped => 2 | .onTrack => 3 | .moving => 4 | .recovering => 5
  | .sagHold => 6 | .parking => 7 | .releasing => 8 | .released => 9 | .faulted => 10

def ClampState.code : ClampState → Byte
  | .unknown => 0 | .clamped => 1 | .unclamped => 2

def SupplyState.code : SupplyState → Byte
  | .normal => 0 | .sag => 1

def FocusState.code : FocusState → Byte
  | .off => 0 | .search => 1 | .locked => 2 | .lost => 3

def TrackingState.code : TrackingState → Byte
  | .off => 0 | .closed => 1 | .jump => 2 | .hold => 3

def SpindleState.code : SpindleState → Byte
  | .stopped => 0 | .spinup => 1 | .coarse => 2 | .locked => 3 | .braking => 4 | .coast => 5

def MotionStatus.code : MotionStatus → Byte
  | .pending => 0 | .active => 1 | .attached => 2 | .done => 3

def Phase.code : Phase → Byte
  | .acquire => 0 | .leg => 1 | .settle => 2 | .verify => 3 | .approach => 4 | .following => 5
  | .recovering => 6 | .suspended => 7 | .braking => 8 | .homing => 9

/-- The ROUGH flag on the link: on 1, off 0. DESIGN CHOICE (entry 39), unsafe: the spec leaves it open, for R190 does not say
whether the flag is a yes/no field (yes 1, no 0) or an enumerated one, which by the order "on, off" of R169 would read on 0,
off 1; the model takes it as a yes/no field. -/
def roughByte (on : Bool) : Byte := flagByte on

/-- Motion kinds are coded by the kind code of their request (R190, R191). -/
def MotionKind.code : MotionKind → Byte
  | .seek => 0x10 | .follow => 0x11 | .stop => 0x12 | .rejoin => 0x22 | .release => 0x32

/-- R196. -/
def Result.code : Result → Byte
  | .reached => 0 | .ended => 1 | .zoneLimit => 2 | .done => 3 | .unreached => 4 | .superseded => 5
  | .cancelled => 6 | .preempted _ => 7 | .faulted => 8

/-- R196: absent with any result other than PREEMPTED. -/
def Result.reasonCode : Result → Byte
  | .preempted .release => 0 | .preempted .supply => 1 | _ => 0xFF

def Cause.code : Cause → Byte
  | .legBudget => 0 | .sledBudget => 1 | .sledLimit => 2

def FaultKind.code : FaultKind → Byte
  | .focusUnrecoverable => 0 | .addressUnrecoverable => 1 | .spindleUnlocked => 2 | .spindleStopFail => 3
  | .homeFailed => 4 | .discUnreadable => 5

def Disturbance.code : Disturbance → Byte
  | .focusLost => 0 | .trackSlip => 1 | .addressJump => 2 | .addressStarved => 3 | .spindleSlip => 4

def RecoveryPhase.code : RecoveryPhase → Byte
  | .none => 0 | .refocus => 1 | .retrack => 2 | .refix => 3 | .respin => 4 | .return => 5

def FollowEntry.code : FollowEntry → Byte
  | .start => 0 | .rejoin => 1 | .return => 2

def ResetCause.code : ResetCause → Byte
  | .powerOn => 0 | .softReset => 1

def DiscEvent.code : DiscEvent → Byte
  | .candidateH => 0 | .candidateL => 1 | .identified => 2

def Disposition.code : Disposition → Byte
  | .fix => 0 | .confirm => 1 | .jump => 2 | .bad => 3 | .ignored => 4

def Origin.code : Origin → Byte
  | .seed => 0 | .learned => 1 | .imported => 2

def Access.code : Access → Byte
  | .opened => 0 | .avoid => 1

/-- A zone index in a reply: 0 to 7, DEFAULT 8 (R192). -/
def ZoneId.code : ZoneId → Byte
  | .entry i => byte i | .default => 8

/-- An optional zone index: absent is 0xFF (R192). -/
def zoneField : Option ZoneId → Byte
  | some z => z.code | none => 0xFF

def Multiple.code (m : Multiple) : Byte := byte m.val

/-- R192. -/
def Status.code : Status → Byte
  | .accepted => 0x00 | .empty => 0x01 | .linkError => 0x10 | .badLength => 0x11 | .unknownKind => 0x12
  | .wrongPort => 0x13 | .limit => 0x20 | .tagInUse => 0x21 | .noDisc => 0x22 | .faulted => 0x23
  | .releasing => 0x24 | .outOfRange => 0x25 | .zoneAvoided => 0x26 | .unknownTag => 0x27
  | .notCancellable => 0x28

/-- The status of a frame refusal (R189). -/
def frameStatus : FrameRefusal → Status
  | .linkError => .linkError | .badLength => .badLength | .unknownKind => .unknownKind

/-! ### Reports and frames on the link -/

/-- The code of a notice, its bit in the notice mask (R197, R199). -/
def Notice.code : Notice → Nat
  | .restarted _ => 0
  | .disc _ _ _ => 1
  | .drive _ _ _ _ => 2
  | .speed _ _ _ _ => 3
  | .disturbance _ _ _ _ _ _ => 4
  | .rough _ _ _ => 5
  | .fault _ _ _ _ => 6
  | .zone _ _ _ _ _ => 7
  | .supply _ _ _ => 8
  | .following _ _ _ _ => 9

/-- The content of a notice, in the order of R197. The ROUGH flag in DISTURBANCE and ROUGH is coded on 1, off 0, the model's
choice (entry 39). -/
def Notice.content : Notice → List Byte
  | .restarted cause => [cause.code]
  | .disc event cls fix => [event.code, classCode (some cls)] ++ addrField fix
  | .drive new previous cls time => [new.code, previous.code, classCode cls] ++ timeField time
  | .speed m target clamped measured => [m.code] ++ bytes2 target ++ [flagByte clamped] ++ bytes2 measured
  | .disturbance kind time fix phase flag recent =>
      [kind.code] ++ timeField time ++ addrField fix ++ [phase.code, roughByte flag, byte recent]
  | .rough flag time recent => [roughByte flag] ++ timeField time ++ [byte recent]
  | .fault kind lastGood time first => [kind.code] ++ addrField lastGood ++ timeField time ++ [flagByte first]
  | .zone z previous fix cap access =>
      [z.code, zoneField previous] ++ bytes3 fix ++ [cap.code, access.code]
  | .supply x d time => [x.code, d.code] ++ timeField time
  | .following tag fix endAddr entry => [tag] ++ bytes3 fix ++ bytes3 endAddr ++ [entry.code]

/-- The content of a completion report: 10 bytes (R196). -/
def Completion.content (c : Completion) : List Byte :=
  [c.tag, c.kind.code, c.result.code, c.result.reasonCode] ++ addrField c.final ++ [byte c.legs] ++ bytes2 c.bad

/-- The data of a READ REPORT reply for an entry, `remaining` entries being left after it (R198). -/
def Report.data (r : Report) (remaining : Nat) : List Byte :=
  match r with
  | .completion c => [0, c.kind.code, 0, byte remaining] ++ c.content
  | .notice n repeats => [1, byte n.code, byte repeats, byte remaining] ++ n.content

/-- The reply frame on the link: status, tag echo, data length, data, check (R187). -/
def Reply.frame (r : Reply) : List Byte :=
  let body := [r.status.code, r.tag, byte r.data.length] ++ r.data
  body ++ [checkByte body]

end Sys2Proof.Machine
end

