-- ==== Sys2Proof/Machine/Flags.lean ====
section
/-! DEFINITION. Band tests, limits and flags the rules compute. -/

namespace Sys2Proof.Machine

/-- |measured − target|. -/
def rpmError (measured target : Nat) : Nat := if measured ≤ target then target - measured else measured - target

/-- Within ±10 % of the target (04, 4.4). -/
def within10 (measured target : Nat) : Bool := 10 * rpmError measured target ≤ target

/-- Within ±2 % of the target (04, 4.4). -/
def within2 (measured target : Nat) : Bool := 50 * rpmError measured target ≤ target

/-- The CLV target and its clamped flag (R67). -/
def clvTarget (k : DiscClass) (m : Multiple) (c : Nat) : Nat × Bool :=
  let num := k.velocity * m.val * 9549
  let r := radius k c
  (clampTo 150 4000 (rounded num r), 4000 * r < num || num < 150 * r)

/-- The bits of the presence byte of READ STATUS (R193). -/
def presenceByte (fix active attached sled : Bool) : Byte :=
  byte ((if fix then 1 else 0) + (if active then 2 else 0) + (if attached then 4 else 0) + (if sled then 8 else 0))

/-- Whether a notice mask admits a notice code; RESTARTED is admitted whatever the mask holds (R197). -/
def admits (mask : BitVec 16) (code : Nat) : Bool := code == 0 || mask.getLsbD code

/-- The drop time in µs: 2 ms, or 5 ms with robust gain (R88, R95). -/
def dropTimeUs (robust : Bool) : Nat := if robust then 5000 else 2000

/-- The off-track time in µs: 1 ms, or 3 ms with robust gain (R91, R95). -/
def offTrackTimeUs (robust : Bool) : Nat := if robust then 3000 else 1000

/-- The number of history entries 10,000 ms or less before `now` (R171, R172). -/
def recentCount (history : List HistoryEntry) (now : Time) : Nat :=
  (history.filter (fun e => elapsedSince e.time now ≤ 10000)).length

/-- The laser of a profile is lit exactly while that profile is active (R84, R85). -/
def laserLit (o : Optics) (k : DiscClass) : Bool := o.profile == some k

/-- The number that bits spell, the most significant first. -/
def bitsValue (bits : List Bool) : Nat := bits.foldl (fun n b => 2 * n + b.toNat) 0

/-- The attention line is pulled low exactly while it is ASSERTED (R186, R200). -/
def attentionLow (p : PortState) : Bool := p.attention == .asserted

/-- The bytes the part drives in a state of the decoder: the reply frame in REPLYING, and 0xFF whenever it has no reply
byte to send, the turnaround byte and the clocks after the reply among them (R186, R187). -/
def dataOut (p : PortState) : List Byte :=
  match p.decoder, p.reply with
  | .replying, some r => r.frame
  | _, _ => [0xFF]

/-- What the master reads from the end of its request to the end of the reply: the turnaround byte, then the frame
(R187). -/
def Reply.clockedOut (r : Reply) : List Byte := 0xFF :: r.frame

/-- The eight clocks of a byte, most significant bit first (R186). -/
def clocks (b : Byte) : List Bool := [b.getLsbD 7, b.getLsbD 6, b.getLsbD 5, b.getLsbD 4, b.getLsbD 3, b.getLsbD 2,
  b.getLsbD 1, b.getLsbD 0]

/-- The bytes that clocks carry, counted from the fall of the select line; a byte whose eight clocks are not all received
is discarded (R186). -/
def received : List Bool → List Byte
  | a :: b :: c :: d :: e :: f :: g :: h :: rest => byte (bitsValue [a, b, c, d, e, f, g, h]) :: received rest
  | _ => []

end Sys2Proof.Machine
end

