-- ==== Sys2Proof/Machine/PositionMap.lean ====
section
/-! DEFINITION. The position map: prediction, seeding, insertion, clearing (R4 to R22). -/

namespace Sys2Proof.Machine

/-- The prediction on the line between two records (R8). -/
def interpolate (lo hi : MapRecord) (a : Nat) : Nat :=
  lo.coord + rounded ((a - lo.address) * (hi.coord - lo.coord)) (hi.address - lo.address)

/-- P(a) over records in address order: the record at a, or the line between its two neighbours; none where the
records do not reach (R8, R9). -/
def predictIn : List MapRecord → Nat → Option Nat
  | [], _ => none
  | [r], a => if a = r.address then some r.coord else none
  | r :: r' :: rest, a =>
      if a = r.address then some r.coord
      else if r.address < a ∧ a < r'.address then some (interpolate r r' a)
      else predictIn (r' :: rest) a

/-- P(a) (R8). -/
def PosMap.predict (m : PosMap) (a : Nat) : Option Nat := predictIn m.records a

/-- The seeded map of a class (R6). -/
def PosMap.seeded (k : DiscClass) : PosMap := ⟨seeds k, some k, 1⟩

/-- Whether a record breaks strict order with (a, c) (R13). -/
def breaksOrder (a c : Nat) (r : MapRecord) : Bool :=
  (r.address < a && c ≤ r.coord) || (a < r.address && r.coord ≤ c)

/-- The range test of R11: strictly between the two end records in both fields; an empty map passes nothing. -/
def PosMap.admitsRecord (m : PosMap) (a c : Nat) : Bool :=
  match m.records.head?, m.records.getLast? with
  | some lo, some hi => lo.address < a && a < hi.address && lo.coord < c && c < hi.coord
  | _, _ => false

/-- The LEARNED or IMPORTED record with the smallest sequence, the one of lower address on a tie (R14). -/
def oldestInserted : List MapRecord → Option MapRecord
  | [] => none
  | r :: rest =>
    match r.origin, oldestInserted rest with
    | .seed, found => found
    | _, none => some r
    | _, some other => if r.seq ≤ other.seq then some r else some other

/-- The record is placed at the index that keeps address order (R15). -/
def placeRecord (r : MapRecord) : List MapRecord → List MapRecord
  | [] => [r]
  | q :: rest => if r.address < q.address then r :: q :: rest else q :: placeRecord r rest

/-- What an insertion did (R18). -/
structure Inserted where
  map : PosMap
  replaced : Bool
  displaced : Nat
  evicted : Option Nat
  seq : Nat
  deriving DecidableEq, Repr

/-- The records that survive displacement by (a, c), a record at the same address left out (R12, R13). -/
def survivors (records : List MapRecord) (a c : Nat) : List MapRecord :=
  records.filter (fun r => !(r.address == a) && !breaksOrder a c r)

/-- Whether a record stands at address a (R12). -/
def holdsAddress (records : List MapRecord) (a : Nat) : Bool := records.any (fun r => r.address == a)

/-- The record evicted to make room: none for a replacement or while the map is not full (R14). -/
def evictedRecord (kept : List MapRecord) (replaced : Bool) : Option MapRecord :=
  if replaced = false ∧ Config.mapCapacity ≤ kept.length then oldestInserted kept else none

/-- The records after eviction (R14). -/
def afterEviction (kept : List MapRecord) : Option MapRecord → List MapRecord
  | none => kept
  | some r => kept.filter (fun q => !(q.address == r.address))

/-- Insertion of (a, c) with an origin: none when the range test refuses it; otherwise replacement, displacement,
eviction and placement in that order, and the counter moved on (R10 to R15). -/
def PosMap.insert (m : PosMap) (a c : Nat) (o : Origin) : Option Inserted :=
  if m.admitsRecord a c then
    let replaced := holdsAddress m.records a
    let kept := survivors m.records a c
    let out := evictedRecord kept replaced
    some
      { map := { m with
          records := placeRecord ⟨a, c, o, m.counter⟩ (afterEviction kept out)
          counter := bump 4294967295 m.counter }
        replaced := replaced
        displaced := m.records.length - kept.length - (if replaced then 1 else 0)
        evicted := out.map MapRecord.address
        seq := m.counter }
  else none

/-- The record at an index, when one is present (R19). -/
def PosMap.recordAt (m : PosMap) (index : Nat) : Option MapRecord := m.records[index]?

end Sys2Proof.Machine
end

