-- ==== Sys2Proof/Machine/Ports.lean ====
section
/-! DEFINITION. Port interfaces: report queues, attention lines, replies (R187 to R203). -/

namespace Sys2Proof.Machine

/-! ### Report queues (R195 to R198) -/

/-- Whether an entry is a notice of the given code. -/
def Report.isNotice (code : Nat) : Report → Bool
  | .notice n _ => n.code == code
  | .completion _ => false

/-- The queue with the unread notice of the same kind replaced in place, its repeat count one higher (R197). -/
def coalesce (n : Notice) : List Report → List Report
  | [] => []
  | .notice o r :: rest =>
      if o.code = n.code then .notice n (bump 255 r) :: rest else .notice o r :: coalesce n rest
  | .completion c :: rest => .completion c :: coalesce n rest

/-- Whether the head of a queue is a notice of the given code. -/
def headIsNotice (code : Nat) : List Report → Bool
  | r :: _ => r.isNotice code
  | [] => false

/-- An entry joins the queue at its tail and asserts a QUIET attention line (R195, R200). -/
def PortState.joined (p : PortState) (r : Report) : PortState :=
  { p with queue := p.queue ++ [r], attention := if p.attention = .quiet then .asserted else p.attention }

/-- A notice offered to a port: kept if the mask admits it, coalesced with an unread one of its kind (R197). A
coalescing into the head while it is being read is noted, for the end of that read (R198). -/
def PortState.offered (n : Notice) (p : PortState) : PortState :=
  if admits p.mask n.code then
    if p.queue.any (Report.isNotice n.code) then
      { p with queue := coalesce n p.queue
               headRenewed := p.headRenewed || (p.reading && headIsNotice n.code p.queue) }
    else p.joined (.notice n 0)
  else p

/-- A block offers a notice to the three port interfaces (R197). -/
def offer (n : Notice) (s : State) : State :=
  { s with control := s.control.offered n, stream := s.stream.offered n, mechanism := s.mechanism.offered n }

/-- A completion report joins the queue of the port that submitted the motion, whatever its mask (R196). -/
def queueCompletion (p : Port) (c : Completion) (s : State) : State :=
  s.setPort p ((s.port p).joined (.completion c))

/-- The attention line and holdoff timer after a read has taken an entry from the queue (R200). -/
def PortState.afterRemoval (p : PortState) : PortState :=
  if p.queue ≠ [] then p
  else if p.holdoff = 0 then { p with attention := .quiet, holdoffLeft := 0 }
  else { p with attention := .holdoff, holdoffLeft := p.holdoff.toNat }

/-- The head entry leaves, its ticket with it when it is a completion report (R196, R198). -/
def PortState.headLeaves (p : PortState) : PortState :=
  match p.queue with
  | [] => p
  | .completion c :: rest => { p with queue := rest, tickets := p.tickets.erase c.tag }.afterRemoval
  | .notice _ _ :: rest => { p with queue := rest }.afterRemoval

/-- The entry stays at the head with the newer content and repeat count 0 (R198). -/
def PortState.headStays (p : PortState) : PortState :=
  match p.queue with
  | .notice n _ :: rest => { p with queue := .notice n 0 :: rest }
  | _ => p

/-- The end of the reply of a READ REPORT that was reading the head entry (R198). -/
def PortState.endRead (p : PortState) : PortState :=
  let q := if p.headRenewed then p.headStays else p.headLeaves
  { q with reading := false, headRenewed := false }

/-- The tag of the completion report whose read ends, when one does: the arbiter then discards the record (R196). -/
def PortState.readCompletion (p : PortState) : Option Byte :=
  match p.reading, p.queue with
  | true, .completion c :: _ => some c.tag
  | _, _ => none

/-- The arbiter discards the DONE record of a motion whose report has been read (R121, R196). -/
def discardDone (p : Port) (tag : Byte) (s : State) : State :=
  s.setArbiter { s.arbiter with done := s.arbiter.done.filter (fun m => !(m.port == p && m.tag == tag)) }

/-! ### Attention line timer -/

/-- The holdoff timer expires (R200). -/
def PortState.holdoffEnds (p : PortState) : PortState :=
  if p.attention = .holdoff then
    { p with attention := if p.queue = [] then .quiet else .asserted, holdoffLeft := 0 }
  else p

/-! ### Transactions (R187 to R189) -/

/-- The turnaround byte has been clocked: TURNAROUND becomes REPLYING (R188). -/
def PortState.turnaroundEnds (p : PortState) : PortState :=
  { p with decoder := if p.decoder = .turnaround then .replying else p.decoder }

/-- The reply is formed and the frame decoder enters TURNAROUND (R188). -/
def State.answer (s : State) (p : Port) (tag : Byte) (st : Status) (data : List Byte) : State :=
  s.setPort p { s.port p with decoder := .turnaround, reply := some ⟨st, tag, data⟩ }

/-- A complete request frame whose checks 1 to 3 have passed reaches port p. With the decoder outside RECEIVING the
part takes no frame: the bytes are ignored (R186 to R188; entry 5). Check 4 of R189 refuses a kind the port does not
serve. Otherwise the owner takes the request whole, and the reply reports it. -/
def serve (code : Byte) (p : Port) (tag : Byte) (s : State) (owner : State → State × Status × List Byte) :
    Outcome :=
  if (s.port p).decoder ≠ .receiving then .next s
  else if servedOn code p = false then .next (s.answer p tag .wrongPort [])
  else .next ((owner s).1.answer p tag (owner s).2.1 (owner s).2.2)

end Sys2Proof.Machine
end

