-- ==== Sys2Proof/Machine/Zones.lean ====
section
/-! DEFINITION. The zone table and its decode (R23 to R26). -/

namespace Sys2Proof.Machine

/-- Whether an entry matches an address: it is enabled and every bit its mask sets is the same in the address and
the base (R25). -/
def ZoneEntry.hits (e : ZoneEntry) (a : Nat) : Bool :=
  e.enabled && ((BitVec.ofNat 22 a ^^^ e.base) &&& e.mask == 0)

/-- What a decode gives (R25). -/
structure Decoded where
  zone : ZoneId
  cap : Multiple
  access : Access
  deriving DecidableEq, Repr

/-- The first matching entry of a list whose first entry has the given index (R25). -/
def firstHit (a : Nat) : Nat → List ZoneEntry → Option Decoded
  | _, [] => none
  | i, e :: rest => if e.hits a then some ⟨.entry i, e.cap, e.access⟩ else firstHit a (i + 1) rest

/-- The decode of an address: the lowest-numbered entry that matches, or DEFAULT (R25). -/
def ZoneTable.decode (t : ZoneTable) (a : Nat) : Decoded :=
  match firstHit a 0 t.entries with
  | some d => d
  | none => ⟨.default, t.defaultCap, .opened⟩

end Sys2Proof.Machine
end

