-- ==== Sys2Proof/Machine/SpindleControl.lean ====
section
/-! DEFINITION. The spindle controller: targets, bands, braking, coasting, the effective speed multiple
(R66 to R82). -/

namespace Sys2Proof.Machine

/-- COARSE or LOCKED: the states in which the address stream may be trusted (R78). -/
def SpindleState.ready : SpindleState → Bool
  | .coarse | .locked => true
  | _ => false

/-- The state and lock test set by the band of the present target (R73, R74). -/
def Spindle.byBand (sp : Spindle) (now : Time) : Spindle :=
  let coarse := within10 sp.measured sp.target
  { sp with
    state := if coarse then .coarse else .spinup
    lockTest := if coarse && within2 sp.measured sp.target then some now else none }

/-- A nonzero target is computed. An equal target is no change; a changed one sets the state by its band, arms the
lock limit and disarms the stop limit, except in COAST, where it is only stored (R68, R73, R74, R76, R77). -/
def Spindle.setTarget (sp : Spindle) (now : Time) (target : Nat) (clamped : Bool) : Spindle :=
  if target = sp.target then { sp with clamped := clamped }
  else if sp.state = .coast then { sp with target := target, clamped := clamped }
  else { ({ sp with target := target, clamped := clamped }.byBand now) with
         lockLimit := some now, stopLimit := none }

/-- The target the present mode, basis and multiple give (R67). In STOP mode it is left to the brake command; a CLV
target needs a class and a basis. -/
def Spindle.retarget (sp : Spindle) (now : Time) (cls : Option DiscClass) : Spindle :=
  match sp.mode, cls, sp.basis with
  | .fixed, _, _ => sp.setTarget now 500 false
  | .clv, some k, some c => sp.setTarget now (clvTarget k sp.m c).1 (clvTarget k sp.m c).2
  | _, _, _ => sp

/-- The brake command (R76). -/
def Spindle.brake (sp : Spindle) (now : Time) : Spindle :=
  match sp.state with
  | .braking | .stopped => { sp with mode := .stop, basis := none, lockLimit := none, lockTest := none }
  | _ =>
    { sp with
      mode := .stop, basis := none, target := 0, clamped := false, lockLimit := none, lockTest := none
      state := if sp.measured < 30 then .stopped else .braking
      stopLimit := if sp.measured < 30 then none else some now }

/-- The coast command (R77). -/
def Spindle.coast (sp : Spindle) : Spindle :=
  match sp.state with
  | .spinup | .coarse | .locked => { sp with state := .coast, lockTest := none, lockLimit := none }
  | _ => sp

/-- The drive-again command (R77). -/
def Spindle.driveAgain (sp : Spindle) (now : Time) : Spindle :=
  if sp.state = .coast then { (sp.byBand now) with lockLimit := some now } else sp

/-- What a tachometer reading does to the spindle state (R73 to R76, R81). -/
def Spindle.read (sp : Spindle) (now : Time) (rpm : Nat) : Spindle :=
  let sp := { sp with measured := min rpm 9999 }
  match sp.state with
  | .spinup =>
      if within10 sp.measured sp.target then
        { sp with state := .coarse
                  lockTest := if within2 sp.measured sp.target then some now else none }
      else sp
  | .coarse =>
      if within10 sp.measured sp.target then
        { sp with lockTest := if within2 sp.measured sp.target then
                                (match sp.lockTest with | some t => some t | none => some now)
                              else none }
      else { sp with state := .spinup, lockTest := none }
  | .locked =>
      if within2 sp.measured sp.target then sp
      else if within10 sp.measured sp.target then { sp with state := .coarse, lockTest := none }
      else { sp with state := .spinup, lockTest := none, lockLimit := some now }
  | .braking => if sp.measured < 30 then { sp with state := .stopped, stopLimit := none } else sp
  | .stopped | .coast => sp

/-- A reading is a slip: outside ±10 % while LOCKED (R75). -/
def Spindle.slips (sp : Spindle) (rpm : Nat) : Bool :=
  sp.state == .locked && !within10 (min rpm 9999) sp.target

/-- A reading reports stopped: below 30 rpm in BRAKING (R76). -/
def Spindle.stops (sp : Spindle) (rpm : Nat) : Bool := sp.state == .braking && min rpm 9999 < 30

/-! ### The effective speed multiple (R70 to R72) and the SPEED notice (R80) -/

/-- The zone address: the plan target while MOVING, the fix address otherwise (R71). -/
def zoneAddress (s : State) : Option Nat :=
  if s.supervisor.drive = .moving then s.planner.target else s.monitor.fix.map Fix.address

/-- The zone term of m: 4 when there is no zone address (R71). -/
def zoneTerm (s : State) : Multiple :=
  match zoneAddress s with
  | some a => (s.zones.decode a).cap
  | none => .four

/-- The road term of m (R71). -/
def roadTerm (s : State) : Multiple := if s.recovery.rough then .one else .four

/-- m as the least of the speed, zone and road terms (R71). -/
def effectiveMultiple (s : State) : Multiple := (s.spindle.held.least (zoneTerm s)).least (roadTerm s)

/-- A SPEED notice when m or the target changed (R80). -/
def speedNotice (before : Spindle) (s : State) : State :=
  if before.m = s.spindle.m ∧ before.target = s.spindle.target then s
  else offer (.speed s.spindle.m s.spindle.target s.spindle.clamped s.spindle.measured) s

/-- The spindle controller computes m again; in CLV mode a changed m gives a new target (R72). -/
def recomputeM (s : State) : State :=
  let m := effectiveMultiple s
  if m = s.spindle.m then s
  else
    let sp : Spindle := { s.spindle with m := m }
    let sp' := if sp.mode = .clv then sp.retarget s.clock s.supervisor.cls else sp
    speedNotice s.spindle (s.setSpindle sp')

/-- A command that sets the drive mode and the basis, and so the target (R68). -/
def spindleCommand (mode : DriveMode) (basis : Option Nat) (s : State) : State :=
  let sp := ({ s.spindle with mode := mode, basis := basis } : Spindle).retarget s.clock s.supervisor.cls
  speedNotice s.spindle (s.setSpindle sp)

/-- The held speed changes, and m is computed again (R70, R72). -/
def setHeldSpeed (v : Multiple) (s : State) : State :=
  if v = s.spindle.held then s else recomputeM (s.setSpindle { s.spindle with held := v })

/-- The brake command, with its SPEED notice (R76, R80). -/
def brakeSpindle (s : State) : State :=
  speedNotice s.spindle (s.setSpindle (s.spindle.brake s.clock))

/-- The coast command (R77). -/
def coastSpindle (s : State) : State := s.setSpindle s.spindle.coast

/-- The drive-again command (R77). -/
def driveSpindleAgain (s : State) : State := s.setSpindle (s.spindle.driveAgain s.clock)

/-- The basis after a fix with this coordinate: it moves on track when it differs by 64 tracks or more (R69). -/
def basisAfterFix (s : State) (c : Nat) : Option Nat :=
  match s.spindle.basis with
  | some b =>
      if s.supervisor.drive = .onTrack ∧ (b + 64 ≤ c ∨ c + 64 ≤ b) then some c else some b
  | none => none

/-- A new fix reaches the spindle controller: it moves the basis, computes m again while not MOVING, computes the
target once and queues one SPEED notice (R69, R72). -/
def spindleOnFix (c : Nat) (s : State) : State :=
  let basis := basisAfterFix s c
  let m := if s.supervisor.drive = .moving then s.spindle.m else effectiveMultiple s
  if basis = s.spindle.basis ∧ m = s.spindle.m then s
  else
    let sp : Spindle := { s.spindle with basis := basis, m := m }
    let sp' := if sp.mode = .clv then sp.retarget s.clock s.supervisor.cls else sp
    speedNotice s.spindle (s.setSpindle sp')

end Sys2Proof.Machine
end

