-- ==== Sys2Proof/Machine/Drive.lean ====
section
/-! DEFINITION. The position fix and its timer (R104 to R114), the announced zone (R31, R32), the clear of the map
(R21), and the changes of drive state (R146, R147). -/

namespace Sys2Proof.Machine

/-! ### The fix -/

/-- The fix becomes stale (R111). -/
def staleFix (s : State) : State :=
  s.setMonitor { s.monitor with fix := s.monitor.fix.map (fun f => { f with fresh := false }) }

/-- The last good address: the address of the fix, fresh or stale (R104). -/
def lastGood (s : State) : Option Nat := s.monitor.fix.map Fix.address

/-- Whether the part holds a fresh fix. -/
def fixFresh (s : State) : Bool :=
  match s.monitor.fix with
  | some f => f.fresh
  | none => false

/-- The address-monitor timer is restarted (R113). -/
def restartMonitor (s : State) : State :=
  s.setMonitor { s.monitor with started := true, elapsed := 0, limit := s.recovery.amTime }

/-- The three conditions under which a started timer is RUNNING (R113). -/
def monitorRunning (s : State) : Bool :=
  s.monitor.started && s.optics.focus == .locked &&
    (s.optics.tracking == .closed || s.optics.tracking == .hold) && s.spindle.state.ready

/-- A GOOD address with coordinate c becomes the fix: a whole new record, the expected base and jump sum with it,
and the timer restarted (R110). -/
def storeFix (a c : Nat) (s : State) : State :=
  restartMonitor (s.setMonitor { s.monitor with
    fix := some ⟨a, c, s.clock, (s.zones.decode a).zone, true⟩
    expectedBase := some c
    jumpSum := 0 })

/-! ### Announced zone -/

/-- While the drive is ON_TRACK the fix's zone is compared with the announced zone, and a difference is announced
(R32, R33). -/
def compareZone (s : State) : State :=
  match s.monitor.fix with
  | none => s
  | some f =>
    if s.supervisor.drive = .onTrack ∧ s.zones.announced ≠ some f.zone then
      let d := s.zones.decode f.address
      offer (.zone f.zone s.zones.announced f.address d.cap d.access)
        (s.setZones { s.zones with announced := some f.zone })
    else s

/-! ### Clearing the map -/

/-- The map is cleared, and with it the fix, the resume point, the timer, the announced zone, the return address and
the hold copy; m is computed again (R21, R32, R72, R111, R113, R169). -/
def clearMap (s : State) : State :=
  let s1 := (s.setMap PosMap.empty).setMonitor { s.monitor with
    fix := none, resume := none, expectedBase := none, jumpSum := 0, started := false, elapsed := 0 }
  recomputeM ((s1.setZones { s.zones with announced := none }).setRecovery
    { s.recovery with returnAddr := none, holdCopy := none })

/-! ### Drive state -/

/-- A change of drive state: the DRIVE notice (R146), the zone comparison on entry to ON_TRACK (R32), and m computed
again on entering or leaving MOVING (R72). -/
def setDrive (d : DriveState) (s : State) : State :=
  if d = s.supervisor.drive then s
  else
    let s1 := offer (.drive d s.supervisor.drive s.supervisor.cls s.clock)
      (s.setSupervisor { s.supervisor with drive := d })
    let s2 := if d = .onTrack then compareZone s1 else s1
    if d = .moving ∨ s.supervisor.drive = .moving then recomputeM s2 else s2

/-- The drive states in which the reports of R147 are set aside. -/
def DriveState.setsAside : DriveState → Bool
  | .identifying | .sagHold | .releasing | .released | .faulted | .empty | .parking => true
  | .stopped | .onTrack | .moving | .recovering => false

/-- A neighbour's report of a drive state (R147). -/
def reportDrive (d : DriveState) (s : State) : State :=
  if s.supervisor.drive.setsAside then s else setDrive d s

/-- The planner has a new owner: while the drive is MOVING, where the zone address is its target, m is computed again
(R71, R72). -/
def ownerTaken (s : State) : State := if s.supervisor.drive = .moving then recomputeM s else s

end Sys2Proof.Machine
end

