-- ==== Sys2Proof/Machine/Optics.lean ====
section
/-! DEFINITION. The optical loops (R83 to R96) and the sled driver (R97 to R102): the commands their neighbours give,
and what each answers at once. -/

namespace Sys2Proof.Machine

/-! ### Changes of loop state -/

/-- The sled driver follows the tracking state into and out of CREEP (R102). -/
def Sled.follows (t : TrackingState) (sl : Sled) : Sled :=
  match sl.state with
  | .idle => if t = .closed ∧ sl.position ≠ none then { sl with state := .creep } else sl
  | .creep => if t = .closed then sl else { sl with state := .idle }
  | .leg | .homing => sl

/-- The tracking state becomes OFF: the hold address and open pending go, the fix becomes stale (R90, R111). -/
def trackingOff (s : State) : State :=
  staleFix ((s.setOptics { s.optics with tracking := .off, holdAddress := none, openPending := false }).setSled
    (s.sled.follows .off))

/-- The tracking state becomes CLOSED; from OFF that restarts the address-monitor timer (R113). -/
def trackingOn (s : State) : State :=
  let s1 := (s.setOptics { s.optics with tracking := .closed }).setSled (s.sled.follows .closed)
  if s.optics.tracking = .off then restartMonitor s1 else s1

/-- The tracking state becomes HOLD (R94). -/
def trackingHold (s : State) : State :=
  (s.setOptics { s.optics with tracking := .hold }).setSled (s.sled.follows .hold)

/-- The focus state leaves LOCKED, or changes outside it; leaving LOCKED makes the fix stale (R111). -/
def setFocus (f : FocusState) (s : State) : State :=
  let s1 := s.setOptics { s.optics with focus := f }
  if s.optics.focus = .locked ∧ f ≠ .locked then staleFix s1 else s1

/-! ### Legs that a loss or an off command ends (R47, R58) -/

/-- The planner's leg is over: the stage IDLE, the kind NONE. -/
def Planner.legOver (p : Planner) : Planner := { p with legStage := .idle, legKind := .none, legDone := false }

/-- Focus is turned off under a leg: a fine leg in flight ends short (R58, R128). A sled leg goes on: to the report of
the sled driver, through its settle and its wait (R58, R59; entry 13). -/
def lapseLeg (s : State) : State :=
  if s.planner.legStage ≠ .idle ∧ s.planner.legKind ≠ .sled then s.setPlanner s.planner.legOver else s

/-- Loops open because focus is lost or turned off: a jump in flight ends short, a close in progress and a stored
jump are given up, tracking is OFF (R88 to R90, R93). -/
def loopsOpen (f : FocusState) (s : State) : State :=
  trackingOff (setFocus f (s.setOptics { s.optics with
    closers := [], storedJump := none, attemptTimer := none, attempt := 0 }))

/-- The focus-off command (R89). -/
def focusOff (s : State) : State :=
  lapseLeg (loopsOpen .off (s.setOptics { s.optics with requester := none, storedSearch := none }))

/-! ### Focus search (R86) -/

/-- What a command that may be answered at once answers. -/
inductive Answer where
  | begun
  | done
  | failed
  deriving DecidableEq, Repr

/-- The first attempt of a search begins (R86). -/
def beginSearch (r : Requester) (count : Nat) (s : State) : State :=
  setFocus .search (s.setOptics { s.optics with
    requester := some r, allowed := count, attempt := 1, attemptTimer := some s.clock, storedSearch := none })

/-- The focus-search command (R86). -/
def focusSearch (r : Requester) (count : Nat) (s : State) : State × Answer :=
  if s.optics.focus = .locked then (s, .done)
  else if s.optics.switch ≠ none then
    (s.setOptics { s.optics with storedSearch := some (r, count) }, .begun)
  else if s.optics.profile = none then (s, .failed)
  else (beginSearch r count s, .begun)

/-! ### Tracking (R90) -/

/-- The tracking-close command (R90; entry 11). -/
def closeTracking (r : Requester) (s : State) : State × Answer :=
  if s.optics.tracking ≠ .off then (s, .done)
  else if s.optics.focus = .locked then
    (s.setOptics { s.optics with closers := s.optics.closers.erase r ++ [r] }, .begun)
  else (s, .failed)

/-- The tracking-open command (R90). In OFF it changes nothing, so that a close in progress goes on. -/
def openTracking (s : State) : State :=
  match s.optics.tracking with
  | .off => s
  | .jump => s.setOptics { s.optics with openPending := true }
  | .closed | .hold => trackingOff s

/-! ### Jumps and holds (R92, R94) -/

/-- A jump of k tracks, k not 0, begins (R92). A fine leg begun from HOLD ends HOLD, and its hold address goes as the
jump begins (entry 33). -/
def beginJump (k : Int) (origin : JumpOrigin) (s : State) : State :=
  (s.setOptics { s.optics with
    tracking := .jump, jumpCount := k, crossings := 0, jumpOrigin := origin
    holdAddress := if origin = .leg then none else s.optics.holdAddress }).setSled (s.sled.follows .jump)

/-- The hold command: stored in CLOSED, HOLD and JUMP, discarded in OFF; a hold that is stored becomes the hold
copy (R94, R173). -/
def hold (a : Nat) (s : State) : State :=
  match s.optics.tracking with
  | .off => s
  | .closed =>
      trackingHold ((s.setOptics { s.optics with holdAddress := some a }).setRecovery
        { s.recovery with holdCopy := some a })
  | .hold | .jump =>
      (s.setOptics { s.optics with holdAddress := some a }).setRecovery { s.recovery with holdCopy := some a }

/-- HOLD becomes CLOSED, the hold address absent; any other state stays (R94). -/
def endHold (s : State) : State :=
  if s.optics.tracking = .hold then trackingOn (s.setOptics { s.optics with holdAddress := none }) else s

/-- The release-hold command: HOLD becomes CLOSED, any other state discards it; the hold copy becomes absent (R94,
R173). -/
def releaseHold (s : State) : State := endHold (s.setRecovery { s.recovery with holdCopy := none })

/-- A jump has crossed all its tracks: the address monitor is told, and the tracking state becomes HOLD, CLOSED, or
OFF when an open is pending (R92, R94, R112). -/
def completeJump (s : State) : State :=
  let s := s.setMonitor { s.monitor with jumpSum := s.monitor.jumpSum + s.optics.jumpCount }
  if s.optics.openPending then trackingOff s
  else if s.optics.jumpOrigin = .hold ∨ s.optics.holdAddress ≠ none then trackingHold s
  else trackingOn s

/-! ### Profiles and lasers (R84, R85) -/

/-- The profile-select command; done when the profile is active already (R84). -/
def profileSelect (k : DiscClass) (s : State) : State × Answer :=
  if s.optics.profile = some k ∧ s.optics.switch = none then (s, .done)
  else
    let s1 := focusOff s
    (s1.setOptics { s1.optics with profile := none, switch := some (k, s.clock) }, .begun)

/-- The lasers-off command (R85). -/
def lasersOff (s : State) : State :=
  let s1 := focusOff s
  s1.setOptics { s1.optics with profile := none, switch := none }

/-! ### Sled driver (R98 to R102) -/

/-- Whether the next step of a leg in the direction of n would leave the rail (R100). -/
def beyondRail (n : Int) (position : Nat) : Bool := if 0 ≤ n then 1800 ≤ position else position == 0

/-- Where the sled rests after a leg: CREEP with tracking CLOSED, IDLE otherwise (R100, R102). -/
def restState (t : TrackingState) : SledState := if t = .closed then .creep else .idle

/-- A leg command is taken: the leg steps are stored, steps taken go to 0, stop pending goes to no (R100). -/
def Sled.takesLeg (n : Int) (sl : Sled) : Sled := { sl with legSteps := n, taken := 0, stopPending := false }

/-- A leg is over: the sled rests, and nobody waits for a report of it (R100, R102). -/
def Sled.legOver (t : TrackingState) (sl : Sled) : Sled :=
  { sl with state := restState t, stopPending := false, requester := none }

/-- The leg command (R100). One taken is done at once with a leg of 0 steps, which is full, fails at once where the first step
would leave the rail, and is begun otherwise; one that finds the position unknown, or a leg or a homing, fails and changes
nothing. -/
def sledLeg (r : Requester) (n : Int) (s : State) : State × Answer :=
  match s.sled.state, s.sled.position with
  | .idle, some x | .creep, some x =>
      let sl := s.sled.takesLeg n
      if n = 0 then (s.setSled (sl.legOver s.optics.tracking), .done)
      else if beyondRail n x then (s.setSled (sl.legOver s.optics.tracking), .failed)
      else (s.setSled { sl with state := .leg, requester := some r }, .begun)
  | _, _ => (s, .failed)

/-- The stop command (R99, R101). -/
def Sled.stop (sl : Sled) : Sled :=
  match sl.state with
  | .idle => sl
  | .creep => { sl with state := .idle }
  | .leg => { sl with stopPending := true }
  | .homing =>
      if sl.paused then { sl with state := .idle, position := none, paused := false, requester := none }
      else { sl with stopPending := true }

def sledStop (s : State) : State := s.setSled s.sled.stop

/-- A homing is over, at home when the switch is closed (R98). -/
def Sled.homed (sl : Sled) : Sled :=
  { sl with state := .idle, position := some 0, stopPending := false, paused := false, requester := none }

/-- The homing command: any leg ends without its report, a sled leg that waits for its landing too (R98; entry 13);
done when the switch is closed already. -/
def homingCommand (s : State) : State × Answer :=
  let s := if s.planner.legKind = .sled then s.setPlanner s.planner.legOver else s
  if s.sled.homeClosed then (s.setSled { s.sled.homed with taken := 0 }, .done)
  else
    (s.setSled { s.sled with
      state := .homing, position := none, taken := 0, stopPending := false, paused := false
      requester := some .supervisor }, .begun)

/-- The pause and resume commands (R99). -/
def pauseHoming (s : State) : State :=
  if s.sled.state = .homing then s.setSled { s.sled with paused := true } else s

def resumeHoming (s : State) : State :=
  if s.sled.state = .homing then s.setSled { s.sled with paused := false } else s

end Sys2Proof.Machine
end

