-- ==== Sys2Proof/Machine/Motions.lean ====
section
/-! DEFINITION. Motion records: tickets, phases, counts, ends and completion reports (R118 to R123, R128, R130,
R144). -/

namespace Sys2Proof.Machine

/-! ### Records -/

/-- The arbitration class of a kind (R118). -/
def MotionKind.rank : MotionKind → Nat
  | .release => 0
  | .rejoin => 1
  | .seek | .follow | .stop => 2

/-- The record of a motion at its acceptance (R125 step 1). -/
def Motion.accepted (p : Port) (tag : Byte) (kind : MotionKind) (target endAddr : Option Nat)
    (speed : Option Multiple) (seq : Time) : Motion where
  port := p
  tag := tag
  kind := kind
  target := target
  endAddr := endAddr
  speed := speed
  status := .pending
  phase := none
  cancelPending := false
  lastOpen := none
  rejoinEnded := false
  legs := 0
  bad := 0
  seq := seq
  result := none

/-- A motion becomes ACTIVE in a phase (R121). -/
def Motion.activeIn (m : Motion) (ph : Phase) : Motion := { m with status := .active, phase := some ph }

/-- A motion becomes ATTACHED (R121). -/
def Motion.attachedOn (m : Motion) : Motion := { m with status := .attached, phase := none }

/-- Whether a motion is this port's motion of this tag. -/
def Motion.named (p : Port) (tag : Byte) (m : Motion) : Bool := m.port == p && m.tag == tag

/-- A place in the pending list: class order, and within a class the older first (R130). -/
def insertWaiting (m : Motion) : List Motion → List Motion
  | [] => [m]
  | w :: rest => if m.kind.rank < w.kind.rank then m :: w :: rest else w :: insertWaiting m rest

/-! ### Slots -/

def setActive (m : Option Motion) (s : State) : State := s.setArbiter { s.arbiter with active := m }
def setAttached (m : Option Motion) (s : State) : State := s.setArbiter { s.arbiter with attached := m }
def setWaiting (ms : List Motion) (s : State) : State := s.setArbiter { s.arbiter with waiting := ms }

/-- The phase of the active motion, when there is one (R122). -/
def activePhase (s : State) : Option Phase := s.arbiter.active.bind Motion.phase

/-- A block sets the phase of the active motion (R122). -/
def setPhase (ph : Phase) (s : State) : State :=
  setActive (s.arbiter.active.map (fun m => { m with phase := some ph })) s

/-- Whether the attached REJOIN of the active FOLLOW has ended in a recovery or a sag (R138; entry 18). -/
def markRejoin (ended : Bool) (s : State) : State :=
  setActive (s.arbiter.active.map (fun m => { m with rejoinEnded := ended })) s

/-- The phases of a leg in flight. -/
def Phase.ofLeg : Phase → Bool
  | .leg | .settle | .verify => true
  | _ => false

/-- The planner moves a leg in flight on, which shows in the phase of the motion it moves for (R47, R50, R51). -/
def setLegPhase (ph : Phase) (s : State) : State :=
  if (activePhase s).any Phase.ofLeg then setPhase ph s else s

/-- The owning motion counts a leg: the attached REJOIN while it is the owner, else the active motion (R37, R46). -/
def countLeg (s : State) : State :=
  let more (m : Motion) : Motion := { m with legs := bump 255 m.legs }
  match s.planner.owner with
  | .active => setActive (s.arbiter.active.map more) s
  | .attached => setAttached (s.arbiter.attached.map more) s
  | .none | .internal => s

/-- A BAD report counts on the governing motion: the attached REJOIN while one is attached, else the active motion
(R107). -/
def countBad (s : State) : State :=
  let more (m : Motion) : Motion := { m with bad := bump 65535 m.bad }
  match s.arbiter.attached with
  | some r => setAttached (some (more r)) s
  | none => setActive (s.arbiter.active.map more) s

/-! ### Ends -/

/-- The completion report of a motion (R144). -/
def Motion.report (m : Motion) (r : Result) (final : Option Nat) : Completion :=
  ⟨m.tag, m.kind, r, final, m.legs, m.bad⟩

/-- A motion becomes DONE: its record is kept and its report is queued at once on the port that submitted it (R121,
R144, R196). The caller has taken it from its slot. -/
def endMotion (m : Motion) (r : Result) (final : Option Nat) (s : State) : State :=
  queueCompletion m.port (m.report r final) (s.setArbiter { s.arbiter with
    done := s.arbiter.done ++ [{ m with status := .done, phase := none, result := some r }] })

/-- Motions end one after the other with one final address. -/
def endMotions (ms : List (Motion × Result)) (final : Option Nat) (s : State) : State :=
  ms.foldl (fun s e => endMotion e.1 e.2 final s) s

/-- The motions that are ACTIVE, ATTACHED or PENDING. -/
def liveMotions (s : State) : List Motion :=
  s.arbiter.active.toList ++ s.arbiter.attached.toList ++ s.arbiter.waiting

/-- The planner has no owner any more: no ACQUIRE step is in progress and no return is (R37, R40). -/
def disown (s : State) : State :=
  s.setPlanner { s.planner with owner := .none, acquireStep := .none, returning := false }

/-- The planner stops a sled leg RUNNING at its next step boundary (R59). -/
def stopSledLeg (s : State) : State :=
  if s.planner.legStage = .running ∧ s.planner.legKind = .sled then sledStop s else s

/-- The planner loses its owner, and a sled leg RUNNING is stopped (R37, R59). -/
def withdraw (s : State) : State := stopSledLeg (disown s)

/-- A class 0 event ends every motion that is not DONE; the final address is the last good address (R128). -/
def endAll (r : Result) (s : State) : State :=
  endMotions ((liveMotions s).map (fun m => (m, r))) (lastGood s)
    (disown (s.setArbiter { s.arbiter with active := none, attached := none, waiting := [] }))

/-! ### Recovery records -/

/-- The recovery is over: the phase NONE, the window idle, nothing reported or kept (R181, R183). -/
def endRecovery (s : State) : State :=
  s.setRecovery { s.recovery with phase := .none, window := none, fixReported := false, keptPhase := none }

/-- The drive comes to hold at an address: the hold command, and the report that the drive holds (R133, R147). -/
def holdAt (a : Nat) (s : State) : State := reportDrive .onTrack (hold a s)

/-- The drive holds where it stands: at the last good address. -/
def holdHere (s : State) : State :=
  match lastGood s with
  | some a => holdAt a s
  | none => reportDrive .onTrack s

end Sys2Proof.Machine
end

