-- ==== Sys2Proof/Machine/Planner.lean ====
section
/-! DEFINITION. The seek planner: plans, legs, landings, learning, the trim, and what the motion arbiter does with a
target REACHED or UNREACHED (R36 to R64, R133 to R138). -/

namespace Sys2Proof.Machine

/-! ### Arithmetic of a plan -/

/-- Steps of a sled leg for a distance (R48). -/
def sledSteps (k : DiscClass) (trim : Nat) (d : Int) : Nat :=
  rounded (d.natAbs * k.pitch * 4096) (20000 * trim)

/-- A sled leg shortened so that the position stays from 0 to 1,800 (R49). -/
def shortened (position : Nat) (d : Int) (steps : Nat) : Nat :=
  if 0 ≤ d then min steps (1800 - position) else min steps position

/-- The sign of a distance put on a count. -/
def signed (d : Int) (n : Nat) : Int := if 0 ≤ d then (n : Int) else -(n : Int)

/-- The landing test (R42). -/
inductive Landing where
  | reached
  | approach
  | leg (d : Int)
  deriving DecidableEq, Repr

def landingTest (t a : Nat) (d : Int) : Landing :=
  if t ≤ a ∧ a ≤ t + 16 then .reached
  else if a < t ∧ (d = 0 ∨ d = 1) then .approach
  else if t + 16 < a ∧ d = 0 then .leg (-1)
  else .leg d

/-- The trim after a full sled leg of `steps` steps whose landing lies `o` tracks from its start (R56, R57). -/
def newTrim (k : DiscClass) (trim : Nat) (steps o : Int) : Nat :=
  if 256 ≤ o.natAbs ∧ ((0 < o ∧ 0 < steps) ∨ (o < 0 ∧ steps < 0)) then
    clampTo 3686 4506 (rounded (3 * trim + rounded (o.natAbs * 4096 * k.pitch) (steps.natAbs * 20000)) 4)
  else trim

/-! ### Legs -/

/-- The checks of R45 that fail for a leg of distance d, in their order (R45, R49). -/
def legCheck (s : State) (d : Int) (steps : Nat) : Option Cause :=
  if 6 ≤ s.planner.sessionLegs then some .legBudget
  else if d.natAbs ≤ 64 then none
  else if 3 ≤ s.planner.sessionSled then some .sledBudget
  else
    match s.sled.position with
    | none => some .sledLimit
    | some x => if shortened x d steps = 0 then some .sledLimit else none

/-- What the start of any leg does: the stage RUNNING, the counts, the phase LEG of the motion it is for, the fix
stale (R46, R50). -/
def legBegins (kind : LegKind) (count : Int) (s : State) : State :=
  let s1 := countLeg (s.setPlanner { s.planner with
    legKind := kind, legCount := count, legStage := .running, legDisturbed := false, legDone := false
    sessionLegs := s.planner.sessionLegs + 1
    sessionSled := if kind = .sled then s.planner.sessionSled + 1 else s.planner.sessionSled })
  staleFix (if s.planner.owner = .active ∨ s.planner.owner = .attached then setPhase .leg s1 else s1)

/-- The end of a fine leg's jump: complete, it goes on to its settle; where tracking has opened the settle lapses
(R47, R51, R59). -/
def fineLegEnds (s : State) : State :=
  if s.planner.legStage = .running ∧ s.planner.legKind = .fine then
    if s.optics.tracking = .off then s.setPlanner s.planner.legOver
    else setLegPhase .settle (s.setPlanner { s.planner with
      legStage := .settling, legDone := true, settleSince := s.clock })
  else s

/-- A fine leg of k tracks (R46), with its jump command (R92): a jump of 0 completes at once and leaves the loop as it
stands, one asked for behind a back-jump is stored, and one asked for with tracking OFF is a short leg at once. -/
def beginFine (k : Int) (s : State) : State :=
  let s1 := legBegins .fine k s
  if k = 0 then fineLegEnds s1 else
  match s1.optics.tracking with
  | .closed | .hold => beginJump k .leg s1
  | .jump => s1.setOptics { s1.optics with storedJump := some k }
  | .off => lapseLeg s1

/-- A sled leg ends: the tracking-close command, which fails with focus not LOCKED (R90), and the settle (R50, R51). -/
def sledLegEnds (full : Bool) (s : State) : State :=
  if s.planner.legStage = .running ∧ s.planner.legKind = .sled then
    let s1 := (closeTracking .planner s).1
    setLegPhase .settle (s1.setPlanner { s1.planner with
      legStage := .settling, legDone := full, settleSince := s1.clock })
  else s

/-- A sled leg of n steps: tracking opens and the sled is commanded (R50, R90, R100). -/
def beginSled (n : Int) (s : State) : State :=
  let r := sledLeg .planner n (openTracking (legBegins .sled n s))
  match r.2 with
  | .begun => r.1
  | .done => sledLegEnds true r.1
  | .failed => sledLegEnds false r.1

/-! ### A plan (R41) -/

/-- What a plan comes to. -/
inductive Plan where
  | none
  | reached (fix : Nat)
  | approach
  | leg
  | unreached (cause : Cause)
  deriving DecidableEq, Repr

/-- A plan that calls for a leg of distance d (R45 to R50). -/
def planLeg (k : DiscClass) (d : Int) (s : State) : State × Plan :=
  let steps := sledSteps k s.planner.trim d
  match legCheck s d steps with
  | some c => (s, .unreached c)
  | none =>
    if d.natAbs ≤ 64 then (beginFine d s, .leg)
    else (beginSled (signed d (shortened (s.sled.position.getD 0) d steps)) s, .leg)

/-- A plan from the fix toward the target: the coordinates and the distance are stored, the spindle is given the
target coordinate, and the landing test decides (R41, R42). Without a target, a fix or a class there is nothing to
plan; nor is there for a target above the highest address of a map confirmed since the motion was accepted (entry 29). -/
def makePlan (s : State) : State × Plan :=
  match s.planner.target, lastGood s, s.supervisor.cls with
  | some t, some a, some k =>
    match s.map.predict t, s.map.predict a with
    | some pt, some pa =>
      let d := trackDistance pt pa
      let s1 := spindleCommand .clv (some pt) (s.setPlanner { s.planner with
        targetCoord := some pt, startCoord := some pa, distance := some d })
      match landingTest t a d with
      | .reached => (s1, .reached a)
      | .approach => (s1, .approach)
      | .leg d => planLeg k d s1
    | _, _ => (s, .none)
  | _, _, _ => (s, .none)

/-! ### What becomes of the owner (R133 to R138, R182) -/

/-- R135: the FOLLOW that plays forward tests a good address, first its zone and then its end address. -/
def followTest (a : Nat) (s : State) : State :=
  match s.arbiter.active with
  | some m =>
    if m.kind = .follow ∧ m.phase = some .following then
      if (s.zones.decode a).access = .avoid then
        holdAt (m.lastOpen.getD a) (endMotion m .zoneLimit (some a) (setActive none s))
      else
        let m' : Motion := { m with lastOpen := some a }
        if m.endAddr.getD 0 ≤ a then holdAt (m.endAddr.getD 0) (endMotion m' .ended (some a) (setActive none s))
        else setActive (some m') s
    else s
  | none => s

/-- The active FOLLOW enters or re-enters FOLLOWING at the fix: phase, owner, drive state, release-hold, notice and
first test (R134, R138). The notice has entry REJOIN after an attached REJOIN has ended, in a recovery or a sag too. -/
def enterFollowing (entry : FollowEntry) (s : State) : State :=
  match s.arbiter.active, lastGood s with
  | some m, some a =>
    followTest a (offer (.following m.tag a (m.endAddr.getD 0) (if m.rejoinEnded then .rejoin else entry))
      (releaseHold (reportDrive .onTrack (disown (markRejoin false (setPhase .following s))))))
  | _, _ => s

/-- The attached REJOIN ends with a result, and the FOLLOW goes on following from the fix (R138). -/
def endAttached (r : Result) (s : State) : State :=
  match s.arbiter.attached with
  | some m => enterFollowing .rejoin (endMotion m r (lastGood s) (setAttached none s))
  | none => s

/-- The internal return is over: the drive holds at an address and the recovery ends (R182). -/
def endInternal (a : Nat) (s : State) : State := reportDrive .onTrack (endRecovery (disown (hold a s)))

/-- The planner reports REACHED with the fix address (R43, R133, R134, R138, R182). -/
def targetReached (a : Nat) (s : State) : State :=
  match s.planner.owner with
  | .none => s
  | .internal => endInternal (s.planner.target.getD a) s
  | .attached => endAttached .reached s
  | .active =>
    match s.arbiter.active with
    | some m =>
      if m.kind = .follow then enterFollowing (if s.planner.returning then .return else .start) s
      else holdAt (m.target.getD a) (endMotion m .reached (some a) (disown (setActive none s)))
    | none => s

/-- The unreached record of a motion (R64). -/
def unreachedBy (m : Motion) (c : Cause) (s : State) : State :=
  s.setPlanner { s.planner with unreached := some ⟨m.port, m.tag, m.target, lastGood s, m.legs, c⟩ }

/-- The planner reports UNREACHED with a cause (R63, R133, R138, R182). -/
def targetUnreached (c : Cause) (s : State) : State :=
  match s.planner.owner with
  | .none => s
  | .internal => endInternal ((lastGood s).getD 0) s
  | .attached =>
    match s.arbiter.attached with
    | some m => endAttached .unreached (unreachedBy m c s)
    | none => s
  | .active =>
    match s.arbiter.active with
    | some m => holdHere (endMotion m .unreached (lastGood s) (disown (setActive none (unreachedBy m c s))))
    | none => s

/-- The planner makes a plan for its owner and acts on it (R41 to R45). In APPROACH tracking stays closed and the address
rises, so that a hold ends (R44; entry 31). -/
def plan (s : State) : State :=
  if s.planner.owner = .none then s
  else
    let r := makePlan (s.setPlanner s.planner.legOver)
    match r.2 with
    | .none | .leg => r.1
    | .approach => endHold (if r.1.planner.owner = .internal then r.1 else setPhase .approach r.1)
    | .reached a => targetReached a r.1
    | .unreached c => targetUnreached c r.1

/-! ### Landings (R53) -/

/-- Step 1: a complete fine leg teaches the map where its landing disagrees by 2 tracks or more (R54, R55). -/
def learn (a : Nat) (s : State) : State :=
  match s.planner.startCoord, s.map.predict a with
  | some c0, some pa =>
    let c := (c0 : Int) + s.planner.legCount
    if 2 ≤ (c - pa).natAbs then
      match s.map.insert a c.toNat .learned with
      | some i => s.setMap i.map
      | none => s
    else s
  | _, _ => s

/-- Step 2: a full sled leg updates the trim (R56, R57). -/
def updateTrim (a : Nat) (s : State) : State :=
  match s.planner.startCoord, s.map.predict a, s.supervisor.cls with
  | some c0, some pa, some k =>
    s.setPlanner { s.planner with
      trim := newTrim k s.planner.trim s.planner.legCount (trackDistance pa c0) }
  | _, _, _ => s

/-- Steps 1 and 2 of a landing (R53 to R57). -/
def landingTeaches (a : Nat) (s : State) : State :=
  if s.planner.legDone then
    match s.planner.legKind with
    | .fine => learn a s
    | .sled => updateTrim a s
    | .none => s
  else s

/-- A landing with no owner is where the drive holds. A motion whose CANCEL waited for it ends there; for an attached
REJOIN the FOLLOW goes on from there (R58, R140). -/
def landUnowned (a : Nat) (s : State) : State :=
  let s := s.setPlanner s.planner.legOver
  match s.arbiter.attached, s.arbiter.active with
  | some r, _ => if r.cancelPending then endAttached .cancelled s else s
  | none, some m =>
    if m.cancelPending then holdAt a (endMotion m .cancelled (some a) (setActive none s)) else s
  | none, none => holdAt a s

/-- The landing of a leg: the fix at address a has just been taken (R53, R58). A disturbed leg's landing goes to the
recovery controller alone. -/
def land (a : Nat) (s : State) : State :=
  if s.planner.legDisturbed then s.setPlanner s.planner.legOver
  else
    let s := landingTeaches a s
    if s.planner.owner = .none then landUnowned a s else plan s

/-- The landing of a sled leg left over, whose address is the first good one taken as a fix: steps 1 and 2 of R53 are made for
it, unless it is disturbed, and the leg is over (R52, R53, R56, R58; entry 13). -/
def landLeft (a : Nat) (s : State) : State :=
  if s.planner.legStage = .landing then
    let s := if s.planner.legDisturbed then s else landingTeaches a s
    s.setPlanner s.planner.legOver
  else s

/-- The address that ends ACQUIRE, and the first plan (R39). A leg left over lands with it (R53, R58). -/
def acquireEnds (a : Nat) (s : State) : State :=
  let s := landLeft a s
  plan (s.setPlanner { s.planner with acquireStep := .none })

/-- The settle runs out: the stage LANDING, the phase VERIFY, the address-monitor timer restarted (R51). -/
def settleEnds (s : State) : State :=
  restartMonitor (setLegPhase .verify (s.setPlanner { s.planner with legStage := .landing }))

/-- How long a settle lasts, in ms (R51). -/
def settleTime (k : LegKind) : Nat := if k = .sled then 20 else 2

/-! ### Legs in flight when the owner changes (R58, R59) -/

/-- Whether a leg is in flight that will land: not disturbed. -/
def legInFlight (s : State) : Bool := s.planner.legStage != .idle && !s.planner.legDisturbed

/-- The phase of a leg in flight. -/
def LegStage.phase : LegStage → Phase
  | .idle | .running => .leg
  | .settling => .settle
  | .landing => .verify

/-! ### ACQUIRE (R39) -/

/-- The close of step 3, at the lock (R39). -/
def acquireClose (s : State) : State :=
  let r := closeTracking .planner s
  match r.2 with
  | .done => r.1.setPlanner { r.1.planner with acquireStep := .wait }
  | .begun => r.1.setPlanner { r.1.planner with acquireStep := .close }
  | .failed => r.1

/-- ACQUIRE begins: the spindle is given the coordinate of the stale fix, or 0 (R39 step 1). The search of step 2
follows as soon as the spindle is COARSE or LOCKED. -/
def startAcquire (s : State) : State :=
  let s1 := spindleCommand .clv (some ((s.monitor.fix.map Fix.coord).getD 0)) s
  setPhase .acquire (s1.setPlanner { s1.planner with acquireStep := .spin })

end Sys2Proof.Machine
end

