-- ==== Sys2Proof/Machine/Supervisor.lean ====
section
/-! DEFINITION. The drive supervisor: brakes, STOP and RELEASE mechanics, fault parks, sag parks, EMPTY and RELEASED
(R145 to R167). -/

namespace Sys2Proof.Machine

/-- The brake command with what follows from it everywhere: the fix becomes stale (R76, R111). -/
def brake (s : State) : State := staleFix (brakeSpindle s)

/-- Whether the spindle stands (R73). -/
def spindleStopped (s : State) : Bool := s.spindle.state == .stopped

/-- No sag hold is left: the timer disarmed, nothing suspended (R158 to R160). -/
def endSagHold (s : State) : State :=
  s.setSupervisor { s.supervisor with sagTimer := none, focusLostInSag := false, suspendedPhase := none }

/-- An identification is over: its record and its candidate go (R155, R156). -/
def endIdent (s : State) : State := s.setSupervisor { s.supervisor with ident := none }

/-- A profile switch is ended without a report, and no laser is lit (R85, R156; entry 35). -/
def endSwitch (s : State) : State := s.setOptics { s.optics with switch := none }

/-- An identification is abandoned: its record and its candidate go, and the switch it had commanded is ended; its leg,
homing and search end by the sled-stop and focus-off commands that the abandoning event gives beside this (R156). -/
def abandonIdent (s : State) : State := endSwitch (endIdent s)

/-- The commands of a park: brake, focus off, sled stop; no sag hold and no recovery is left (R160, R162, R165). -/
def park (s : State) : State := endRecovery (endSagHold (sledStop (focusOff (brake s))))

/-! ### Faults (R165, R166) -/

/-- The fault record (R165). -/
def recordFault (k : FaultKind) (s : State) : State :=
  s.setSupervisor { s.supervisor with fault := some ⟨k, lastGood s, s.clock⟩ }

/-- A fault is raised: in FAULTED a notice alone; in any other drive state the record, the park, the ends of the
motions, FAULTED and the notice (R128, R165, R166). -/
def raiseFault (k : FaultKind) (s : State) : State :=
  let notice (first : Bool) : Notice := .fault k (lastGood s) s.clock first
  if s.supervisor.drive = .faulted then offer (notice false) s
  else offer (notice true) (setDrive .faulted (endAll .faulted (abandonIdent (park (recordFault k s)))))

/-! ### Entry to EMPTY and RELEASED (R150) -/

/-- The start coordinate of a leg in flight goes with the map that gave it, so that its landing teaches the next disc
nothing (R22; entry 13). -/
def forgetStart (s : State) : State := s.setPlanner { s.planner with startCoord := none }

/-- What every entry to EMPTY or RELEASED does before the drive state changes (R37, R150). -/
def discGone (s : State) : State :=
  let s1 := forgetStart (disown s)
  lasersOff (clearMap (s1.setSupervisor { s1.supervisor with cls := none }))

/-- Entry to EMPTY: the release latch is cleared as well (R124, R150). -/
def enterEmpty (s : State) : State :=
  let s1 := discGone s
  setDrive .empty (s1.setArbiter { s1.arbiter with releaseLatch := false })

/-- Entry to RELEASED: the active RELEASE completes DONE with the last good address as it stood before (R143, R150,
R163). -/
def enterReleased (s : State) : State :=
  let s1 := setDrive .released (discGone s)
  match s1.arbiter.active with
  | some m => endMotion m .done (lastGood s) (setActive none s1)
  | none => s1

/-! ### RELEASE mechanics (R163, R164) -/

/-- The spindle has stopped under a RELEASE: the homing, paused at once while the supply sags (R163, R164). -/
def releaseHoming (s : State) : State :=
  let r := homingCommand (setPhase .homing s)
  if r.2 = .done then enterReleased r.1
  else if r.1.supervisor.supply = .sag then pauseHoming r.1
  else r.1

/-- The supply sags in RELEASING: a RELEASE in HOMING pauses its homing. In BRAKING the braking goes on, and so does the step that
ends an older homing; the homing command, when given, is followed by the pause (R164). -/
def releaseSags (s : State) : State := if activePhase s = some .homing then pauseHoming s else s

/-- The RELEASE mechanics begin (R163). -/
def releaseMechanics (s : State) : State :=
  let s1 := setDrive .releasing (sledStop (lasersOff (brake (endRecovery (endSagHold (abandonIdent (disown s)))))))
  let s2 := setPhase .braking s1
  if spindleStopped s2 then releaseHoming s2 else s2

/-! ### STOP mechanics (R162) -/

/-- The drive enters STOPPED, and an active STOP completes DONE (R143, R162). -/
def enterStopped (s : State) : State :=
  let s1 := setDrive .stopped s
  match s1.arbiter.active with
  | some m => if m.kind = .stop then endMotion m .done (lastGood s1) (setActive none s1) else s1
  | none => s1

/-- After the brake of a park: STOPPED at once when the spindle stands, PARKING until it does (R160, R162; entry 36). -/
def parkOrStop (s : State) : State := if spindleStopped s then enterStopped s else setDrive .parking s

/-- The STOP mechanics begin (R162). -/
def stopMechanics (s : State) : State := parkOrStop (park (setPhase .braking (disown s)))

/-! ### Sag park (R160) and emergency unclamp (R149) -/

/-- The sag park (R160). -/
def sagPark (s : State) : State := parkOrStop (endAll (.preempted .supply) (park s))

/-- An unclamp outside RELEASED (R149). -/
def emergency (s : State) : State :=
  enterEmpty (endAll (.preempted .release)
    (endRecovery (endSagHold (abandonIdent (sledStop (lasersOff (brake s)))))))

/-! ### The spindle's stopped report (R76, R162, R163, R166) -/

/-- The drive supervisor takes the stopped report (R162, R163, R166, R168). -/
def spindleReportsStopped (s : State) : State :=
  match s.supervisor.drive with
  | .parking => enterStopped s
  | .releasing => if activePhase s = some .braking then releaseHoming s else s
  | _ => s

end Sys2Proof.Machine
end

