-- ==== Sys2Proof/Machine/Identification.lean ====
section
/-! DEFINITION. Identification of a disc (R151 to R156) and its pause in a sag (R161). -/

namespace Sys2Proof.Machine

/-- The identification record is changed, when there is one. -/
def changeIdent (f : Ident → Ident) (s : State) : State :=
  s.setSupervisor { s.supervisor with ident := s.supervisor.ident.map f }

/-- The stage and the profile step move on; a restart is one of a profile try, and ends with it (R161). -/
def identAt (stage : IdentStage) (step : Option ProfileStep) (s : State) : State :=
  changeIdent (fun i => { i with stage := stage, step := step, restart := false }) s

/-- Whether an identification is in progress and not paused. -/
def identRuns (s : State) : Bool := s.supervisor.ident.any (fun i => !i.paused)

/-- Whether an identification that is not paused stands at a stage. -/
def identIn (stage : IdentStage) (s : State) : Bool :=
  s.supervisor.ident.any (fun i => !i.paused && i.stage == stage)

/-- Whether an identification that is not paused stands at a profile step. -/
def identStep (step : ProfileStep) (s : State) : Bool :=
  s.supervisor.ident.any (fun i => !i.paused && i.step == some step)

/-- The class a profile stage tries (R153). -/
def IdentStage.tries : IdentStage → Option DiscClass
  | .profileH => some .H
  | .profileL => some .L
  | .homing | .positioning | .spinning => none

/-- The candidate class named (R1, R151). -/
def candidate (s : State) : Option DiscClass := s.supervisor.ident.bind Ident.candidate

/-! ### HOMING, POSITIONING, SPINNING (R151, R152) -/

/-- SPINNING: the fixed identification speed (R68, R152). -/
def identSpin (s : State) : State := spindleCommand .fixed none (identAt .spinning none s)

/-- POSITIONING: a leg toward step 150. A sled still in an older leg is waited for (R151; entry 24). -/
def identPosition (s : State) : State :=
  let s := identAt .positioning none s
  let r := sledLeg .supervisor (150 - ((s.sled.position.getD 150 : Nat) : Int)) s
  if r.2 = .done then identSpin r.1 else r.1

/-- HOMING (R98, R151). -/
def identHome (s : State) : State :=
  let r := homingCommand (identAt .homing none s)
  if r.2 = .done then identPosition r.1 else r.1

/-! ### Profile tries (R153, R154) -/

/-- WINDOW: the candidate is named and its window runs; the notice is queued unless it is named already (R153,
R161). -/
def tryWindow (s : State) : State :=
  match s.supervisor.ident with
  | none => s
  | some i =>
    match i.stage.tries with
    | none => s
    | some k =>
      let s1 := changeIdent (fun i => { i with step := some .window, candidate := some k, window := some 0 }) s
      if i.candidate = some k then s1
      else offer (.disc (if k = .H then .candidateH else .candidateL) k none) s1

/-- CLOSING: the tracking-close command, and what it answers at once (R153). `fail` is the failure of the try. -/
def tryClose (fail : State → State) (s : State) : State :=
  let r := closeTracking .supervisor (changeIdent (fun i => { i with step := some .closing }) s)
  match r.2 with
  | .begun => r.1
  | .done => tryWindow r.1
  | .failed => fail r.1

/-- SEARCHING: a focus search with the retry count, and what it answers at once (R153). -/
def trySearch (fail : State → State) (s : State) : State :=
  let r := focusSearch .supervisor s.recovery.retryCount (changeIdent (fun i => { i with step := some .searching }) s)
  match r.2 with
  | .begun => r.1
  | .done => tryClose fail r.1
  | .failed => fail r.1

/-- A profile try begins at SWITCHING, no candidate named (R153, R154). -/
def tryProfile (stage : IdentStage) (k : DiscClass) (fail : State → State) (s : State) : State :=
  let s := changeIdent (fun i => { i with
    stage := stage, step := some .switching, candidate := none, window := none, restart := false }) s
  let r := profileSelect k s
  if r.2 = .done then trySearch fail r.1 else r.1

/-- The try of profile L has failed: DISC_UNREADABLE (R154). -/
def failL (s : State) : State :=
  raiseFault .discUnreadable (changeIdent (fun i => { i with candidate := none, window := none }) s)

/-- The try of profile H has failed: the fixed speed again, and the try of profile L (R152, R154). -/
def failH (s : State) : State := tryProfile .profileL .L failL (spindleCommand .fixed none s)

/-- The failure of the present try. -/
def tryFails (s : State) : State :=
  match s.supervisor.ident with
  | some i => if i.stage = .profileL then failL s else failH s
  | none => s

/-- The first try, of profile H, at COARSE or LOCKED (R152, R153). -/
def firstTry (s : State) : State := tryProfile .profileH .H failH s

/-- A try that a sag interrupted restarts: at CLOSING with focus LOCKED, at SEARCHING otherwise (R161). -/
def restartTry (s : State) : State :=
  let s := changeIdent (fun i => { i with restart := false, window := none }) s
  if s.optics.focus = .locked then tryClose tryFails s else trySearch tryFails s

/-! ### Start (R151) -/

/-- The step of the present stage begins, an identification that was paused before its first command included (R151,
R161). -/
def identBegin (s : State) : State := if s.sled.position = none then identHome s else identPosition s

/-- An identification starts (R151); during a sag it is paused from its start (R161). -/
def startIdent (origin : IdentOrigin) (s : State) : State :=
  let s1 := setDrive .identifying (s.setArbiter { s.arbiter with releaseLatch := false })
  let paused := s.supervisor.supply == .sag
  let s2 := s1.setSupervisor { s1.supervisor with
    ident := some ⟨origin, if s1.sled.position = none then .homing else .positioning, none, none, none, paused, false⟩ }
  if paused then s2 else identBegin s2

/-! ### Pause and resume (R161) -/

/-- The supply sags in IDENTIFYING (R161). -/
def identPause (s : State) : State :=
  match s.supervisor.ident with
  | none => s
  | some i =>
    let s := changeIdent (fun i => { i with paused := true }) s
    match i.stage with
    | .homing => pauseHoming s
    | .positioning => sledStop s
    | .spinning => coastSpindle s
    | .profileH | .profileL => openTracking (coastSpindle s)

/-- The supply returns in IDENTIFYING (R161). A homing that its own pause holds is resumed; over an older homing, and with
none, the homing command is given now. -/
def identResume (s : State) : State :=
  match s.supervisor.ident with
  | none => s
  | some i =>
    let s := changeIdent (fun i => { i with paused := false }) s
    match i.stage with
    | .homing => if s.sled.state = .homing ∧ s.sled.paused = true then resumeHoming s else identHome s
    | .positioning => identPosition s
    | .spinning => if s.spindle.mode = .fixed then driveSpindleAgain s else identSpin s
    | .profileH | .profileL => changeIdent (fun i => { i with restart := true }) (driveSpindleAgain s)

/-! ### Confirmation (R155) -/

/-- The map is seeded, kept, or cleared and seeded, for the confirmed class (R6, R7). -/
def seedOrKeep (k : DiscClass) (s : State) : State :=
  if s.map.records = [] then s.setMap (PosMap.seeded k)
  else if s.map.cls = some k then s
  else (clearMap s).setMap (PosMap.seeded k)

/-- A confirming address a confirms class k (R155). A sled leg left from before the identification lands there: it has no
owner, and the drive holds (R53, R58, R110). -/
def confirm (k : DiscClass) (a : Nat) (s : State) : State :=
  let s1 := seedOrKeep k (s.setSupervisor { s.supervisor with cls := some k })
  match s1.map.predict a with
  | none => s1
  | some c =>
    let s2 := setHeldSpeed .one (landLeft a (spindleOnFix c (storeFix a c s1)))
    let s3 := hold a (spindleCommand .clv (some c) s2)
    offer (.disc .identified k (some a)) (setDrive .onTrack (endIdent s3))

end Sys2Proof.Machine
end

