-- ==== Sys2Proof/Machine/Recovery.lean ====
section
/-! DEFINITION. The recovery controller: disturbances, ROUGH, the phases of a recovery, and its return (R169 to R184);
the supply sag that begins and ends a sag hold (R157 to R159). -/

namespace Sys2Proof.Machine

/-! ### History and ROUGH (R171, R172) -/

/-- An entry joins the history, the oldest leaving a full one (R171). -/
def appendHistory (e : HistoryEntry) (h : List HistoryEntry) : List HistoryEntry :=
  (if Config.historyCapacity ≤ h.length then h.drop 1 else h) ++ [e]

/-- ROUGH is entered or left: the robust gain, the ROUGH notice, and m computed again (R95, R172). -/
def setRough (on : Bool) (s : State) : State :=
  let s1 := (s.setRecovery { s.recovery with rough := on }).setOptics { s.optics with robustGain := on }
  recomputeM (offer (.rough on s.clock (recentCount s.recovery.history s.clock)) s1)

/-- The append of a disturbance to the history and the test of ROUGH, with the DISTURBANCE notice, which names the
phase the disturbance sends the recovery to (R171, R172). -/
def recordDisturbance (k : Disturbance) (ph : RecoveryPhase) (s : State) : State :=
  let history := appendHistory ⟨s.clock, k, lastGood s⟩ s.recovery.history
  let recent := recentCount history s.clock
  let rough := s.recovery.rough || decide (4 ≤ recent)
  let s1 := s.setRecovery { s.recovery with
    history := history
    roughExit := if rough then some (later s.clock 20000) else s.recovery.roughExit }
  let s2 := offer (.disturbance k s.clock (lastGood s) ph rough recent) s1
  if rough && !s.recovery.rough then setRough true s2 else s2

/-! ### Phases (R174 to R178) -/

/-- A phase is exhausted, or begins with its count raised (R174). -/
def enterPhase (count : Recovery → Nat) (raised : Recovery → Recovery) (exhausted : FaultKind)
    (begin : State → State) (s : State) : State :=
  if s.recovery.retryLimit ≤ count s.recovery then raiseFault exhausted s
  else begin (s.setRecovery (raised s.recovery))

/-- REFIX begins (R177). -/
def beginRefix (s : State) : State :=
  enterPhase Recovery.refixCount
    (fun r => { r with phase := .refix, refixCount := r.refixCount + 1, window := none })
    .addressUnrecoverable id s

/-- The close of RETRACK: a close reported starts the window; a failed close is set aside (R176). -/
def retrackClose (s : State) : State :=
  let r := closeTracking .recovery s
  if r.2 = .done then r.1.setRecovery { r.1.recovery with window := some r.1.clock } else r.1

/-- RETRACK begins (R176). -/
def beginRetrack (s : State) : State :=
  enterPhase Recovery.retrackCount
    (fun r => { r with phase := .retrack, retrackCount := r.retrackCount + 1, window := none })
    .focusUnrecoverable retrackClose s

/-- The commands of REFOCUS: tracking open, sled stop, and a focus search with the retry limit (R175). -/
def refocusSearch (s : State) : State :=
  let s1 := sledStop (openTracking s)
  let r := focusSearch .recovery s1.recovery.retryLimit s1
  match r.2 with
  | .begun => r.1
  | .done => beginRetrack r.1
  | .failed => raiseFault .focusUnrecoverable r.1

/-- REFOCUS begins (R175). -/
def beginRefocus (s : State) : State :=
  enterPhase Recovery.refocusCount
    (fun r => { r with phase := .refocus, refocusCount := r.refocusCount + 1, window := none })
    .focusUnrecoverable refocusSearch s

/-- RESPIN ends: the next phase follows from the loops as they stand (R178; entry 22). -/
def respinEnds (s : State) : State :=
  if s.optics.focus ≠ .locked then beginRefocus s
  else if s.optics.tracking = .off then beginRetrack s
  else beginRefix s

/-- RESPIN begins, and ends at once when the spindle is LOCKED already (R178). -/
def beginRespin (s : State) : State :=
  enterPhase Recovery.respinCount
    (fun r => { r with phase := .respin, respinCount := r.respinCount + 1, window := none })
    .spindleUnlocked (fun s => if s.spindle.state = .locked then respinEnds s else s) s

/-- The phase a disturbance names (R179). -/
def Disturbance.phase : Disturbance → RecoveryPhase
  | .focusLost => .refocus
  | .trackSlip => .retrack
  | .addressJump => .retrack
  | .addressStarved => .refix
  | .spindleSlip => .respin

/-- A phase begins. -/
def beginPhase : RecoveryPhase → State → State
  | .refocus, s => beginRefocus s
  | .retrack, s => beginRetrack s
  | .refix, s => beginRefix s
  | .respin, s => beginRespin s
  | .none, s | .return, s => s

/-! ### Beginning and restarting (R173, R179) -/

/-- Whether a recovery is in progress. -/
def recovering (s : State) : Bool := s.recovery.phase != .none

/-- Steps 1 to 4 of R173, the kept phase given by the caller. -/
def openRecovery (kept : Option Phase) (s : State) : State :=
  let s1 := (s.setRecovery { s.recovery with
      refocusCount := 0, retrackCount := 0, refixCount := 0, respinCount := 0
      retryLimit := s.recovery.retryCount, fixReported := false, window := none
      returnAddr := lastGood s, keptPhase := kept }).setPlanner { s.planner with acquireStep := .none }
  setDrive .recovering (setPhase .recovering s1)

/-- A CANCEL that waited for a landing ends its motion at the disturbance or the sag that takes the landing away
(R138, R140; entries 16 to 18): the motion itself, or the attached REJOIN, whose FOLLOW then counts as FOLLOWING and
re-enters it with entry REJOIN. -/
def endWaitingCancel (s : State) : State :=
  match s.arbiter.attached, s.arbiter.active with
  | some r, _ =>
    if r.cancelPending then
      let s1 := endMotion r .cancelled (lastGood s) (setAttached none s)
      markRejoin true (setPhase .following s1)
    else s
  | none, some m => if m.cancelPending then endMotion m .cancelled (lastGood s) (setActive none s) else s
  | none, none => s

/-- A recovery begins on a disturbance (R173). -/
def beginRecovery (ph : RecoveryPhase) (s : State) : State :=
  let s1 := endWaitingCancel s
  beginPhase ph (openRecovery (activePhase s1) s1)

/-- A disturbance within a recovery moves it to the phase it names; an internal return is withdrawn (R179, R182). -/
def restartRecovery (ph : RecoveryPhase) (s : State) : State :=
  let s1 := s.setRecovery { s.recovery with window := none, fixReported := false }
  beginPhase ph (if s1.planner.owner = .internal then withdraw s1 else s1)

/-- The planner marks a leg in flight disturbed; a settle lapses (R51, R60). -/
def disturbLeg (s : State) : State :=
  match s.planner.legStage with
  | .idle => s
  | .settling => s.setPlanner { s.planner.legOver with legDisturbed := true }
  | .running | .landing => s.setPlanner { s.planner with legDisturbed := true }

/-- The recovery controller and the seek planner take a disturbance (R60, R170). One in progress restarts also where a
takeover has made the drive MOVING (R147, R179; entry 15). -/
def takeDisturbance (k : Disturbance) (s : State) : State :=
  let s := disturbLeg s
  if (s.supervisor.drive = .recovering ∨ s.supervisor.drive = .moving) ∧ recovering s then
    restartRecovery k.phase (recordDisturbance k k.phase s)
  else if s.supervisor.drive = .onTrack ∨ s.supervisor.drive = .moving then
    beginRecovery k.phase (recordDisturbance k k.phase s)
  else recordDisturbance k .none s

/-- The drive states in which a source block raises a disturbance (R75, R88, R91, R114). -/
def raises (s : State) : Bool :=
  match s.supervisor.drive with
  | .onTrack | .moving | .recovering => true
  | _ => false

/-! ### Return (R180 to R182) -/

/-- The motion that the recovery hands back owns the planner: the attached REJOIN, or the active motion (R37). -/
def ownerOfMotion (s : State) : Owner := if s.arbiter.attached = none then .active else .attached

/-- The return target of a FOLLOW that was FOLLOWING: the resume point when it is set and OPEN, otherwise the return
address (R180). -/
def playReturn (s : State) : Option Nat :=
  match s.monitor.resume with
  | some a => if (s.zones.decode a).access = .opened then some a else s.recovery.returnAddr
  | none => s.recovery.returnAddr

/-- The planner is handed back the motion: with the return target and a fresh session for a FOLLOW that was FOLLOWING,
else with the target and session it holds (R62, R180). -/
def handBack (s : State) : State :=
  if s.recovery.keptPhase = some .following then
    s.setPlanner { s.planner with
      owner := .active, target := playReturn s, returning := true, sessionLegs := 0, sessionSled := 0 }
  else s.setPlanner { s.planner with owner := ownerOfMotion s }

/-- RETURN for a motion (R72, R181). -/
def returnMotion (s : State) : State := plan (ownerTaken (reportDrive .moving (endRecovery (handBack s))))

/-- RETURN with no motion: an internal return, or the hold where the drive stands when there is no target (R182). -/
def returnInternal (s : State) : State :=
  match s.recovery.holdCopy <|> s.recovery.returnAddr with
  | some t =>
    let s1 := s.setRecovery { s.recovery with phase := .return, fixReported := true, window := none }
    plan (ownerTaken (s1.setPlanner { s1.planner with
      owner := .internal, target := some t, returning := false, sessionLegs := 0, sessionSled := 0 }))
  | none => endInternal ((lastGood s).getD 0) s

/-- REFIX ends at a fix (R177). A motion that waits starts at the report of the fix, by the start test that follows
every command; the test of R131 holds for it in RECOVERING alone (entry 15). -/
def refixEnds (s : State) : State :=
  if s.arbiter.active ≠ none then returnMotion s
  else if s.arbiter.waiting ≠ [] ∧ s.supervisor.drive = .recovering then
    s.setRecovery { s.recovery with fixReported := true }
  else returnInternal s

/-! ### Sag hold (R158, R159) -/

/-- The leg in flight at a sag: a sled leg is over for the planner, a fine leg RUNNING goes on to its count, a settle
and a landing wait lapse (R59). -/
def sagLeg (s : State) : State :=
  if s.planner.legStage = .running ∧ s.planner.legKind = .fine then s else s.setPlanner s.planner.legOver

/-- The phase that a sag suspends: the phase kept by a recovery in progress, else the phase of the motion (R158). -/
def phaseToSuspend (s : State) : Option Phase :=
  if recovering s ∧ activePhase s = some .recovering then s.recovery.keptPhase else activePhase s

/-- A sag hold begins (R158). -/
def beginSagHold (s : State) : State :=
  let s := endWaitingCancel (sagLeg (openTracking (sledStop (coastSpindle s))))
  let s1 := s.setSupervisor { s.supervisor with
    sagTimer := some s.clock
    focusLostInSag := s.optics.focus != .locked
    suspendedPhase := phaseToSuspend s }
  let s2 := setPhase .suspended (endRecovery (s1.setPlanner { s1.planner with acquireStep := .none }))
  setDrive .sagHold (if s2.planner.owner = .internal then disown s2 else s2)

/-- The supply returns in SAG_HOLD: drive again, RECOVERING, and a recovery at REFOCUS or RETRACK with the suspended
phase as the kept phase (R159, R184). -/
def endSagWithRecovery (s : State) : State :=
  let first : RecoveryPhase :=
    if s.supervisor.focusLostInSag ∨ s.optics.focus ≠ .locked then .refocus else .retrack
  beginPhase first (openRecovery s.supervisor.suspendedPhase (endSagHold (driveSpindleAgain s)))

end Sys2Proof.Machine
end

