-- ==== Sys2Proof/Machine/Arbiter.lean ====
section
/-! DEFINITION. The motion arbiter: acceptance, supersession, the active slot, attachment, the start test, CANCEL
(R123 to R143). -/

namespace Sys2Proof.Machine

/-! ### Acceptance checks (R119, R124) -/

/-- The end address of a FOLLOW as stored: clamped to, or absent as, the highest address of the class (R119). -/
def storedEnd (k : DiscClass) (e : Option Addr) : Nat := (e.map (fun a => min a.toNat k.maxAddress)).getD k.maxAddress

/-- Checks 3 and 4: the tickets of the port (R123, R124). -/
def ticketCheck (p : Port) (tag : Byte) (s : State) : Option Status :=
  if Config.ticketLimit ≤ (s.port p).tickets.length then some .limit
  else if tag ∈ (s.port p).tickets then some .tagInUse
  else none

/-- Checks 5a and 5b, which a RELEASE passes (R124). -/
def driveCheck (kind : MotionKind) (s : State) : Option Status :=
  if kind = .release then none
  else if s.supervisor.drive = .faulted then some .faulted
  else if s.arbiter.releaseLatch then some .releasing
  else none

/-- Checks 5c, 6 and 7 of a motion with a target; `endOk` is the test of R119 on a FOLLOW's end address (R124). -/
def targetCheck (target : Addr) (endOk : DiscClass → Bool) (s : State) : Option Status :=
  match s.supervisor.cls with
  | none => some .noDisc
  | some k =>
    if k.maxAddress < target.toNat then some .outOfRange
    else if endOk k = false then some .outOfRange
    else if (s.zones.decode target.toNat).access = .avoid then some .zoneAvoided
    else none

/-- The first check that fails. -/
def firstFailure : List (Option Status) → Option Status
  | [] => none
  | some st :: _ => some st
  | none :: rest => firstFailure rest

/-! ### Step 1: the record and the ticket (R123, R125) -/

/-- The ticket and the arrival sequence of an accepted motion (R120, R123). -/
def takeTicket (m : Motion) (s : State) : State :=
  let s1 := s.setPort m.port { s.port m.port with tickets := (s.port m.port).tickets ++ [m.tag] }
  s1.setArbiter { s1.arbiter with arrivals := s1.arbiter.arrivals + 1 }

/-! ### Step 2: supersession and preemption (R126, R127, R128) -/

/-- The result a new motion of another kind gives a motion it ends; none when it leaves it (R126 to R128, R141;
entry 16). -/
def Motion.endedBy (new : MotionKind) (m : Motion) : Option Result :=
  match new with
  | .release => some (.preempted .release)
  | .rejoin => if m.kind = .rejoin then some .superseded else none
  | .stop =>
      if m.kind = .rejoin then some (.preempted .release)
      else if m.port = .control then some .superseded else none
  | .seek | .follow =>
      if m.kind = .rejoin then some (if m.cancelPending then .cancelled else .superseded)
      else if m.port = .control then some .superseded else none

/-- Whether a new motion ends a motion. -/
def ends (new : MotionKind) (m : Motion) : Bool := (m.endedBy new).isSome

/-- The slots and the list after step 2: the motions the new kind ends are taken out and become DONE, their final
address the last good address (R126 to R128). -/
def supersede (new : MotionKind) (s : State) : State :=
  let ended := (liveMotions s).filterMap (fun m => (m.endedBy new).map (fun r => (m, r)))
  endMotions ended (lastGood s) (s.setArbiter { s.arbiter with
    active := s.arbiter.active.filter (fun m => !ends new m)
    attached := s.arbiter.attached.filter (fun m => !ends new m)
    waiting := s.arbiter.waiting.filter (fun m => !ends new m) })

/-! ### A motion takes the planner (R37, R62, R70) -/

/-- A SEEK, FOLLOW or REJOIN becomes ACTIVE in a phase: the slot, the hold copy, the held speed, the owner and its
target, a fresh session; a sled leg RUNNING for the old owner is stopped (R37, R59, R62, R70, R131, R173). The held speed
comes after the owner and before the drive state, and m is computed at each of the two changes (R72): which of the three
comes first is the model's choice (entry 38). -/
def takePlanner (m : Motion) (ph : Phase) (s : State) : State :=
  let s1 := setActive (some (m.activeIn ph)) (s.setRecovery { s.recovery with holdCopy := none })
  let s2 := stopSledLeg (s1.setPlanner { s1.planner with
    owner := .active, target := m.target, returning := false, acquireStep := .none
    sessionLegs := 0, sessionSled := 0 })
  match m.speed with
  | some v => setHeldSpeed v s2
  | none => s2

/-- The drive supervisor is told that the motion moves, in a recovery that goes on too; m is computed again for the new target
(R72, R147). -/
def nowMoving (s : State) : State := recomputeM (reportDrive .moving s)

/-- The motion takes over a leg in flight, which lands as its first plan (R58, R59, R129). -/
def takeLeg (s : State) : State := setPhase s.planner.legStage.phase s

/-- The motion begins its work where the mechanism stands: it takes over a leg in flight, plans from a fresh fix, or
starts ACQUIRE (R38, R58, R131). A leg is taken over while focus is LOCKED; one left over a park lands at the end of the
motion's own ACQUIRE (R38, R143; entry 13). -/
def beginWork (s : State) : State :=
  if legInFlight s ∧ s.optics.focus = .locked then takeLeg s
  else if fixFresh s then plan s
  else startAcquire s

/-! ### Step 3: the active slot of an ended motion (R129) -/

/-- A SEEK, FOLLOW or REJOIN takes the active slot of a motion that ended in a phase (R129). The drive is MOVING then, but in a
sag, where the report is set aside (R147). -/
def takeSlot (m : Motion) (old : Phase) (s : State) : State :=
  match old with
  | .recovering =>
      let s1 := takePlanner m .recovering s
      nowMoving (s1.setRecovery { s1.recovery with keptPhase := none })
  | .suspended =>
      let s1 := takePlanner m .suspended s
      s1.setSupervisor { s1.supervisor with suspendedPhase := none }
  | .leg | .settle | .verify | .approach | .following => beginWork (nowMoving (takePlanner m .acquire s))
  | .acquire => startAcquire (nowMoving (takePlanner m .acquire s))
  | .braking | .homing => startAcquire (recomputeM (setDrive .moving (takePlanner m .acquire s)))

/-- What every motion that becomes ACTIVE does: a session begins, and the hold copy becomes absent (R62, R173). -/
def beginSession (s : State) : State :=
  (s.setPlanner { s.planner with sessionLegs := 0, sessionSled := 0 }).setRecovery { s.recovery with holdCopy := none }

/-- A STOP becomes ACTIVE: the STOP mechanics (R129, R131, R162). -/
def activateStop (m : Motion) (s : State) : State :=
  stopMechanics (setActive (some (m.activeIn .braking)) (beginSession s))

/-- A RELEASE becomes ACTIVE: the RELEASE mechanics, or those of an older RELEASE carried on from where they stand
(R128, R129, R163, R164). -/
def activateRelease (m : Motion) (older : Option Motion) (s : State) : State :=
  let s1 := beginSession s
  match older with
  | some o =>
      if o.kind = .release then setActive (some (m.activeIn (o.phase.getD .braking))) s1
      else releaseMechanics (setActive (some (m.activeIn .braking)) s1)
  | none => releaseMechanics (setActive (some (m.activeIn .braking)) s1)

/-! ### Attachment (R137) -/

/-- The REJOIN attaches and becomes the planner's owner, a session begun and a sled leg RUNNING stopped (R37, R59, R62,
R137). -/
def attachOwner (m : Motion) (s : State) : State :=
  let s1 := setAttached (some m.attachedOn) s
  stopSledLeg (s1.setPlanner { s1.planner with
    owner := .attached, target := m.target, returning := false, acquireStep := .none
    sessionLegs := 0, sessionSled := 0 })

/-- A REJOIN attaches to the active FOLLOW: to one that is FOLLOWING, or in the place of an older REJOIN in whatever
phase the FOLLOW has (R127, R137). The drive is MOVING then, but in a sag, where the report is set aside (R147). -/
def attach (m : Motion) (s : State) : State :=
  let s1 := attachOwner m s
  match activePhase s1 with
  | some .recovering => nowMoving s1
  | some .suspended => s1
  | _ =>
    let s2 := nowMoving s1
    if legInFlight s2 then s2 else plan s2

/-- Whether the active motion is a FOLLOW in its FOLLOWING phase that carries no REJOIN. -/
def followPlays (s : State) : Bool :=
  s.arbiter.attached.isNone && s.arbiter.active.any (fun m => m.kind == .follow && m.phase == some .following)

/-! ### The start test (R131) -/

/-- Whether the head of the pending list may start (R131). -/
def canStart (head : Motion) (s : State) : Bool :=
  s.arbiter.active.isNone &&
    match s.supervisor.drive with
    | .onTrack => true
    | .stopped => s.supervisor.supply == .normal || head.kind == .stop
    | .recovering => s.recovery.fixReported
    | .sagHold => head.kind == .stop
    | _ => false

/-- The head of the list starts (R131); a recovery that holds a fix ends (R183). -/
def startHead (m : Motion) (s : State) : State :=
  let s1 := endRecovery s
  match m.kind with
  | .stop => activateStop m s1
  | .release => activateRelease m none s1
  | .seek | .follow | .rejoin => beginWork (nowMoving (takePlanner m .acquire s1))

/-- One test of the head: it starts, it attaches to a FOLLOW that plays, or it waits (R131, R137). -/
def testHead (s : State) : State × Bool :=
  match s.arbiter.waiting with
  | [] => (s, false)
  | m :: rest =>
    if canStart m s then (startHead m (setWaiting rest s), true)
    else if m.kind = .rejoin ∧ followPlays s then (attach m (setWaiting rest s), true)
    else (s, false)

/-- The test is made again at every event that can make it true; the list holds at most two records, so three tests
exhaust it (R130, R131). -/
def testHeads : Nat → State → State
  | 0, s => s
  | n + 1, s => if (testHead s).2 then testHeads n (testHead s).1 else s

/-! ### Step 3: placement (R125) -/

/-- Requests that complete at once (R132). -/
def completesAtOnce (kind : MotionKind) (s : State) : Bool :=
  match kind, s.supervisor.drive with
  | .stop, .stopped => true
  | .stop, .empty => true
  | .release, .released => true
  | _, _ => false

/-- Step 3: at once, in the slot of the motion that ended, attached in the place of one that ended, or in the list,
where the start test finds it (R125, R127, R129, R132, R137). `before` is the state before step 2. -/
def place (m : Motion) (before s : State) : State :=
  if completesAtOnce m.kind s then endMotion m .done (lastGood s) s
  else
    match m.kind with
    | .release => activateRelease m before.arbiter.active s
    | .stop =>
        if before.arbiter.active.any (ends .stop) then activateStop m s
        else setWaiting (insertWaiting m s.arbiter.waiting) s
    | .seek | .follow | .rejoin =>
        match before.arbiter.active.filter (ends m.kind) with
        | some old => takeSlot m (old.phase.getD .acquire) s
        | none =>
          if m.kind = .rejoin ∧ before.arbiter.attached.any (ends .rejoin) then attach m s
          else setWaiting (insertWaiting m s.arbiter.waiting) s

/-- An accepted motion, steps 1 to 3 (R125). The release latch is set at the acceptance of a RELEASE (R124). -/
def accept (m : Motion) (s : State) : State :=
  let s1 := takeTicket m s
  let s2 := if m.kind = .release then s1.setArbiter { s1.arbiter with releaseLatch := true } else s1
  place m s2 (supersede m.kind s2)

/-! ### CANCEL (R138 to R142) -/

/-- The active motion has ended by its CANCEL and no motion takes its place: what follows by its phase (R142). -/
def leaveMechanism (ph : Option Phase) (s : State) : State :=
  match ph with
  | some .acquire => stopMechanics s
  | some .recovering => s.setRecovery { s.recovery with keptPhase := none, holdCopy := none }
  | some .suspended => s.setSupervisor { s.supervisor with suspendedPhase := none }
  | _ => holdHere s

/-- A CANCEL that waits for the landing of a leg in flight (R140). -/
def waits (ph : Option Phase) (s : State) : Bool := ph.any Phase.ofLeg && legInFlight s

/-- CANCEL of the attached REJOIN (R138, R140). In a recovery or a sag the FOLLOW goes back to FOLLOWING only by its
return, and its notice then carries the entry REJOIN (entry 18). -/
def cancelAttached (r : Motion) (s : State) : State :=
  let s1 := withdraw s
  if waits (activePhase s) s then setAttached (some { r with cancelPending := true }) s1
  else
    let ended := endMotion r .cancelled (lastGood s) (setAttached none s1)
    match activePhase s with
    | some .recovering => markRejoin true (ended.setRecovery { ended.recovery with keptPhase := some .following })
    | some .suspended => markRejoin true (ended.setSupervisor { ended.supervisor with suspendedPhase := some .following })
    | _ => enterFollowing .rejoin ended

/-- CANCEL of the active motion (R138, R140, R142). A FOLLOW that carries a REJOIN ends at once, and the REJOIN takes the
active slot, the drive MOVING (R147), with its session and any leg in flight. It stays the planner's owner, so that m is not
computed again for it while the drive is MOVING already (R72). -/
def cancelActive (m : Motion) (s : State) : State :=
  match s.arbiter.attached with
  | some r =>
    let s1 := endMotion m .cancelled (lastGood s)
      (setActive (some (r.activeIn (m.phase.getD .acquire))) (setAttached none s))
    let s2 := s1.setRecovery { s1.recovery with holdCopy := none }
    reportDrive .moving (s2.setPlanner { s2.planner with
      owner := if s2.planner.owner = .attached then .active else s2.planner.owner })
  | none =>
    let s1 := withdraw s
    if waits m.phase s then setActive (some { m with cancelPending := true }) s1
    else leaveMechanism m.phase (endMotion m .cancelled (lastGood s) (setActive none s1))

/-- CANCEL of a pending motion (R139). -/
def cancelWaiting (m : Motion) (s : State) : State :=
  endMotion m .cancelled (lastGood s) (setWaiting (s.arbiter.waiting.erase m) s)

/-- CANCEL names a motion of its port (R139). -/
def cancel (p : Port) (tag : Byte) (s : State) : State × Status :=
  match (liveMotions s).find? (Motion.named p tag) with
  | none => (s, .unknownTag)
  | some m =>
    if m.kind = .stop then (s, .notCancellable)
    else if s.arbiter.active = some m then (cancelActive m s, .accepted)
    else if s.arbiter.attached = some m then (cancelAttached m s, .accepted)
    else (cancelWaiting m s, .accepted)

end Sys2Proof.Machine
end

