-- ==== Sys2Proof/Machine/Ops.lean ====
section
/-! DEFINITION. Operations shared by the commands: a new fix and its receivers (R110), what follows every command
(R39, R131, R152, R161), the passing of time, the two resets (R202). -/

namespace Sys2Proof.Machine

/-! ### A new fix (R110) -/

/-- The seek planner receives the fix: a landing, the end of ACQUIRE, APPROACH of a motion or of an internal return.
Its condition is judged on the state in which the fix was taken (R39, R44, R53, R110; entry 20). In the steps of ACQUIRE
before the last no plan is made, and a sled leg left over lands there all the same (R39, R52, R56; entry 13). -/
def plannerOnFix (a : Nat) (before s : State) : State :=
  if before.planner.acquireStep = .wait then acquireEnds a s
  else if before.planner.acquireStep ≠ .none then landLeft a s
  else if before.planner.legStage = .landing then land a s
  else if activePhase before = some .approach then plan s
  else if before.recovery.phase = .return ∧ before.planner.owner = .internal ∧ before.planner.legStage = .idle then
    plan s
  else s

/-- The optical loop controller receives the fix: in HOLD, one above the hold address starts a back-jump (R94). The hold
that the fix found must still stand after the planner acted (entry 20). -/
def holdOnFix (a : Nat) (before s : State) : State :=
  match before.optics.holdAddress with
  | some h =>
    if before.optics.tracking = .hold ∧ s.optics.tracking = .hold ∧ s.optics.holdAddress = some h ∧ h < a then
      beginJump (-1) .hold s
    else s
  | none => s

/-- The motion arbiter receives the fix while the FOLLOW plays forward (R135). -/
def arbiterOnFix (a : Nat) (before s : State) : State :=
  if before.arbiter.active.any (fun m => m.kind == .follow && m.phase == some .following) then followTest a s else s

/-- The recovery controller receives the fix: it ends REFIX (R177). -/
def recoveryOnFix (before s : State) : State := if before.recovery.phase = .refix then refixEnds s else s

/-- A GOOD address becomes the fix, and the blocks that act on a new fix receive it (R110). -/
def takeFix (a : Nat) (s : State) : State :=
  match s.map.predict a with
  | none => s
  | some c =>
    recoveryOnFix s (arbiterOnFix a s (holdOnFix a s (plannerOnFix a s (spindleOnFix c (compareZone (storeFix a c s))))))

/-! ### What follows a command -/

/-- The focus search of ACQUIRE, once the spindle is COARSE or LOCKED (R39 step 2, R40). -/
def acquireSearch (s : State) : State :=
  let r := focusSearch .planner s.recovery.retryCount (s.setPlanner { s.planner with acquireStep := .search })
  match r.2 with
  | .begun => r.1
  | .done => acquireClose r.1
  | .failed => raiseFault .focusUnrecoverable r.1

/-- What the blocks do on finding the spindle COARSE or LOCKED: an identification goes on, an ACQUIRE searches (R39,
R78, R152, R161). -/
def onSpindleReady (s : State) : State :=
  if s.spindle.state.ready then
    if identIn .spinning s then firstTry s
    else if s.supervisor.ident.any (fun i => !i.paused && i.restart) then restartTry s
    else if s.planner.acquireStep = .spin then acquireSearch s
    else s
  else s

/-- What follows every command that changes the mechanism: the start test and the blocks that wait for the spindle. A
motion that starts may find the spindle ready for its search at once (R39, R131). -/
def react (s : State) : State := onSpindleReady (testHeads 3 (onSpindleReady s))

/-! ### The passing of time -/

/-- The candidate window runs while the identification is not paused and no restart of the try is waited for (R153,
R161; entry 25). -/
def Ident.run (dt : Nat) (i : Ident) : Ident :=
  if i.paused || i.restart then i else { i with window := i.window.map (fun w => min 500 (w + dt)) }

/-- A port's holdoff runs in HOLDOFF, in units of 100 µs (R200, R201). -/
def PortState.run (dt : Nat) (p : PortState) : PortState :=
  { p with holdoffLeft := p.holdoffLeft - 10 * dt }

/-- `dt` milliseconds pass: the counter counts, the address-monitor timer, the candidate window and the holdoffs run.
The other timers hold the time they started at (entries 1 and 3). -/
def passTime (dt : Nat) (s : State) : State :=
  { s with
    clock := later s.clock dt
    control := s.control.run dt
    stream := s.stream.run dt
    mechanism := s.mechanism.run dt
    monitor := { s.monitor with
      elapsed := if monitorRunning s then min s.monitor.limit (s.monitor.elapsed + dt) else s.monitor.elapsed }
    supervisor := { s.supervisor with ident := s.supervisor.ident.map (Ident.run dt) } }

/-- What is left of a timer of `limit` ms that started at `since`. -/
def left (since : Time) (limit : Nat) (s : State) : Nat := limit - elapsedSince since s.clock

/-- Time passes until a timer of `limit` ms that started at `since` has run out (entry 3). -/
def runTo (since : Time) (limit : Nat) (s : State) : State := passTime (left since limit s) s

/-! ### Resets (R202, R203) -/

/-- The decoder after a reset: IDLE with the select line high, BLOCKED with it low (R202, R203). -/
def Decoder.afterReset : Decoder → Decoder
  | .idle => .idle
  | _ => .blocked

/-- Every block takes its reset values (R202). Pins keep their levels, the tachometer its reading, and the commands
that wait outside the part go on waiting; a motor that turns is braked (R82). -/
def resetAll (cause : ResetCause) (s : State) : State where
  clock := 0
  control := PortState.afterReset .control cause s.control.decoder.afterReset
  stream := PortState.afterReset .stream cause s.stream.decoder.afterReset
  mechanism := PortState.afterReset .mechanism cause s.mechanism.decoder.afterReset
  arbiter := Arbiter.reset
  planner := Planner.reset
  map := PosMap.empty
  zones := ZoneTable.reset
  monitor := Monitor.reset
  optics := Optics.reset
  sled := Sled.reset s.sled.homeClosed
  spindle := Spindle.reset s.spindle.measured
  recovery := Recovery.reset
  supervisor := Supervisor.reset
  picks := s.picks
  pending := s.pending

/-- An accepted SOFT RESET takes effect when its reply ends or is cut off (R202). -/
def softResetDue (p : Port) (s : State) : State := if (s.port p).resetArmed then resetAll .softReset s else s

end Sys2Proof.Machine
end

