-- ==== Sys2Proof/Machine/MechanismRequests.lean ====
section
/-! DEFINITION. CLAMP STATE and SUPPLY STATE (R148 to R161). -/

namespace Sys2Proof.Machine

/-- The data of their replies: clamp state, supply state, drive state (08, 8.3). -/
def mechanismData (s : State) : List Byte :=
  [s.supervisor.clamp.code, s.supervisor.supply.code, s.supervisor.drive.code]

/-! ### CLAMP STATE -/

/-- A clamp report acts by drive state (R148, R149). -/
def clampReport (c : ClampState) (s : State) : State :=
  let s1 := s.setSupervisor { s.supervisor with clamp := c }
  match c, s.supervisor.drive with
  | .clamped, .empty | .clamped, .released => startIdent .clamp s1
  | .unclamped, .released => enterEmpty s1
  | .unclamped, .empty => s1
  | .unclamped, _ => emergency s1
  | _, _ => s1

/-- CLAMP STATE on the state (R148). -/
def requestClamp (value : Byte) (s : State) : State × Status × List Byte :=
  match clamp? value with
  | none => (s, .outOfRange, [])
  | some c =>
    let s1 := react (clampReport c s)
    (s1, .accepted, mechanismData s1)

/-- CLAMP STATE (R148). -/
def execClampState (p : Port) (tag value : Byte) (s : State) : Outcome := serve 0x30 p tag s (requestClamp value)

/-! ### SUPPLY STATE -/

/-- A change of supply state acts by drive state (R157). -/
def supplyActs (x : SupplyState) (s : State) : State :=
  match x, s.supervisor.drive with
  | .sag, .onTrack | .sag, .moving | .sag, .recovering => beginSagHold s
  | .sag, .identifying => identPause s
  | .sag, .releasing => releaseSags s
  | .normal, .sagHold => endSagWithRecovery s
  | .normal, .identifying => identResume s
  | .normal, .releasing => resumeHoming s
  | _, _ => s

/-- A supply report: nothing more when it changes nothing, else the notice and the action (R157). -/
def supplyReport (x : SupplyState) (s : State) : State :=
  if x = s.supervisor.supply then s
  else
    let s1 := s.setSupervisor { s.supervisor with supply := x }
    supplyActs x (offer (.supply x s1.supervisor.drive s1.clock) s1)

/-- SUPPLY STATE on the state (R157). -/
def requestSupply (value : Byte) (s : State) : State × Status × List Byte :=
  match supply? value with
  | none => (s, .outOfRange, [])
  | some x =>
    let s1 := react (supplyReport x s)
    (s1, .accepted, mechanismData s1)

/-- SUPPLY STATE (R157). -/
def execSupplyState (p : Port) (tag value : Byte) (s : State) : Outcome := serve 0x31 p tag s (requestSupply value)

end Sys2Proof.Machine
end

