-- ==== Sys2Proof/Machine/MotionRequests.lean ====
section
/-! DEFINITION. The motion requests SEEK, FOLLOW, STOP, REJOIN and RELEASE, and CANCEL (R118 to R144). -/

namespace Sys2Proof.Machine

/-- The status of a motion after its placement; a motion found nowhere is DONE (R125). -/
def placedStatus (p : Port) (tag : Byte) (s : State) : MotionStatus :=
  match (liveMotions s).find? (Motion.named p tag) with
  | some m => m.status
  | none => .done

/-- A motion that passes its checks is accepted, and the reply tells its status after placement, its speed and its end
address (R125, R192). -/
def requestMotion (m : Motion) (failure : Option Status) (s : State) : State × Status × List Byte :=
  match failure with
  | some st => (s, st, [])
  | none =>
    let s1 := react (accept m s)
    (s1, .accepted, [(placedStatus m.port m.tag s1).code, (m.speed.map Multiple.code).getD 0xFF] ++ addrField m.endAddr)

/-- The checks of R124 on a motion with a target, in their order. -/
def moveChecks (p : Port) (tag : Byte) (kind : MotionKind) (target : Addr) (endOk : DiscClass → Bool) (s : State) :
    Option Status :=
  firstFailure [ticketCheck p tag s, driveCheck kind s, targetCheck target endOk s]

/-- SEEK on the state (R124, R125, R126). -/
def requestSeek (p : Port) (tag : Byte) (target : Addr) (speed : Byte) (s : State) : State × Status × List Byte :=
  requestMotion (Motion.accepted p tag .seek (some target.toNat) none (some (clampSpeed speed)) s.arbiter.arrivals)
    (moveChecks p tag .seek target (fun _ => true) s) s

/-- SEEK. -/
def execSeek (p : Port) (tag : Byte) (target : Addr) (speed : Byte) (s : State) : Outcome :=
  serve 0x10 p tag s (requestSeek p tag target speed)

/-- The end address a FOLLOW stores (R119). -/
def followEnd (e : Option Addr) (s : State) : Option Nat := s.supervisor.cls.map (fun k => storedEnd k e)

/-- FOLLOW on the state (R119, R124 to R126). -/
def requestFollow (p : Port) (tag : Byte) (start : Addr) (speed : Byte) (endAddr : Option Addr) (s : State) :
    State × Status × List Byte :=
  requestMotion
    (Motion.accepted p tag .follow (some start.toNat) (followEnd endAddr s) (some (clampSpeed speed))
      s.arbiter.arrivals)
    (moveChecks p tag .follow start (fun k => start.toNat ≤ storedEnd k endAddr) s) s

/-- FOLLOW. -/
def execFollow (p : Port) (tag : Byte) (start : Addr) (speed : Byte) (endAddr : Option Addr) (s : State) : Outcome :=
  serve 0x11 p tag s (requestFollow p tag start speed endAddr)

/-- STOP on the state (R124 to R126, R132, R162). -/
def requestStop (p : Port) (tag : Byte) (s : State) : State × Status × List Byte :=
  requestMotion (Motion.accepted p tag .stop none none none s.arbiter.arrivals)
    (firstFailure [ticketCheck p tag s, driveCheck .stop s]) s

/-- STOP. -/
def execStop (p : Port) (tag : Byte) (s : State) : Outcome := serve 0x12 p tag s (requestStop p tag)

/-- REJOIN on the state (R124, R125, R127, R137). -/
def requestRejoin (p : Port) (tag : Byte) (target : Addr) (s : State) : State × Status × List Byte :=
  requestMotion (Motion.accepted p tag .rejoin (some target.toNat) none none s.arbiter.arrivals)
    (moveChecks p tag .rejoin target (fun _ => true) s) s

/-- REJOIN. -/
def execRejoin (p : Port) (tag : Byte) (target : Addr) (s : State) : Outcome :=
  serve 0x22 p tag s (requestRejoin p tag target)

/-- RELEASE on the state (R124, R125, R128, R132, R163). -/
def requestRelease (p : Port) (tag : Byte) (s : State) : State × Status × List Byte :=
  requestMotion (Motion.accepted p tag .release none none none s.arbiter.arrivals)
    (firstFailure [ticketCheck p tag s, driveCheck .release s]) s

/-- RELEASE. -/
def execRelease (p : Port) (tag : Byte) (s : State) : Outcome := serve 0x32 p tag s (requestRelease p tag)

/-- CANCEL on the state (R139 to R142). The start test follows it as it follows every command: a STOP that becomes the head
because the REJOIN ahead of it was cancelled starts at once where the test of R131 holds for it, which R139 leaves open
(the model's choice, entry 37). -/
def requestCancel (p : Port) (which : Byte) (s : State) : State × Status × List Byte :=
  let r := cancel p which s
  if r.2 = .accepted then (react r.1, .accepted, []) else (s, r.2, [])

/-- CANCEL. -/
def execCancel (p : Port) (tag which : Byte) (s : State) : Outcome := serve 0x13 p tag s (requestCancel p which)

end Sys2Proof.Machine
end

