-- ==== Sys2Proof/Machine/Reads.lean ====
section
/-! DEFINITION. Requests that read: READ STATUS, READ REPORT, READ IDENTITY, READ ZONE, READ MAP, READ FAULT (R19, R29,
R193, R194, R198). None changes anything but its own port interface. -/

namespace Sys2Proof.Machine

/-! ### READ STATUS (R193) -/

/-- Offsets 14 to 24: the fix, or ones. -/
def fixBytes : Option Fix → List Byte
  | some f => bytes3 f.address ++ bytes2 f.coord ++ timeField f.time ++ [f.zone.code, flagByte f.fresh]
  | none => absent 11

/-- Offsets 25 to 28: the active motion, or ones. -/
def activeBytes : Option Motion → List Byte
  | some m => [portCode m.port, m.tag, m.kind.code, (m.phase.map Phase.code).getD 0xFF]
  | none => absent 4

/-- Offset 29: the tag of the attached REJOIN, or ones. -/
def attachedBytes : Option Motion → List Byte
  | some m => [m.tag]
  | none => absent 1

/-- Offsets 34 and 35: the sled position, or ones. -/
def positionBytes : Option Nat → List Byte
  | some x => bytes2 x
  | none => absent 2

/-- The 38 bytes of READ STATUS (R193). Offset 10, the ROUGH flag, is on 1, off 0, the model's choice (entry 39). -/
def statusData (s : State) : List Byte :=
  [s.supervisor.drive.code, classCode s.supervisor.cls, s.optics.focus.code, s.optics.tracking.code,
   s.spindle.state.code]
  ++ bytes2 s.spindle.target ++ bytes2 s.spindle.measured
  ++ [s.spindle.m.code, roughByte s.recovery.rough, s.supervisor.supply.code, s.supervisor.clamp.code,
      presenceByte s.monitor.fix.isSome s.arbiter.active.isSome s.arbiter.attached.isSome s.sled.position.isSome]
  ++ fixBytes s.monitor.fix
  ++ activeBytes s.arbiter.active
  ++ attachedBytes s.arbiter.attached
  ++ [byte s.arbiter.waiting.length, byte s.control.tickets.length, byte s.stream.tickets.length,
      byte s.mechanism.tickets.length]
  ++ positionBytes s.sled.position
  ++ bytes2 s.planner.trim

/-- READ STATUS (R193). -/
def execReadStatus (p : Port) (tag : Byte) (s : State) : Outcome :=
  serve 0x01 p tag s fun s => (s, .accepted, statusData s)

/-! ### READ REPORT (R198) -/

/-- The reply describes the head entry, which leaves when the reply has been sent (R198). -/
def readHead (p : Port) (s : State) : State × Status × List Byte :=
  match (s.port p).queue with
  | [] => (s, .empty, [])
  | r :: rest => (s.setPort p { s.port p with reading := true, headRenewed := false }, .accepted, r.data rest.length)

/-- READ REPORT (R198). -/
def execReadReport (p : Port) (tag : Byte) (s : State) : Outcome := serve 0x02 p tag s (readHead p)

/-! ### READ IDENTITY, READ ZONE, READ MAP, READ FAULT -/

/-- The data of READ IDENTITY (R194). -/
def identityData (p : Port) (s : State) : List Byte :=
  bytes2 Config.partCode ++ [byte Config.revision, portCode p, byte Config.queueCapacity, byte Config.ticketLimit,
    byte Config.mapCapacity] ++ timeField s.clock

/-- READ IDENTITY (R194). -/
def execReadIdentity (p : Port) (tag : Byte) (s : State) : Outcome :=
  serve 0x05 p tag s fun s => (s, .accepted, identityData p s)

/-- The fields of an entry in a reply (R192). -/
def ZoneEntry.data (e : ZoneEntry) : List Byte :=
  [flagByte e.enabled] ++ bytes3 e.base.toNat ++ bytes3 e.mask.toNat ++ [e.cap.code, e.access.code]

/-- The reply of READ ZONE: an entry, the default zone at index 8, or OUT_OF_RANGE (R29). -/
def readZone (index : Byte) (s : State) : Status × List Byte :=
  if index.toNat < 8 then
    match s.zones.entries[index.toNat]? with
    | some e => (.accepted, [index] ++ e.data)
    | none => (.outOfRange, [])
  else if index = 8 then
    (.accepted, [index, 1] ++ absent 3 ++ absent 3 ++ [s.zones.defaultCap.code, Access.opened.code])
  else (.outOfRange, [])

/-- READ ZONE (R29). -/
def execReadZone (p : Port) (tag index : Byte) (s : State) : Outcome :=
  serve 0x15 p tag s fun s => (s, readZone index s)

/-- The record field of READ MAP: absent above the last index (R19). -/
def recordBytes : Option MapRecord → List Byte
  | some r => [1] ++ bytes3 r.address ++ bytes2 r.coord ++ [r.origin.code] ++ bytes4 r.seq
  | none => [0] ++ absent 10

/-- The data of READ MAP (R19). -/
def mapData (index : Byte) (s : State) : List Byte :=
  [classCode s.map.cls, byte s.map.records.length] ++ bytes4 s.map.counter ++ recordBytes (s.map.recordAt index.toNat)

/-- READ MAP (R19). -/
def execReadMap (p : Port) (tag index : Byte) (s : State) : Outcome :=
  serve 0x17 p tag s fun s => (s, .accepted, mapData index s)

/-- The fault record in READ FAULT (R194). -/
def faultBytes : Option FaultRecord → List Byte
  | some f => [1, f.kind.code] ++ addrField f.lastGood ++ timeField f.time
  | none => [0] ++ absent 8

/-- The unreached record in READ FAULT (R194). -/
def unreachedBytes : Option Unreached → List Byte
  | some u => [1, portCode u.port, u.tag] ++ addrField u.target ++ addrField u.lastGood ++ [byte u.legs, u.cause.code]
  | none => [0] ++ absent 10

/-- READ FAULT (R194). -/
def execReadFault (p : Port) (tag : Byte) (s : State) : Outcome :=
  serve 0x1A p tag s fun s =>
    (s, .accepted, faultBytes s.supervisor.fault ++ unreachedBytes s.planner.unreached)

end Sys2Proof.Machine
end

