-- ==== Sys2Proof/Machine/Settings.lean ====
section
/-! DEFINITION. Requests that set: notice mask, holdoff, zones, map import, recovery settings, CLEAR FAULT, SOFT RESET
(R17, R27, R28, R167, R185, R199, R201, R202). -/

namespace Sys2Proof.Machine

/-! ### The port's own settings -/

/-- SET NOTICE MASK (R199). -/
def execSetNoticeMask (p : Port) (tag : Byte) (mask : BitVec 16) (s : State) : Outcome :=
  serve 0x03 p tag s fun s =>
    (s.setPort p { s.port p with mask := storedMask mask }, .accepted, bytes2 (storedMask mask).toNat)

/-- SET HOLDOFF (R201). -/
def execSetHoldoff (p : Port) (tag value : Byte) (s : State) : Outcome :=
  serve 0x04 p tag s fun s => (s.setPort p { s.port p with holdoff := value }, .accepted, [value])

/-! ### The zone table (R27, R28, R31, R34) -/

/-- After a rewrite: the fix is decoded again, the announced zone compared, m computed again (R31, R32, R34). -/
def zoneRewritten (s : State) : State :=
  recomputeM (compareZone (s.setMonitor { s.monitor with
    fix := s.monitor.fix.map (fun f => { f with zone := (s.zones.decode f.address).zone }) }))

/-- The fix zone field of a reply (R27). -/
def fixZoneField (s : State) : Byte := zoneField (s.monitor.fix.map Fix.zone)

/-- SET ZONE writes all five fields of an entry at once, or refuses the index or the access (R27). A retarget may bring
the spindle to COARSE, on which the waiting blocks act (R34, R78). -/
def writeZone (index enabled : Byte) (base mask : Addr) (cap access : Byte) (s : State) :
    State × Status × List Byte :=
  match access? access with
  | none => (s, .outOfRange, [])
  | some acc =>
    if 7 < index.toNat then (s, .outOfRange, [])
    else
      let e : ZoneEntry := ⟨enabled != 0, base, mask, clampSpeed cap, acc⟩
      let s1 := zoneRewritten (s.setZones { s.zones with entries := s.zones.entries.set index.toNat e })
      (react s1, .accepted, [index] ++ e.data ++ [fixZoneField s1])

/-- SET ZONE (R27). -/
def execSetZone (p : Port) (tag index enabled : Byte) (base mask : Addr) (cap access : Byte) (s : State) : Outcome :=
  serve 0x14 p tag s (writeZone index enabled base mask cap access)

/-- SET DEFAULT ZONE (R28, R34, R78). -/
def writeDefaultZone (cap : Byte) (s : State) : State × Status × List Byte :=
  let s1 := zoneRewritten (s.setZones { s.zones with defaultCap := clampSpeed cap })
  (react s1, .accepted, [(clampSpeed cap).code, fixZoneField s1])

/-- SET DEFAULT ZONE (R28). -/
def execSetDefaultZone (p : Port) (tag cap : Byte) (s : State) : Outcome :=
  serve 0x16 p tag s (writeDefaultZone cap)

/-! ### MAP IMPORT (R17, R18) -/

/-- The data of an accepted MAP IMPORT (R18). -/
def Inserted.data (i : Inserted) : List Byte :=
  [if i.replaced then 1 else 0, byte i.displaced] ++ addrField i.evicted ++ bytes4 i.seq
    ++ [byte i.map.records.length]

/-- MAP IMPORT with its checks in order (R17). -/
def importRecord (address : Addr) (coordinate : BitVec 16) (s : State) : State × Status × List Byte :=
  if s.supervisor.cls = none ∨ s.supervisor.drive = .identifying then (s, .noDisc, [])
  else if s.arbiter.releaseLatch then (s, .releasing, [])
  else
    match s.map.insert address.toNat coordinate.toNat .imported with
    | none => (s, .outOfRange, [])
    | some i => (s.setMap i.map, .accepted, i.data)

/-- MAP IMPORT (R17). -/
def execMapImport (p : Port) (tag : Byte) (address : Addr) (coordinate : BitVec 16) (s : State) : Outcome :=
  serve 0x18 p tag s (importRecord address coordinate)

/-! ### RECOVERY SETTINGS (R185) -/

def execRecoverySettings (p : Port) (tag retry time : Byte) (s : State) : Outcome :=
  serve 0x19 p tag s fun s =>
    (s.setRecovery { s.recovery with retryCount := clampRetry retry, amTime := clampMonitorTime time },
      .accepted, [byte (clampRetry retry), byte (clampMonitorTime time)])

/-! ### CLEAR FAULT (R167) -/

/-- The fault and unreached records are cleared (R64, R167). -/
def clearRecords (s : State) : State :=
  (s.setSupervisor { s.supervisor with fault := none }).setPlanner { s.planner with unreached := none }

/-- An identification of origin CLEAR_FAULT for a clamped disc, EMPTY otherwise (R167). -/
def identifyOrEmpty (s : State) : State :=
  if s.supervisor.clamp = .clamped then startIdent .clearFault s else enterEmpty s

/-- Where CLEAR FAULT moves a FAULTED drive, by the kind the record held (R167). The release latch still set with a class
held is a RELEASE that SPINDLE_STOP_FAIL ended, where R124 starts an identification and R167 none: a free choice
(entry 34). -/
def leaveFaulted (held : Option FaultRecord) (s : State) : State :=
  match held.map FaultRecord.kind with
  | some .discUnreadable | some .homeFailed => identifyOrEmpty s
  | _ =>
    if s.supervisor.cls = none ∨ s.arbiter.releaseLatch = true ∧ Config.latchedFaultIdentifies = true then
      identifyOrEmpty s
    else parkOrStop s

/-- CLEAR FAULT on the state (R167). -/
def clearFault (s : State) : State :=
  if s.supervisor.drive = .faulted then react (leaveFaulted s.supervisor.fault (clearRecords s)) else clearRecords s

/-- CLEAR FAULT (R167). -/
def execClearFault (p : Port) (tag : Byte) (s : State) : Outcome :=
  serve 0x1B p tag s fun s =>
    let s1 := clearFault s
    (s1, .accepted, [s1.supervisor.drive.code])

/-! ### SOFT RESET (R202) -/

/-- SOFT RESET: answered now, in effect at the end of its reply (R202). -/
def execSoftReset (p : Port) (tag : Byte) (s : State) : Outcome :=
  serve 0x1C p tag s fun s => (s.setPort p { s.port p with resetArmed := true }, .accepted, [])

end Sys2Proof.Machine
end

