-- ==== Sys2Proof/Machine/StreamRequests.lean ====
section
/-! DEFINITION. ADDRESS REPORT and RESUME AT (R105 to R117). -/

namespace Sys2Proof.Machine

/-! ### ADDRESS REPORT -/

/-- The class a report is judged against: the candidate in IDENTIFYING, else the class held (R106). -/
def reportClass (s : State) : Option DiscClass :=
  if s.supervisor.drive = .identifying then candidate s else s.supervisor.cls

/-- The conditions under which a GOOD report in range is IGNORED: those of R108, and the drive in SAG_HOLD (R108, R159). -/
def setsReportAside (s : State) : Bool :=
  s.optics.focus != .locked || s.optics.tracking == .off || s.optics.tracking == .jump ||
    s.planner.legStage == .running || s.planner.legStage == .settling || activePhase s == some .suspended ||
    s.supervisor.drive == .sagHold

/-- A coordinate off the expected course by more than 2 tracks (R112). -/
def offCourse (c : Nat) (s : State) : Bool :=
  match s.monitor.expectedBase with
  | some b => decide (2 < ((c : Int) - ((b : Int) + s.monitor.jumpSum)).natAbs)
  | none => false

/-- Whether the expected-coordinate check is made and fails (R112). -/
def jumps (a : Nat) (s : State) : Bool :=
  s.supervisor.drive == .onTrack && fixFresh s && (s.map.predict a).any (fun c => offCourse c s)

/-- A confirming address reaches the drive supervisor (R109, R153, R155). -/
def confirming (k : DiscClass) (a : Nat) (s : State) : State :=
  if s.supervisor.ident.any (fun i => !i.paused && i.step == some .window) then confirm k a s else s

/-- The address monitor judges a report (R106 to R112). -/
def judge (a : Nat) (good : Bool) (s : State) : State × Disposition :=
  match reportClass s with
  | none => (s, .ignored)
  | some k =>
    if good = false ∨ k.maxAddress < a then (countBad s, .bad)
    else if setsReportAside s then (s, .ignored)
    else if s.supervisor.drive = .identifying then (confirming k a s, .confirm)
    else if jumps a s then (takeDisturbance .addressJump (staleFix s), .jump)
    else (takeFix a s, .fix)

/-- ADDRESS REPORT on the state (R105). -/
def reportAddress (address : Addr) (flag : Byte) (s : State) : State × Status × List Byte :=
  match goodFlag? flag with
  | none => (s, .outOfRange, [])
  | some good =>
    let r := judge address.toNat good s
    (react r.1, .accepted, [r.2.code])

/-- ADDRESS REPORT (R105). -/
def execAddressReport (p : Port) (tag : Byte) (address : Addr) (flag : Byte) (s : State) : Outcome :=
  serve 0x20 p tag s (reportAddress address flag)

/-! ### RESUME AT -/

/-- RESUME AT on the state (R116). -/
def resumeAt (address : Option Addr) (s : State) : State × Status × List Byte :=
  match s.supervisor.cls with
  | none => (s, .noDisc, [])
  | some k =>
    let r := address.map (fun a => min a.toNat k.maxAddress)
    (s.setMonitor { s.monitor with resume := r }, .accepted, addrField r)

/-- RESUME AT (R116). -/
def execResumeAt (p : Port) (tag : Byte) (address : Option Addr) (s : State) : Outcome :=
  serve 0x21 p tag s (resumeAt address)

end Sys2Proof.Machine
end

