-- ==== Sys2Proof/Machine/Link.lean ====
section
/-! DEFINITION. Events of the link: select lines, the end of a reply, raw frames, the power-on reset, the holdoff
timer (R187 to R189, R198, R200, R202, R203). -/

namespace Sys2Proof.Machine

/-! ### Select line -/

/-- The select line falls: IDLE becomes RECEIVING (R188). -/
def execSelectFall (p : Port) (s : State) : Outcome :=
  if (s.port p).decoder = .idle then .next (s.setPort p { s.port p with decoder := .receiving }) else .next s

/-- The decoder at a rise of the select line: IDLE, the rest of a reply lost, an unfinished read undone (R188, R198). -/
def PortState.released (p : PortState) : PortState :=
  { p with decoder := .idle, reply := none, reading := false, headRenewed := false }

/-- The select line rises (R188); an accepted SOFT RESET takes effect (R202). -/
def execSelectRelease (p : Port) (s : State) : Outcome :=
  .next (softResetDue p (s.setPort p (s.port p).released))

/-! ### The end of a reply -/

/-- A completed read takes the head entry from the queue, and the record of a motion with its completion report
(R121, R196, R198). -/
def endReport (p : Port) (s : State) : State :=
  let q := s.port p
  if q.reading then
    let s1 := s.setPort p q.endRead
    match q.readCompletion with
    | some tag => discardDone p tag s1
    | none => s1
  else s

/-- The last bit of the reply's check byte has been sent, and before it the turnaround byte: TURNAROUND, REPLYING,
FINISHED (R188, R198, R202; entry 6). -/
def execReplyComplete (p : Port) (s : State) : Outcome :=
  let s0 := s.setPort p (s.port p).turnaroundEnds
  if (s0.port p).decoder = .replying then
    let s1 := endReport p s0
    .next (softResetDue p (s1.setPort p { s1.port p with decoder := .finished, reply := none }))
  else .next s

/-! ### Raw frames -/

/-- The request a frame spells is served as the request's own command is. -/
def execRequest (i : Instr) (s : State) : Outcome :=
  match i with
  | .readStatus p tag => execReadStatus p tag s
  | .readReport p tag => execReadReport p tag s
  | .setNoticeMask p tag mask => execSetNoticeMask p tag mask s
  | .setHoldoff p tag value => execSetHoldoff p tag value s
  | .readIdentity p tag => execReadIdentity p tag s
  | .seek p tag target speed => execSeek p tag target speed s
  | .follow p tag start speed e => execFollow p tag start speed e s
  | .stop p tag => execStop p tag s
  | .cancel p tag which => execCancel p tag which s
  | .setZone p tag index enabled base mask cap access => execSetZone p tag index enabled base mask cap access s
  | .readZone p tag index => execReadZone p tag index s
  | .setDefaultZone p tag cap => execSetDefaultZone p tag cap s
  | .readMap p tag index => execReadMap p tag index s
  | .mapImport p tag address coordinate => execMapImport p tag address coordinate s
  | .recoverySettings p tag retry time => execRecoverySettings p tag retry time s
  | .readFault p tag => execReadFault p tag s
  | .clearFault p tag => execClearFault p tag s
  | .softReset p tag => execSoftReset p tag s
  | .addressReport p tag address flag => execAddressReport p tag address flag s
  | .resumeAt p tag address => execResumeAt p tag address s
  | .rejoin p tag target => execRejoin p tag target s
  | .release p tag => execRelease p tag s
  | .clampState p tag value => execClampState p tag value s
  | .supplyState p tag value => execSupplyState p tag value s
  | .unknownKind _ _ | .selectRelease _ | .replyComplete _ | .powerOnReset | .holdoffExpiry _ => .next s
  | .addressMonitorTimerExpiry | .settleEnd | .tachometerReading _ | .lockTestComplete => .next s
  | .lockLimitExpiry | .stopLimitExpiry | .profileSwitchComplete | .focusCapture => .next s
  | .attemptTimerExpiry | .focusDrop _ | .offTrack _ | .trackCrossing | .sledStep _ => .next s
  | .homeSwitchClose | .creepThreshold | .candidateWindowEnd | .sagTimerExpiry => .next s
  | .retrackWindowEnd | .roughExit | .selectFall _ | .trackingClosed => .next s

/-- A frame as it stands on the link: refused by the first of the checks 1 to 3 of R189 that fails, with the tag byte as
received, and otherwise the request it spells. An incomplete frame, or one the decoder is not RECEIVING, has no effect
(R187 to R189; entries 5 and 8). -/
def execUnknownKind (p : Port) (frame : List Byte) (s : State) : Outcome :=
  if (s.port p).decoder ≠ .receiving ∨ frameComplete frame = false then .next s
  else
    match decodeFrame p frame with
    | .error e => .next (s.answer p (frame.getD 1 0) (frameStatus e) [])
    | .ok i => execRequest i s

/-! ### Reset and holdoff -/

/-- The reset pin is released (R202). -/
def execPowerOnReset (s : State) : Outcome := .next (resetAll .powerOn s)

/-- The holdoff timer of a port expires (R200). -/
def execHoldoffExpiry (p : Port) (s : State) : Outcome :=
  if (s.port p).attention = .holdoff then
    let s1 := passTime ((s.port p).holdoffLeft / 10) s
    .next (s1.setPort p (s1.port p).holdoffEnds)
  else .next s

end Sys2Proof.Machine
end

