-- ==== Sys2Proof/Machine/Loops.lean ====
section
/-! DEFINITION. Events of the optical loops: captures, drops, slips, crossings, closes, and the timers of searches and
profile switches (R84 to R93), with what each reports to the block that asked. -/

namespace Sys2Proof.Machine

/-! ### Reports to the drive supervisor's identification (R153, R154, R161) -/

/-- A profile try in progress, not paused and with no restart waited for, stands at a step. -/
def tryStands (step : ProfileStep) (s : State) : Bool :=
  s.supervisor.ident.any (fun i => !i.paused && !i.restart && i.step == some step)

/-- A profile try that is not paused stands at a step, where a failure fails it (R154). -/
def tryCanFail (step : ProfileStep) (s : State) : Bool :=
  s.supervisor.ident.any (fun i => !i.paused && i.step == some step)

/-! ### PROFILE_SWITCH_COMPLETE -/

/-- The laser of the named profile is lit, and a search command that was stored begins (R84, R86). -/
def switchEnds (k : DiscClass) (s : State) : State :=
  let s1 := s.setOptics { s.optics with profile := some k, switch := none }
  match s1.optics.storedSearch with
  | some (r, count) => beginSearch r count s1
  | none => s1

/-- The profile switch has run 50 ms (R84, R153). -/
def execProfileSwitchComplete (s : State) : Outcome :=
  match s.optics.switch with
  | none => .next s
  | some (k, since) =>
    let s1 := switchEnds k (runTo since 50 s)
    .next (react (if tryStands .switching s1 then trySearch tryFails s1 else s1))

/-! ### FOCUS_CAPTURE -/

/-- A lock is reported to the requester of the search (R39, R87, R153, R175). -/
def reportLock (r : Option Requester) (s : State) : State :=
  match r with
  | some .planner => if s.planner.acquireStep = .search then acquireClose s else s
  | some .recovery => if s.recovery.phase = .refocus then beginRetrack s else s
  | some .supervisor => if tryStands .searching s then tryClose tryFails s else s
  | none => s

/-- A capture that reaches a later attempt in the very moment it began is the failed attempt's: the lens has been drawn
back, and it is discarded (R87; entry 32). -/
def captureLate (s : State) : Bool := decide (1 < s.optics.attempt) && s.optics.attemptTimer == some s.clock

/-- The sweep captures focus (R87). -/
def execFocusCapture (s : State) : Outcome :=
  if s.optics.focus = .search ∧ captureLate s = false then
    .next (react (reportLock s.optics.requester (setFocus .locked (s.setOptics { s.optics with
      attempt := 0, attemptTimer := none, requester := none }))))
  else .next s

/-! ### ATTEMPT_TIMER_EXPIRY -/

/-- A failed search is reported to its requester (R40, R154, R175). -/
def reportNoLock (r : Option Requester) (s : State) : State :=
  match r with
  | some .planner => if s.planner.acquireStep = .search then raiseFault .focusUnrecoverable s else s
  | some .recovery => if s.recovery.phase = .refocus then raiseFault .focusUnrecoverable s else s
  | some .supervisor => if tryCanFail .searching s then tryFails s else s
  | none => s

/-- An attempt has failed: a new sweep, or the search has failed (R87). -/
def attemptFails (s : State) : State :=
  if s.optics.attempt < s.optics.allowed then
    s.setOptics { s.optics with attempt := s.optics.attempt + 1, attemptTimer := some s.clock }
  else
    reportNoLock s.optics.requester (setFocus .off (s.setOptics { s.optics with
      attempt := 0, attemptTimer := none, requester := none }))

/-- The attempt timer has run 300 ms (R87). -/
def execAttemptTimerExpiry (s : State) : Outcome :=
  match s.optics.attemptTimer with
  | none => .next s
  | some since => .next (react (attemptFails (runTo since 300 s)))

/-! ### FOCUS_DROP -/

/-- Focus is LOST and the loops open; a fine leg's jump in flight ends short (R47, R88, R93). -/
def loseFocus (s : State) : State :=
  let s1 := loopsOpen .lost s
  if s1.planner.legStage = .running ∧ s1.planner.legKind = .fine then s1.setPlanner s1.planner.legOver else s1

/-- What the loss of focus comes to in the drive state it finds (R88, R154, R159). -/
def focusLost (s : State) : State :=
  if raises s then takeDisturbance .focusLost (loseFocus (disturbLeg s))
  else
    let s1 := loseFocus s
    if s1.supervisor.drive = .sagHold then s1.setSupervisor { s1.supervisor with focusLostInSag := true }
    else if tryCanFail .closing s1 || tryCanFail .window s1 then tryFails s1
    else s1

/-- The light has stayed low for longer than the drop time while LOCKED (R88, R95). -/
def execFocusDrop (lowUs : Nat) (s : State) : Outcome :=
  if s.optics.focus = .locked ∧ dropTimeUs s.optics.robustGain < lowUs then .next (react (focusLost s)) else .next s

/-! ### OFF_TRACK -/

/-- The spot has lain off the track for longer than the off-track time while CLOSED or HOLD: TRACK_SLIP, or in other
drive states pulled back with no event (R91, R95). -/
def execOffTrack (offUs : Nat) (s : State) : Outcome :=
  if (s.optics.tracking = .closed ∨ s.optics.tracking = .hold) ∧ offTrackTimeUs s.optics.robustGain < offUs ∧
      raises s then
    .next (react (takeDisturbance .trackSlip (trackingOff s)))
  else .next s

/-! ### TRACK_CROSSING -/

/-- A back-jump is complete: a fine leg's jump stored behind it begins from HOLD, and is a short leg where tracking has
opened (R92). -/
def backJumpEnds (s : State) : State :=
  match s.optics.storedJump with
  | none => s
  | some k =>
    let s1 := s.setOptics { s.optics with storedJump := none }
    if s1.optics.tracking = .off then lapseLeg s1 else beginJump k .leg s1

/-- The jump has crossed its tracks (R92). -/
def jumpEnds (s : State) : State :=
  if s.optics.jumpOrigin = .leg then fineLegEnds (completeJump s) else backJumpEnds (completeJump s)

/-- The spot crosses one track of a jump (R92). -/
def execTrackCrossing (s : State) : Outcome :=
  if s.optics.tracking = .jump then
    let s1 := s.setOptics { s.optics with crossings := s.optics.crossings + 1 }
    .next (react (if s1.optics.jumpCount.natAbs ≤ s1.optics.crossings then jumpEnds s1 else s1))
  else .next s

/-! ### TRACKING_CLOSED -/

/-- A close is reported to one sender, which sets it aside when it no longer waits for it (R39, R90, R153, R176, R183). -/
def reportClose (s : State) (r : Requester) : State :=
  match r with
  | .planner =>
      if s.planner.acquireStep = .close then s.setPlanner { s.planner with acquireStep := .wait } else s
  | .recovery =>
      if s.recovery.phase = .retrack then s.setRecovery { s.recovery with window := some s.clock } else s
  | .supervisor => if tryStands .closing s then tryWindow s else s

/-- The spot is pulled onto the nearest track, and the close is reported to its senders (R90; entry 11). -/
def execTrackingClosed (s : State) : Outcome :=
  if s.optics.closers ≠ [] ∧ s.optics.focus = .locked ∧ s.optics.tracking = .off then
    .next (react (s.optics.closers.foldl reportClose
      (trackingOn (s.setOptics { s.optics with closers := [] }))))
  else .next s

end Sys2Proof.Machine
end

