-- ==== Sys2Proof/Machine/SledEvents.lean ====
section
/-! DEFINITION. Events of the sled: steps, the home switch, the creep threshold (R98 to R103). -/

namespace Sys2Proof.Machine

/-! ### Homing (R98, R99) -/

/-- A homing reported complete (R151, R163). -/
def homingComplete (s : State) : State :=
  if s.supervisor.drive = .releasing ∧ activePhase s = some .homing then enterReleased s
  else if identIn .homing s then identPosition s
  else s

/-- A step of a homing: a stop ends it, a closed switch completes it, the 2,000th open step fails it (R98, R99;
entry 23). -/
def homingStep (closed : Bool) (s : State) : State :=
  let sl : Sled := { s.sled with taken := s.sled.taken + 1, homeClosed := closed }
  if sl.stopPending then
    s.setSled { sl with state := .idle, position := none, stopPending := false, requester := none }
  else if closed then homingComplete (s.setSled sl.homed)
  else if 2000 ≤ sl.taken then
    raiseFault .homeFailed (s.setSled { sl with state := .idle, position := none, requester := none })
  else s.setSled sl

/-! ### Legs (R100, R101) -/

/-- A leg is over and reported to its requester; an identification that waits to position the sled goes on (R50, R100,
R151). -/
def legReported (full : Bool) (s : State) : State :=
  let r := s.sled.requester
  let s1 := s.setSled (s.sled.legOver s.optics.tracking)
  let s2 := if r = some .planner then sledLegEnds full s1 else s1
  if identIn .positioning s2 then
    if r = some .supervisor ∧ full = true then identSpin s2 else identPosition s2
  else s2

/-- A step of a leg: the position moves by one, the switch corrects it, and the leg ends full, or cut by a stop, a
correction or the end of the rail (R100, R101). -/
def legStep (x : Nat) (closed : Bool) (s : State) : State :=
  let moved := if 0 ≤ s.sled.legSteps then x + 1 else x - 1
  let corrected := closed && !s.sled.homeClosed && decide (0 < moved)
  let x' := if corrected then 0 else moved
  let taken := s.sled.taken + 1
  let s1 := s.setSled { s.sled with position := some x', taken := taken, homeClosed := closed }
  if s.sled.legSteps.natAbs ≤ taken then legReported true s1
  else if corrected || s.sled.stopPending || beyondRail s.sled.legSteps x' then legReported false s1
  else s1

/-! ### SLED_STEP, HOME_SWITCH_CLOSE, CREEP_THRESHOLD -/

/-- A step that ends with no leg and no homing in progress: the one that was in progress at a reset (R103). The home
switch is read, and one that closes corrects a known position (R101). -/
def Sled.lastStep (closed : Bool) (sl : Sled) : Sled :=
  { sl with
    homeClosed := closed
    position := if closed && !sl.homeClosed then sl.position.map (fun _ => 0) else sl.position }

/-- The stepper completes a step: of a leg, of a homing that is not paused, or the one that a reset found in progress
(R98 to R100, R103; entry 29). -/
def execSledStep (closed : Bool) (s : State) : Outcome :=
  match s.sled.state, s.sled.position with
  | .homing, _ => if s.sled.paused then .next s else .next (react (homingStep closed s))
  | .leg, some x => .next (react (legStep x closed s))
  | _, _ => .next (s.setSled (s.sled.lastStep closed))

/-- The home switch closes: outside HOMING a known position above 0 becomes 0, and a leg ends cut there (R101). -/
def execHomeSwitchClose (s : State) : Outcome :=
  let s1 := s.setSled { s.sled with homeClosed := true }
  match s1.sled.state, s1.sled.position with
  | .homing, _ | _, none => .next s1
  | st, some x =>
    if x = 0 then .next s1
    else
      let s2 := s1.setSled { s1.sled with position := some 0 }
      .next (react (if st = .leg then legReported false s2 else s2))

/-- The creep threshold is crossed: in CREEP one step outward, up to the end of the rail (R102; entry 10). -/
def execCreepThreshold (s : State) : Outcome :=
  match s.sled.state, s.sled.position with
  | .creep, some x =>
      if x < 1800 then .next (s.setSled { s.sled with position := some (x + 1), homeClosed := false }) else .next s
  | _, _ => .next s

end Sys2Proof.Machine
end

