-- ==== Sys2Proof/Machine/SpindleEvents.lean ====
section
/-! DEFINITION. Events of the spindle: tachometer readings, the lock test, the lock and stop limits (R73 to R76, R81). -/

namespace Sys2Proof.Machine

/-- What a reading raises or reports: a slip, or stopped (R75, R76). -/
def readingReports (before : Spindle) (rpm : Nat) (s : State) : State :=
  if before.slips rpm then (if raises s then takeDisturbance .spindleSlip s else s)
  else if before.stops rpm then spindleReportsStopped s
  else s

/-- A tachometer reading (R73 to R76, R81). -/
def execTachometerReading (rpm : Nat) (s : State) : Outcome :=
  .next (react (readingReports s.spindle rpm (s.setSpindle (s.spindle.read s.clock rpm))))

/-- LOCKED is entered, and ends RESPIN (R74, R78, R178). -/
def enterLocked (s : State) : State :=
  let s1 := s.setSpindle { s.spindle with state := .locked, lockTest := none, lockLimit := none }
  if s1.recovery.phase = .respin then respinEnds s1 else s1

/-- The lock test has run 100 ms (R74). -/
def execLockTestComplete (s : State) : Outcome :=
  match s.spindle.lockTest with
  | none => .next s
  | some since => .next (react (enterLocked (runTo since 100 s)))

/-- The lock limit has run 2,000 ms: a lock failure (R74, R165). -/
def lockFails (s : State) : State :=
  raiseFault .spindleUnlocked (s.setSpindle { s.spindle with lockLimit := none })

/-- The lock limit runs out (R74). -/
def execLockLimitExpiry (s : State) : Outcome :=
  match s.spindle.lockLimit with
  | none => .next s
  | some since => .next (react (lockFails (runTo since 2000 s)))

/-- The stop limit has run 3,000 ms: a stop failure; the braking goes on (R76, R165, R166). -/
def stopFails (s : State) : State :=
  raiseFault .spindleStopFail (s.setSpindle { s.spindle with stopLimit := none })

/-- The stop limit runs out (R76). -/
def execStopLimitExpiry (s : State) : Outcome :=
  match s.spindle.stopLimit with
  | none => .next s
  | some since => .next (react (stopFails (runTo since 3000 s)))

end Sys2Proof.Machine
end

