-- ==== Sys2Proof/Machine/Timers.lean ====
section
/-! DEFINITION. The timers of the address monitor, the seek planner, the drive supervisor and the recovery controller
(R51, R114, R153, R160, R172, R176). Each acts only while its timer runs; the clock is then brought up to the time at
which it runs out (entry 3). -/

namespace Sys2Proof.Machine

/-- The address-monitor timer reaches its limit: ADDRESS_STARVED in ON_TRACK, MOVING and RECOVERING; in all states the
timer then restarts (R114). -/
def execAddressMonitorTimerExpiry (s : State) : Outcome :=
  if monitorRunning s then
    let s1 := passTime (s.monitor.limit - s.monitor.elapsed) s
    .next (react (restartMonitor (if raises s1 then takeDisturbance .addressStarved s1 else s1)))
  else .next s

/-- The settle runs out (R51). -/
def execSettleEnd (s : State) : Outcome :=
  if s.planner.legStage = .settling then
    .next (react (settleEnds (runTo s.planner.settleSince (settleTime s.planner.legKind) s)))
  else .next s

/-- What a candidate window that runs has run (R151, R153). -/
def windowRun (s : State) : Option Nat :=
  s.supervisor.ident.bind (fun i => if i.paused || i.restart then none else i.window)

/-- The candidate window ends without a confirming address: the try has failed (R153, R154). -/
def execCandidateWindowEnd (s : State) : Outcome :=
  match windowRun s with
  | none => .next s
  | some w => .next (react (tryFails (passTime (500 - w) s)))

/-- The sag timer has run 3,000 ms in SAG_HOLD (R160). -/
def execSagTimerExpiry (s : State) : Outcome :=
  match s.supervisor.sagTimer with
  | none => .next s
  | some since => .next (react (sagPark (runTo since 3000 s)))

/-- The retrack window has run 50 ms: RETRACK ends and REFIX begins (R176). -/
def execRetrackWindowEnd (s : State) : Outcome :=
  match s.recovery.window with
  | none => .next s
  | some since =>
    if s.recovery.phase = .retrack then .next (react (beginRefix (runTo since 50 s))) else .next s

/-- The milliseconds until a time that lies ahead, 0 for one that has come (00, "Time"). -/
def untilTime (t now : Time) : Nat := if (t - now).toNat < 2147483648 then (t - now).toNat else 0

/-- The ROUGH exit arrives: ROUGH is left and the exit disarmed (R172). -/
def execRoughExit (s : State) : Outcome :=
  match s.recovery.roughExit with
  | none => .next s
  | some t =>
    let s1 := passTime (untilTime t s.clock) s
    .next (react (setRough false (s1.setRecovery { s1.recovery with roughExit := none })))

end Sys2Proof.Machine
end

