-- ==== Sys2Proof/Machine/Dispatch.lean ====
section
/-! DEFINITION. One arm per command: each is one call of its meaning. -/

namespace Sys2Proof.Machine

def exec (i : Instr) (s : State) : Host.Outcome State Fault Refusal :=
  match i with
  | .readStatus p tag => Sys2Proof.Machine.execReadStatus p tag s
  | .readReport p tag => Sys2Proof.Machine.execReadReport p tag s
  | .setNoticeMask p tag mask => Sys2Proof.Machine.execSetNoticeMask p tag mask s
  | .setHoldoff p tag value => Sys2Proof.Machine.execSetHoldoff p tag value s
  | .readIdentity p tag => Sys2Proof.Machine.execReadIdentity p tag s
  | .seek p tag target speed => Sys2Proof.Machine.execSeek p tag target speed s
  | .follow p tag start speed e => Sys2Proof.Machine.execFollow p tag start speed e s
  | .stop p tag => Sys2Proof.Machine.execStop p tag s
  | .cancel p tag which => Sys2Proof.Machine.execCancel p tag which s
  | .setZone p tag index enabled base mask cap access => Sys2Proof.Machine.execSetZone p tag index enabled base mask cap access s
  | .readZone p tag index => Sys2Proof.Machine.execReadZone p tag index s
  | .setDefaultZone p tag cap => Sys2Proof.Machine.execSetDefaultZone p tag cap s
  | .readMap p tag index => Sys2Proof.Machine.execReadMap p tag index s
  | .mapImport p tag address coordinate => Sys2Proof.Machine.execMapImport p tag address coordinate s
  | .recoverySettings p tag retry time => Sys2Proof.Machine.execRecoverySettings p tag retry time s
  | .readFault p tag => Sys2Proof.Machine.execReadFault p tag s
  | .clearFault p tag => Sys2Proof.Machine.execClearFault p tag s
  | .softReset p tag => Sys2Proof.Machine.execSoftReset p tag s
  | .addressReport p tag address flag => Sys2Proof.Machine.execAddressReport p tag address flag s
  | .resumeAt p tag address => Sys2Proof.Machine.execResumeAt p tag address s
  | .rejoin p tag target => Sys2Proof.Machine.execRejoin p tag target s
  | .release p tag => Sys2Proof.Machine.execRelease p tag s
  | .clampState p tag value => Sys2Proof.Machine.execClampState p tag value s
  | .supplyState p tag value => Sys2Proof.Machine.execSupplyState p tag value s
  | .unknownKind p frame => Sys2Proof.Machine.execUnknownKind p frame s
  | .selectRelease p => Sys2Proof.Machine.execSelectRelease p s
  | .replyComplete p => Sys2Proof.Machine.execReplyComplete p s
  | .powerOnReset => Sys2Proof.Machine.execPowerOnReset s
  | .holdoffExpiry p => Sys2Proof.Machine.execHoldoffExpiry p s
  | .addressMonitorTimerExpiry => Sys2Proof.Machine.execAddressMonitorTimerExpiry s
  | .settleEnd => Sys2Proof.Machine.execSettleEnd s
  | .tachometerReading rpm => Sys2Proof.Machine.execTachometerReading rpm s
  | .lockTestComplete => Sys2Proof.Machine.execLockTestComplete s
  | .lockLimitExpiry => Sys2Proof.Machine.execLockLimitExpiry s
  | .stopLimitExpiry => Sys2Proof.Machine.execStopLimitExpiry s
  | .profileSwitchComplete => Sys2Proof.Machine.execProfileSwitchComplete s
  | .focusCapture => Sys2Proof.Machine.execFocusCapture s
  | .attemptTimerExpiry => Sys2Proof.Machine.execAttemptTimerExpiry s
  | .focusDrop lowUs => Sys2Proof.Machine.execFocusDrop lowUs s
  | .offTrack offUs => Sys2Proof.Machine.execOffTrack offUs s
  | .trackCrossing => Sys2Proof.Machine.execTrackCrossing s
  | .sledStep closed => Sys2Proof.Machine.execSledStep closed s
  | .homeSwitchClose => Sys2Proof.Machine.execHomeSwitchClose s
  | .creepThreshold => Sys2Proof.Machine.execCreepThreshold s
  | .candidateWindowEnd => Sys2Proof.Machine.execCandidateWindowEnd s
  | .sagTimerExpiry => Sys2Proof.Machine.execSagTimerExpiry s
  | .retrackWindowEnd => Sys2Proof.Machine.execRetrackWindowEnd s
  | .roughExit => Sys2Proof.Machine.execRoughExit s
  | .selectFall p => Sys2Proof.Machine.execSelectFall p s
  | .trackingClosed => Sys2Proof.Machine.execTrackingClosed s

end Sys2Proof.Machine
end

