-- ==== Sys2Proof/Machine/Idle.lean ====
section
/-! DEFINITION. What the part does on an empty queue: its clock runs, and a timer that has run out fires (entries 1 and
2). -/

namespace Sys2Proof.Machine

/-- A timer of `limit` ms that started at `since` has run out. -/
def ranOut (since : Option Time) (limit : Nat) (s : State) : Bool :=
  since.any (fun t => limit ≤ elapsedSince t s.clock)

/-- A command that is due, as a list. -/
def dueIf (b : Bool) (c : Instr) : List Instr := if b then [c] else []

/-- The holdoff timer of a port has run out (R200). -/
def holdoffRanOut (p : PortState) : Bool := p.attention == .holdoff && p.holdoffLeft == 0

/-- The timers that have run out, as the commands of the table they are (R51, R74, R76, R84, R87, R114, R153, R160,
R172, R176, R200). -/
def due (s : State) : List Instr :=
  dueIf (holdoffRanOut s.control) (.holdoffExpiry .control)
  ++ dueIf (holdoffRanOut s.stream) (.holdoffExpiry .stream)
  ++ dueIf (holdoffRanOut s.mechanism) (.holdoffExpiry .mechanism)
  ++ dueIf (monitorRunning s && s.monitor.limit ≤ s.monitor.elapsed) .addressMonitorTimerExpiry
  ++ dueIf (s.planner.legStage == .settling &&
      ranOut (some s.planner.settleSince) (settleTime s.planner.legKind) s) .settleEnd
  ++ dueIf (ranOut s.spindle.lockTest 100 s) .lockTestComplete
  ++ dueIf (ranOut s.spindle.lockLimit 2000 s) .lockLimitExpiry
  ++ dueIf (ranOut s.spindle.stopLimit 3000 s) .stopLimitExpiry
  ++ dueIf (ranOut (s.optics.switch.map Prod.snd) 50 s) .profileSwitchComplete
  ++ dueIf (ranOut s.optics.attemptTimer 300 s) .attemptTimerExpiry
  ++ dueIf ((windowRun s).any (500 ≤ ·)) .candidateWindowEnd
  ++ dueIf (ranOut s.supervisor.sagTimer 3000 s) .sagTimerExpiry
  ++ dueIf (s.recovery.phase == .retrack && ranOut s.recovery.window 50 s) .retrackWindowEnd
  ++ dueIf (s.recovery.roughExit.any (fun t => untilTime t s.clock == 0)) .roughExit

/-- A port when a millisecond passes: the turnaround byte may have been clocked, and REPLYING follows, or its master may
take longer, for R186 sets no limit; the free choice says which (R186 to R188; entry 6). -/
def turnaroundMayEnd (n : Nat) (q : Port) (p : PortState) : PortState :=
  if p.decoder = .turnaround ∧ Config.turnaroundClocked n (portCode q) = true then p.turnaroundEnds else p

/-- The turnaround bytes of the three ports when a millisecond passes; the next one chooses anew. -/
def turnaroundsMayEnd (s : State) : State :=
  { s with
    control := turnaroundMayEnd s.picks .control s.control
    stream := turnaroundMayEnd s.picks .stream s.stream
    mechanism := turnaroundMayEnd s.picks .mechanism s.mechanism
    picks := s.picks + 1 }

/-- An empty queue: with no timer due a millisecond passes, in which turnaround bytes may end (entry 6); one due fires;
of several, the one that the free choice names fires first (entries 1 and 2). -/
def idle (s : State) : Outcome :=
  match due s with
  | [] => .next (passTime 1 (turnaroundsMayEnd s))
  | [c] => exec c s
  | c :: more =>
    exec ((c :: more).getD (Config.dueChoice s.picks % (c :: more).length) c) { s with picks := s.picks + 1 }

end Sys2Proof.Machine
end

