-- ==== Sys2Proof/Safety.lean ====
section
/-! DEFINITION. What the manual says is always so, as predicates on a state. Each is kept by every step from every state
that meets it, reachable or not; where the manual's own sentence is not enough for that, the predicate adds what is. -/

namespace Sys2Proof.Safety

open Sys2Proof.Machine

/-! ### Ranges -/

/-- The trim lies from 3,686 to 4,506 (R57). -/
abbrev TrimOk (s : State) : Prop := 3686 ≤ s.planner.trim ∧ s.planner.trim ≤ 4506

/-- The recovery settings and the retry limit lie in their ranges (R169, R185). -/
abbrev SettingsOk (s : State) : Prop :=
  (1 ≤ s.recovery.retryCount ∧ s.recovery.retryCount ≤ 8) ∧
  (20 ≤ s.recovery.amTime ∧ s.recovery.amTime ≤ 250) ∧
  (1 ≤ s.recovery.retryLimit ∧ s.recovery.retryLimit ≤ 8)

/-- The spindle target is 0 or lies from 150 to 4,000 rpm (R67). -/
abbrev TargetOk (s : State) : Prop := s.spindle.target = 0 ∨ (150 ≤ s.spindle.target ∧ s.spindle.target ≤ 4000)

/-- The disturbance history holds at most 8 entries (R171). -/
abbrev HistoryOk (s : State) : Prop := s.recovery.history.length ≤ 8

/-- The zone table holds its eight entries (R23). -/
abbrev ZonesOk (s : State) : Prop := s.zones.entries.length = 8

/-! ### Speed -/

/-- The effective speed multiple never exceeds the held speed, and is 1 while ROUGH (R71). -/
abbrev SpeedOk (s : State) : Prop :=
  s.spindle.m.val ≤ s.spindle.held.val ∧ (s.recovery.rough = true → s.spindle.m = .one)

/-- The robust gain is on exactly while the ROUGH flag is on (R83, R95). -/
abbrev GainOk (s : State) : Prop := s.optics.robustGain = s.recovery.rough

/-! ### Report queues -/

/-- How many unread notices of a kind a queue holds. -/
def noticeCount (code : Nat) (q : List Report) : Nat := q.countP (Report.isNotice code)

/-- A queue holds at most one notice of each kind (R195). -/
abbrev OneOfEachKind (q : List Report) : Prop := ∀ code, noticeCount code q ≤ 1

/-- An attention line is ASSERTED only while its queue is not empty, and QUIET only while it is (R200). -/
abbrev AttentionOk (p : PortState) : Prop :=
  (p.attention = .asserted → p.queue ≠ []) ∧ (p.attention = .quiet → p.queue = [])

/-- Only a notice at the head of the queue can have been renewed while it was read (R198). -/
def HeadOk (p : PortState) : Prop :=
  p.headRenewed = true → ∃ n r rest, p.queue = .notice n r :: rest

/-- A port's queue, its attention line and its read in progress agree (R195, R198, R200). -/
abbrev QueueOk (p : PortState) : Prop := OneOfEachKind p.queue ∧ AttentionOk p ∧ HeadOk p

/-- The queues of the three ports. -/
abbrev QueuesOk (s : State) : Prop := QueueOk s.control ∧ QueueOk s.stream ∧ QueueOk s.mechanism

/-! ### Tickets, motions and completion reports (R121, R123, R196) -/

/-- The completion reports of a queue, in its order. -/
def completionsIn (q : List Report) : List Completion :=
  q.filterMap (fun r => match r with
    | .completion c => some c
    | .notice _ _ => none)

/-- How many completion reports of a tag a queue holds. -/
def reportCount (tag : Byte) (q : List Report) : Nat := (completionsIn q).countP (fun c => c.tag == tag)

/-- How many DONE records a port has under a tag. -/
def doneCount (p : Port) (tag : Byte) (s : State) : Nat := s.arbiter.done.countP (Motion.named p tag)

/-- How many motion records a port has under a tag, live or DONE. -/
def motionCount (p : Port) (tag : Byte) (s : State) : Nat :=
  (liveMotions s).countP (Motion.named p tag) + doneCount p tag s

/-- The tickets of a port are at most two different tags; each stands for one motion record, and a motion is DONE
exactly while its completion report waits in the queue (R121, R123, R196). -/
abbrev TicketsOk (s : State) : Prop :=
  ∀ p, (s.port p).tickets.length ≤ 2 ∧ (s.port p).tickets.Nodup ∧
    (∀ tag, motionCount p tag s = if tag ∈ (s.port p).tickets then 1 else 0) ∧
    (∀ tag, reportCount tag (s.port p).queue = doneCount p tag s)

/-! ### Position map (R4) -/

/-- Records in strictly increasing order of address and of coordinate (R4). -/
abbrev StrictlyRising (records : List MapRecord) : Prop :=
  records.Pairwise (fun r q => r.address < q.address ∧ r.coord < q.coord)

/-- A map: empty without a class; with one, at most 32 records in strict order between its two end records, every SEED
record one of the class (R4, R6, R15). -/
def MapOk (m : PosMap) : Prop :=
  match m.cls with
  | none => m.records = []
  | some k =>
    m.records.length ≤ 32 ∧ StrictlyRising m.records ∧
    m.records.head? = some ⟨0, 0, .seed, 0⟩ ∧
    m.records.getLast? = some ⟨k.maxAddress, k.maxCoord, .seed, 0⟩ ∧
    ∀ r ∈ m.records, r.origin = .seed → r ∈ seeds k

/-- The class of the map is the class the drive supervisor holds (R145). -/
abbrev ClassesAgree (s : State) : Prop := s.map.cls = s.supervisor.cls

/-! ### Loops (R83, R86, R90, R94, R111) -/

/-- Tracking is not OFF only with focus LOCKED; an attempt timer runs only in SEARCH, a profile switch only with no
profile, and without a profile focus is OFF; a hold address is held in HOLD, and outside HOLD and JUMP there is none; a
close in progress stands with focus LOCKED and tracking OFF (R83 to R94; that it is a list of its senders: entry 11). -/
structure LoopsOk (o : Optics) : Prop where
  tracking : o.tracking ≠ .off → o.focus = .locked
  search : o.attemptTimer.isSome = true → o.focus = .search
  switch : o.switch.isSome = true → o.profile = none
  dark : o.profile = none → o.focus = .off
  held : o.tracking = .hold → o.holdAddress.isSome = true
  back : o.tracking = .jump → o.jumpOrigin = .hold → o.holdAddress.isSome = true
  absent : o.tracking = .off ∨ o.tracking = .closed → o.holdAddress = none
  closing : o.closers ≠ [] → o.focus = .locked ∧ o.tracking = .off

/-- A fresh fix means focus LOCKED and tracking not OFF (R111). -/
abbrev FreshOk (s : State) : Prop :=
  ∀ f, s.monitor.fix = some f → f.fresh = true → s.optics.focus = .locked ∧ s.optics.tracking ≠ .off

/-! ### Sled (R97, R100) -/

/-- A known sled position lies from 0 to 1,800, and a leg in progress has a next step on the rail (R97, R100). -/
def RailOk (sl : Sled) : Prop :=
  ∀ x, sl.position = some x → x ≤ 1800 ∧ (sl.state = .leg → beyondRail sl.legSteps x = false)

/-! ### Slots and records (R121, R137, R161) -/

/-- The attached slot holds only a REJOIN (R120, R121, R137). -/
def AttachedOk (s : State) : Prop := ∀ r, s.arbiter.attached = some r → r.kind = .rejoin

/-- The restart of a try that a sag interrupted is waited for only while an identification tries a profile (R161; the restart
field is entry 12). -/
def RestartOk (s : State) : Prop :=
  ∀ i, s.supervisor.ident = some i → i.restart = true → i.stage = .profileH ∨ i.stage = .profileL

/-! ### What statements about one command assume, and what they leave as it is -/

/-- Port p takes a request of this kind code now: its decoder is RECEIVING and the kind is served there (R188, R189,
R191). -/
abbrev Takes (code : Byte) (p : Port) (s : State) : Prop :=
  (s.port p).decoder = .receiving ∧ servedOn code p = true

/-- Nothing else follows a command: no motion is pending, no identification is in progress, and no ACQUIRE waits for the
spindle (R39, R131, R152). -/
abbrev Settled (s : State) : Prop :=
  s.arbiter.waiting = [] ∧ s.supervisor.ident = none ∧ s.planner.acquireStep ≠ .spin

/-- No motion is PENDING, ACTIVE or ATTACHED (R121). -/
abbrev NoMotion (s : State) : Prop := liveMotions s = []

/-- The drive holds or plays with no leg, landing or recovery in progress. -/
abbrev OnTrackAtRest (s : State) : Prop :=
  s.supervisor.drive = .onTrack ∧ s.planner.legStage = .idle ∧ s.recovery.phase = .none ∧ Settled s

/-- What no motion, report or event inside the part changes: the clock, the zones, the recovery settings, the reported
clamp and supply states, and of each port its mask and its holdoff. -/
structure SettingsSame (s t : State) : Prop where
  clock : t.clock = s.clock
  entries : t.zones.entries = s.zones.entries
  defaultCap : t.zones.defaultCap = s.zones.defaultCap
  retryCount : t.recovery.retryCount = s.recovery.retryCount
  amTime : t.recovery.amTime = s.recovery.amTime
  clamp : t.supervisor.clamp = s.supervisor.clamp
  supply : t.supervisor.supply = s.supervisor.supply
  mask : ∀ p, (t.port p).mask = (s.port p).mask
  holdoff : ∀ p, (t.port p).holdoff = (s.port p).holdoff ∧ (t.port p).holdoffLeft = (s.port p).holdoffLeft

/-- A reading lies within a number of percent of a target (R73, R74). -/
abbrev Within (percent measured target : Nat) : Prop :=
  100 * ((measured : Int) - (target : Int)).natAbs ≤ percent * target

/-- Whether an entry of the zone table matches an address: enabled, and the same bit wherever its mask is set (R25). -/
def Matches (e : ZoneEntry) (a : Nat) : Prop :=
  e.enabled = true ∧ ∀ i, i < 22 → e.mask.getLsbD i = true → a.testBit i = e.base.getLsbD i

/-- The refusal of a motion request by the checks 3 to 7 of R124, in their order; a motion without a target leaves out
5c to 7. `endAddr` is the end address a FOLLOW carries, as stored (R119). -/
def motionRefusal (kind : MotionKind) (p : Port) (tag : Byte) (target endAddr : Option Nat) (s : State) :
    Option Status :=
  if 2 ≤ (s.port p).tickets.length then some .limit
  else if tag ∈ (s.port p).tickets then some .tagInUse
  else if kind = .release then none
  else if s.supervisor.drive = .faulted then some .faulted
  else if s.arbiter.releaseLatch = true then some .releasing
  else
    match target, s.supervisor.cls with
    | none, _ => none
    | some _, none => some .noDisc
    | some a, some k =>
      if k.maxAddress < a then some .outOfRange
      else if endAddr.any (fun e => decide (e < a)) then some .outOfRange
      else if (s.zones.decode a).access = .avoid then some .zoneAvoided
      else none

/-- The end address a FOLLOW stores: the highest address of the class when it carries none or a higher one (R119). -/
def endStored (e : Option Addr) (s : State) : Option Nat :=
  s.supervisor.cls.map (fun k =>
    match e with
    | some a => min a.toNat k.maxAddress
    | none => k.maxAddress)

/-! ### Ports and blocks after a read or a reset -/

/-- The attention line and the holdoff timer of a port whose queue a read leaves as `q` (R200). -/
def ReadLeavesLine (a b : PortState) (q : List Report) : Prop :=
  b.queue = q ∧
  (q ≠ [] → b.attention = a.attention ∧ b.holdoffLeft = a.holdoffLeft) ∧
  (q = [] → a.holdoff = 0 → b.attention = .quiet) ∧
  (q = [] → a.holdoff ≠ 0 → b.attention = .holdoff ∧ b.holdoffLeft = a.holdoff.toNat)

/-- The decoder a reset leaves: IDLE with the select line high, BLOCKED with it low (R202). -/
def DecoderReset (a b : PortState) : Prop :=
  (a.decoder = .idle → b.decoder = .idle) ∧ (a.decoder ≠ .idle → b.decoder = .blocked)

/-- A port interface after a reset: one RESTARTED notice, the default mask, holdoff 10, the line ASSERTED, no ticket, no reply
(R195, R199 to R202). -/
def PortReset (p : Port) (cause : ResetCause) (a : PortState) : Prop :=
  a.queue = [.notice (.restarted cause) 0] ∧ a.mask = defaultMask p ∧ a.holdoff = 10 ∧ a.attention = .asserted ∧
  a.holdoffLeft = 0 ∧ a.tickets = [] ∧ a.reply = none ∧ a.reading = false ∧ a.resetArmed = false

/-- Every block after a reset that found the state `s`: at its reset values, the home switch and the tachometer as they are,
a motor that turns at 30 rpm or more braked (R82, R202). -/
def BlocksReset (s t : State) : Prop :=
  t.clock = 0 ∧ t.arbiter = State.reset.arbiter ∧ t.planner = State.reset.planner ∧ t.map = State.reset.map ∧
  t.zones = State.reset.zones ∧ t.monitor = State.reset.monitor ∧ t.optics = State.reset.optics ∧
  t.sled = { State.reset.sled with homeClosed := s.sled.homeClosed } ∧
  t.spindle = { State.reset.spindle with
    measured := s.spindle.measured
    state := if s.spindle.measured < 30 then .stopped else .braking
    stopLimit := if s.spindle.measured < 30 then none else some 0 } ∧
  t.recovery = State.reset.recovery ∧ t.supervisor = State.reset.supervisor ∧ t.pending = s.pending

/-- A notice offered after the state `s` stands in the queue of every port whose mask admits it (R197). -/
abbrev Noticed (n : Notice) (s t : State) : Prop :=
  ∀ q, admits (s.port q).mask n.code = true → ∃ r, Report.notice n r ∈ (t.port q).queue

/-- A SPEED notice tells every change of m and of the target (R80). -/
abbrev SpeedNoticed (s t : State) : Prop :=
  t.spindle.m ≠ s.spindle.m ∨ t.spindle.target ≠ s.spindle.target →
    Noticed (.speed t.spindle.m t.spindle.target t.spindle.clamped t.spindle.measured) s t

/-- A DRIVE notice tells the change of drive state that has taken place (R146). -/
abbrev DriveNoticed (s t : State) : Prop :=
  Noticed (.drive t.supervisor.drive s.supervisor.drive t.supervisor.cls s.clock) s t

/-- The cap that the zone term of m stands for: that of the zone of the plan target while MOVING, of the fix otherwise, 4
when there is no such address (R71). -/
def zoneCap (s : State) : Nat :=
  match (if s.supervisor.drive = .moving then s.planner.target else lastGood s) with
  | some a => (s.zones.decode a).cap.val
  | none => 4

/-- m is the least of its three terms, the held speed, the cap of the zone, and 1 while ROUGH (R71). -/
abbrev LeastMultiple (s : State) : Prop :=
  s.spindle.m.val = min s.spindle.held.val (min (zoneCap s) (if s.recovery.rough = true then 1 else 4))

/-- The target and the clamped flag of CLV mode, by the arithmetic of R67: v × m × 9,549 / r, rounded half up and clamped to
150 to 4,000, with the radius r of the basis coordinate (R1, R3). -/
abbrev ClvTarget (s : State) : Prop :=
  ∀ k b, s.supervisor.cls = some k → s.spindle.basis = some b →
    let n := (match k with | .L => 1300 | .H => 3490) * s.spindle.m.val * 9549
    let r := match k with | .L => 25000 + b * 1600 / 1000 | .H => 24000 + b * 740 / 1000
    s.spindle.target = max 150 (min 4000 ((n + r / 2) / r)) ∧ (s.spindle.clamped = true ↔ 4000 * r < n ∨ n < 150 * r)

/-- The target follows m and the basis: in CLV mode, when either has changed, it is computed by R67; otherwise it stays, and
its clamped flag with it (R67, R69, R72). -/
abbrev Retargeted (s t : State) : Prop :=
  if t.spindle.mode = .clv ∧ (t.spindle.m ≠ s.spindle.m ∨ t.spindle.basis ≠ s.spindle.basis) then ClvTarget t
  else t.spindle.target = s.spindle.target ∧ t.spindle.clamped = s.spindle.clamped

/-- The spindle state follows a change of target by the band of the new one, with the lock test, the lock limit armed and the
stop limit disarmed; with the target as it was, and in COAST, all four stay (R73, R74, R77). -/
abbrev StateFollowsTarget (s t : State) : Prop :=
  t.spindle.measured = s.spindle.measured ∧
  if t.spindle.target = s.spindle.target ∨ s.spindle.state = .coast then
    t.spindle.state = s.spindle.state ∧ t.spindle.lockTest = s.spindle.lockTest ∧
      t.spindle.lockLimit = s.spindle.lockLimit ∧ t.spindle.stopLimit = s.spindle.stopLimit
  else
    t.spindle.state = (if Within 10 s.spindle.measured t.spindle.target then .coarse else .spinup) ∧
      t.spindle.lockTest = (if Within 2 s.spindle.measured t.spindle.target then some s.clock else none) ∧
      t.spindle.lockLimit = some s.clock ∧ t.spindle.stopLimit = none

/-- While the drive is ON_TRACK the zone of the fix is the one announced, and a ZONE notice tells every change; in the other
drive states, and without a fix, the announced zone stays (R32, R33). -/
structure ZoneAnnounced (s t : State) : Prop where
  onTrack : ∀ f, t.monitor.fix = some f → t.supervisor.drive = .onTrack →
    t.zones.announced = some f.zone ∧
    (s.zones.announced ≠ some f.zone →
      Noticed (.zone f.zone s.zones.announced f.address (t.zones.decode f.address).cap (t.zones.decode f.address).access)
        s t)
  otherwise : t.monitor.fix = none ∨ t.supervisor.drive ≠ .onTrack → t.zones.announced = s.zones.announced

/-- What follows a rewrite of the zone table: the fix is decoded again under the new table and its zone announced, m is the
least of its terms, the target follows m and the spindle state the target, a SPEED notice tells what changed, and no motion,
plan, map, loop, sled or recovery is touched (R31, R32, R34, R67, R73, R74, R80). -/
structure ZonesRewritten (s t : State) : Prop where
  fix : t.monitor = { s.monitor with
    fix := s.monitor.fix.map (fun f => { f with zone := (t.zones.decode f.address).zone }) }
  multiple : LeastMultiple t
  held : t.spindle.held = s.spindle.held ∧ t.spindle.mode = s.spindle.mode ∧ t.spindle.basis = s.spindle.basis
  target : Retargeted s t
  state : StateFollowsTarget s t
  speed : SpeedNoticed s t
  announced : ZoneAnnounced s t
  quiet : t.spindle.m = s.spindle.m → t.zones.announced = s.zones.announced →
    t.spindle = s.spindle ∧ ∀ q, t.port q = s.port q
  clock : t.clock = s.clock
  arbiter : t.arbiter = s.arbiter
  planner : t.planner = s.planner
  map : t.map = s.map
  optics : t.optics = s.optics
  sled : t.sled = s.sled
  recovery : t.recovery = s.recovery
  supervisor : t.supervisor = s.supervisor

/-- The fault and unreached records are absent (R64, R165). -/
abbrev RecordsCleared (s : State) : Prop := s.supervisor.fault = none ∧ s.planner.unreached = none

/-- Whether CLEAR FAULT in FAULTED leads to an identification or to EMPTY: the kind held is DISC_UNREADABLE or HOME_FAILED, or
no class is held (R167). -/
def ClearFaultIdentifies (s : State) : Prop :=
  s.supervisor.cls = none ∨
    ∃ f, s.supervisor.fault = some f ∧ (f.kind = .discUnreadable ∨ f.kind = .homeFailed)

/-! ### States and outcomes of motions -/

/-- A rewrite of the zone table that leaves these entries and this default cap is answered on port p with these data and the
zone of the fix. The table of `u` governs at once; nothing more follows while nothing waits, and an ACQUIRE that waits for the
spindle goes on to its focus search when the spindle is COARSE or LOCKED then (R27, R28, R31, R34, R39, R78). -/
def TableGoverns (p : Port) (tag : Byte) (entries : List ZoneEntry) (defaultCap : Multiple) (data : List Byte) (s t : State) :
    Prop :=
  ∃ u, u.zones.entries = entries ∧ u.zones.defaultCap = defaultCap ∧ ZonesRewritten s u ∧
    (t.port p).reply = some ⟨.accepted, tag, data ++ [zoneField (u.monitor.fix.map Fix.zone)]⟩ ∧ SettingsSame u t ∧
    (Settled s → t = u.answer p tag .accepted (data ++ [zoneField (u.monitor.fix.map Fix.zone)])) ∧
    (s.arbiter.waiting = [] → s.supervisor.ident = none → s.planner.acquireStep = .spin → s.optics.focus ≠ .locked →
      s.optics.switch = none → s.optics.profile ≠ none →
      t.spindle = u.spindle ∧ t.zones = u.zones ∧ t.monitor = u.monitor ∧ t.arbiter = s.arbiter ∧
      (if t.spindle.state = .coarse ∨ t.spindle.state = .locked then
        t.planner = { s.planner with acquireStep := .search } ∧ t.optics.focus = .search ∧
          t.optics.requester = some .planner ∧ t.optics.allowed = s.recovery.retryCount ∧ t.optics.attempt = 1 ∧
          t.optics.attemptTimer = some s.clock
      else t.planner = s.planner ∧ t.optics = s.optics))

/-- The drive holds: ON_TRACK with no motion, tracking CLOSED or HOLD. -/
abbrev Holding (s : State) : Prop :=
  OnTrackAtRest s ∧ s.arbiter.active = none ∧ s.arbiter.attached = none ∧
    (s.optics.tracking = .closed ∨ s.optics.tracking = .hold)

/-- The motor is driven, or coasts: a brake command has its effect (R73, R76). -/
abbrev Driven (sp : Spindle) : Prop := sp.state ≠ .stopped ∧ sp.state ≠ .braking

/-- The spindle of `t` is braked from that of `s`, which turned at 30 rpm or more (R76). -/
abbrev Braked (s t : State) : Prop :=
  t.spindle.state = .braking ∧ t.spindle.mode = .stop ∧ t.spindle.basis = none ∧ t.spindle.target = 0 ∧
  t.spindle.lockLimit = none ∧ t.spindle.lockTest = none ∧ t.spindle.stopLimit = some s.clock

/-- A motion request of port p was taken: its ticket, its arrival sequence, one more record under its tag and no other, and
its reply with the status of that record after placement: of the live motion of its tag, or DONE when none is live (R123,
R125). -/
structure MotionTaken (p : Port) (tag speed : Byte) (endAddr : Option Nat) (s t : State) : Prop where
  tickets : (t.port p).tickets = (s.port p).tickets ++ [tag]
  others : ∀ q, q ≠ p → (t.port q).tickets = (s.port q).tickets
  arrivals : t.arbiter.arrivals = s.arbiter.arrivals + 1
  record : motionCount p tag t = motionCount p tag s + 1
  records : ∀ q g, ¬ (q = p ∧ g = tag) → motionCount q g t = motionCount q g s
  same : SettingsSame s t
  reply : ∃ st : MotionStatus, (t.port p).reply = some ⟨.accepted, tag, [st.code, speed] ++ addrField endAddr⟩ ∧
    ((∃ m ∈ liveMotions t, m.port = p ∧ m.tag = tag ∧ m.status = st) ∨
      (∀ m ∈ liveMotions t, ¬ (m.port = p ∧ m.tag = tag)) ∧ st = .done)

/-- The first leg of a SEEK of port p: its record, the plan, the leg, the drive MOVING, the fix stale, the spindle driven for
the target coordinate (R41, R46, R50, R67). -/
structure LegBegun (p : Port) (tag : Byte) (kind : LegKind) (count : Int) (pt pa : Nat) (d : Int) (s t : State) : Prop where
  motion : ∃ m, t.arbiter.active = some m ∧ m.port = p ∧ m.tag = tag ∧ m.kind = .seek ∧ m.status = .active ∧
    m.phase = some .leg ∧ m.legs = 1
  owner : t.planner.owner = .active
  plan : t.planner.targetCoord = some pt ∧ t.planner.startCoord = some pa ∧ t.planner.distance = some d
  leg : t.planner.legKind = kind ∧ t.planner.legCount = count ∧ t.planner.legStage = .running ∧
    t.planner.legDisturbed = false
  session : t.planner.sessionLegs = 1
  drive : t.supervisor.drive = .moving
  fix : fixFresh t = false ∧ lastGood t = lastGood s
  basis : t.spindle.basis = some pt ∧ t.spindle.mode = .clv ∧ ClvTarget t

/-- The drive of `t` was emptied from that of `s`: EMPTY, no class, the map and the fix cleared, the loops off and dark, the
release latch clear, the supply state as it was (R149, R150). -/
structure DriveEmptied (s t : State) : Prop where
  drive : t.supervisor.drive = .empty ∧ t.supervisor.cls = none ∧ t.supervisor.clamp = .unclamped
  supply : t.supervisor.supply = s.supervisor.supply
  fault : t.supervisor.fault = s.supervisor.fault
  map : t.map = PosMap.empty
  fix : t.monitor.fix = none ∧ t.monitor.resume = none
  loops : t.optics.focus = .off ∧ t.optics.tracking = .off ∧ t.optics.profile = none
  latch : t.arbiter.releaseLatch = false
  zones : t.zones.entries = s.zones.entries ∧ t.zones.announced = none

/-- A fault of kind k raised outside FAULTED has parked the drive, from the state `s` to the state `t`: its record, the ends of
the motions, the loops OFF with no profile switch running, the spindle at its brake command, no identification and no
recovery, the first fault's notice (R128, R156, R165). -/
structure FaultParked (k : FaultKind) (s t : State) : Prop where
  drive : t.supervisor.drive = .faulted ∧ t.supervisor.cls = s.supervisor.cls
  record : t.supervisor.fault = some ⟨k, lastGood s, s.clock⟩
  motions : NoMotion t ∧ t.planner.owner = .none
  reports : ∀ q, completionsIn (t.port q).queue = completionsIn (s.port q).queue ++
    ((liveMotions s).filter (fun m => m.port == q)).map (fun m => m.report .faulted (lastGood s))
  loops : t.optics.focus = .off ∧ t.optics.tracking = .off ∧ t.optics.switch = none
  fix : fixFresh t = false ∧ lastGood t = lastGood s
  spindle : t.spindle.mode = .stop ∧ t.spindle.basis = none ∧ t.spindle.lockLimit = none ∧ t.spindle.lockTest = none
  ended : t.supervisor.ident = none ∧ t.recovery.phase = .none ∧ t.supervisor.sagTimer = none
  notice : ∀ q, admits (s.port q).mask 6 = true →
    ∃ r, Report.notice (.fault k (lastGood s) s.clock true) r ∈ (t.port q).queue

/-- An identification has started with a record, from the state `s` to the state `t`: paused from its start in a sag, else
homing while the sled position is unknown, positioning toward step 150, or spinning when the sled is there, its leg of 0 steps
full at once (R98, R100, R102, R151, R152, R161; during a sag after CLEAR FAULT: entry 25). -/
structure IdentBegun (origin : IdentOrigin) (i : Ident) (s t : State) : Prop where
  drive : t.supervisor.drive = .identifying ∧ t.arbiter.releaseLatch = false
  record : t.supervisor.ident = some i ∧ i.origin = origin ∧ i.step = none ∧ i.candidate = none ∧ i.window = none ∧
    i.paused = (s.supervisor.supply == .sag)
  sag : s.supervisor.supply = .sag →
    i.stage = (if s.sled.position = none then .homing else .positioning) ∧ t.sled = s.sled ∧ t.spindle = s.spindle
  homing : s.supervisor.supply = .normal → s.sled.position = none → s.sled.homeClosed = false →
    i.stage = .homing ∧ t.sled.state = .homing ∧ t.sled.taken = 0 ∧ t.sled.position = none
  home : s.supervisor.supply = .normal → s.sled.position = none → s.sled.homeClosed = true →
    i.stage = .positioning ∧ t.sled.state = .leg ∧ t.sled.position = some 0 ∧ t.sled.legSteps = 150 ∧
    t.sled.taken = 0 ∧ t.sled.requester = some .supervisor
  position : ∀ x, s.supervisor.supply = .normal → s.sled.position = some x → x ≠ 150 →
    i.stage = .positioning ∧ t.sled.state = .leg ∧ t.sled.position = some x ∧ t.sled.legSteps = 150 - (x : Int) ∧
    t.sled.taken = 0 ∧ t.sled.requester = some .supervisor
  there : s.supervisor.supply = .normal → s.sled.position = some 150 →
    i.stage = .spinning ∧ t.sled = { s.sled with
      state := if s.optics.tracking = .closed then .creep else .idle
      legSteps := 0, taken := 0, stopPending := false, requester := none } ∧
    t.spindle.mode = .fixed ∧ t.spindle.target = 500 ∧ t.spindle.state = .spinup ∧ t.spindle.lockLimit = some s.clock

/-- Where a start of an identification leads is settled by the supply and the sled alone: the sled rests, and the spindle is
not within 10 % of the identification speed already (R151, R152). -/
abbrev IdentOpen (s : State) : Prop :=
  (s.sled.state = .idle ∨ s.sled.state = .creep) ∧ (s.spindle.state = .stopped ∨ s.spindle.state = .braking) ∧
  s.spindle.target = 0 ∧ ¬ Within 10 s.spindle.measured 500

/-- A motion of port p has begun its ACQUIRE from STOPPED: its record, the owner, a fresh session, the drive MOVING, the
spindle driven for the coordinate of the stale fix or 0, the loops as they were (R39, R62, R68, R131). -/
structure AcquireBegun (p : Port) (tag : Byte) (kind : MotionKind) (s t : State) : Prop where
  motion : ∃ m, t.arbiter.active = some m ∧ m.port = p ∧ m.tag = tag ∧ m.kind = kind ∧ m.status = .active ∧
    m.phase = some .acquire ∧ m.legs = 0
  planner : t.planner.owner = .active ∧ t.planner.acquireStep = .spin ∧ t.planner.sessionLegs = 0 ∧
    t.planner.sessionSled = 0
  drive : t.supervisor.drive = .moving ∧ DriveNoticed s t
  spindle : t.spindle.mode = .clv ∧ t.spindle.basis = some ((s.monitor.fix.map Fix.coord).getD 0) ∧
    t.spindle.state = .spinup ∧ t.spindle.lockLimit = some s.clock ∧ ClvTarget t
  loops : t.optics = s.optics

/-- A sag hold has begun, from the state `s` to the state `t`: the drive in SAG_HOLD with its timer armed, the phase of the
motion suspended, or the phase a recovery had kept for it, no recovery left, the spindle coasting, the sled stopped, tracking
opened and focus left, the loops as they were where tracking is OFF already, a close in progress going on, a leg over but for
a fine leg that runs on (R59, R77, R90, R101, R157, R158). -/
structure SagHeld (s t : State) : Prop where
  drive : t.supervisor.drive = .sagHold ∧ t.supervisor.supply = .sag ∧ t.supervisor.sagTimer = some s.clock ∧
    t.supervisor.focusLostInSag = (s.optics.focus != .locked)
  suspended : t.supervisor.suspendedPhase =
    if s.recovery.phase ≠ .none ∧ activePhase s = some .recovering then s.recovery.keptPhase else activePhase s
  motion : t.arbiter = { s.arbiter with
    active := s.arbiter.active.map (fun m => { m with phase := some .suspended }) }
  recovery : t.recovery = { s.recovery with phase := .none, window := none, fixReported := false, keptPhase := none }
  owner : t.planner.owner = (if s.planner.owner = .internal then .none else s.planner.owner) ∧
    t.planner.acquireStep = .none
  leg : if s.planner.legStage = .running ∧ s.planner.legKind = .fine then
      t.planner.legStage = .running ∧ t.planner.legKind = .fine else t.planner.legStage = .idle
  loops : t.optics.focus = s.optics.focus ∧ t.optics.closers = s.optics.closers ∧
    (s.optics.tracking = .off → t.optics = s.optics) ∧
    (s.optics.tracking = .jump → t.optics.tracking = .jump ∧ t.optics.openPending = true) ∧
    (s.optics.tracking ≠ .jump → t.optics.tracking = .off)
  fix : lastGood t = lastGood s ∧ (s.optics.tracking = .closed ∨ s.optics.tracking = .hold → fixFresh t = false)
  sled : s.sled.state ≠ .homing → t.sled.position = s.sled.position ∧
    (s.sled.state = .leg → t.sled.state = .leg ∧ t.sled.stopPending = true) ∧
    (s.sled.state ≠ .leg → t.sled.state = .idle)
  spindle : (Driven s.spindle → t.spindle.state = .coast) ∧
    (s.supervisor.drive ≠ .moving → t.spindle.target = s.spindle.target)
  notices : DriveNoticed s t ∧ Noticed (.supply .sag s.supervisor.drive s.clock) s t

/-- A disturbance of kind k in ON_TRACK or MOVING has begun a recovery at the phase it names, from the state `s` to the state
`t`: the history and the ROUGH flag, the recovery record, the phase of the motion, the drive RECOVERING (R171 to R173). -/
structure RecoveryBegun (k : Disturbance) (ph : RecoveryPhase) (s t : State) : Prop where
  drive : t.supervisor.drive = .recovering
  motion : t.arbiter.active = s.arbiter.active.map (fun m => { m with phase := some .recovering })
  phase : t.recovery.phase = ph
  counts : t.recovery.refocusCount = (if ph = .refocus then 1 else 0) ∧
    t.recovery.retrackCount = (if ph = .retrack then 1 else 0) ∧
    t.recovery.refixCount = (if ph = .refix then 1 else 0) ∧ t.recovery.respinCount = (if ph = .respin then 1 else 0)
  limits : t.recovery.retryLimit = s.recovery.retryCount ∧ t.recovery.fixReported = false
  kept : t.recovery.keptPhase = activePhase s ∧ t.recovery.returnAddr = lastGood s ∧
    t.recovery.holdCopy = s.recovery.holdCopy
  history : t.recovery.history = (if s.recovery.history.length < 8 then s.recovery.history else s.recovery.history.drop 1)
    ++ [⟨s.clock, k, lastGood s⟩]
  rough : t.recovery.rough = (s.recovery.rough || decide (4 ≤ recentCount t.recovery.history s.clock))
  exit : t.recovery.roughExit = if t.recovery.rough = true then some (later s.clock 20000) else s.recovery.roughExit
  fix : lastGood t = lastGood s
  notice : ∀ q, admits (s.port q).mask 4 = true → ∃ r,
    Report.notice (.disturbance k s.clock (lastGood s) ph t.recovery.rough
      (recentCount t.recovery.history s.clock)) r ∈ (t.port q).queue

/-- What a disturbance leaves of the planner's work: a leg in flight is marked disturbed and keeps its stage, but that a settle
lapses, and a fine leg in its jump when the disturbance ends it short; ACQUIRE goes no further; the owner, the target, the
session and the attached REJOIN stay, and nothing is learned (R40, R47, R51, R60, R62, R93, R173). -/
structure LegDisturbed (short : Bool) (s t : State) : Prop where
  stage : if s.planner.legStage = .settling ∨ short = true ∧ s.planner.legStage = .running ∧ s.planner.legKind = .fine then
      t.planner.legStage = .idle ∧ t.planner.legKind = .none
    else t.planner.legStage = s.planner.legStage ∧ t.planner.legKind = s.planner.legKind
  mark : t.planner.legDisturbed = true ∨ s.planner.legStage = .idle
  acquire : t.planner.acquireStep = .none
  kept : t.planner.owner = s.planner.owner ∧ t.planner.target = s.planner.target ∧
    t.planner.startCoord = s.planner.startCoord ∧ t.planner.legCount = s.planner.legCount ∧ t.planner.trim = s.planner.trim
  session : t.planner.sessionLegs = s.planner.sessionLegs ∧ t.planner.sessionSled = s.planner.sessionSled
  attached : t.arbiter.attached = s.arbiter.attached
  map : t.map = s.map

/-- The stop command has reached the sled: a creep ends, a leg ends at its step boundary, a homing after the step in progress,
at once when it is paused (R99, R101). -/
abbrev SledStopped (s t : State) : Prop :=
  (s.sled.state = .idle → t.sled = s.sled) ∧
  (s.sled.state = .creep → t.sled = { s.sled with state := .idle }) ∧
  (s.sled.state = .leg → t.sled = { s.sled with stopPending := true }) ∧
  (s.sled.state = .homing → s.sled.paused = false → t.sled = { s.sled with stopPending := true }) ∧
  (s.sled.state = .homing → s.sled.paused = true →
    t.sled = { s.sled with state := .idle, position := none, paused := false, requester := none })

/-- A disturbance of kind k taken in a recovery has moved it to the phase it names, from the state `s` to the state `t`: one
more count of that phase, the window idle unless RETRACK has started it, nothing reported, an internal return withdrawn, the
kept phase and the return address as they were (R171, R172, R174, R179, R182). -/
structure RecoveryRestarted (k : Disturbance) (ph : RecoveryPhase) (s t : State) : Prop where
  drive : t.supervisor = s.supervisor
  motion : t.arbiter = s.arbiter
  phase : t.recovery.phase = ph
  counts : t.recovery.refocusCount = s.recovery.refocusCount + (if ph = .refocus then 1 else 0) ∧
    t.recovery.retrackCount = s.recovery.retrackCount + (if ph = .retrack then 1 else 0) ∧
    t.recovery.refixCount = s.recovery.refixCount + (if ph = .refix then 1 else 0) ∧
    t.recovery.respinCount = s.recovery.respinCount + (if ph = .respin then 1 else 0)
  limits : t.recovery.retryLimit = s.recovery.retryLimit ∧ t.recovery.window = none ∧ t.recovery.fixReported = false
  kept : t.recovery.keptPhase = s.recovery.keptPhase ∧ t.recovery.returnAddr = s.recovery.returnAddr ∧
    t.recovery.holdCopy = s.recovery.holdCopy
  owner : t.planner.owner = if s.planner.owner = .internal then .none else s.planner.owner
  history : t.recovery.history = (if s.recovery.history.length < 8 then s.recovery.history else s.recovery.history.drop 1)
    ++ [⟨s.clock, k, lastGood s⟩]
  rough : t.recovery.rough = (s.recovery.rough || decide (4 ≤ recentCount t.recovery.history s.clock))
  fix : lastGood t = lastGood s
  notice : Noticed (.disturbance k s.clock (lastGood s) ph t.recovery.rough (recentCount t.recovery.history s.clock)) s t

/-- A motion of the active slot has ended with a result at an address, and the drive holds at an address: its report, the slot
empty, no owner, ON_TRACK, HOLD there, the hold copy with it (R94, R133, R144, R173). -/
structure EndedHolding (m : Motion) (r : Result) (final hold : Nat) (s t : State) : Prop where
  slot : t.arbiter.active = none
  reports : ∀ q, completionsIn (t.port q).queue = completionsIn (s.port q).queue ++
    (if q = m.port then [⟨m.tag, m.kind, r, some final, m.legs, m.bad⟩] else [])
  owner : t.planner.owner = .none
  drive : t.supervisor.drive = .onTrack
  hold : t.optics.tracking = .hold ∧ t.optics.holdAddress = some hold ∧ t.recovery.holdCopy = some hold

/-- The FOLLOW of the control port plays forward from address a with end address z: FOLLOWING, tested there, no owner, the
drive ON_TRACK, tracking CLOSED with nothing held, its FOLLOWING notice of an entry (R134, R135). -/
structure PlaysFrom (m : Motion) (entry : FollowEntry) (a z : Nat) (s t : State) : Prop where
  slot : t.arbiter.active = some { m with phase := some .following, lastOpen := some a, rejoinEnded := false }
  owner : t.planner.owner = .none
  drive : t.supervisor.drive = .onTrack
  loops : t.optics.tracking = .closed ∧ t.optics.holdAddress = none ∧ t.recovery.holdCopy = none
  notice : Noticed (.following m.tag a z entry) s t

/-- A report of port p carries a GOOD address, of coordinate c, that is taken as a fix in ON_TRACK, MOVING and RECOVERING: a
class, focus LOCKED, tracking CLOSED, or HOLD at that address or above it, no leg in the way, no suspended motion, and nothing
else to follow (R106 to R110). -/
abbrev FixComes (p : Port) (address : Addr) (k : DiscClass) (c : Nat) (s : State) : Prop :=
  Takes 0x20 p s ∧ s.supervisor.cls = some k ∧ address.toNat ≤ k.maxAddress ∧
  s.map.predict address.toNat = some c ∧ Settled s ∧ s.optics.focus = .locked ∧
  (s.optics.tracking = .closed ∧ s.optics.holdAddress = none ∨
    s.optics.tracking = .hold ∧ s.optics.holdAddress.all (fun h => decide (address.toNat ≤ h)) = true) ∧
  s.planner.legStage ≠ .running ∧ s.planner.legStage ≠ .settling ∧ activePhase s ≠ some .suspended

/-- The fix address a lies in the reach window of the target t (R42). -/
abbrev InReach (t a : Nat) : Prop := t ≤ a ∧ a ≤ t + 16

/-- The landing test calls for an approach (R42). -/
abbrev CallsForApproach (t a : Nat) (d : Int) : Prop := a < t ∧ (d = 0 ∨ d = 1)

/-- The landing test calls for a leg: below the target and not one to approach, or past the window (R42, R45). -/
abbrev CallsForLeg (t a : Nat) (d : Int) : Prop := a < t ∧ (2 ≤ d ∨ d < 0) ∨ t + 16 < a

/-- The tracks of the leg that a distance D calls for: D, or −1 for a fix past the window on the target's own track (R42). -/
abbrev legOf (d : Int) : Int := if d = 0 then -1 else d

/-- The steps of a sled leg for a distance of D tracks from a sled position, with a trim: those of R48, shortened so that the
sled stays on its rail (R48, R49). -/
abbrev railSteps (k : DiscClass) (d : Int) (trim position : Nat) : Nat :=
  min (rounded (d.natAbs * k.pitch * 4096) (20000 * trim)) (if 0 ≤ d then 1800 - position else position)

/-- The check of R45 that fails for a leg of D tracks of class k, in their order (R45, R48, R49). -/
def FailsCheck (k : DiscClass) (d : Int) (s : State) : Cause → Prop
  | .legBudget => 6 ≤ s.planner.sessionLegs
  | .sledBudget => s.planner.sessionLegs < 6 ∧ 64 < d.natAbs ∧ 3 ≤ s.planner.sessionSled
  | .sledLimit => s.planner.sessionLegs < 6 ∧ 64 < d.natAbs ∧ s.planner.sessionSled < 3 ∧
      ∀ x, s.sled.position = some x → railSteps k d s.planner.trim x = 0

/-- A motion has taken the slot, or a REJOIN has attached, in a recovery, from the state `s` to the state `t`: the drive, which
was RECOVERING or had become MOVING so before, is MOVING, a change with its DRIVE notice, and no more of the supervisor changes
(R129, R137, R138, R146, R147). -/
abbrev TakenInRecovery (s t : State) : Prop :=
  s.supervisor.drive = .recovering ∨ s.supervisor.drive = .moving →
    t.supervisor = { s.supervisor with drive := .moving } ∧ (s.supervisor.drive = .recovering → DriveNoticed s t)

/-- The trim after a sled leg lands at coordinate c, its plan made at coordinate c0: moved a quarter of the way to the step the
leg has shown, when it was full and observed 256 tracks or more in its own direction (R56, R57). -/
def TrimAfter (k : DiscClass) (c c0 : Nat) (s : State) : Nat :=
  let o : Int := (c : Int) - (c0 : Int)
  if s.planner.legDone = true ∧ 256 ≤ o.natAbs ∧
      (0 < o ∧ 0 < s.planner.legCount ∨ o < 0 ∧ s.planner.legCount < 0) then
    max 3686 (min 4506 (rounded (3 * s.planner.trim +
      rounded (o.natAbs * 4096 * k.pitch) (s.planner.legCount.natAbs * 20000)) 4))
  else s.planner.trim

/-- The motion with one leg more counted (R46). -/
abbrev withLeg (m : Motion) : Motion := { m with legs := if m.legs < 255 then m.legs + 1 else m.legs }

/-- The return target of a FOLLOW that was FOLLOWING: the resume point when it is set and OPEN, else the return address
(R180). -/
def ReturnTarget (s : State) (t : Nat) : Prop :=
  (s.monitor.resume = some t ∧ (s.zones.decode t).access = .opened) ∨
  ((∀ r, s.monitor.resume = some r → (s.zones.decode r).access = .avoid) ∧ s.recovery.returnAddr = some t)

/-- The fine leg that a distance D calls for has begun toward a target, its jump with it; that nothing is held once the jump
has begun is entry 33 (R42, R46, R62, R92). -/
structure FineLegBegun (target : Nat) (d : Int) (s t : State) : Prop where
  plan : t.planner.target = some target ∧ t.planner.distance = some d
  leg : t.planner.legKind = .fine ∧ t.planner.legCount = legOf d ∧ t.planner.legStage = .running ∧
    t.planner.legDisturbed = false
  jump : t.optics.tracking = .jump ∧ t.optics.jumpCount = legOf d ∧ t.optics.jumpOrigin = .leg ∧
    t.optics.holdAddress = none
  fix : fixFresh t = false ∧ t.supervisor.cls = s.supervisor.cls

/-- A sled leg of n steps in the direction of D has begun toward a target, tracking open and focus as it was (R45, R48 to
R50, R90, R100). -/
structure SledLegBegun (target : Nat) (d : Int) (n : Nat) (s t : State) : Prop where
  plan : t.planner.target = some target ∧ t.planner.distance = some d
  leg : t.planner.legKind = .sled ∧ t.planner.legCount = (if 0 ≤ d then (n : Int) else -(n : Int)) ∧
    t.planner.legStage = .running ∧ t.planner.legDisturbed = false
  session : t.planner.sessionLegs = s.planner.sessionLegs + 1 ∧ t.planner.sessionSled = s.planner.sessionSled + 1
  sled : t.sled.state = .leg ∧ t.sled.legSteps = t.planner.legCount ∧ t.sled.taken = 0 ∧
    t.sled.requester = some .planner ∧ t.sled.position = s.sled.position
  loops : t.optics.tracking = .off ∧ t.optics.focus = s.optics.focus
  fix : fixFresh t = false ∧ t.supervisor.cls = s.supervisor.cls

/-- The planner has brought its owner into APPROACH: no leg, the session as it was, tracking CLOSED with nothing held (R42,
R44; that a hold ends there is entry 31). -/
structure Approaches (target : Nat) (d : Int) (s t : State) : Prop where
  plan : t.planner.target = some target ∧ t.planner.distance = some d
  leg : t.planner.legKind = .none ∧ t.planner.legStage = .idle
  session : t.planner.sessionLegs = s.planner.sessionLegs ∧ t.planner.sessionSled = s.planner.sessionSled
  loops : t.optics.tracking = .closed ∧ t.optics.holdAddress = none
  fix : fixFresh t = true
  drive : t.supervisor.drive = .moving

/-- A recovery with no motion is over and the drive holds at an address: ON_TRACK, HOLD there, the hold copy with it, no owner
(R94, R173, R182). -/
structure ReturnedHolding (hold : Nat) (s t : State) : Prop where
  drive : t.supervisor.drive = .onTrack
  recovery : t.recovery.phase = .none ∧ t.recovery.holdCopy = some hold
  loops : t.optics.tracking = .hold ∧ t.optics.holdAddress = some hold
  owner : t.planner.owner = .none
  arbiter : t.arbiter = s.arbiter

/-- The result that the acceptance of a motion gives a live motion that it ends, none for one that it leaves (R126 to R128;
CANCELLED for a REJOIN whose CANCEL waits is entry 16). -/
def endedWith (new : MotionKind) (m : Motion) : Option Result :=
  match new, m.kind with
  | .release, _ => some (.preempted .release)
  | .rejoin, .rejoin => some .superseded
  | .rejoin, _ => none
  | .stop, .rejoin => some (.preempted .release)
  | _, .rejoin => some (if m.cancelPending then .cancelled else .superseded)
  | _, _ => if m.port = .control then some .superseded else none

/-- The completion reports, on port q, of the motions that the acceptance of a motion ends (R126 to R128, R144). -/
def endedReports (new : MotionKind) (q : Port) (s : State) : List Completion :=
  (liveMotions s).filterMap (fun m =>
    if m.port = q then (endedWith new m).map (fun r => m.report r (lastGood s)) else none)

/-- A motion request with its kind and its target is accepted now (R119, R124, R191). -/
inductive Accepted (p : Port) (tag : Byte) (s : State) : Instr → MotionKind → Option Nat → Prop
  | seek (a : Addr) (v : Byte) : Takes 0x10 p s → motionRefusal .seek p tag (some a.toNat) none s = none →
      Accepted p tag s (.seek p tag a v) .seek (some a.toNat)
  | follow (a : Addr) (v : Byte) (e : Option Addr) : Takes 0x11 p s →
      motionRefusal .follow p tag (some a.toNat) (endStored e s) s = none →
      Accepted p tag s (.follow p tag a v e) .follow (some a.toNat)
  | stop : Takes 0x12 p s → motionRefusal .stop p tag none none s = none → Accepted p tag s (.stop p tag) .stop none
  | rejoin (a : Addr) : Takes 0x22 p s → motionRefusal .rejoin p tag (some a.toNat) none s = none →
      Accepted p tag s (.rejoin p tag a) .rejoin (some a.toNat)
  | release : Takes 0x32 p s → motionRefusal .release p tag none none s = none →
      Accepted p tag s (.release p tag) .release none

/-- The motion of port p with this tag has the active slot in a phase (R120, R129). -/
structure HasSlot (p : Port) (tag : Byte) (kind : MotionKind) (target : Option Nat) (ph : Phase) (t : State) : Prop where
  motion : ∃ m, t.arbiter.active = some m ∧ m.port = p ∧ m.tag = tag ∧ m.kind = kind ∧ m.target = target ∧
    m.status = .active ∧ m.phase = some ph ∧ m.cancelPending = false

/-- The planner works for the motion of the active slot toward a target, in a session of its own that has begun some legs, some
of them sled legs (R37, R62). -/
abbrev Owns (target : Option Nat) (legs sledLegs : Nat) (t : State) : Prop :=
  t.planner.owner = .active ∧ t.planner.target = target ∧ t.planner.sessionLegs = legs ∧ t.planner.sessionSled = sledLegs

/-- The completion reports of every port stay, and those of one port get one more behind them. -/
abbrev OneMoreReport (p : Port) (c : Completion) (s t : State) : Prop :=
  ∀ q, completionsIn (t.port q).queue = completionsIn (s.port q).queue ++ (if q = p then [c] else [])

/-- No completion report joins a queue or leaves one. -/
abbrev ReportsStay (s t : State) : Prop := ∀ q, completionsIn (t.port q).queue = completionsIn (s.port q).queue

/-- An identification is in progress with this record, not paused and no restart waited for, and nothing else is to follow. -/
abbrev Identifies (i : Ident) (s : State) : Prop :=
  s.supervisor.drive = .identifying ∧ s.supervisor.ident = some i ∧ i.paused = false ∧ i.restart = false ∧
  s.arbiter.waiting = [] ∧ s.planner.acquireStep ≠ .spin

/-- A focus search with itself as requester has begun in the state `s` (R86). -/
abbrev SearchBegun (r : Requester) (attempts : Nat) (s t : State) : Prop :=
  t.optics.focus = .search ∧ t.optics.requester = some r ∧ t.optics.allowed = attempts ∧ t.optics.attempt = 1 ∧
  t.optics.attemptTimer = some s.clock

/-- The try of profile L has begun after a failed try of profile H (R84, R152, R154). -/
structure TriesProfileL (i : Ident) (s t : State) : Prop where
  supervisor : t.supervisor = { s.supervisor with ident := some { i with
    stage := .profileL, step := some .switching, candidate := none, window := none } }
  loops : t.optics.profile = none ∧ t.optics.switch = some (.L, s.clock) ∧ t.optics.focus = .off ∧
    t.optics.tracking = .off
  spindle : t.spindle.mode = .fixed ∧ t.spindle.basis = none

end Sys2Proof.Safety
end

