-- ==== Sys2Proof/WellFormed.lean ====
section
/-! DEFINITION. Which terms of Instr a sender can send. -/

namespace Sys2Proof

/-- A reading the tachometer can give (R81: a faster motor reads 9,999). -/
def rpmInRange (rpm : Nat) : Bool := rpm ≤ 9999

/-- A command is well formed when it could arrive: a raw frame is complete, a reading is in range. The operands
of the other commands are whatever their fields can hold. -/
def Instr.wellFormed : Instr → Bool
  | .readStatus _ _ | .readReport _ _ | .setNoticeMask _ _ _ | .setHoldoff _ _ _ | .readIdentity _ _ => true
  | .seek _ _ _ _ | .follow _ _ _ _ _ | .stop _ _ | .cancel _ _ _ => true
  | .setZone _ _ _ _ _ _ _ _ | .readZone _ _ _ | .setDefaultZone _ _ _ => true
  | .readMap _ _ _ | .mapImport _ _ _ _ | .recoverySettings _ _ _ _ => true
  | .readFault _ _ | .clearFault _ _ | .softReset _ _ => true
  | .addressReport _ _ _ _ | .resumeAt _ _ _ | .rejoin _ _ _ => true
  | .release _ _ | .clampState _ _ _ | .supplyState _ _ _ => true
  | .unknownKind _ frame => frameComplete frame
  | .selectRelease _ | .replyComplete _ | .powerOnReset | .holdoffExpiry _ => true
  | .addressMonitorTimerExpiry | .settleEnd => true
  | .tachometerReading rpm => rpmInRange rpm
  | .lockTestComplete | .lockLimitExpiry | .stopLimitExpiry | .profileSwitchComplete => true
  | .focusCapture | .attemptTimerExpiry | .focusDrop _ | .offTrack _ | .trackCrossing => true
  | .sledStep _ | .homeSwitchClose | .creepThreshold | .candidateWindowEnd => true
  | .sagTimerExpiry | .retrackWindowEnd | .roughExit | .selectFall _ | .trackingClosed => true

end Sys2Proof
end

