-- ==== Sys2Proof/Certificates/Slice0/Obligations.lean ====
section
/-! DEFINITION. The statements about the part, for the provers. -/

open Sys2Proof Sys2Proof.Machine Sys2Proof.Safety

/-! ### A step -/

/-- A step takes the command at the front of the queue and answers what the command does with the rest queued (the
model's queue, entry 4). -/
def Obligations.StepRunsFrontCommand : Prop :=
  ∀ (c : Instr) (rest : List Instr) (s : State),
    step { s with pending := c :: rest } = exec c { s with pending := rest }

/-- On an empty queue a millisecond passes when no timer has run out, in which a turnaround byte ends or goes on, for its master
may take any time to clock it; a timer that has run out alone fires, and of several one of them does. Which byte ends and which
timer fires are free choices (the model's choice: entries 1, 2 and 6). -/
def Obligations.IdleStepPassesTimeOrFiresATimer : Prop :=
  ∀ s : State, s.pending = [] →
    (due s = [] → ∃ clocked : Port → Bool,
      let decoder (q : Port) : Decoder :=
        if (s.port q).decoder = .turnaround ∧ clocked q = true then .replying else (s.port q).decoder
      step s = .next { s with
      clock := s.clock + 1
      picks := s.picks + 1
      control := { s.control with decoder := decoder .control, holdoffLeft := s.control.holdoffLeft - 10 }
      stream := { s.stream with decoder := decoder .stream, holdoffLeft := s.stream.holdoffLeft - 10 }
      mechanism := { s.mechanism with decoder := decoder .mechanism, holdoffLeft := s.mechanism.holdoffLeft - 10 }
      monitor := { s.monitor with
        elapsed := if monitorRunning s then min s.monitor.limit (s.monitor.elapsed + 1) else s.monitor.elapsed }
      supervisor := { s.supervisor with
        ident := s.supervisor.ident.map (fun i =>
          if i.paused || i.restart then i else { i with window := i.window.map (fun w => min 500 (w + 1)) }) } }) ∧
    (∀ c, due s = [c] → step s = exec c s) ∧
    (2 ≤ (due s).length → ∃ c ∈ due s, step s = exec c { s with picks := s.picks + 1 })

/-! ### Frames and replies -/

/-- Every request survives the link: its frame is complete, passes the checks of R189 and spells the request again, with
every operand at every value its field can hold. -/
def Obligations.FrameRoundTrip : Prop :=
  ∀ (i : Instr) (p : Port) (tag : Byte), requestPortTag i = some (p, tag) →
    ∃ f, encodeFrame i = some f ∧ frameComplete f = true ∧ decodeFrame p f = .ok i

/-- Bytes on the link: each is eight clocks, most significant bit first, and a byte whose eight clocks do not all come is
discarded (R186). Frames written out from R187 and R191, the first of them the worked frame of chapter 10, spell their
requests; in the last two the top bits of an address field are set and ignored (R190). The values that READ STATUS carries are
numbered from 0 in the order their rules list them, multiples as 1, 2 and 4, motion kinds by their request codes, the zone
DEFAULT as 8 (R190 to R193); which list numbers a value that two rules list is DEDUCED (entry 27), and that the ROUGH flag
reads on 1, off 0 is the model's choice (entry 39). -/
def Obligations.WrittenFramesSpellTheirRequests : Prop :=
  (∀ (f : List Byte) (rest : List Bool), rest.length < 8 → received (f.flatMap clocks ++ rest) = f) ∧
  clocks 0x12 = [false, false, false, true, false, false, true, false] ∧
  decodeFrame .control [0x10, 0x11, 0x04, 0x02, 0x49, 0xF0, 0x02, 0x9E] = .ok (.seek .control 17 150000 2) ∧
  decodeFrame .control [0x12, 0x03, 0x00, 0xEB] = .ok (.stop .control 3) ∧
  decodeFrame .mechanism [0x01, 0x05, 0x00, 0xFA] = .ok (.readStatus .mechanism 5) ∧
  decodeFrame .stream [0x03, 0x09, 0x02, 0x01, 0x55, 0x9C] = .ok (.setNoticeMask .stream 9 0x0155) ∧
  decodeFrame .stream [0x20, 0x00, 0x04, 0x02, 0x49, 0xF0, 0x00, 0xA1] = .ok (.addressReport .stream 0 150000 0) ∧
  decodeFrame .stream [0x21, 0x07, 0x00, 0xD8] = .ok (.resumeAt .stream 7 none) ∧
  decodeFrame .mechanism [0x30, 0x01, 0x01, 0x01, 0xCD] = .ok (.clampState .mechanism 1 1) ∧
  decodeFrame .stream [0x22, 0x08, 0x03, 0xC2, 0x49, 0xF0, 0xD8] = .ok (.rejoin .stream 8 150000) ∧
  decodeFrame .control [0x18, 0x06, 0x05, 0x82, 0x49, 0xF0, 0x2E, 0x5B, 0x99] = .ok (.mapImport .control 6 150000 11867) ∧
  [DriveState.empty, .identifying, .stopped, .onTrack, .moving, .recovering, .sagHold, .parking, .releasing, .released,
    .faulted].map DriveState.code = [0, 1, 2, 3, 4, 5, 6, 7, 8, 9, 10] ∧
  [none, some DiscClass.L, some .H].map classCode = [0, 1, 2] ∧
  [FocusState.off, .search, .locked, .lost].map FocusState.code = [0, 1, 2, 3] ∧
  [TrackingState.off, .closed, .jump, .hold].map TrackingState.code = [0, 1, 2, 3] ∧
  [SpindleState.stopped, .spinup, .coarse, .locked, .braking, .coast].map SpindleState.code = [0, 1, 2, 3, 4, 5] ∧
  [Multiple.one, .two, .four].map Multiple.code = [1, 2, 4] ∧
  [false, true].map roughByte = [0, 1] ∧
  [SupplyState.normal, .sag].map SupplyState.code = [0, 1] ∧
  [ClampState.unknown, .clamped, .unclamped].map ClampState.code = [0, 1, 2] ∧
  [Port.control, .stream, .mechanism].map portCode = [0, 1, 2] ∧
  [MotionKind.seek, .follow, .stop, .rejoin, .release].map MotionKind.code = [0x10, 0x11, 0x12, 0x22, 0x32] ∧
  [Phase.acquire, .leg, .settle, .verify, .approach, .following, .recovering, .suspended, .braking, .homing].map
    Phase.code = [0, 1, 2, 3, 4, 5, 6, 7, 8, 9] ∧
  [ZoneId.entry 0, .entry 7, .default].map ZoneId.code = [0, 7, 8]

/-- R189: the checks of a complete frame in their order, each refusal answered with the tag byte as received and no data, and
nothing else changed; a request on a port that does not serve its kind is refused WRONG_PORT and changes nothing else; outside
RECEIVING a port takes no request, and nothing changes (entry 5, read from R188 and R203). -/
def Obligations.FrameChecksRefuseInOrder : Prop :=
  (∀ (p : Port) (code tag len : Byte) (rest : List Byte) (s : State),
    (s.port p).decoder = .receiving → rest.length = len.toNat + 1 →
    let f := code :: tag :: len :: rest
    (sumBytes f ≠ 0 → exec (.unknownKind p f) s = .next (s.answer p tag .linkError [])) ∧
    (sumBytes f = 0 → (12 < len.toNat ∨ ∃ ls, allowedLengths code = some ls ∧ len.toNat ∉ ls) →
      exec (.unknownKind p f) s = .next (s.answer p tag .badLength [])) ∧
    (sumBytes f = 0 → len.toNat ≤ 12 → allowedLengths code = none →
      exec (.unknownKind p f) s = .next (s.answer p tag .unknownKind [])) ∧
    (∀ ls, sumBytes f = 0 → allowedLengths code = some ls → len.toNat ∈ ls → servedOn code p = false →
      exec (.unknownKind p f) s = .next (s.answer p tag .wrongPort []))) ∧
  (∀ (i : Instr) (p : Port) (tag : Byte) (s : State), requestPortTag i = some (p, tag) →
    (∀ code, requestCode i = some code → (s.port p).decoder = .receiving → servedOn code p = false →
      exec i s = .next (s.answer p tag .wrongPort [])) ∧
    ((s.port p).decoder ≠ .receiving → exec i s = .next s))

/-- A raw frame that passes the checks does what the request it spells does, entry 8: the model's reading of the UNKNOWN_KIND
row. -/
def Obligations.SpelledFrameRunsItsRequest : Prop :=
  ∀ (p : Port) (f : List Byte) (i : Instr) (s : State),
    (s.port p).decoder = .receiving → frameComplete f = true → decodeFrame p f = .ok i →
    exec (.unknownKind p f) s = exec i s

/-- Every request taken on a port that serves it is answered there with its tag, a refusal with no data; the decoder goes on
to TURNAROUND, in which the part drives 0xFF, and after it the part drives the reply frame, whose bytes sum to 0; the
transactions of the other ports go on unchanged (R186 to R188, R192). -/
def Obligations.EveryRequestTakenIsAnswered : Prop :=
  ∀ (i : Instr) (p : Port) (tag code : Byte) (s : State),
    requestPortTag i = some (p, tag) → requestCode i = some code → Takes code p s →
    ∃ t st data check, exec i s = .next t ∧
      (t.port p).decoder = .turnaround ∧ (t.port p).reply = some ⟨st, tag, data⟩ ∧ (st ≠ .accepted → data = []) ∧
      dataOut (t.port p) = [0xFF] ∧
      dataOut (t.port p).turnaroundEnds = [st.code, tag, byte data.length] ++ data ++ [check] ∧
      sumBytes (dataOut (t.port p).turnaroundEnds) = 0 ∧
      ∀ q, q ≠ p → (t.port q).decoder = (s.port q).decoder ∧ (t.port q).reply = (s.port q).reply

/-! ### The select line, the end of a reply, the report queues -/

/-- R188: a fall of the select line in IDLE starts RECEIVING and does nothing in another state; a rise returns the decoder to
IDLE, the rest of a reply lost and an unfinished read undone; the end of a reply is FINISHED. Only that port's decoder and
reply change (no SOFT RESET waiting, no report being read). That REPLY_COMPLETE acts in TURNAROUND too, the turnaround byte
ending within it, is the model's choice (entry 6). -/
def Obligations.SelectLineMovesTheDecoder : Prop :=
  ∀ (p : Port) (s : State),
    ((s.port p).decoder = .idle → exec (.selectFall p) s = .next (s.setPort p { s.port p with decoder := .receiving })) ∧
    ((s.port p).decoder ≠ .idle → exec (.selectFall p) s = .next s) ∧
    ((s.port p).resetArmed = false → exec (.selectRelease p) s = .next (s.setPort p { s.port p with
      decoder := .idle, reply := none, reading := false, headRenewed := false })) ∧
    ((s.port p).decoder = .turnaround ∨ (s.port p).decoder = .replying → (s.port p).resetArmed = false →
      (s.port p).reading = false →
      exec (.replyComplete p) s = .next (s.setPort p { s.port p with decoder := .finished, reply := none })) ∧
    ((s.port p).decoder ≠ .turnaround → (s.port p).decoder ≠ .replying → exec (.replyComplete p) s = .next s)

/-- The end of the reply that read a report. A completion report leaves the head of the queue, and its ticket and its DONE
record go with it; a notice leaves, or stays at the head with repeat count 0 when it was coalesced while it was being read;
the line follows R200 (R121, R196, R198). That REPLY_COMPLETE acts in TURNAROUND too is the model's choice (entry 6). -/
def Obligations.ReportsLeaveAsTheyAreRead : Prop :=
  ∀ (p : Port) (rest : List Report) (s : State),
    (s.port p).decoder = .turnaround ∨ (s.port p).decoder = .replying → (s.port p).resetArmed = false →
    (s.port p).reading = true →
    (∀ c, (s.port p).headRenewed = false → (s.port p).queue = .completion c :: rest →
      ∃ t, exec (.replyComplete p) s = .next t ∧ (t.port p).decoder = .finished ∧
        ReadLeavesLine (s.port p) (t.port p) rest ∧
        (t.port p).tickets = (s.port p).tickets.erase c.tag ∧
        (∀ m, m ∈ t.arbiter.done ↔ m ∈ s.arbiter.done ∧ ¬ (m.port = p ∧ m.tag = c.tag)) ∧
        (∀ q, q ≠ p → t.port q = s.port q) ∧
        t = { (s.setPort p (t.port p)) with arbiter := { s.arbiter with done := t.arbiter.done } }) ∧
    (∀ n r, (s.port p).queue = .notice n r :: rest →
      ∃ t, exec (.replyComplete p) s = .next t ∧ (t.port p).decoder = .finished ∧
        ((s.port p).headRenewed = false → ReadLeavesLine (s.port p) (t.port p) rest) ∧
        ((s.port p).headRenewed = true → ReadLeavesLine (s.port p) (t.port p) (.notice n 0 :: rest)) ∧
        (t.port p).tickets = (s.port p).tickets ∧ t = s.setPort p (t.port p))

/-- The holdoff timer expires: ASSERTED when the queue holds entries, QUIET when it does not; in the other states of the line
nothing happens (R200). What is left of the holdoff passes first (entry 3). -/
def Obligations.HoldoffEnds : Prop :=
  ∀ (p : Port) (s : State),
    ((s.port p).attention = .holdoff → ∃ t, exec (.holdoffExpiry p) s = .next t ∧
      t = (passTime ((s.port p).holdoffLeft / 10) s).setPort p { s.port p with
        attention := if (s.port p).queue = [] then .quiet else .asserted, holdoffLeft := 0 }) ∧
    ((s.port p).attention ≠ .holdoff → exec (.holdoffExpiry p) s = .next s)

/-! ### Resets -/

/-- A power-on reset takes effect when the reset pin is released: every block and every port at its reset values, a motor that
turns braked (R82, R202). That the home switch keeps its level and the queue of commands its entries is the model's choice
(entries 10 and 4). -/
def Obligations.PowerOnResetRestoresEverything : Prop :=
  ∀ s : State, ∃ t, exec .powerOnReset s = .next t ∧ BlocksReset s t ∧
    ∀ p, PortReset p .powerOn (t.port p) ∧ DecoderReset (s.port p) (t.port p)

/-- SOFT RESET is answered ACCEPTED with no data and changes nothing yet; it takes effect at the end of its reply, or at a rise
of the select line before that (R202). That REPLY_COMPLETE acts in TURNAROUND too (entry 6), and that the home switch keeps its
level and the queue of commands its entries (entries 10 and 4), is the model's choice. -/
def Obligations.SoftResetWaitsForItsReply : Prop :=
  ∀ (p : Port) (tag : Byte) (s : State),
    (Takes 0x1C p s → exec (.softReset p tag) s
      = .next ((s.setPort p { s.port p with resetArmed := true }).answer p tag .accepted [])) ∧
    ((s.port p).resetArmed = true → (s.port p).decoder = .turnaround ∨ (s.port p).decoder = .replying →
      ∃ t, exec (.replyComplete p) s = .next t ∧ BlocksReset s t ∧ (t.port p).decoder = .blocked ∧
        ∀ q, PortReset q .softReset (t.port q) ∧
          (q ≠ p → DecoderReset (s.port q) (t.port q))) ∧
    ((s.port p).resetArmed = true → ∃ t, exec (.selectRelease p) s = .next t ∧ BlocksReset s t ∧
        (t.port p).decoder = .idle ∧
        ∀ q, PortReset q .softReset (t.port q) ∧
          (q ≠ p → DecoderReset (s.port q) (t.port q)))

/-- The values that R5, R23, R24, R32, R36, R66, R83, R97, R104, R120, R123, R145, R169 and R195 to R202 give for reset: the
drive EMPTY with no class, the loops OFF, the spindle STOPPED in drive mode STOP, the map empty, the trim 4,096, eight disabled
OPEN zones of cap 4, retry count 3, address-monitor time 60, each port with one RESTARTED notice of POWER_ON, its default mask
and holdoff 10. The measured speed, which R66 leaves to the tachometer, is the model's 0, and the home switch its open (entry
10); the fields that the rules imply without naming (acquireStep, closers, legDone, settleSince, returning, storedSearch,
storedJump, reading, headRenewed, resetArmed) hold the model's none, no, 0 or empty (DEDUCED, entry 12). -/
def Obligations.ResetValues : Prop :=
  (∀ p, (State.reset.port p).decoder = .idle ∧ (State.reset.port p).reply = none ∧
    (State.reset.port p).queue = [.notice (.restarted .powerOn) 0] ∧
    (State.reset.port p).attention = .asserted ∧ (State.reset.port p).holdoff = 10 ∧
    (State.reset.port p).holdoffLeft = 0 ∧ (State.reset.port p).tickets = [] ∧
    (State.reset.port p).reading = false ∧ (State.reset.port p).headRenewed = false ∧
    (State.reset.port p).resetArmed = false) ∧
  State.reset.control.mask = 0x03FF ∧ State.reset.stream.mask = 0x025B ∧ State.reset.mechanism.mask = 0x0043 ∧
  State.reset.clock = 0 ∧
  State.reset.arbiter = { active := none, attached := none, waiting := [], arrivals := 0, releaseLatch := false, done := [] } ∧
  (let p := State.reset.planner
   p.owner = .none ∧ p.target = none ∧ p.targetCoord = none ∧ p.startCoord = none ∧ p.distance = none ∧
   p.legKind = .none ∧ p.legCount = 0 ∧ p.legStage = .idle ∧ p.legDisturbed = false ∧ p.sessionLegs = 0 ∧
   p.sessionSled = 0 ∧ p.trim = 4096 ∧ p.unreached = none ∧ p.acquireStep = .none ∧ p.legDone = false ∧
   p.settleSince = 0 ∧ p.returning = false) ∧
  State.reset.map = { records := [], cls := none, counter := 0 } ∧
  State.reset.zones.entries.length = 8 ∧ (∀ e ∈ State.reset.zones.entries, e = ⟨false, 0, 0, .four, .opened⟩) ∧
  State.reset.zones.defaultCap = .four ∧ State.reset.zones.announced = none ∧
  State.reset.monitor = { fix := none, resume := none, expectedBase := none, jumpSum := 0, started := false
                          elapsed := 0, limit := 60 } ∧
  (let o := State.reset.optics
   o.profile = none ∧ o.switch = none ∧ o.focus = .off ∧ o.allowed = 1 ∧ o.attempt = 0 ∧ o.attemptTimer = none ∧
   o.requester = none ∧ o.tracking = .off ∧ o.jumpCount = 0 ∧ o.crossings = 0 ∧ o.jumpOrigin = .leg ∧
   o.openPending = false ∧ o.holdAddress = none ∧ o.robustGain = false ∧ o.closers = [] ∧
   o.storedSearch = none ∧ o.storedJump = none) ∧
  State.reset.sled = { state := .idle, position := none, legSteps := 0, taken := 0, stopPending := false, paused := false
                       requester := none, homeClosed := false } ∧
  State.reset.spindle = { state := .stopped, mode := .stop, basis := none, held := .one, m := .one, target := 0
                          clamped := false, measured := 0, lockTest := none, lockLimit := none, stopLimit := none } ∧
  State.reset.recovery = { phase := .none, refocusCount := 0, retrackCount := 0, refixCount := 0, respinCount := 0
                           retryLimit := 3, keptPhase := none, returnAddr := none, holdCopy := none, window := none
                           fixReported := false, history := [], rough := false, roughExit := none, retryCount := 3
                           amTime := 60 } ∧
  State.reset.supervisor = { drive := .empty, cls := none, clamp := .unknown, supply := .normal, sagTimer := none
                             focusLostInSag := false, suspendedPhase := none, ident := none, fault := none }

/-! ### Requests that read -/

/-- The 38 bytes of READ STATUS, offset by offset, absent groups filled with ones; nothing else changes (R193). Its values are
numbered as R190 to R192 say; which list numbers a value that two rules list is DEDUCED (entry 27), and that the ROUGH flag
at offset 10 reads on 1, off 0 is the model's choice (entry 39). -/
def Obligations.ReadStatusReportsTheState : Prop :=
  ∀ (p : Port) (tag : Byte) (s : State), Takes 0x01 p s →
    ∃ d, exec (.readStatus p tag) s = .next (s.answer p tag .accepted d) ∧ d.length = 38 ∧
      d.take 5 = [s.supervisor.drive.code, classCode s.supervisor.cls, s.optics.focus.code, s.optics.tracking.code,
        s.spindle.state.code] ∧
      (d.drop 5).take 4 = bytes2 s.spindle.target ++ bytes2 s.spindle.measured ∧
      (d.drop 9).take 4 = [s.spindle.m.code, roughByte s.recovery.rough, s.supervisor.supply.code,
        s.supervisor.clamp.code] ∧
      d[13]? = some (byte ((if s.monitor.fix.isSome then 1 else 0) + (if s.arbiter.active.isSome then 2 else 0)
        + (if s.arbiter.attached.isSome then 4 else 0) + (if s.sled.position.isSome then 8 else 0))) ∧
      (∀ f, s.monitor.fix = some f → (d.drop 14).take 11
        = bytes3 f.address ++ bytes2 f.coord ++ bytes4 f.time.toNat ++ [f.zone.code, flagByte f.fresh]) ∧
      (s.monitor.fix = none → (d.drop 14).take 11 = List.replicate 11 0xFF) ∧
      (∀ m, s.arbiter.active = some m → (d.drop 25).take 4
        = [portCode m.port, m.tag, m.kind.code, (m.phase.map Phase.code).getD 0xFF]) ∧
      (s.arbiter.active = none → (d.drop 25).take 4 = List.replicate 4 0xFF) ∧
      (∀ m, s.arbiter.attached = some m → d[29]? = some m.tag) ∧ (s.arbiter.attached = none → d[29]? = some 0xFF) ∧
      (d.drop 30).take 4 = [byte s.arbiter.waiting.length, byte s.control.tickets.length, byte s.stream.tickets.length,
        byte s.mechanism.tickets.length] ∧
      (∀ x, s.sled.position = some x → (d.drop 34).take 2 = bytes2 x) ∧
      (s.sled.position = none → (d.drop 34).take 2 = List.replicate 2 0xFF) ∧
      d.drop 36 = bytes2 s.planner.trim

/-- READ REPORT describes the head entry of the queue and what will remain after it, and leaves the queue as it is until its
reply has been sent; an empty queue answers EMPTY (R196, R198). The content of each notice, field by field, and the numbers of
the values in it, in the order their rules list them (R190, R197; DEDUCED where two lists exist: entry 27). That the ROUGH flag
in DISTURBANCE and ROUGH reads on 1, off 0 is the model's choice (entry 39). -/
def Obligations.ReadReportDescribesTheHead : Prop :=
  (∀ (p : Port) (tag : Byte) (s : State), Takes 0x02 p s →
    ((s.port p).queue = [] → exec (.readReport p tag) s = .next (s.answer p tag .empty [])) ∧
    (∀ c rest, (s.port p).queue = .completion c :: rest → exec (.readReport p tag) s
      = .next ((s.setPort p { s.port p with reading := true, headRenewed := false }).answer p tag .accepted
          ([0, c.kind.code, 0, byte rest.length, c.tag, c.kind.code, c.result.code, c.result.reasonCode]
            ++ addrField c.final ++ [byte c.legs] ++ bytes2 c.bad))) ∧
    (∀ n r rest, (s.port p).queue = .notice n r :: rest → exec (.readReport p tag) s
      = .next ((s.setPort p { s.port p with reading := true, headRenewed := false }).answer p tag .accepted
          ([1, byte n.code, byte r, byte rest.length] ++ n.content)))) ∧
  (∀ c, (Notice.restarted c).code = 0 ∧ (Notice.restarted c).content = [c.code]) ∧
  (∀ e k f, (Notice.disc e k f).code = 1 ∧
    (Notice.disc e k f).content = [e.code, classCode (some k)] ++ addrField f) ∧
  (∀ d d' k t, (Notice.drive d d' k t).code = 2 ∧
    (Notice.drive d d' k t).content = [d.code, d'.code, classCode k] ++ bytes4 t.toNat) ∧
  (∀ m x c y, (Notice.speed m x c y).code = 3 ∧
    (Notice.speed m x c y).content = [m.code] ++ bytes2 x ++ [flagByte c] ++ bytes2 y) ∧
  (∀ d t f ph r n, (Notice.disturbance d t f ph r n).code = 4 ∧
    (Notice.disturbance d t f ph r n).content
      = [d.code] ++ bytes4 t.toNat ++ addrField f ++ [ph.code, roughByte r, byte n]) ∧
  (∀ r t n, (Notice.rough r t n).code = 5 ∧ (Notice.rough r t n).content = [roughByte r] ++ bytes4 t.toNat ++ [byte n]) ∧
  (∀ k f t b, (Notice.fault k f t b).code = 6 ∧
    (Notice.fault k f t b).content = [k.code] ++ addrField f ++ bytes4 t.toNat ++ [flagByte b]) ∧
  (∀ z z' f c a, (Notice.zone z z' f c a).code = 7 ∧
    (Notice.zone z z' f c a).content = [z.code, zoneField z'] ++ bytes3 f ++ [c.code, a.code]) ∧
  (∀ x d t, (Notice.supply x d t).code = 8 ∧ (Notice.supply x d t).content = [x.code, d.code] ++ bytes4 t.toNat) ∧
  (∀ g f z e, (Notice.following g f z e).code = 9 ∧
    (Notice.following g f z e).content = [g] ++ bytes3 f ++ bytes3 z ++ [e.code]) ∧
  [Result.reached, .ended, .zoneLimit, .done, .unreached, .superseded, .cancelled, .preempted .release, .faulted].map
    Result.code = [0, 1, 2, 3, 4, 5, 6, 7, 8] ∧
  [Result.preempted .release, .preempted .supply, .done].map Result.reasonCode = [0, 1, 0xFF] ∧
  [ResetCause.powerOn, .softReset].map ResetCause.code = [0, 1] ∧ [false, true].map roughByte = [0, 1] ∧
  [DiscEvent.candidateH, .candidateL, .identified].map DiscEvent.code = [0, 1, 2] ∧
  [Disturbance.focusLost, .trackSlip, .addressJump, .addressStarved, .spindleSlip].map Disturbance.code = [0, 1, 2, 3, 4] ∧
  [RecoveryPhase.none, .refocus, .retrack, .refix, .respin, .return].map RecoveryPhase.code = [0, 1, 2, 3, 4, 5] ∧
  [FollowEntry.start, .rejoin, .return].map FollowEntry.code = [0, 1, 2]

/-- READ IDENTITY, READ FAULT, READ ZONE and READ MAP answer what they name and change nothing else; the values in them are
numbered in the order their rules list them (R19, R29, R190, R192, R194; entry 27). -/
def Obligations.OtherReadsAnswerWhatTheyName : Prop :=
  ∀ (p : Port) (tag index : Byte) (s : State),
    (Takes 0x05 p s → exec (.readIdentity p tag) s = .next (s.answer p tag .accepted
      ([0x62, 0x01, 0x41, portCode p, 12, 2, 32] ++ bytes4 s.clock.toNat))) ∧
    (Takes 0x1A p s → ∃ f u, exec (.readFault p tag) s = .next (s.answer p tag .accepted (f ++ u)) ∧
      (∀ x, s.supervisor.fault = some x → f = [1, x.kind.code] ++ addrField x.lastGood ++ bytes4 x.time.toNat) ∧
      (s.supervisor.fault = none → f = 0 :: List.replicate 8 0xFF) ∧
      (∀ x, s.planner.unreached = some x → u = [1, portCode x.port, x.tag] ++ addrField x.target
        ++ addrField x.lastGood ++ [byte x.legs, x.cause.code]) ∧
      (s.planner.unreached = none → u = 0 :: List.replicate 10 0xFF)) ∧
    (Takes 0x15 p s →
      (∀ e, index.toNat < 8 → s.zones.entries[index.toNat]? = some e → exec (.readZone p tag index) s
        = .next (s.answer p tag .accepted ([index, flagByte e.enabled] ++ bytes3 e.base.toNat ++ bytes3 e.mask.toNat
            ++ [e.cap.code, e.access.code]))) ∧
      (index = 8 → exec (.readZone p tag index) s = .next (s.answer p tag .accepted
        ([8, 1] ++ List.replicate 6 0xFF ++ [s.zones.defaultCap.code, 0]))) ∧
      (8 < index.toNat → exec (.readZone p tag index) s = .next (s.answer p tag .outOfRange []))) ∧
    (Takes 0x17 p s →
      (∀ r, s.map.records[index.toNat]? = some r → exec (.readMap p tag index) s = .next (s.answer p tag .accepted
        ([classCode s.map.cls, byte s.map.records.length] ++ bytes4 s.map.counter ++ [1] ++ bytes3 r.address
          ++ bytes2 r.coord ++ [r.origin.code] ++ bytes4 r.seq))) ∧
      (s.map.records.length ≤ index.toNat → exec (.readMap p tag index) s = .next (s.answer p tag .accepted
        ([classCode s.map.cls, byte s.map.records.length] ++ bytes4 s.map.counter ++ [0] ++ List.replicate 10 0xFF)))) ∧
    [FaultKind.focusUnrecoverable, .addressUnrecoverable, .spindleUnlocked, .spindleStopFail, .homeFailed,
      .discUnreadable].map FaultKind.code = [0, 1, 2, 3, 4, 5] ∧
    [Cause.legBudget, .sledBudget, .sledLimit].map Cause.code = [0, 1, 2] ∧
    [Origin.seed, .learned, .imported].map Origin.code = [0, 1, 2] ∧
    [Access.opened, .avoid].map Access.code = [0, 1]

/-! ### Requests that set -/

/-- A notice mask is stored with bit 0 set and bits 10 to 15 clear, a holdoff value as it is, on the port that receives it
(R199, R201). RECOVERY SETTINGS clamps the retry count to 1 to 8 and the address-monitor time to 20 to 250, and a recovery or a
timer in progress keeps its limit (R185). RESUME AT is refused NO_DISC without a class; otherwise the resume point becomes
absent, or the address clamped to the highest of the class (R116). The replies carry what is stored. -/
def Obligations.SettingsAreStored : Prop :=
  (∀ (p : Port) (tag value : Byte) (mask : BitVec 16) (s : State),
    (Takes 0x03 p s → ∃ m : BitVec 16, exec (.setNoticeMask p tag mask) s
        = .next ((s.setPort p { s.port p with mask := m }).answer p tag .accepted (bytes2 m.toNat)) ∧
      m.getLsbD 0 = true ∧ ∀ i, 1 ≤ i → m.getLsbD i = (decide (i < 10) && mask.getLsbD i)) ∧
    (Takes 0x04 p s → exec (.setHoldoff p tag value) s
      = .next ((s.setPort p { s.port p with holdoff := value }).answer p tag .accepted [value]))) ∧
  (∀ (p : Port) (tag retry time : Byte) (s : State), Takes 0x19 p s →
    exec (.recoverySettings p tag retry time) s = .next ((s.setRecovery { s.recovery with
      retryCount := max 1 (min 8 retry.toNat), amTime := max 20 (min 250 time.toNat) }).answer p tag .accepted
        [byte (max 1 (min 8 retry.toNat)), byte (max 20 (min 250 time.toNat))])) ∧
  (∀ (p : Port) (tag : Byte) (address : Option Addr) (s : State), Takes 0x21 p s →
    (s.supervisor.cls = none → exec (.resumeAt p tag address) s = .next (s.answer p tag .noDisc [])) ∧
    (∀ k, s.supervisor.cls = some k →
      (address = none → exec (.resumeAt p tag address) s
        = .next ((s.setMonitor { s.monitor with resume := none }).answer p tag .accepted [0xFF, 0xFF, 0xFF])) ∧
      (∀ a, address = some a → exec (.resumeAt p tag address) s
        = .next ((s.setMonitor { s.monitor with resume := some (min a.toNat k.maxAddress) }).answer p tag .accepted
            (bytes3 (min a.toNat k.maxAddress))))))

/-- SET ZONE refuses an index above 7 and an access that is neither OPEN nor AVOID, and otherwise replaces the five
fields of one entry at once; SET DEFAULT ZONE stores its cap and changes no entry (R27, R28); caps are clamped as speeds are
(R119). The table they leave governs at once: the fix is decoded again, m, the target by the arithmetic of R67, the spindle
state by its band and the announced zone follow (R31, R32, R34, R67, R73, R80). Nothing more follows while nothing waits; an
ACQUIRE that waits for the spindle goes on to its focus search when the new target has brought the spindle to COARSE (R39,
R78). -/
def Obligations.ZoneRequestsRewriteTheTable : Prop :=
  (∀ v : Byte, (clampSpeed v).val = if v.toNat = 0 then 1 else if v.toNat = 3 then 2 else min v.toNat 4) ∧
  (∀ (p : Port) (tag index enabled : Byte) (base mask : Addr) (cap access : Byte) (s : State),
    (Takes 0x14 p s → 7 < index.toNat ∨ 1 < access.toNat →
      exec (.setZone p tag index enabled base mask cap access) s = .next (s.answer p tag .outOfRange [])) ∧
    (∀ acc : Access, Takes 0x14 p s → index.toNat ≤ 7 → access = acc.code →
      ∃ t, exec (.setZone p tag index enabled base mask cap access) s = .next t ∧
        TableGoverns p tag (s.zones.entries.set index.toNat ⟨enabled != 0, base, mask, clampSpeed cap, acc⟩)
          s.zones.defaultCap ([index, flagByte (enabled != 0)] ++ bytes3 base.toNat ++ bytes3 mask.toNat
            ++ [(clampSpeed cap).code, acc.code]) s t)) ∧
  (∀ (p : Port) (tag cap : Byte) (s : State), Takes 0x16 p s →
    ∃ t, exec (.setDefaultZone p tag cap) s = .next t ∧
      TableGoverns p tag s.zones.entries (clampSpeed cap) [(clampSpeed cap).code] s t)

/-- R25: the decode of an address is the lowest-numbered entry that matches it, with that entry's cap and access; where none
matches, the default zone with its cap and access OPEN. -/
def Obligations.ZoneDecodeIsTheLowestMatch : Prop :=
  ∀ (z : ZoneTable) (a : Nat),
    (∀ i e, z.entries[i]? = some e → Matches e a → (∀ j e', j < i → z.entries[j]? = some e' → ¬ Matches e' a) →
      z.decode a = ⟨.entry i, e.cap, e.access⟩) ∧
    ((∀ e ∈ z.entries, ¬ Matches e a) → z.decode a = ⟨.default, z.defaultCap, .opened⟩)

/-- R17 and R18: MAP IMPORT is refused NO_DISC, RELEASING or OUT_OF_RANGE in that order and changes nothing then; otherwise the
record is inserted and the reply tells the outcome. -/
def Obligations.MapImportChecksThenInserts : Prop :=
  ∀ (p : Port) (tag : Byte) (address : Addr) (coordinate : BitVec 16) (s : State), Takes 0x18 p s →
    let run := exec (.mapImport p tag address coordinate) s
    (s.supervisor.cls = none ∨ s.supervisor.drive = .identifying → run = .next (s.answer p tag .noDisc [])) ∧
    (s.supervisor.cls ≠ none → s.supervisor.drive ≠ .identifying →
      (s.arbiter.releaseLatch = true → run = .next (s.answer p tag .releasing [])) ∧
      (s.arbiter.releaseLatch = false →
        (s.map.insert address.toNat coordinate.toNat .imported = none → run = .next (s.answer p tag .outOfRange [])) ∧
        (∀ i, s.map.insert address.toNat coordinate.toNat .imported = some i →
          run = .next ((s.setMap i.map).answer p tag .accepted
            ([if i.replaced then 1 else 0, byte i.displaced] ++ addrField i.evicted ++ bytes4 i.seq
              ++ [byte i.map.records.length])))))

/-- R167: CLEAR FAULT clears the fault and unreached records and answers the drive state; outside FAULTED that is all. In
FAULTED it then moves the drive to EMPTY, to STOPPED or PARKING, or to an identification, by the kind held, the class and the
clamp state; the identification starts as R151 says, and during a sag it is paused from its start, which R161 says of one that
a CLAMPED report started and the model takes for this one too (entry 25). With the latch still set and a class held, after a
RELEASE that SPINDLE_STOP_FAIL ended, R124 says an identification and R167 none: the drive does the one or the other (entry
34). -/
def Obligations.ClearFaultClearsAndMovesOn : Prop :=
  ∀ (p : Port) (tag : Byte) (s : State), Takes 0x1B p s →
    (s.supervisor.drive ≠ .faulted → exec (.clearFault p tag) s
      = .next (((s.setSupervisor { s.supervisor with fault := none }).setPlanner
          { s.planner with unreached := none }).answer p tag .accepted [s.supervisor.drive.code])) ∧
    (s.supervisor.drive = .faulted → Settled s →
      ∃ t, exec (.clearFault p tag) s = .next t ∧ SettingsSame s t ∧
        (t.port p).reply = some ⟨.accepted, tag, [t.supervisor.drive.code]⟩ ∧
        (ClearFaultIdentifies s → s.supervisor.clamp ≠ .clamped →
          RecordsCleared t ∧ t.supervisor.drive = .empty ∧ t.supervisor.cls = none ∧ t.map = PosMap.empty ∧
          t.monitor.fix = none ∧ t.arbiter.releaseLatch = false) ∧
        (ClearFaultIdentifies s → s.supervisor.clamp = .clamped → IdentOpen s →
          RecordsCleared t ∧ ∃ i, IdentBegun .clearFault i s t) ∧
        (¬ ClearFaultIdentifies s →
          let stops : Prop := RecordsCleared t ∧ t.supervisor.cls = s.supervisor.cls ∧
            t.arbiter.releaseLatch = s.arbiter.releaseLatch ∧
            t.supervisor.drive = if s.spindle.state = .stopped then .stopped else .parking
          (s.arbiter.releaseLatch = false → stops) ∧
          (s.arbiter.releaseLatch = true → s.supervisor.clamp ≠ .clamped → stops ∨
            RecordsCleared t ∧ t.supervisor.drive = .empty ∧ t.supervisor.cls = none ∧ t.map = PosMap.empty ∧
              t.monitor.fix = none ∧ t.arbiter.releaseLatch = false) ∧
          (s.arbiter.releaseLatch = true → s.supervisor.clamp = .clamped → IdentOpen s → stops ∨
            RecordsCleared t ∧ t.supervisor.cls = s.supervisor.cls ∧ ∃ i, IdentBegun .clearFault i s t)))

/-! ### The position map -/

/-- R8: on a map in order, every address from 0 to the highest of the class has a prediction: the coordinate of the record at
it, or the line between its two neighbours, rounded half up; at 0 it is 0 and at the highest address the highest coordinate. So
predictions do not fall as addresses rise, and stay within the coordinates of the class (R9). -/
def Obligations.PredictionFollowsTheRecords : Prop :=
  ∀ (m : PosMap) (k : DiscClass), MapOk m → m.cls = some k →
    (∀ r ∈ m.records, m.predict r.address = some r.coord) ∧
    (∀ before lo hi after a, m.records = before ++ lo :: hi :: after → lo.address < a → a < hi.address →
      m.predict a = some (lo.coord + ((a - lo.address) * (hi.coord - lo.coord) + (hi.address - lo.address) / 2)
        / (hi.address - lo.address))) ∧
    (∀ a, a ≤ k.maxAddress → ∃ c, m.predict a = some c ∧ c ≤ k.maxCoord) ∧
    (∀ a b c d, a ≤ b → m.predict a = some c → m.predict b = some d → c ≤ d) ∧
    m.predict 0 = some 0 ∧ m.predict k.maxAddress = some k.maxCoord

/-- R11 to R15: an insertion outside the open range of the end records is refused; one inside replaces the record at its
address or joins, displaces exactly the records that break order with it, evicts the oldest inserted record of a map that is
still full, and moves the counter on; the map stays in order. A map in order predicts nothing above its highest address, for
which no rule gives a coordinate: the model's choice. -/
def Obligations.InsertionKeepsOrder : Prop :=
  ∀ (m : PosMap) (k : DiscClass) (a c : Nat) (o : Origin), MapOk m → m.cls = some k → o ≠ .seed →
    (∀ x, k.maxAddress < x → m.predict x = none) ∧
    (¬ (0 < a ∧ a < k.maxAddress ∧ 0 < c ∧ c < k.maxCoord) → m.insert a c o = none) ∧
    (0 < a → a < k.maxAddress → 0 < c → c < k.maxCoord →
      ∃ i, m.insert a c o = some i ∧ MapOk i.map ∧ i.map.cls = m.cls ∧ i.seq = m.counter ∧
        i.map.counter = (if m.counter < 4294967295 then m.counter + 1 else m.counter) ∧
        (⟨a, c, o, m.counter⟩ : MapRecord) ∈ i.map.records ∧
        (i.replaced = true ↔ ∃ r ∈ m.records, r.address = a) ∧
        (∀ r, r.address ≠ a → (r ∈ i.map.records ↔
          r ∈ m.records ∧ ¬ (r.address < a ∧ c ≤ r.coord) ∧ ¬ (a < r.address ∧ r.coord ≤ c) ∧
            i.evicted ≠ some r.address)) ∧
        (∀ e, i.evicted = some e → i.replaced = false ∧ m.records.length = 32 ∧ i.displaced = 0 ∧
          ∃ r ∈ m.records, r.address = e ∧ r.origin ≠ .seed ∧
            ∀ q ∈ m.records, q.origin ≠ .seed → r.seq < q.seq ∨ (r.seq = q.seq ∧ r.address ≤ q.address)))

/-! ### What every step keeps -/

/-- R4: the position map stays in strict order between its end records and within its 32 places, whatever happens. -/
def Obligations.MapStaysInOrder : Prop :=
  ∀ s t : State, MapOk s.map → step s = .next t → MapOk t.map

/-- The trim, the recovery settings, the spindle target, the disturbance history and the zone table stay within the ranges of
R57, R169, R67, R171 and R23; the effective speed multiple never exceeds the held speed and is 1 while ROUGH (R71), and the
robust gain is on exactly while ROUGH is (R83); a known sled position stays from 0 to 1,800 (R97), and the classes of the map
and of the drive supervisor stay the same (R145); the attached slot holds only a REJOIN (R121, R137), and an identification
waits for the restart of a try only while it tries a profile (R161). -/
def Obligations.RangesAreKept : Prop :=
  ∀ s t : State, step s = .next t →
    (TrimOk s → TrimOk t) ∧ (SettingsOk s → SettingsOk t) ∧ (TargetOk s → TargetOk t) ∧
    (HistoryOk s → HistoryOk t) ∧ (ZonesOk s → ZonesOk t) ∧ (SpeedOk s → SpeedOk t) ∧ (GainOk s → GainOk t) ∧
    (RailOk s.sled → RailOk t.sled) ∧ (ClassesAgree s → ClassesAgree t) ∧ (AttachedOk s → AttachedOk t) ∧
    (RestartOk s → RestartOk t)

/-- Tickets, motion records and completion reports stay in step: a port's tickets are at most two, each stands for one motion,
a motion is DONE exactly while its report waits; queues hold one notice of a kind and the attention lines follow them (R121,
R123, R195, R196, R198, R200). So a report queue never holds more than 12 reports, 2 of them completion reports (R195). -/
def Obligations.TicketsMotionsAndReportsAgree : Prop :=
  ∀ s : State, QueuesOk s → TicketsOk s →
    (∀ p, (s.port p).queue.length ≤ 12 ∧ (completionsIn (s.port p).queue).length ≤ 2) ∧
    ∀ t, step s = .next t → QueuesOk t ∧ TicketsOk t

/-- Tracking is not OFF only with focus LOCKED, timers run only in their states, hold addresses stand only in HOLD or across a
jump, a close in progress only with focus LOCKED and tracking OFF (R83 to R94), and a fresh fix means focus LOCKED and tracking
not OFF (R111). That a close in progress is a list of its senders is DEDUCED (entry 11). -/
def Obligations.LoopsAndFixAgree : Prop :=
  ∀ s t : State, LoopsOk s.optics → FreshOk s → step s = .next t → LoopsOk t.optics ∧ FreshOk t

/-- After reset every invariant holds. -/
def Obligations.InvariantsHoldAtReset : Prop :=
  MapOk State.reset.map ∧ TrimOk State.reset ∧ SettingsOk State.reset ∧ TargetOk State.reset ∧
  HistoryOk State.reset ∧ ZonesOk State.reset ∧ SpeedOk State.reset ∧ GainOk State.reset ∧
  QueuesOk State.reset ∧ TicketsOk State.reset ∧ LoopsOk State.reset.optics ∧ FreshOk State.reset ∧
  RailOk State.reset.sled ∧ ClassesAgree State.reset ∧ AttachedOk State.reset ∧ RestartOk State.reset

/-- R195 and R196: but for a reset and the end of a read, no command takes a completion report from a queue or moves one: those
that join do so behind those that are there. -/
def Obligations.CompletionReportsKeepTheirPlaces : Prop :=
  ∀ (i : Instr) (s t : State) (p : Port), exec i s = .next t → i ≠ .powerOnReset → i ≠ .replyComplete p →
    (∀ q, (s.port q).resetArmed = false) →
    ∃ l, completionsIn (t.port p).queue = completionsIn (s.port p).queue ++ l

/-! ### Motion requests -/

/-- R124: a motion request is refused by the first check that fails, LIMIT, TAG_IN_USE, FAULTED, RELEASING, NO_DISC,
OUT_OF_RANGE or ZONE_AVOIDED, and a refused request changes nothing. -/
def Obligations.MotionRequestsAreRefusedInOrder : Prop :=
  ∀ (p : Port) (tag speed : Byte) (target : Addr) (e : Option Addr) (st : Status) (s : State),
    (Takes 0x10 p s → motionRefusal .seek p tag (some target.toNat) none s = some st →
      exec (.seek p tag target speed) s = .next (s.answer p tag st [])) ∧
    (Takes 0x11 p s → motionRefusal .follow p tag (some target.toNat) (endStored e s) s = some st →
      exec (.follow p tag target speed e) s = .next (s.answer p tag st [])) ∧
    (Takes 0x12 p s → motionRefusal .stop p tag none none s = some st →
      exec (.stop p tag) s = .next (s.answer p tag st [])) ∧
    (Takes 0x22 p s → motionRefusal .rejoin p tag (some target.toNat) none s = some st →
      exec (.rejoin p tag target) s = .next (s.answer p tag st [])) ∧
    (Takes 0x32 p s → motionRefusal .release p tag none none s = some st →
      exec (.release p tag) s = .next (s.answer p tag st []))

/-- A motion request that passes its checks takes a ticket and the next arrival sequence, its record and no other joins the
records of its port, and the reply tells its status after placement, its clamped speed and its stored end address (R119,
R123, R125, R192). -/
def Obligations.MotionRequestsTakeATicket : Prop :=
  ∀ (p : Port) (tag speed : Byte) (target : Addr) (e : Option Addr) (s : State),
    (Takes 0x10 p s → motionRefusal .seek p tag (some target.toNat) none s = none →
      ∃ t, exec (.seek p tag target speed) s = .next t ∧ MotionTaken p tag (clampSpeed speed).code none s t) ∧
    (Takes 0x11 p s → motionRefusal .follow p tag (some target.toNat) (endStored e s) s = none →
      ∃ t, exec (.follow p tag target speed e) s = .next t ∧
        MotionTaken p tag (clampSpeed speed).code (endStored e s) s t) ∧
    (Takes 0x12 p s → motionRefusal .stop p tag none none s = none →
      ∃ t, exec (.stop p tag) s = .next t ∧ MotionTaken p tag 0xFF none s t) ∧
    (Takes 0x22 p s → motionRefusal .rejoin p tag (some target.toNat) none s = none →
      ∃ t, exec (.rejoin p tag target) s = .next t ∧ MotionTaken p tag 0xFF none s t) ∧
    (Takes 0x32 p s → motionRefusal .release p tag none none s = none →
      ∃ t, exec (.release p tag) s = .next t ∧ MotionTaken p tag 0xFF none s t)

/-- A motion that is accepted ends the motions its kind ends, at once and with their reports in this order, the active, the
attached and the pending ones: SUPERSEDED, or PREEMPTED for a REJOIN that a STOP ends (a REJOIN whose CANCEL waits ends
CANCELLED: entry 16). One that ends the active motion takes its slot, and goes on by the phase of that motion: a leg in flight
lands for it, a RUNNING sled leg stopped; APPROACH and FOLLOWING give it a first plan from the fresh fix; ACQUIRE and the
braking of a STOP an ACQUIRE of its own; a recovery and a sag go on with it. A STOP brakes, or takes over the braking; a REJOIN
takes the attached place of an older one; a RELEASE carries an older one on (R37, R39, R58, R59, R62, R76, R125 to R129). In a
recovery a motion that takes the slot, and a REJOIN that attaches, makes the drive MOVING (R147), and in a sag the report is set
aside. The STOP that brakes is the only motion left: the attached slot holds only a REJOIN, an invariant that RangesAreKept
states. That nothing is held once a jump has begun is the model's choice (entry 33). -/
def Obligations.AcceptedMotionsTakeTheSlotOfTheMotionsTheyEnd : Prop :=
  ∀ (p : Port) (tag : Byte) (c : Instr) (kind : MotionKind) (target : Option Nat) (s : State),
    Accepted p tag s c kind target →
    (∃ t, exec c s = .next t ∧ ∀ q, ∃ more, completionsIn (t.port q).queue
      = completionsIn (s.port q).queue ++ endedReports kind q s ++ more) ∧
    (s.arbiter.waiting = [] → s.supervisor.ident = none → ∃ t, exec c s = .next t ∧
      (∀ old g, s.arbiter.active = some old → s.arbiter.attached = none → endedWith kind old ≠ none → target = some g →
        (old.phase = some .leg ∨ old.phase = some .settle ∨ old.phase = some .verify →
          s.planner.legStage ≠ .idle → s.planner.legDisturbed = false → s.optics.focus = .locked →
          s.supervisor.drive = .moving →
          HasSlot p tag kind target (match s.planner.legStage with
            | .settling => .settle
            | .landing => .verify
            | _ => .leg) t ∧
          Owns target 0 0 t ∧ t.planner.legStage = s.planner.legStage ∧ t.planner.legCount = s.planner.legCount ∧
          t.supervisor = s.supervisor ∧ t.optics = s.optics ∧
          (s.planner.legStage = .running → s.planner.legKind = .sled → s.sled.state = .leg →
            t.sled = { s.sled with stopPending := true }) ∧
          ∀ q, completionsIn (t.port q).queue = completionsIn (s.port q).queue ++ endedReports kind q s) ∧
        (∀ f pt pa, old.phase = some .approach ∨ old.phase = some .following → s.planner.legStage = .idle →
          s.optics.tracking = .closed ∨ s.optics.tracking = .hold → s.monitor.fix = some f → f.fresh = true →
          s.supervisor.cls ≠ none → s.map.predict g = some pt → s.map.predict f.address = some pa →
          CallsForLeg g f.address ((pt : Int) - (pa : Int)) → ((pt : Int) - (pa : Int)).natAbs ≤ 64 →
          HasSlot p tag kind target .leg t ∧ Owns target 1 0 t ∧ FineLegBegun g ((pt : Int) - (pa : Int)) s t ∧
          ∀ q, completionsIn (t.port q).queue = completionsIn (s.port q).queue ++ endedReports kind q s) ∧
        (old.phase = some .acquire ∧ s.supervisor.drive = .moving ∨
            old.kind = .stop ∧ old.phase = some .braking ∧ s.supervisor.drive = .parking → s.spindle.measured < 135 →
          s.spindle.state = .spinup ∨ s.spindle.state = .braking ∧ s.spindle.target = 0 →
          HasSlot p tag kind target .acquire t ∧ Owns target 0 0 t ∧ t.planner.acquireStep = .spin ∧
          t.supervisor.drive = .moving ∧ t.optics = s.optics ∧ t.spindle.state = .spinup ∧ t.spindle.mode = .clv ∧
          t.spindle.basis = some ((s.monitor.fix.map Fix.coord).getD 0) ∧ ClvTarget t ∧
          ∀ q, completionsIn (t.port q).queue = completionsIn (s.port q).queue ++ endedReports kind q s) ∧
        (old.phase = some .recovering →
          HasSlot p tag kind target .recovering t ∧ Owns target 0 0 t ∧ TakenInRecovery s t ∧ t.optics = s.optics ∧
          t.recovery = { s.recovery with keptPhase := none, holdCopy := none } ∧
          ∀ q, completionsIn (t.port q).queue = completionsIn (s.port q).queue ++ endedReports kind q s) ∧
        (old.phase = some .suspended →
          HasSlot p tag kind target .suspended t ∧ Owns target 0 0 t ∧ t.optics = s.optics ∧
          t.supervisor = { s.supervisor with suspendedPhase := none } ∧ t.recovery = { s.recovery with holdCopy := none } ∧
          ∀ q, completionsIn (t.port q).queue = completionsIn (s.port q).queue ++ endedReports kind q s)) ∧
      (∀ old, s.arbiter.active = some old → endedWith kind old ≠ none → kind = .stop →
        s.supervisor.drive ≠ .stopped → s.supervisor.drive ≠ .empty →
        (AttachedOk s → Driven s.spindle → 30 ≤ s.spindle.measured →
          HasSlot p tag kind none .braking t ∧ liveMotions t = t.arbiter.active.toList ∧ t.planner.owner = .none ∧
          t.supervisor.drive = .parking ∧ Braked s t ∧ t.optics.focus = .off ∧ t.optics.tracking = .off ∧
          t.recovery.phase = .none ∧ t.supervisor.sagTimer = none ∧
          ∀ q, completionsIn (t.port q).queue = completionsIn (s.port q).queue ++ endedReports kind q s) ∧
        (old.kind = .stop → s.supervisor.drive = .parking → s.spindle.state = .braking →
          HasSlot p tag kind none .braking t ∧ t.supervisor.drive = .parking ∧ t.spindle.state = .braking ∧
          t.spindle.stopLimit = s.spindle.stopLimit ∧
          ∀ q, completionsIn (t.port q).queue = completionsIn (s.port q).queue ++ endedReports kind q s)) ∧
      (∀ m old, s.arbiter.active = some m → s.arbiter.attached = some old → old.kind = .rejoin → m.kind = .follow →
        kind = .rejoin → s.planner.legStage ≠ .idle → s.planner.legDisturbed = false →
        s.supervisor.drive = .moving → m.phase ≠ some .recovering → m.phase ≠ some .suspended →
        t.arbiter.active = some m ∧ t.planner.owner = .attached ∧ t.planner.target = target ∧
        t.planner.sessionLegs = 0 ∧ t.planner.sessionSled = 0 ∧ t.planner.legStage = s.planner.legStage ∧
        (∃ r, t.arbiter.attached = some r ∧ r.port = p ∧ r.tag = tag ∧ r.kind = .rejoin ∧ r.status = .attached ∧
          r.target = target) ∧
        ∀ q, completionsIn (t.port q).queue = completionsIn (s.port q).queue ++ endedReports kind q s) ∧
      (∀ m old, s.arbiter.active = some m → s.arbiter.attached = some old → old.kind = .rejoin → m.kind = .follow →
        kind = .rejoin → s.planner.acquireStep ≠ .spin → m.phase = some .recovering ∨ m.phase = some .suspended →
        t.arbiter.active = some m ∧ t.planner.owner = .attached ∧ t.planner.target = target ∧
        t.planner.sessionLegs = 0 ∧ t.planner.sessionSled = 0 ∧ t.planner.legStage = s.planner.legStage ∧
        (∃ r, t.arbiter.attached = some r ∧ r.port = p ∧ r.tag = tag ∧ r.kind = .rejoin ∧ r.status = .attached ∧
          r.target = target) ∧
        t.recovery = s.recovery ∧ t.optics = s.optics ∧
        (m.phase = some .recovering → TakenInRecovery s t) ∧ (m.phase = some .suspended → t.supervisor = s.supervisor) ∧
        ∀ q, completionsIn (t.port q).queue = completionsIn (s.port q).queue ++ endedReports kind q s) ∧
      (∀ old ph, s.arbiter.active = some old → old.kind = .release → old.phase = some ph → kind = .release →
        s.supervisor.drive ≠ .released → s.planner.acquireStep ≠ .spin →
        HasSlot p tag kind none ph t ∧ t.supervisor = s.supervisor ∧ t.spindle = s.spindle ∧ t.sled = s.sled ∧
        t.optics = s.optics ∧
        ∀ q, completionsIn (t.port q).queue = completionsIn (s.port q).queue ++ endedReports kind q s))

/-- A SEEK taken while the drive holds, its fix fresh in the reach window of the target, completes REACHED at once with no leg:
the drive holds at the target (R42, R43, R125, R131, R133). -/
def Obligations.SeekWithinReachCompletes : Prop :=
  ∀ (p : Port) (tag speed : Byte) (target : Addr) (f : Fix) (s : State),
    Takes 0x10 p s → motionRefusal .seek p tag (some target.toNat) none s = none →
    Holding s → s.monitor.fix = some f → f.fresh = true →
    target.toNat ≤ f.address → f.address ≤ target.toNat + 16 →
    (s.map.predict target.toNat).isSome = true → (s.map.predict f.address).isSome = true →
    ∃ t, exec (.seek p tag target speed) s = .next t ∧
      completionsIn (t.port p).queue
        = completionsIn (s.port p).queue ++ [⟨tag, .seek, .reached, some f.address, 0, 0⟩] ∧
      (t.port p).reply = some ⟨.accepted, tag, [3, (clampSpeed speed).code, 0xFF, 0xFF, 0xFF]⟩ ∧
      NoMotion t ∧ t.planner.owner = .none ∧ t.supervisor.drive = .onTrack ∧
      t.optics.tracking = .hold ∧ t.optics.holdAddress = some target.toNat ∧
      t.recovery.holdCopy = some target.toNat ∧ t.spindle.held = clampSpeed speed ∧ t.monitor.fix = s.monitor.fix

/-- A SEEK taken while the drive holds, its fix fresh and away from the target, begins its first leg: a fine leg of D tracks
when |D| is 64 or less, of −1 when the fix lies past the window on the target's own track, else a sled leg of the steps R48
and R49 give; the drive is MOVING, the fix stale, the spindle driven for the target coordinate by R67. Just below the target
it approaches instead (R41, R42, R44 to R50, R67, R131). That nothing is held once a jump has begun, and that an approach ends
the hold, are the model's (entries 33 and 31). -/
def Obligations.SeekBeginsItsFirstLeg : Prop :=
  ∀ (p : Port) (tag speed : Byte) (target : Addr) (f : Fix) (k : DiscClass) (pt pa : Nat) (s : State),
    Takes 0x10 p s → motionRefusal .seek p tag (some target.toNat) none s = none →
    Holding s → s.monitor.fix = some f → f.fresh = true → s.supervisor.cls = some k →
    s.map.predict target.toNat = some pt → s.map.predict f.address = some pa →
    let d : Int := (pt : Int) - (pa : Int)
    (CallsForApproach target.toNat f.address d → LoopsOk s.optics →
      ∃ t, exec (.seek p tag target speed) s = .next t ∧ HasSlot p tag .seek (some target.toNat) .approach t ∧
        Owns (some target.toNat) 0 0 t ∧ t.planner.legStage = .idle ∧ t.planner.distance = some d ∧
        t.supervisor.drive = .moving ∧ t.optics.tracking = .closed ∧ t.optics.holdAddress = none ∧
        t.spindle.mode = .clv ∧ t.spindle.basis = some pt ∧ ClvTarget t ∧ t.monitor.fix = s.monitor.fix) ∧
    (CallsForLeg target.toNat f.address d → d.natAbs ≤ 64 →
      ∃ t, exec (.seek p tag target speed) s = .next t ∧ LegBegun p tag .fine (legOf d) pt pa d s t ∧
        t.planner.sessionSled = 0 ∧ t.optics.tracking = .jump ∧ t.optics.jumpCount = legOf d ∧
        t.optics.jumpOrigin = .leg ∧ t.optics.crossings = 0 ∧ t.optics.holdAddress = none) ∧
    (∀ x n, CallsForLeg target.toNat f.address d → 64 < d.natAbs → s.sled.position = some x →
      s.sled.state = .idle ∨ s.sled.state = .creep → n = railSteps k d s.planner.trim x → n ≠ 0 →
      ∃ t, exec (.seek p tag target speed) s = .next t ∧
        LegBegun p tag .sled (if 0 ≤ d then (n : Int) else -(n : Int)) pt pa d s t ∧
        t.planner.sessionSled = 1 ∧ t.optics.tracking = .off ∧ t.optics.focus = s.optics.focus ∧
        t.sled.state = .leg ∧ t.sled.legSteps = (if 0 ≤ d then (n : Int) else -(n : Int)) ∧ t.sled.taken = 0 ∧
        t.sled.requester = some .planner)

/-- A FOLLOW taken while the drive holds, its fix fresh in the reach window of its start, OPEN and before its end address, plays
at once: FOLLOWING, tracking CLOSED with nothing held, a FOLLOWING notice of entry START (R134, R135). -/
def Obligations.FollowWithinReachPlays : Prop :=
  ∀ (p : Port) (tag speed : Byte) (start : Addr) (e : Option Addr) (f : Fix) (z : Nat) (s : State),
    Takes 0x11 p s → motionRefusal .follow p tag (some start.toNat) (endStored e s) s = none →
    LoopsOk s.optics → Holding s → s.monitor.fix = some f → f.fresh = true →
    start.toNat ≤ f.address → f.address ≤ start.toNat + 16 →
    (s.map.predict start.toNat).isSome = true → (s.map.predict f.address).isSome = true →
    endStored e s = some z → f.address < z → (s.zones.decode f.address).access = .opened →
    ∃ t m, exec (.follow p tag start speed e) s = .next t ∧ t.arbiter.active = some m ∧
      m.port = p ∧ m.tag = tag ∧ m.kind = .follow ∧ m.status = .active ∧ m.phase = some .following ∧
      m.endAddr = some z ∧ m.lastOpen = some f.address ∧ m.legs = 0 ∧
      (t.port p).reply = some ⟨.accepted, tag, [1, (clampSpeed speed).code] ++ addrField (some z)⟩ ∧
      t.planner.owner = .none ∧ t.supervisor.drive = .onTrack ∧ t.optics.tracking = .closed ∧
      t.optics.holdAddress = none ∧ t.recovery.holdCopy = none ∧ t.spindle.held = clampSpeed speed ∧
      ∀ q, admits (s.port q).mask 9 = true →
        ∃ r, Report.notice (.following tag f.address z .start) r ∈ (t.port q).queue

/-- A REJOIN taken while a FOLLOW plays, its fix fresh and at most 64 tracks away from the target, attaches to it and begins a
fine leg of its own: the FOLLOW's phase shows the leg, the REJOIN counts it (R37, R46, R62, R137). -/
def Obligations.RejoinAttachesToThePlayingFollow : Prop :=
  ∀ (p : Port) (tag : Byte) (target : Addr) (f : Fix) (m : Motion) (pt pa : Nat) (s : State),
    Takes 0x22 p s → motionRefusal .rejoin p tag (some target.toNat) none s = none →
    OnTrackAtRest s → s.arbiter.active = some m → m.port = .control → m.kind = .follow → m.phase = some .following →
    s.arbiter.attached = none → s.optics.tracking = .closed →
    s.monitor.fix = some f → f.fresh = true → s.supervisor.cls ≠ none →
    s.map.predict target.toNat = some pt → s.map.predict f.address = some pa →
    let d : Int := (pt : Int) - (pa : Int)
    CallsForLeg target.toNat f.address d → d.natAbs ≤ 64 →
    ∃ t r, exec (.rejoin p tag target) s = .next t ∧ t.arbiter.attached = some r ∧
      r.port = p ∧ r.tag = tag ∧ r.kind = .rejoin ∧ r.status = .attached ∧ r.legs = 1 ∧
      t.arbiter.active = some { m with phase := some .leg } ∧
      (t.port p).reply = some ⟨.accepted, tag, [2, 0xFF, 0xFF, 0xFF, 0xFF]⟩ ∧
      t.planner.owner = .attached ∧ t.planner.target = some target.toNat ∧ t.planner.legKind = .fine ∧
      t.planner.legCount = legOf d ∧ t.planner.legStage = .running ∧ t.planner.sessionLegs = 1 ∧
      t.supervisor.drive = .moving ∧ t.optics.tracking = .jump ∧ t.optics.jumpCount = legOf d ∧ fixFresh t = false

/-- A STOP taken while the drive holds and the disc turns parks it: PARKING with its DRIVE notice, brake, focus OFF; in
STOPPED or EMPTY it completes DONE at once and the drive stays (R76, R89, R132, R146, R162). -/
def Obligations.StopParksTheDrive : Prop :=
  ∀ (p : Port) (tag : Byte) (s : State), Takes 0x12 p s → motionRefusal .stop p tag none none s = none →
    (Holding s → 30 ≤ s.spindle.measured → Driven s.spindle →
      ∃ t m, exec (.stop p tag) s = .next t ∧ t.arbiter.active = some m ∧ m.port = p ∧ m.tag = tag ∧ m.kind = .stop ∧
        m.phase = some .braking ∧ (t.port p).reply = some ⟨.accepted, tag, [1, 0xFF, 0xFF, 0xFF, 0xFF]⟩ ∧
        t.supervisor.drive = .parking ∧ t.supervisor.cls = s.supervisor.cls ∧ DriveNoticed s t ∧ Braked s t ∧
        t.optics.focus = .off ∧ t.optics.tracking = .off ∧ fixFresh t = false ∧ lastGood t = lastGood s) ∧
    (s.supervisor.drive = .stopped ∨ s.supervisor.drive = .empty → NoMotion s → Settled s →
      ∃ t, exec (.stop p tag) s = .next t ∧
        (t.port p).reply = some ⟨.accepted, tag, [3, 0xFF, 0xFF, 0xFF, 0xFF]⟩ ∧
        completionsIn (t.port p).queue = completionsIn (s.port p).queue ++ [⟨tag, .stop, .done, lastGood s, 0, 0⟩] ∧
        NoMotion t ∧ t.supervisor = s.supervisor ∧ t.spindle = s.spindle ∧ t.optics = s.optics)

/-- A RELEASE taken with the disc turning ends every motion PREEMPTED with reason RELEASE, sets the release latch, abandons an
identification and brakes: RELEASING, lasers off (R85, R124, R128, R163). -/
def Obligations.ReleaseEndsEverythingAndBrakes : Prop :=
  ∀ (p : Port) (tag : Byte) (s : State), Takes 0x32 p s → motionRefusal .release p tag none none s = none →
    s.supervisor.drive ≠ .released → (∀ m, s.arbiter.active = some m → m.kind ≠ .release) →
    30 ≤ s.spindle.measured → Driven s.spindle →
    ∃ t m, exec (.release p tag) s = .next t ∧ liveMotions t = [m] ∧ t.arbiter.active = some m ∧
      m.port = p ∧ m.tag = tag ∧ m.kind = .release ∧ m.phase = some .braking ∧
      (t.port p).reply = some ⟨.accepted, tag, [1, 0xFF, 0xFF, 0xFF, 0xFF]⟩ ∧
      (∀ q, completionsIn (t.port q).queue = completionsIn (s.port q).queue ++
        ((liveMotions s).filter (fun m => m.port == q)).map (fun m => m.report (.preempted .release) (lastGood s))) ∧
      t.arbiter.releaseLatch = true ∧ t.supervisor.drive = .releasing ∧ t.supervisor.ident = none ∧
      Braked s t ∧ t.optics.focus = .off ∧ t.optics.tracking = .off ∧ t.optics.profile = none ∧
      t.recovery.phase = .none

/-- CANCEL finds the motion by its tag among the motions of its port: UNKNOWN_TAG when there is none, NOT_CANCELLABLE for a
STOP; a pending motion leaves the list CANCELLED, and an active one that plays or approaches ends CANCELLED with the drive
holding where it stands (R139, R140, R142). -/
def Obligations.CancelEndsTheNamedMotion : Prop :=
  ∀ (p : Port) (tag which : Byte) (s : State), Takes 0x13 p s →
    ((∀ m ∈ liveMotions s, ¬ (m.port = p ∧ m.tag = which)) →
      exec (.cancel p tag which) s = .next (s.answer p tag .unknownTag [])) ∧
    (∀ m, (liveMotions s).find? (Motion.named p which) = some m → m.kind = .stop →
      exec (.cancel p tag which) s = .next (s.answer p tag .notCancellable [])) ∧
    (∀ m, s.arbiter.active = none → s.arbiter.attached = none → s.arbiter.waiting = [m] → m.port = p → m.tag = which →
      m.kind ≠ .stop → s.supervisor.ident = none → s.planner.acquireStep ≠ .spin →
      ∃ t, exec (.cancel p tag which) s = .next t ∧ NoMotion t ∧ (t.port p).reply = some ⟨.accepted, tag, []⟩ ∧
        completionsIn (t.port p).queue = completionsIn (s.port p).queue ++ [m.report .cancelled (lastGood s)] ∧
        t.supervisor = s.supervisor ∧ t.optics = s.optics) ∧
    (∀ m a, s.arbiter.active = some m → s.arbiter.attached = none → m.port = p → m.tag = which → m.kind ≠ .stop →
      m.phase = some .following ∨ m.phase = some .approach → s.planner.legStage = .idle → Settled s →
      s.supervisor.drive = .onTrack ∨ s.supervisor.drive = .moving → lastGood s = some a →
      s.optics.tracking = .closed →
      ∃ t, exec (.cancel p tag which) s = .next t ∧ NoMotion t ∧ (t.port p).reply = some ⟨.accepted, tag, []⟩ ∧
        completionsIn (t.port p).queue = completionsIn (s.port p).queue ++ [m.report .cancelled (some a)] ∧
        t.planner.owner = .none ∧ t.supervisor.drive = .onTrack ∧ t.optics.tracking = .hold ∧
        t.optics.holdAddress = some a)

/-- CANCEL of a motion at work: with a leg in flight it waits for the landing, which ends it CANCELLED where it lands; in
ACQUIRE the mechanism is stopped, in RECOVERING and SUSPENDED the recovery or the sag goes on with no motion. CANCEL of an
attached REJOIN lets its FOLLOW go on following at once, its notice of entry REJOIN; in a recovery or a sag the FOLLOW is to
follow again after it, by its return, with that entry (the phase kept meanwhile is the model's choice: entry 18); so it is when
TRACK_SLIP takes away the landing that the CANCEL waits for; CANCEL of the FOLLOW that carries it leaves the REJOIN active in
its place, which makes a drive in RECOVERING MOVING and leaves SAG_HOLD (R58, R59, R138 to R140, R142, R147). -/
def Obligations.CancelOfMotionsAtWork : Prop :=
  (∀ (p : Port) (tag which : Byte) (m : Motion) (s : State), Takes 0x13 p s → s.arbiter.waiting = [] →
    s.supervisor.ident = none → s.arbiter.active = some m →
    ((liveMotions s).find? (Motion.named p which) = some m → m.kind ≠ .stop →
      ∃ t, exec (.cancel p tag which) s = .next t ∧ (t.port p).reply = some ⟨.accepted, tag, []⟩ ∧
        (s.arbiter.attached = none →
          m.phase = some .leg ∨ m.phase = some .settle ∨ m.phase = some .verify →
          s.planner.legStage ≠ .idle → s.planner.legDisturbed = false →
          t.arbiter = { s.arbiter with active := some { m with cancelPending := true } } ∧ t.planner.owner = .none ∧
          t.planner.legStage = s.planner.legStage ∧ ReportsStay s t ∧ t.supervisor = s.supervisor ∧
          (s.planner.legStage = .running → s.planner.legKind = .sled → s.sled.state = .leg →
            t.sled = { s.sled with stopPending := true })) ∧
        (s.arbiter.attached = none → m.phase = some .acquire → Driven s.spindle → 30 ≤ s.spindle.measured →
          NoMotion t ∧ OneMoreReport m.port ⟨m.tag, m.kind, .cancelled, lastGood s, m.legs, m.bad⟩ s t ∧
          t.planner.owner = .none ∧ t.supervisor.drive = .parking ∧ Braked s t ∧ t.optics.focus = .off) ∧
        (s.arbiter.attached = none →
          m.phase = some .recovering ∨ m.phase = some .suspended →
          NoMotion t ∧ OneMoreReport m.port ⟨m.tag, m.kind, .cancelled, lastGood s, m.legs, m.bad⟩ s t ∧
          t.planner.owner = .none ∧ t.supervisor.drive = s.supervisor.drive ∧
          t.recovery.phase = s.recovery.phase ∧
          (m.phase = some .recovering → t.recovery.keptPhase = none ∧ t.recovery.holdCopy = none) ∧
          (m.phase = some .suspended → t.supervisor.suspendedPhase = none)) ∧
        (∀ r, s.arbiter.attached = some r → s.planner.acquireStep ≠ .spin → s.planner.owner = .attached →
          t.arbiter.active = some { r with status := .active, phase := some (m.phase.getD .acquire) } ∧
          t.arbiter.attached = none ∧ t.planner = { s.planner with owner := .active } ∧ TakenInRecovery s t ∧
          (s.supervisor.drive = .sagHold → t.supervisor = s.supervisor) ∧
          OneMoreReport m.port ⟨m.tag, m.kind, .cancelled, lastGood s, m.legs, m.bad⟩ s t)) ∧
    (∀ r, s.arbiter.attached = some r → (liveMotions s).find? (Motion.named p which) = some r → r.kind = .rejoin →
      m.kind = .follow →
      ∃ t, exec (.cancel p tag which) s = .next t ∧ (t.port p).reply = some ⟨.accepted, tag, []⟩ ∧
        t.planner.owner = .none ∧
        (m.phase = some .leg ∨ m.phase = some .settle ∨ m.phase = some .verify →
          s.planner.legStage ≠ .idle → s.planner.legDisturbed = false →
          t.arbiter = { s.arbiter with attached := some { r with cancelPending := true } } ∧ ReportsStay s t) ∧
        (∀ a z, m.phase = some .approach → s.planner.legStage = .idle → s.supervisor.drive = .moving →
          s.optics.tracking = .closed → s.optics.holdAddress = none → lastGood s = some a → m.endAddr = some z →
          a < z → (s.zones.decode a).access = .opened →
          PlaysFrom m .rejoin a z s t ∧ t.arbiter.attached = none ∧
          OneMoreReport r.port ⟨r.tag, r.kind, .cancelled, some a, r.legs, r.bad⟩ s t) ∧
        (m.phase = some .recovering ∨ m.phase = some .suspended →
          t.arbiter.active = some { m with rejoinEnded := true } ∧ t.arbiter.attached = none ∧
          t.supervisor.drive = s.supervisor.drive ∧
          OneMoreReport r.port ⟨r.tag, r.kind, .cancelled, lastGood s, r.legs, r.bad⟩ s t ∧
          (m.phase = some .recovering → t.recovery.keptPhase = some .following) ∧
          (m.phase = some .suspended → t.supervisor.suspendedPhase = some .following)))) ∧
  (∀ (p : Port) (tag : Byte) (address : Addr) (k : DiscClass) (c : Nat) (m : Motion) (s : State),
    FixComes p address k c s → s.supervisor.drive = .moving → s.recovery.phase = .none → s.arbiter.active = some m →
    m.phase ≠ some .following → s.planner.owner = .none → s.planner.acquireStep = .none →
    s.planner.legStage = .landing → s.planner.legDisturbed = false →
    ∃ t, exec (.addressReport p tag address 0) s = .next t ∧ (t.port p).reply = some ⟨.accepted, tag, [0]⟩ ∧
      (s.arbiter.attached = none → m.cancelPending = true →
        EndedHolding m .cancelled address.toNat address.toNat s t) ∧
      (∀ r z, s.arbiter.attached = some r → r.cancelPending = true → m.kind = .follow → m.endAddr = some z →
        address.toNat < z → (s.zones.decode address.toNat).access = .opened →
        PlaysFrom m .rejoin address.toNat z s t ∧ t.arbiter.attached = none ∧
        OneMoreReport r.port ⟨r.tag, r.kind, .cancelled, some address.toNat, r.legs, r.bad⟩ s t)) ∧
  (∀ (us : Nat) (m r : Motion) (s : State), s.arbiter.active = some m → s.arbiter.attached = some r →
    r.cancelPending = true → s.arbiter.waiting = [] → s.supervisor.ident = none → s.supervisor.drive = .moving →
    s.recovery.phase = .none → s.optics.focus = .locked → s.optics.tracking = .closed ∨ s.optics.tracking = .hold →
    (if s.optics.robustGain then 3000 else 1000) < us → 1 ≤ s.recovery.retryCount →
    ∃ t, exec (.offTrack us) s = .next t ∧ t.supervisor.drive = .recovering ∧
      t.arbiter.active = some { m with phase := some .recovering, rejoinEnded := true } ∧ t.arbiter.attached = none ∧
      t.recovery.keptPhase = some .following ∧
      OneMoreReport r.port ⟨r.tag, r.kind, .cancelled, lastGood s, r.legs, r.bad⟩ s t)

/-! ### The address stream -/

/-- A GOOD address that is taken while the drive holds becomes the fix, a whole new record with the expected base and the timer
restarted; above the hold address it starts a back-jump of −1, at or below it nothing (R94, R110). Its zone is announced where
it differs from the zone announced (R32, R33); the spindle basis moves to a coordinate 64 tracks or more away, m is the least
of its terms, the target follows both by the arithmetic of R67, and a SPEED notice tells what changed (R67, R69, R71, R72,
R80). -/
def Obligations.GoodAddressBecomesTheFix : Prop :=
  ∀ (p : Port) (tag : Byte) (address : Addr) (k : DiscClass) (c h : Nat) (s : State),
    Takes 0x20 p s → s.supervisor.cls = some k → address.toNat ≤ k.maxAddress →
    s.map.predict address.toNat = some c → Holding s → s.optics.focus = .locked →
    s.optics.tracking = .hold → s.optics.holdAddress = some h → s.planner.acquireStep = .none →
    (fixFresh s = true → ∀ b, s.monitor.expectedBase = some b →
      ((c : Int) - ((b : Int) + s.monitor.jumpSum)).natAbs ≤ 2) →
    ∃ t, exec (.addressReport p tag address 0) s = .next t ∧ (t.port p).reply = some ⟨.accepted, tag, [0]⟩ ∧
      t.monitor = { s.monitor with
        fix := some ⟨address.toNat, c, s.clock, (s.zones.decode address.toNat).zone, true⟩
        expectedBase := some c, jumpSum := 0, started := true, elapsed := 0, limit := s.recovery.amTime } ∧
      t.supervisor = s.supervisor ∧ t.arbiter = s.arbiter ∧ t.map = s.map ∧
      t.zones.entries = s.zones.entries ∧ ZoneAnnounced s t ∧
      t.spindle.basis = s.spindle.basis.map (fun b : Nat => if 64 ≤ ((c : Int) - (b : Int)).natAbs then c else b) ∧
      t.spindle.held = s.spindle.held ∧ t.spindle.mode = s.spindle.mode ∧ LeastMultiple t ∧ Retargeted s t ∧
      SpeedNoticed s t ∧
      (h < address.toNat → t.optics = { s.optics with
        tracking := .jump, jumpCount := -1, crossings := 0, jumpOrigin := .hold }) ∧
      (address.toNat ≤ h → t.optics = s.optics)

/-- Each address taken as a fix while a FOLLOW plays is tested: in an AVOID zone the FOLLOW ends ZONE_LIMIT and the drive holds
at its last open address, or at the fix when it has none; at or above its end address it ends ENDED and the drive holds at the
end address; otherwise it becomes the last open address and the FOLLOW plays on (R94, R135). -/
def Obligations.PlayingFollowEndsOrPlaysOn : Prop :=
  ∀ (p : Port) (tag : Byte) (address : Addr) (k : DiscClass) (c z : Nat) (m : Motion) (s : State),
    FixComes p address k c s → OnTrackAtRest s → s.planner.acquireStep = .none → s.planner.owner = .none →
    s.arbiter.active = some m → m.kind = .follow → m.phase = some .following → s.arbiter.attached = none →
    m.endAddr = some z →
    (fixFresh s = true → ∀ b, s.monitor.expectedBase = some b →
      ((c : Int) - ((b : Int) + s.monitor.jumpSum)).natAbs ≤ 2) →
    let a := address.toNat
    ∃ t, exec (.addressReport p tag address 0) s = .next t ∧ (t.port p).reply = some ⟨.accepted, tag, [0]⟩ ∧
      ((s.zones.decode a).access = .avoid → EndedHolding m .zoneLimit a (m.lastOpen.getD a) s t) ∧
      ((s.zones.decode a).access = .opened → z ≤ a → EndedHolding m .ended a z s t) ∧
      ((s.zones.decode a).access = .opened → a < z →
        t.arbiter = { s.arbiter with active := some { m with lastOpen := some a } } ∧ t.optics = s.optics ∧
        t.supervisor = s.supervisor ∧ t.planner = s.planner ∧ ReportsStay s t)

/-- A report is refused OUT_OF_RANGE for its flag, IGNORED without a class, in the conditions of R108 or in SAG_HOLD, BAD for its
flag or above the highest address and then counted on the governing motion; none of these is a fix (R105 to R108, R159). The
drive is not in IDENTIFYING. -/
def Obligations.OtherReportsAreNoFix : Prop :=
  ∀ (p : Port) (tag flag : Byte) (address : Addr) (s : State), Takes 0x20 p s →
    (1 < flag.toNat → exec (.addressReport p tag address flag) s = .next (s.answer p tag .outOfRange [])) ∧
    (Settled s → s.supervisor.drive ≠ .identifying →
      (flag.toNat ≤ 1 → s.supervisor.cls = none →
        exec (.addressReport p tag address flag) s = .next (s.answer p tag .accepted [4])) ∧
      (∀ k, s.supervisor.cls = some k →
        (flag = 1 ∨ flag = 0 ∧ k.maxAddress < address.toNat →
          (∀ r, s.arbiter.attached = some r → exec (.addressReport p tag address flag) s
            = .next ((setAttached (some { r with bad := if r.bad < 65535 then r.bad + 1 else r.bad }) s).answer
                p tag .accepted [3])) ∧
          (∀ m, s.arbiter.attached = none → s.arbiter.active = some m →
            exec (.addressReport p tag address flag) s
              = .next ((setActive (some { m with bad := if m.bad < 65535 then m.bad + 1 else m.bad }) s).answer
                  p tag .accepted [3])) ∧
          (s.arbiter.attached = none → s.arbiter.active = none →
            exec (.addressReport p tag address flag) s = .next (s.answer p tag .accepted [3]))) ∧
        (flag = 0 → address.toNat ≤ k.maxAddress →
          (s.optics.focus ≠ .locked ∨ s.optics.tracking = .off ∨ s.optics.tracking = .jump ∨
            s.planner.legStage = .running ∨ s.planner.legStage = .settling ∨ activePhase s = some .suspended ∨
            s.supervisor.drive = .sagHold) →
          exec (.addressReport p tag address flag) s = .next (s.answer p tag .accepted [4]))))

/-! ### The mechanism port -/

/-- CLAMP STATE records the state it carries: CLAMPED in EMPTY or RELEASED starts an identification, by what is known of the
sled and the supply, UNCLAMPED in RELEASED is EMPTY, and in any other state but EMPTY an emergency that brakes the spindle, stops
the sled and ends every motion PREEMPTED with reason RELEASE; a value of neither is OUT_OF_RANGE (R76, R99, R101, R148 to R152,
R161). -/
def Obligations.ClampStateActsByDriveState : Prop :=
  ∀ (p : Port) (tag value : Byte) (s : State), Takes 0x30 p s →
    (value ≠ 1 → value ≠ 2 → exec (.clampState p tag value) s = .next (s.answer p tag .outOfRange [])) ∧
    (value = 1 → s.supervisor.drive ≠ .empty → s.supervisor.drive ≠ .released → Settled s →
      exec (.clampState p tag value) s = .next ((s.setSupervisor { s.supervisor with clamp := .clamped }).answer p tag
        .accepted [1, s.supervisor.supply.code, s.supervisor.drive.code])) ∧
    (value = 1 → s.supervisor.drive = .empty ∨ s.supervisor.drive = .released → Settled s →
      IdentOpen s →
      ∃ t i, exec (.clampState p tag value) s = .next t ∧ t.supervisor.clamp = .clamped ∧ DriveNoticed s t ∧
        (t.port p).reply = some ⟨.accepted, tag, [1, s.supervisor.supply.code, 1]⟩ ∧ IdentBegun .clamp i s t) ∧
    (value = 2 → s.supervisor.drive = .empty → Settled s →
      exec (.clampState p tag value) s = .next ((s.setSupervisor { s.supervisor with clamp := .unclamped }).answer p tag
        .accepted [2, s.supervisor.supply.code, 0])) ∧
    (value = 2 → s.supervisor.drive ≠ .empty → s.supervisor.drive ≠ .released →
      ∃ t, exec (.clampState p tag value) s = .next t ∧
        (t.port p).reply = some ⟨.accepted, tag, [2, s.supervisor.supply.code, 0]⟩ ∧ DriveEmptied s t ∧ NoMotion t ∧
        (Driven s.spindle → 30 ≤ s.spindle.measured → Braked s t) ∧ SledStopped s t ∧ t.supervisor.ident = none ∧
        t.supervisor.sagTimer = none ∧ t.recovery.phase = .none ∧
        ∀ q, completionsIn (t.port q).queue = completionsIn (s.port q).queue ++
          ((liveMotions s).filter (fun m => m.port == q)).map (fun m => m.report (.preempted .release) (lastGood s))) ∧
    (value = 2 → s.supervisor.drive = .released → Settled s →
      ∃ t, exec (.clampState p tag value) s = .next t ∧
        (t.port p).reply = some ⟨.accepted, tag, [2, s.supervisor.supply.code, 0]⟩ ∧ DriveEmptied s t)

/-- SUPPLY STATE that changes nothing does nothing more; a SAG while the drive is ON_TRACK, MOVING or RECOVERING begins a sag
hold, its DRIVE and SUPPLY notices queued, and a close in progress goes on in it; NORMAL in SAG_HOLD drives again and recovers,
at REFOCUS when focus was lost, a search that finds it LOCKED again leading to RETRACK at once, and at RETRACK when it was
kept, its window running at once when tracking has closed in the hold; a value of neither is OUT_OF_RANGE (R90, R146, R157 to R159, R174 to R176, R184). That a close in progress is a list of its senders, and that the SUPPLY
notice carries the drive state before the report acts, are DEDUCED (entries 11 and 28). No CANCEL waits for a landing here
(entries 16 to 18). -/
def Obligations.SupplyStateSagsAndReturns : Prop :=
  ∀ (p : Port) (tag value : Byte) (s : State), Takes 0x31 p s →
    (1 < value.toNat → exec (.supplyState p tag value) s = .next (s.answer p tag .outOfRange [])) ∧
    (value = s.supervisor.supply.code → Settled s → exec (.supplyState p tag value) s
      = .next (s.answer p tag .accepted [s.supervisor.clamp.code, value, s.supervisor.drive.code])) ∧
    (value = 1 → s.supervisor.supply = .normal →
      s.supervisor.drive = .onTrack ∨ s.supervisor.drive = .moving ∨ s.supervisor.drive = .recovering →
      s.arbiter.waiting = [] → s.supervisor.ident = none → (∀ m ∈ liveMotions s, m.cancelPending = false) →
      ∃ t, exec (.supplyState p tag value) s = .next t ∧
        (t.port p).reply = some ⟨.accepted, tag, [s.supervisor.clamp.code, 1, 6]⟩ ∧ SagHeld s t) ∧
    (value = 0 → s.supervisor.supply = .sag → s.supervisor.drive = .sagHold → Settled s →
      1 ≤ s.recovery.retryCount → s.spindle.state = .coast →
      s.optics.focus = .locked ∨
      (s.optics.focus ≠ .locked ∧ s.optics.profile ≠ none ∧ s.optics.switch = none) →
      ∃ t, exec (.supplyState p tag value) s = .next t ∧
        (t.port p).reply = some ⟨.accepted, tag, [s.supervisor.clamp.code, 0, 5]⟩ ∧
        t.supervisor.drive = .recovering ∧ t.supervisor.supply = .normal ∧ t.supervisor.sagTimer = none ∧
        t.supervisor.suspendedPhase = none ∧ t.supervisor.focusLostInSag = false ∧
        t.arbiter.active = s.arbiter.active.map (fun m => { m with phase := some .recovering }) ∧
        t.recovery.refixCount = 0 ∧ t.recovery.respinCount = 0 ∧
        t.recovery.retryLimit = s.recovery.retryCount ∧ t.recovery.keptPhase = s.supervisor.suspendedPhase ∧
        t.recovery.returnAddr = lastGood s ∧ t.recovery.history = s.recovery.history ∧
        t.spindle.state ≠ .coast ∧ t.spindle.lockLimit = some s.clock ∧
        DriveNoticed s t ∧ Noticed (.supply .normal .sagHold s.clock) s t ∧
        (s.optics.focus = .locked → t.recovery.phase = .retrack ∧ t.recovery.retrackCount = 1 ∧
          t.recovery.refocusCount = (if s.supervisor.focusLostInSag = true then 1 else 0) ∧
          (s.optics.tracking = .off ∨ s.supervisor.focusLostInSag = true ∧ s.optics.tracking ≠ .jump →
            Requester.recovery ∈ t.optics.closers ∧ t.optics.tracking = .off ∧ t.recovery.window = none) ∧
          (s.optics.tracking ≠ .off → s.supervisor.focusLostInSag = false →
            t.optics = s.optics ∧ t.recovery.window = some s.clock)) ∧
        (s.optics.focus ≠ .locked → t.recovery.phase = .refocus ∧ t.recovery.refocusCount = 1 ∧
          t.recovery.retrackCount = 0 ∧ t.optics.focus = .search ∧ t.optics.requester = some .recovery ∧
          t.optics.allowed = s.recovery.retryCount ∧ t.optics.attempt = 1 ∧ t.optics.attemptTimer = some s.clock))

/-- A change of supply state in the other drive states: it pauses and resumes an identification by its stage, and the homing of
a RELEASE, whose braking a sag leaves as it is, with an older homing that ends under it; in PARKING, STOPPED, EMPTY, RELEASED and FAULTED it is recorded with its SUPPLY notice and nothing more follows
while nothing waits (R77, R90, R99, R101, R153, R157, R161, R164). A close in progress goes on through the pause, and a try that
restarts with tracking closed goes on to its window at once. A restart is waited for in a profile try only, an invariant that
RangesAreKept states. That a close in progress is a list of its senders, and that the window of an interrupted try stands until
its restart, are DEDUCED (entries 11 and 25). -/
def Obligations.SupplyStatePausesAndResumes : Prop :=
  ∀ (p : Port) (tag value : Byte) (s : State), Takes 0x31 p s → s.arbiter.waiting = [] → s.planner.acquireStep ≠ .spin →
    value.toNat ≤ 1 → value ≠ s.supervisor.supply.code →
    ∃ x t, x.code = value ∧ exec (.supplyState p tag value) s = .next t ∧
      (s.supervisor.drive = .parking ∨ s.supervisor.drive = .stopped ∨ s.supervisor.drive = .empty ∨
        s.supervisor.drive = .released ∨ s.supervisor.drive = .faulted → s.supervisor.ident = none →
        t = (offer (.supply x s.supervisor.drive s.clock)
          (s.setSupervisor { s.supervisor with supply := x })).answer p tag .accepted
            [s.supervisor.clamp.code, value, s.supervisor.drive.code] ∧
        Noticed (.supply x s.supervisor.drive s.clock) s t) ∧
      (s.supervisor.drive = .releasing → s.supervisor.ident = none →
        Noticed (.supply x .releasing s.clock) s t ∧
        t.supervisor = { s.supervisor with supply := x } ∧ t.spindle = s.spindle ∧ t.arbiter = s.arbiter ∧
        t.sled = { s.sled with paused :=
          if s.sled.state = .homing ∧ (value = 1 → activePhase s = some .homing) then decide (value = 1)
          else s.sled.paused }) ∧
      (∀ i, s.supervisor.drive = .identifying → s.supervisor.ident = some i → value = 1 → i.paused = false →
        (t.port p).reply = some ⟨.accepted, tag, [s.supervisor.clamp.code, 1, 1]⟩ ∧
        Noticed (.supply .sag .identifying s.clock) s t ∧
        t.supervisor = { s.supervisor with supply := .sag, ident := some { i with paused := true } } ∧
        (i.stage = .homing → s.sled.state = .homing → t.sled = { s.sled with paused := true }) ∧
        (i.stage = .positioning → s.sled.state = .leg → t.sled = { s.sled with stopPending := true }) ∧
        (i.stage = .spinning ∨ i.stage = .profileH ∨ i.stage = .profileL → Driven s.spindle →
          t.spindle = { s.spindle with
            state := .coast
            lockTest := if s.spindle.state = .coast then s.spindle.lockTest else none
            lockLimit := if s.spindle.state = .coast then s.spindle.lockLimit else none }) ∧
        (i.stage = .profileH ∨ i.stage = .profileL → t.optics.focus = s.optics.focus ∧
          t.optics.closers = s.optics.closers ∧ (s.optics.tracking = .off → t.optics = s.optics) ∧
          (s.optics.tracking = .closed ∨ s.optics.tracking = .hold → t.optics.tracking = .off))) ∧
      (∀ i, s.supervisor.drive = .identifying → s.supervisor.ident = some i → value = 0 → i.paused = true →
        (i.stage = .homing → i.restart = false → s.sled.state = .homing → s.sled.paused = true →
          t.sled = { s.sled with paused := false } ∧ t.supervisor.ident = some { i with paused := false }) ∧
        (i.stage = .homing → i.restart = false → ¬ (s.sled.state = .homing ∧ s.sled.paused = true) →
          s.sled.homeClosed = false →
          t.sled.state = .homing ∧ t.sled.paused = false ∧ t.sled.taken = 0 ∧
          t.supervisor.ident = some { i with paused := false, step := none }) ∧
        (∀ y, i.stage = .positioning → i.restart = false → s.sled.state = .idle ∨ s.sled.state = .creep →
          s.sled.position = some y → y ≠ 150 →
          t.sled.state = .leg ∧ t.sled.legSteps = 150 - (y : Int) ∧ t.sled.requester = some .supervisor ∧
          t.supervisor.ident = some { i with paused := false, step := none }) ∧
        (s.spindle.state = .coast → ¬ Within 10 s.spindle.measured s.spindle.target →
          (i.stage = .spinning → s.spindle.mode = .fixed →
            t.spindle = { s.spindle with state := .spinup, lockTest := none, lockLimit := some s.clock } ∧
            t.supervisor.ident = some { i with paused := false }) ∧
          (i.stage = .profileH ∨ i.stage = .profileL →
            t.spindle = { s.spindle with state := .spinup, lockTest := none, lockLimit := some s.clock } ∧
            t.supervisor.ident = some { i with paused := false, restart := true })) ∧
        (s.spindle.state = .coast → Within 10 s.spindle.measured s.spindle.target →
          i.stage = .profileH ∨ i.stage = .profileL →
          t.spindle.state = .coarse ∧
          (s.optics.focus = .locked → s.optics.tracking = .off →
            t.supervisor.ident = some { i with paused := false, restart := false, window := none, step := some .closing } ∧
            Requester.supervisor ∈ t.optics.closers) ∧
          (∀ k, i.stage.tries = some k → s.optics.focus = .locked → s.optics.tracking ≠ .off →
            t.supervisor.ident = some { i with
              paused := false, restart := false, window := some 0, step := some .window, candidate := some k } ∧
            t.optics = s.optics ∧
            (i.candidate ≠ some k → Noticed (.disc (if k = .H then .candidateH else .candidateL) k none) s t)) ∧
          (s.optics.focus ≠ .locked → s.optics.switch = none → s.optics.profile ≠ none →
            t.supervisor.ident = some { i with
              paused := false, restart := false, window := none, step := some .searching } ∧
            SearchBegun .supervisor s.recovery.retryCount s t)))

/-! ### The spindle -/

/-- A tachometer reading is stored, 9,999 at most, and moves the spindle state by its band: within ±10 % of the target COARSE,
outside SPINUP, the lock test running only within ±2 %; below 30 rpm in BRAKING it is STOPPED, which ends the parking of the
drive and its STOP, and leads a RELEASE on to its homing, paused at once while the supply sags and over at once with the switch
closed; in STOPPED and COAST it changes nothing else (R73 to R76, R81, R98, R143, R162 to R164). The slip of R75 in the states
that recover is stated with the disturbances. The lock test has run 100 ms: LOCKED, the lock limit disarmed; a RESPIN then
ends, into REFIX when focus is LOCKED and tracking CLOSED or HOLD; with no lock test running nothing happens (R74, R178). The
model's choices: the clock is brought to the end of the test first (entry 3), and a jump in flight counts like CLOSED (entry
22). -/
def Obligations.ReadingsAndLockTestMoveTheSpindle : Prop :=
  (∀ (rpm : Nat) (s : State), Settled s →
    let x := min rpm 9999
    let sp : Spindle := { s.spindle with measured := x }
    let run := exec (.tachometerReading rpm) s
    (sp.state = .stopped ∨ sp.state = .coast → run = .next (s.setSpindle sp)) ∧
    (sp.state = .spinup →
      (¬ Within 10 x sp.target → run = .next (s.setSpindle sp)) ∧
      (Within 10 x sp.target → ¬ Within 2 x sp.target →
        run = .next (s.setSpindle { sp with state := .coarse, lockTest := none })) ∧
      (Within 2 x sp.target → run = .next (s.setSpindle { sp with state := .coarse, lockTest := some s.clock }))) ∧
    (sp.state = .coarse →
      (¬ Within 10 x sp.target → run = .next (s.setSpindle { sp with state := .spinup, lockTest := none })) ∧
      (Within 10 x sp.target → ¬ Within 2 x sp.target → run = .next (s.setSpindle { sp with lockTest := none })) ∧
      (Within 2 x sp.target → run = .next (s.setSpindle { sp with lockTest := some (sp.lockTest.getD s.clock) }))) ∧
    (sp.state = .locked →
      (Within 2 x sp.target → run = .next (s.setSpindle sp)) ∧
      (Within 10 x sp.target → ¬ Within 2 x sp.target →
        run = .next (s.setSpindle { sp with state := .coarse, lockTest := none })) ∧
      (¬ Within 10 x sp.target →
        s.supervisor.drive ≠ .onTrack → s.supervisor.drive ≠ .moving → s.supervisor.drive ≠ .recovering →
        run = .next (s.setSpindle { sp with state := .spinup, lockTest := none, lockLimit := some s.clock }))) ∧
    (sp.state = .braking →
      (30 ≤ x → run = .next (s.setSpindle sp)) ∧
      (x < 30 → s.supervisor.drive ≠ .parking → s.supervisor.drive ≠ .releasing →
        run = .next (s.setSpindle { sp with state := .stopped, stopLimit := none })) ∧
      (x < 30 → s.supervisor.drive = .parking →
        ∃ t, run = .next t ∧ t.supervisor.drive = .stopped ∧
          t.spindle = { sp with state := .stopped, stopLimit := none } ∧
          (∀ m, s.arbiter.active = some m → m.kind = .stop → t.arbiter.active = none ∧
            completionsIn (t.port m.port).queue
              = completionsIn (s.port m.port).queue ++ [m.report .done (lastGood s)])) ∧
      (∀ m, x < 30 → s.supervisor.drive = .releasing → s.arbiter.active = some m → m.phase = some .braking →
        ∃ t, run = .next t ∧
          (s.sled.homeClosed = false → t.spindle = { sp with state := .stopped, stopLimit := none } ∧
            t.arbiter = { s.arbiter with active := some { m with phase := some .homing } } ∧
            t.supervisor = s.supervisor ∧ t.optics = s.optics ∧ ReportsStay s t ∧
            t.sled.state = .homing ∧ t.sled.taken = 0 ∧ t.sled.position = none ∧
            t.sled.paused = (s.supervisor.supply == .sag)) ∧
          (s.sled.homeClosed = true → t.spindle.state = .stopped ∧ t.spindle.measured = x ∧ t.spindle.stopLimit = none ∧
            t.spindle.target = s.spindle.target ∧ LeastMultiple t ∧
            t.sled.state = .idle ∧ t.sled.position = some 0 ∧ t.supervisor.drive = .released ∧
            t.supervisor.cls = none ∧ t.arbiter.active = none ∧
            OneMoreReport m.port ⟨m.tag, m.kind, .done, lastGood s, m.legs, m.bad⟩ s t)))) ∧
  (∀ s : State,
    (s.spindle.lockTest = none → exec .lockTestComplete s = .next s) ∧
    (∀ since, s.spindle.lockTest = some since → Settled s →
      let locked : Spindle := { s.spindle with state := .locked, lockTest := none, lockLimit := none }
      (s.recovery.phase ≠ .respin →
        exec .lockTestComplete s = .next ((runTo since 100 s).setSpindle locked)) ∧
      (s.recovery.phase = .respin → s.optics.focus = .locked → s.optics.tracking ≠ .off →
        s.recovery.refixCount < s.recovery.retryLimit →
        exec .lockTestComplete s = .next (((runTo since 100 s).setSpindle locked).setRecovery { s.recovery with
          phase := .refix, refixCount := s.recovery.refixCount + 1, window := none }))))

/-! ### Faults -/

/-- The failures that a command finds park the drive: the lock limit at 2,000 ms (SPINDLE_UNLOCKED), the stop limit at 3,000 ms
(SPINDLE_STOP_FAIL, the braking going on), the last attempt of a focus search of ACQUIRE or REFOCUS (FOCUS_UNRECOVERABLE), the
2,000th open step of a homing (HOME_FAILED), the window of profile L (DISC_UNREADABLE). In FAULTED a fault is a notice alone
(R40, R74, R76, R87, R98, R154, R165, R166, R175). The clock is brought to the time of an expiry first (entry 3). -/
def Obligations.FailuresParkTheDrive : Prop :=
  ∀ s : State,
    (∀ since, s.spindle.lockLimit = some since → s.supervisor.drive ≠ .faulted →
      ∃ t, exec .lockLimitExpiry s = .next t ∧ FaultParked .spindleUnlocked (runTo since 2000 s) t) ∧
    (∀ since, s.spindle.stopLimit = some since →
      (s.supervisor.drive ≠ .faulted →
        ∃ t, exec .stopLimitExpiry s = .next t ∧ FaultParked .spindleStopFail (runTo since 3000 s) t ∧
          (s.spindle.state = .braking → t.spindle.state = .braking ∧ t.spindle.stopLimit = none)) ∧
      (s.supervisor.drive = .faulted → Settled s →
        exec .stopLimitExpiry s = .next (offer (.fault .spindleStopFail (lastGood s) (runTo since 3000 s).clock false)
          ((runTo since 3000 s).setSpindle { s.spindle with stopLimit := none })))) ∧
    (∀ since, s.optics.attemptTimer = some since → s.optics.allowed ≤ s.optics.attempt →
      s.supervisor.drive ≠ .faulted →
      s.optics.requester = some .planner ∧ s.planner.acquireStep = .search ∨
        s.optics.requester = some .recovery ∧ s.recovery.phase = .refocus →
      ∃ t, exec .attemptTimerExpiry s = .next t ∧ FaultParked .focusUnrecoverable (runTo since 300 s) t) ∧
    (s.sled.state = .homing → s.sled.paused = false → s.sled.stopPending = false → 1999 ≤ s.sled.taken →
      s.supervisor.drive ≠ .faulted →
      ∃ t, exec (.sledStep false) s = .next t ∧ FaultParked .homeFailed s t ∧
        t.sled.state = .idle ∧ t.sled.position = none) ∧
    (∀ i w, s.supervisor.ident = some i → i.stage = .profileL → i.window = some w → i.paused = false →
      i.restart = false → s.supervisor.drive ≠ .faulted →
      ∃ t, exec .candidateWindowEnd s = .next t ∧ FaultParked .discUnreadable (passTime (500 - w) s) t)

/-! ### The loops -/

/-- The lens sweeps and the profile switch: a capture in SEARCH locks focus, and the search's requester goes on, ACQUIRE at its
close, REFOCUS at RETRACK; an attempt that fails begins the next, and a capture that comes at the very time it began is
discarded (R87; the model's choice of what comes late: entry 32); the switch lights the laser of its profile and begins a
search that waited (R39, R84, R86, R87, R175). That a close in progress is a list of its senders is DEDUCED (entry 11). The
clock is brought to the time of an expiry first (entry 3). -/
def Obligations.SearchesAndSwitchesComplete : Prop :=
  ∀ s : State,
    (s.optics.focus ≠ .search → exec .focusCapture s = .next s) ∧
    (s.optics.focus = .search → 1 < s.optics.attempt → s.optics.attemptTimer = some s.clock →
      exec .focusCapture s = .next s) ∧
    (Settled s → s.optics.focus = .search → s.optics.attempt ≤ 1 ∨ s.optics.attemptTimer ≠ some s.clock →
      let captured : Optics := { s.optics with
        focus := .locked, attempt := 0, attemptTimer := none, requester := none }
      (s.optics.requester = none → exec .focusCapture s = .next (s.setOptics captured)) ∧
      (s.optics.requester = some .planner → s.planner.acquireStep = .search → s.optics.tracking = .off →
        exec .focusCapture s = .next ((s.setOptics { captured with
          closers := s.optics.closers.erase .planner ++ [.planner] }).setPlanner
            { s.planner with acquireStep := .close })) ∧
      (s.optics.requester = some .recovery → s.recovery.phase = .refocus → s.optics.tracking = .off →
        s.recovery.retrackCount < s.recovery.retryLimit →
        exec .focusCapture s = .next ((s.setOptics { captured with
          closers := s.optics.closers.erase .recovery ++ [.recovery] }).setRecovery { s.recovery with
            phase := .retrack, retrackCount := s.recovery.retrackCount + 1, window := none }))) ∧
    (∀ since, s.optics.attemptTimer = some since → s.optics.attempt < s.optics.allowed → Settled s →
      exec .attemptTimerExpiry s = .next ((runTo since 300 s).setOptics { s.optics with
        attempt := s.optics.attempt + 1, attemptTimer := some (runTo since 300 s).clock })) ∧
    (∀ k since, s.optics.switch = some (k, since) → Settled s → s.optics.focus ≠ .locked →
      (s.optics.storedSearch = none → exec .profileSwitchComplete s
        = .next ((runTo since 50 s).setOptics { s.optics with profile := some k, switch := none })) ∧
      (∀ r n, s.optics.storedSearch = some (r, n) → exec .profileSwitchComplete s
        = .next ((runTo since 50 s).setOptics { s.optics with
            profile := some k, switch := none, storedSearch := none, focus := .search, requester := some r
            allowed := n, attempt := 1, attemptTimer := some (runTo since 50 s).clock })))

/-- The disturbances in ON_TRACK and in MOVING begin a recovery at the phase each names: FOCUS_LOST at REFOCUS with a focus search,
TRACK_SLIP and ADDRESS_JUMP at RETRACK with a tracking close, ADDRESS_STARVED at REFIX, SPINDLE_SLIP at RESPIN. A drop or an
excursion no longer than its time, 2 ms and 1 ms, or 5 ms and 3 ms with the robust gain, is no event (R75, R88, R91, R95,
R112, R114, R171 to R179). In MOVING, where no ADDRESS_JUMP is raised, a leg in flight is disturbed: a fine leg that loses its
focus in its jump ends short, a settle lapses, a sled leg is stopped by REFOCUS, and nothing is learned (R40, R47, R51, R60,
R93, R175); that the leg of a lapsed settle is over, and that a leg RUNNING or LANDING keeps its stage with the mark, is DEDUCED
(entry 14). The clock is brought to the time of an expiry first (entry 3), drops and excursions are commanded
with their length in µs (entry 9), and a close in progress is a list of its senders (entry 11). -/
def Obligations.DisturbancesBeginRecovery : Prop :=
  ∀ s : State,
    (∀ us, s.optics.focus ≠ .locked ∨ us ≤ (if s.optics.robustGain then 5000 else 2000) →
      exec (.focusDrop us) s = .next s) ∧
    (∀ us, us ≤ (if s.optics.robustGain then 3000 else 1000) → exec (.offTrack us) s = .next s) ∧
    (OnTrackAtRest s → s.arbiter.attached = none → (∀ m, s.arbiter.active = some m → m.cancelPending = false) →
      1 ≤ s.recovery.retryCount →
      (∀ us k, (if s.optics.robustGain then 5000 else 2000) < us → s.optics.focus = .locked →
        s.optics.profile = some k → s.optics.switch = none →
        ∃ t, exec (.focusDrop us) s = .next t ∧ RecoveryBegun .focusLost .refocus s t ∧ fixFresh t = false ∧
          t.optics.focus = .search ∧ t.optics.tracking = .off ∧ t.optics.allowed = s.recovery.retryCount ∧
          t.optics.attempt = 1 ∧ t.optics.attemptTimer = some s.clock ∧ t.optics.requester = some .recovery) ∧
      (∀ us, (if s.optics.robustGain then 3000 else 1000) < us → s.optics.focus = .locked →
        s.optics.tracking = .closed ∨ s.optics.tracking = .hold →
        ∃ t, exec (.offTrack us) s = .next t ∧ RecoveryBegun .trackSlip .retrack s t ∧ fixFresh t = false ∧
          t.optics.focus = .locked ∧ t.optics.tracking = .off ∧ t.optics.holdAddress = none ∧
          Requester.recovery ∈ t.optics.closers) ∧
      (s.monitor.started = true → s.optics.focus = .locked →
        s.optics.tracking = .closed ∨ s.optics.tracking = .hold → s.spindle.state = .coarse ∨ s.spindle.state = .locked →
        let u := passTime (s.monitor.limit - s.monitor.elapsed) s
        ∃ t, exec .addressMonitorTimerExpiry s = .next t ∧ RecoveryBegun .addressStarved .refix u t ∧
          t.optics.focus = .locked ∧ t.optics.tracking = s.optics.tracking ∧
          t.monitor = { s.monitor with elapsed := 0, limit := s.recovery.amTime }) ∧
      (∀ rpm, s.spindle.state = .locked → ¬ Within 10 (min rpm 9999) s.spindle.target →
        ∃ t, exec (.tachometerReading rpm) s = .next t ∧ RecoveryBegun .spindleSlip .respin s t ∧
          t.optics.focus = s.optics.focus ∧ t.optics.tracking = s.optics.tracking ∧
          t.spindle.measured = min rpm 9999 ∧ t.spindle.state ≠ .locked ∧ t.spindle.lockLimit = some s.clock) ∧
      (∀ (p : Port) (tag : Byte) (address : Addr) (k : DiscClass) (c b : Nat), Takes 0x20 p s →
        s.supervisor.cls = some k → address.toNat ≤ k.maxAddress → s.map.predict address.toNat = some c →
        s.optics.focus = .locked → s.optics.tracking = .closed ∨ s.optics.tracking = .hold → fixFresh s = true →
        s.monitor.expectedBase = some b → 2 < ((c : Int) - ((b : Int) + s.monitor.jumpSum)).natAbs →
        activePhase s ≠ some .suspended →
        ∃ t, exec (.addressReport p tag address 0) s = .next t ∧ RecoveryBegun .addressJump .retrack s t ∧
          (t.port p).reply = some ⟨.accepted, tag, [2]⟩ ∧ fixFresh t = false ∧
          t.optics.tracking = s.optics.tracking ∧ t.recovery.window = some s.clock)) ∧
    (s.supervisor.drive = .moving → s.recovery.phase = .none → s.arbiter.waiting = [] → s.supervisor.ident = none →
      (∀ m ∈ liveMotions s, m.cancelPending = false) → 1 ≤ s.recovery.retryCount →
      (∀ us k, (if s.optics.robustGain then 5000 else 2000) < us → s.optics.focus = .locked →
        s.optics.profile = some k → s.optics.switch = none →
        ∃ t, exec (.focusDrop us) s = .next t ∧ RecoveryBegun .focusLost .refocus s t ∧ LegDisturbed true s t ∧
          fixFresh t = false ∧ SearchBegun .recovery s.recovery.retryCount s t ∧ t.optics.tracking = .off ∧
          SledStopped s t) ∧
      (∀ us, (if s.optics.robustGain then 3000 else 1000) < us → s.optics.focus = .locked →
        s.optics.tracking = .closed ∨ s.optics.tracking = .hold →
        ∃ t, exec (.offTrack us) s = .next t ∧ RecoveryBegun .trackSlip .retrack s t ∧ LegDisturbed false s t ∧
          fixFresh t = false ∧ t.optics.focus = .locked ∧ t.optics.tracking = .off ∧ t.optics.holdAddress = none ∧
          Requester.recovery ∈ t.optics.closers) ∧
      (monitorRunning s = true →
        let u := passTime (s.monitor.limit - s.monitor.elapsed) s
        ∃ t, exec .addressMonitorTimerExpiry s = .next t ∧ RecoveryBegun .addressStarved .refix u t ∧
          LegDisturbed false s t ∧ t.optics.focus = s.optics.focus ∧ t.optics.tracking = s.optics.tracking) ∧
      (∀ rpm, s.spindle.state = .locked → ¬ Within 10 (min rpm 9999) s.spindle.target →
        ∃ t, exec (.tachometerReading rpm) s = .next t ∧ RecoveryBegun .spindleSlip .respin s t ∧
          LegDisturbed false s t ∧ t.optics.focus = s.optics.focus ∧ t.optics.tracking = s.optics.tracking ∧
          t.spindle.measured = min rpm 9999 ∧ t.spindle.state ≠ .locked ∧ t.spindle.lockLimit = some s.clock))

/-- A disturbance taken in a recovery moves it to the phase it names with that phase's count raised, an internal return
withdrawn; when the count has reached the retry limit the phase is exhausted, and its fault parks the drive (R171, R174 to
R179, R182). So it does where a motion that took the slot in the recovery has made the drive MOVING, the model's choice (entry
15). The clock is brought to the time of an expiry first (entry 3), drops and excursions are commanded with their length in µs
(entry 9), and a close in progress is a list of its senders (entry 11). -/
def Obligations.DisturbancesRestartRecovery : Prop :=
  ∀ s : State, s.supervisor.drive = .recovering ∨ s.supervisor.drive = .moving → s.recovery.phase ≠ .none → Settled s →
    (∀ us, (if s.optics.robustGain then 5000 else 2000) < us → s.optics.focus = .locked → s.optics.profile ≠ none →
      s.optics.switch = none →
      ∃ t, exec (.focusDrop us) s = .next t ∧
        (s.recovery.refocusCount < s.recovery.retryLimit → RecoveryRestarted .focusLost .refocus s t ∧
          SearchBegun .recovery s.recovery.retryLimit s t ∧ t.optics.tracking = .off ∧ fixFresh t = false) ∧
        (s.recovery.retryLimit ≤ s.recovery.refocusCount → FaultParked .focusUnrecoverable s t)) ∧
    (∀ us, (if s.optics.robustGain then 3000 else 1000) < us → s.optics.focus = .locked →
      s.optics.tracking = .closed ∨ s.optics.tracking = .hold →
      ∃ t, exec (.offTrack us) s = .next t ∧
        (s.recovery.retrackCount < s.recovery.retryLimit → RecoveryRestarted .trackSlip .retrack s t ∧
          Requester.recovery ∈ t.optics.closers ∧ t.optics.tracking = .off ∧ fixFresh t = false) ∧
        (s.recovery.retryLimit ≤ s.recovery.retrackCount → FaultParked .focusUnrecoverable s t)) ∧
    (monitorRunning s = true →
      let u := passTime (s.monitor.limit - s.monitor.elapsed) s
      ∃ t, exec .addressMonitorTimerExpiry s = .next t ∧
        (s.recovery.refixCount < s.recovery.retryLimit → RecoveryRestarted .addressStarved .refix u t ∧
          t.optics.focus = s.optics.focus ∧ t.optics.tracking = s.optics.tracking) ∧
        (s.recovery.retryLimit ≤ s.recovery.refixCount → FaultParked .addressUnrecoverable u t)) ∧
    (∀ rpm, s.spindle.state = .locked → ¬ Within 10 (min rpm 9999) s.spindle.target →
      ∃ t, exec (.tachometerReading rpm) s = .next t ∧
        (s.recovery.respinCount < s.recovery.retryLimit → RecoveryRestarted .spindleSlip .respin s t ∧
          t.spindle.measured = min rpm 9999 ∧ t.spindle.lockLimit = some s.clock) ∧
        (s.recovery.retryLimit ≤ s.recovery.respinCount → FaultParked .spindleUnlocked s t))


/-- A fix in REFIX ends it, and the RETURN begins. A FOLLOW that was FOLLOWING returns to its resume point or its return
address in a fresh session, and plays on from there with a FOLLOWING notice of entry RETURN, or of entry REJOIN when its
attached REJOIN has ended meanwhile (R138, entry 18); any other motion goes on toward
the target the planner holds for it in the same session; with no motion the drive holds at the hold copy or the return
address, by an internal return of legs in which the drive state stays, and at the fix when there is neither. The internal return
ends in a hold at its target, or at the fix when a check of R45 fails (R42 to R46, R62, R63, R177, R180 to R182). The drive is
RECOVERING, or MOVING where a motion has taken the slot in the recovery (R147), which an internal return leaves so (entry 15).
That nothing is held once a jump has begun is the model's choice (entry 33). -/
def Obligations.RefixEndsInReturn : Prop :=
  ∀ (p : Port) (tag : Byte) (address : Addr) (k : DiscClass) (c : Nat) (s : State),
    FixComes p address k c s → s.supervisor.drive = .recovering ∨ s.supervisor.drive = .moving →
    s.planner.acquireStep = .none →
    let a := address.toNat
    (s.recovery.phase = .refix → s.planner.legStage = .idle →
      ∃ t, exec (.addressReport p tag address 0) s = .next t ∧ (t.port p).reply = some ⟨.accepted, tag, [0]⟩ ∧
        lastGood t = some a ∧ t.map = s.map ∧
        (∀ m, s.arbiter.active = some m → m.phase = some .recovering →
          t.recovery.phase = .none ∧ t.recovery.keptPhase = none ∧
          (∀ g z, s.arbiter.attached = none → m.kind = .follow → s.recovery.keptPhase = some .following →
            ReturnTarget s g → m.endAddr = some z → (s.map.predict g).isSome = true →
            (InReach g a → (s.zones.decode a).access = .opened → a < z →
              PlaysFrom m (if m.rejoinEnded then .rejoin else .return) a z s t ∧ ReportsStay s t) ∧
            (∀ pg, s.map.predict g = some pg → CallsForLeg g a ((pg : Int) - (c : Int)) →
              ((pg : Int) - (c : Int)).natAbs ≤ 64 →
              FineLegBegun g ((pg : Int) - (c : Int)) s t ∧ t.planner.owner = .active ∧ t.supervisor.drive = .moving ∧
                t.planner.sessionLegs = 1 ∧ t.planner.sessionSled = 0 ∧
                t.arbiter.active = some { withLeg m with phase := some .leg })) ∧
          (∀ g pg, s.recovery.keptPhase ≠ some .following → s.planner.target = some g → s.map.predict g = some pg →
            (InReach g a → s.arbiter.attached = none → m.kind ≠ .follow → m.target = some g →
              EndedHolding m .reached a g s t) ∧
            (CallsForLeg g a ((pg : Int) - (c : Int)) → ((pg : Int) - (c : Int)).natAbs ≤ 64 →
              s.planner.sessionLegs < 6 →
              FineLegBegun g ((pg : Int) - (c : Int)) s t ∧ t.supervisor.drive = .moving ∧
                t.planner.sessionLegs = s.planner.sessionLegs + 1 ∧ t.planner.sessionSled = s.planner.sessionSled ∧
                (s.arbiter.attached = none → t.planner.owner = .active ∧
                  t.arbiter.active = some { withLeg m with phase := some .leg }) ∧
                (∀ r, s.arbiter.attached = some r → t.planner.owner = .attached ∧
                  t.arbiter.active = some { m with phase := some .leg } ∧ t.arbiter.attached = some (withLeg r))))) ∧
        (s.arbiter.active = none →
          (∀ g pg, s.recovery.holdCopy = some g ∨ s.recovery.holdCopy = none ∧ s.recovery.returnAddr = some g →
            s.map.predict g = some pg →
            (InReach g a → ReturnedHolding g s t) ∧
            (CallsForLeg g a ((pg : Int) - (c : Int)) → ((pg : Int) - (c : Int)).natAbs ≤ 64 →
              FineLegBegun g ((pg : Int) - (c : Int)) s t ∧ t.planner.owner = .internal ∧
                t.planner.sessionLegs = 1 ∧ t.planner.sessionSled = 0 ∧ t.supervisor = s.supervisor ∧
                t.recovery.phase = .return ∧ t.recovery.fixReported = true ∧ t.arbiter = s.arbiter)) ∧
          (s.recovery.holdCopy = none → s.recovery.returnAddr = none → ReturnedHolding a s t))) ∧
    (s.recovery.phase = .return → s.planner.owner = .internal → s.arbiter.active = none → s.arbiter.attached = none →
      s.planner.legDisturbed = false →
      ∃ t, exec (.addressReport p tag address 0) s = .next t ∧
        ∀ g pg pa, s.planner.target = some g → t.map.predict g = some pg → t.map.predict a = some pa →
          (InReach g a → ReturnedHolding g s t) ∧
          (∀ e, CallsForLeg g a ((pg : Int) - (pa : Int)) →
            FailsCheck k ((pg : Int) - (pa : Int)) (s.setPlanner { s.planner with trim := t.planner.trim }) e →
            ReturnedHolding a s t ∧ t.planner.unreached = s.planner.unreached))

/-- A track crossing counts in a jump, and the last one ends it: a leg's jump in CLOSED with its settle begun, a back-jump in
HOLD, the crossings added to the jump sum; outside a jump it is nothing. A close in progress puts tracking in CLOSED, restarts
the address-monitor timer and is reported: ACQUIRE waits for its fix, RETRACK starts its window; where no sender waits for it
any longer, in a sag hold or in an identification that is paused, tracking is CLOSED and nothing else follows (R39, R47, R51,
R90, R92, R94, R102, R112, R113, R161, R176, R183). That TRACKING_CLOSED acts only while a close is in progress, and the list of its senders, are DEDUCED (entry
11). -/
def Obligations.JumpsAndClosesComplete : Prop :=
  ∀ s : State,
    (s.optics.tracking ≠ .jump → exec .trackCrossing s = .next s) ∧
    (s.optics.tracking = .jump → Settled s →
      let n := s.optics.crossings + 1
      (n < s.optics.jumpCount.natAbs → exec .trackCrossing s = .next (s.setOptics { s.optics with crossings := n })) ∧
      (s.optics.jumpCount.natAbs ≤ n → s.optics.openPending = false →
        (s.optics.jumpOrigin = .leg → s.optics.holdAddress = none → s.planner.legStage = .running →
          s.planner.legKind = .fine →
          ∃ t, exec .trackCrossing s = .next t ∧
            t.optics = { s.optics with tracking := .closed, crossings := n } ∧
            t.monitor = { s.monitor with jumpSum := s.monitor.jumpSum + s.optics.jumpCount } ∧
            t.planner = { s.planner with legStage := .settling, legDone := true, settleSince := s.clock } ∧
            (∀ m, s.arbiter.active = some m → m.phase = some .leg →
              t.arbiter.active = some { m with phase := some .settle }) ∧
            t.supervisor = s.supervisor ∧ t.spindle = s.spindle ∧ t.map = s.map) ∧
        (s.optics.jumpOrigin = .hold → s.optics.storedJump = none →
          ∃ t, exec .trackCrossing s = .next t ∧
            t.optics = { s.optics with tracking := .hold, crossings := n } ∧
            t.monitor = { s.monitor with jumpSum := s.monitor.jumpSum + s.optics.jumpCount } ∧
            t.planner = s.planner ∧ t.arbiter = s.arbiter ∧ t.supervisor = s.supervisor ∧ t.spindle = s.spindle ∧
            t.map = s.map))) ∧
    (s.optics.closers = [] ∨ s.optics.focus ≠ .locked ∨ s.optics.tracking ≠ .off → exec .trackingClosed s = .next s) ∧
    (s.optics.focus = .locked → s.optics.tracking = .off → Settled s →
      let on : Optics := { s.optics with tracking := .closed, closers := [] }
      let timer : Monitor := { s.monitor with started := true, elapsed := 0, limit := s.recovery.amTime }
      (s.optics.closers = [.planner] → s.planner.acquireStep = .close →
        ∃ t, exec .trackingClosed s = .next t ∧ t.optics = on ∧ t.monitor = timer ∧
          t.planner = { s.planner with acquireStep := .wait } ∧ t.recovery = s.recovery ∧ t.arbiter = s.arbiter ∧
          t.supervisor = s.supervisor ∧ t.spindle = s.spindle) ∧
      (s.optics.closers = [.recovery] → s.recovery.phase = .retrack →
        ∃ t, exec .trackingClosed s = .next t ∧ t.optics = on ∧ t.monitor = timer ∧
          t.recovery = { s.recovery with window := some s.clock } ∧ t.planner = s.planner ∧ t.arbiter = s.arbiter ∧
          t.supervisor = s.supervisor ∧ t.spindle = s.spindle)) ∧
    (s.optics.closers ≠ [] → s.optics.focus = .locked → s.optics.tracking = .off → s.arbiter.waiting = [] →
      s.planner.acquireStep ≠ .spin → (∀ i, s.supervisor.ident = some i → i.paused = true) →
      (Requester.planner ∈ s.optics.closers → s.planner.acquireStep ≠ .close) →
      (Requester.recovery ∈ s.optics.closers → s.recovery.phase ≠ .retrack) →
      ∃ t, exec .trackingClosed s = .next t ∧ t.optics = { s.optics with tracking := .closed, closers := [] } ∧
        t.monitor = { s.monitor with started := true, elapsed := 0, limit := s.recovery.amTime } ∧
        t.sled = { s.sled with
          state := if s.sled.state = .idle ∧ s.sled.position ≠ none then .creep else s.sled.state } ∧
        t.planner = s.planner ∧ t.recovery = s.recovery ∧ t.arbiter = s.arbiter ∧ t.supervisor = s.supervisor ∧
        t.spindle = s.spindle)

/-! ### The sled -/

/-- A step of a leg moves the position by one in its direction, and the switch corrects it to 0; the last step ends the leg
full, a stop, a correction or the end of the rail ends it cut. Then the settle begins, and the loop is closed, unless focus is
not LOCKED, which fails the close (R50, R51, R90, R97, R100, R101). A step of a homing counts, one that finds the switch
closed is home, which ends a RELEASE, and a stop ends it with the position unknown (R98, R99, R143, R163); a creep step moves
one outward, up to 1,800 (R102). With no leg and no homing, and in a homing that is paused, nothing moves; the step that a reset
found in progress still reads the switch (R101, R103; entries 10 and 29 for the switch and the steps out of place). That a close
in progress is a list of its senders, and that a stop of a homing beats the closed switch, are DEDUCED (entries 11 and 23); that
the DRIVE notice of RELEASED carries no class is the model's choice (entry 26). -/
def Obligations.SledStepsMoveTheSled : Prop :=
  ∀ (closed : Bool) (s : State),
    (s.sled.state = .homing → s.sled.paused = true → exec (.sledStep closed) s = .next s) ∧
    (s.sled.state = .idle ∨ s.sled.state = .creep →
      (s.sled.position = none ∨ s.sled.position = some 0 ∨ closed = false ∨ s.sled.homeClosed = true →
        exec (.sledStep closed) s = .next (s.setSled { s.sled with homeClosed := closed })) ∧
      (∀ x, s.sled.position = some x → 0 < x → closed = true → s.sled.homeClosed = false →
        exec (.sledStep closed) s = .next (s.setSled { s.sled with homeClosed := true, position := some 0 }))) ∧
    (∀ x, s.sled.state = .leg → s.sled.position = some x → Settled s →
      let moved := if 0 ≤ s.sled.legSteps then x + 1 else x - 1
      let corrected : Prop := closed = true ∧ s.sled.homeClosed = false ∧ 0 < moved
      let at_ := if corrected then 0 else moved
      let full : Bool := decide (s.sled.legSteps.natAbs ≤ s.sled.taken + 1)
      let cut : Prop := corrected ∨ s.sled.stopPending = true ∨
        (if 0 ≤ s.sled.legSteps then 1800 ≤ at_ else at_ = 0)
      (full = false → ¬ cut →
        exec (.sledStep closed) s = .next (s.setSled { s.sled with
          position := some moved, taken := s.sled.taken + 1, homeClosed := closed })) ∧
      (full = true ∨ cut → s.sled.requester = some .planner → s.planner.legStage = .running →
        s.planner.legKind = .sled → s.optics.tracking = .off →
        ∃ t, exec (.sledStep closed) s = .next t ∧
          t.sled = { s.sled with state := .idle, position := some at_, taken := s.sled.taken + 1
                                 homeClosed := closed, stopPending := false, requester := none } ∧
          t.planner = { s.planner with legStage := .settling, legDone := full, settleSince := s.clock } ∧
          (s.optics.focus = .locked →
            t.optics = { s.optics with closers := s.optics.closers.erase .planner ++ [.planner] }) ∧
          (s.optics.focus ≠ .locked → t.optics = s.optics) ∧
          (∀ m, s.arbiter.active = some m → m.phase = some .leg →
            t.arbiter.active = some { m with phase := some .settle }) ∧
          t.supervisor = s.supervisor ∧ t.monitor = s.monitor)) ∧
    (s.sled.state = .homing → s.sled.paused = false → Settled s →
      (s.sled.stopPending = true → exec (.sledStep closed) s = .next (s.setSled { s.sled with
        state := .idle, position := none, stopPending := false, requester := none, taken := s.sled.taken + 1
        homeClosed := closed })) ∧
      (s.sled.stopPending = false → closed = false → s.sled.taken + 1 < 2000 → exec (.sledStep closed) s
        = .next (s.setSled { s.sled with taken := s.sled.taken + 1, homeClosed := false })) ∧
      (s.sled.stopPending = false → closed = true →
        let home : Sled := { s.sled with
          state := .idle, position := some 0, taken := s.sled.taken + 1, homeClosed := true, requester := none }
        (s.supervisor.drive ≠ .releasing → exec (.sledStep closed) s = .next (s.setSled home)) ∧
        (∀ m, s.supervisor.drive = .releasing → s.arbiter.active = some m → m.phase = some .homing →
          ∃ t, exec (.sledStep closed) s = .next t ∧ t.sled.position = some 0 ∧ t.sled.state = .idle ∧
            t.supervisor.drive = .released ∧ t.supervisor.cls = none ∧ t.map = PosMap.empty ∧ lastGood t = none ∧
            t.arbiter.active = none ∧ t.optics.profile = none ∧ DriveNoticed s t ∧
            completionsIn (t.port m.port).queue
              = completionsIn (s.port m.port).queue ++ [m.report .done (lastGood s)]))) ∧
    (s.sled.state = .homing ∨ s.sled.position = none ∨ s.sled.position = some 0 →
      exec .homeSwitchClose s = .next (s.setSled { s.sled with homeClosed := true })) ∧
    (∀ x, s.sled.position = some x → 0 < x → Settled s →
      (s.sled.state = .idle ∨ s.sled.state = .creep →
        exec .homeSwitchClose s = .next (s.setSled { s.sled with position := some 0, homeClosed := true })) ∧
      (s.sled.state = .leg → s.sled.requester = some .planner → s.planner.legStage = .running →
        s.planner.legKind = .sled → s.optics.tracking = .off →
        ∃ t, exec .homeSwitchClose s = .next t ∧
          t.sled = { s.sled with state := .idle, position := some 0, homeClosed := true, stopPending := false
                                 requester := none } ∧
          t.planner = { s.planner with legStage := .settling, legDone := false, settleSince := s.clock })) ∧
    (∀ x, s.sled.state = .creep → s.sled.position = some x →
      (x < 1800 → exec .creepThreshold s
        = .next (s.setSled { s.sled with position := some (x + 1), homeClosed := false })) ∧
      (1800 ≤ x → exec .creepThreshold s = .next s)) ∧
    (s.sled.state ≠ .creep → exec .creepThreshold s = .next s)

/-! ### Timers -/

/-- The timers of the legs, the recovery, the supply and the identification run out: a settle into its landing, the retrack
window into REFIX, a sag hold into a park with its motions PREEMPTED, the window of profile H into the try of profile L, the
address monitor's timer, outside the states that recover, into a fresh run, and ROUGH at its exit (R51, R114, R153, R154,
R160, R172, R176). The clock is brought to the time of the expiry first (entry 3). -/
def Obligations.TimersRunOut : Prop :=
  ∀ s : State,
    (s.planner.legStage = .settling → Settled s →
      let u := runTo s.planner.settleSince (if s.planner.legKind = .sled then 20 else 2) s
      ∃ t, exec .settleEnd s = .next t ∧ t.planner = { s.planner with legStage := .landing } ∧
        t.monitor = { u.monitor with started := true, elapsed := 0, limit := s.recovery.amTime } ∧
        (∀ m, s.arbiter.active = some m → m.phase = some .settle →
          t.arbiter.active = some { m with phase := some .verify }) ∧
        t.optics = s.optics ∧ t.supervisor = s.supervisor ∧ t.clock = u.clock) ∧
    (∀ since, s.recovery.window = some since → s.recovery.phase = .retrack → Settled s →
      s.recovery.refixCount < s.recovery.retryLimit →
      exec .retrackWindowEnd s = .next ((runTo since 50 s).setRecovery { s.recovery with
        phase := .refix, refixCount := s.recovery.refixCount + 1, window := none })) ∧
    (∀ since, s.supervisor.sagTimer = some since → s.supervisor.drive = .sagHold → s.supervisor.ident = none →
      Driven s.spindle → 30 ≤ s.spindle.measured →
      ∃ t, exec .sagTimerExpiry s = .next t ∧ t.supervisor.drive = .parking ∧ t.supervisor.cls = s.supervisor.cls ∧
        t.supervisor.sagTimer = none ∧ Braked (runTo since 3000 s) t ∧ NoMotion t ∧
        (∀ q, completionsIn (t.port q).queue = completionsIn (s.port q).queue ++
          ((liveMotions s).filter (fun m => m.port == q)).map (fun m => m.report (.preempted .supply) (lastGood s))) ∧
        t.optics.focus = .off ∧ t.optics.tracking = .off ∧ lastGood t = lastGood s) ∧
    (∀ i w, s.supervisor.ident = some i → i.stage = .profileH → i.window = some w → i.paused = false →
      i.restart = false → s.arbiter.waiting = [] → s.planner.acquireStep ≠ .spin → s.optics.profile ≠ some .L →
      ∃ t, exec .candidateWindowEnd s = .next t ∧ TriesProfileL i (passTime (500 - w) s) t) ∧
    (monitorRunning s = true → Settled s →
      s.supervisor.drive ≠ .onTrack → s.supervisor.drive ≠ .moving → s.supervisor.drive ≠ .recovering →
      let u := passTime (s.monitor.limit - s.monitor.elapsed) s
      exec .addressMonitorTimerExpiry s
        = .next (u.setMonitor { s.monitor with elapsed := 0, limit := s.recovery.amTime })) ∧
    (∀ x, s.recovery.roughExit = some x → Settled s →
      let u := passTime (untilTime x s.clock) s
      ∃ t, exec .roughExit s = .next t ∧ t.recovery = { s.recovery with rough := false, roughExit := none } ∧
        t.optics = { s.optics with robustGain := false } ∧ LeastMultiple t ∧ t.clock = u.clock ∧
        t.supervisor = s.supervisor ∧ t.arbiter = s.arbiter ∧
        ∀ q, admits (s.port q).mask 5 = true → ∃ r, Report.notice
          (.rough false u.clock (recentCount s.recovery.history u.clock)) r ∈ (t.port q).queue)

/-! ### Landings and the confirmation of a disc -/

/-- A SEEK, FOLLOW or REJOIN taken in STOPPED begins ACQUIRE: the spindle is driven for the coordinate of the stale fix, or 0.
When the spindle is COARSE the focus search follows with the retry count, or the close when focus is LOCKED already; with no
active profile the search fails at once, which parks the drive (R39, R40, R68, R73, R86, R131, R146). The address that ends
ACQUIRE is stated with the plans; a good address that comes before, while the spindle comes up, becomes the fix and leaves
ACQUIRE where it stands, and a leg left over that waits for its landing lands there, teaches as R53 says, and is over (R39, R52,
R56, R110; that no plan follows before ACQUIRE's last step is DEDUCED, entry 13). That a close in progress is a
list of its senders is DEDUCED (entry 11). -/
def Obligations.AcquireRunsItsSteps : Prop :=
  (∀ (p : Port) (tag speed : Byte) (target : Addr) (e : Option Addr) (s : State),
    s.supervisor.drive = .stopped → s.supervisor.supply = .normal → NoMotion s → Settled s → fixFresh s = false →
    s.optics.focus ≠ .locked → s.spindle.state = .stopped → s.spindle.target = 0 → s.spindle.measured < 30 →
    (Takes 0x10 p s → motionRefusal .seek p tag (some target.toNat) none s = none →
      ∃ t, exec (.seek p tag target speed) s = .next t ∧ AcquireBegun p tag .seek s t) ∧
    (Takes 0x11 p s → motionRefusal .follow p tag (some target.toNat) (endStored e s) s = none →
      ∃ t, exec (.follow p tag target speed e) s = .next t ∧ AcquireBegun p tag .follow s t) ∧
    (Takes 0x22 p s → motionRefusal .rejoin p tag (some target.toNat) none s = none →
      ∃ t, exec (.rejoin p tag target) s = .next t ∧ AcquireBegun p tag .rejoin s t)) ∧
  (∀ (rpm : Nat) (s : State), s.arbiter.waiting = [] → s.supervisor.ident = none → s.planner.acquireStep = .spin →
    s.spindle.state = .spinup → Within 10 (min rpm 9999) s.spindle.target → s.optics.switch = none →
    ∃ t, exec (.tachometerReading rpm) s = .next t ∧
      (s.optics.focus ≠ .locked → s.optics.profile ≠ none →
        t.spindle.state = .coarse ∧ t.planner = { s.planner with acquireStep := .search } ∧
        SearchBegun .planner s.recovery.retryCount s t ∧ t.arbiter = s.arbiter) ∧
      (s.optics.focus = .locked → s.optics.tracking = .off →
        t.spindle.state = .coarse ∧ t.planner = { s.planner with acquireStep := .close } ∧
        t.optics = { s.optics with closers := s.optics.closers.erase .planner ++ [.planner] }) ∧
      (s.optics.focus ≠ .locked → s.optics.profile = none → s.supervisor.drive ≠ .faulted →
        FaultParked .focusUnrecoverable s t)) ∧
  (∀ (p : Port) (tag : Byte) (address : Addr) (k : DiscClass) (c : Nat) (s : State), Takes 0x20 p s →
    s.supervisor.cls = some k → address.toNat ≤ k.maxAddress → s.map.predict address.toNat = some c →
    s.arbiter.waiting = [] → s.supervisor.ident = none → s.optics.focus = .locked → s.optics.tracking = .closed →
    s.optics.holdAddress = none → s.planner.legStage = .idle ∨ s.planner.legStage = .landing →
    s.supervisor.drive = .moving → s.recovery.phase = .none →
    activePhase s = some .acquire → s.planner.acquireStep = .spin → s.spindle.state = .spinup →
    ∃ t, exec (.addressReport p tag address 0) s = .next t ∧ (t.port p).reply = some ⟨.accepted, tag, [0]⟩ ∧
      t.monitor.fix = some ⟨address.toNat, c, s.clock, (s.zones.decode address.toNat).zone, true⟩ ∧
      t.arbiter = s.arbiter ∧ t.optics = s.optics ∧ t.sled = s.sled ∧ t.spindle = s.spindle ∧
      t.supervisor = s.supervisor ∧
      (s.planner.legStage = .idle → t.planner = s.planner ∧ t.map = s.map) ∧
      (s.planner.legStage = .landing →
        t.planner = { s.planner with legStage := .idle, legKind := .none, legDone := false, trim := t.planner.trim } ∧
        (s.planner.legDisturbed = true → t.map = s.map ∧ t.planner.trim = s.planner.trim) ∧
        (∀ c0, s.planner.startCoord = some c0 → s.planner.legDisturbed = false → s.planner.legKind = .sled →
          t.map = s.map ∧ t.planner.trim = TrimAfter k c c0 s)))

/-- A landing of an undisturbed, complete leg teaches: a fine leg off its map by 2 tracks or more asks for a LEARNED record, a
full sled leg of an observed distance of 256 tracks or more in its own direction moves the trim; nothing else does (R53 to
R57). The drive is MOVING. -/
def Obligations.LandingTeachesMapAndTrim : Prop :=
  ∀ (p : Port) (tag : Byte) (address : Addr) (k : DiscClass) (c c0 : Nat) (s : State),
    Takes 0x20 p s → s.supervisor.cls = some k → address.toNat ≤ k.maxAddress →
    s.map.predict address.toNat = some c → s.planner.startCoord = some c0 →
    s.supervisor.drive = .moving → Settled s → s.optics.focus = .locked →
    s.optics.tracking = .closed ∨ s.optics.tracking = .hold → activePhase s ≠ some .suspended →
    activePhase s ≠ some .following → s.recovery.phase = .none →
    s.planner.legStage = .landing → s.planner.legDisturbed = false →
    let o : Int := (c : Int) - (c0 : Int)
    let e : Int := (c0 : Int) + s.planner.legCount - (c : Int)
    ∃ t, exec (.addressReport p tag address 0) s = .next t ∧ (t.port p).reply = some ⟨.accepted, tag, [0]⟩ ∧
      lastGood t = some address.toNat ∧
      (s.planner.legKind ≠ .fine ∨ s.planner.legDone = false ∨ e.natAbs < 2 → t.map = s.map) ∧
      (s.planner.legKind = .fine → s.planner.legDone = true → 2 ≤ e.natAbs → t.map =
        match s.map.insert address.toNat ((c0 : Int) + s.planner.legCount).toNat .learned with
        | some i => i.map
        | none => s.map) ∧
      (s.planner.legKind ≠ .sled ∨ s.planner.legDone = false ∨ o.natAbs < 256 ∨ ¬ (0 < o ↔ 0 < s.planner.legCount) →
        t.planner.trim = s.planner.trim) ∧
      (s.planner.legKind = .sled → s.planner.legDone = true → 256 ≤ o.natAbs →
        (0 < o ∧ 0 < s.planner.legCount ∨ o < 0 ∧ s.planner.legCount < 0) →
        t.planner.trim = max 3686 (min 4506 (rounded (3 * s.planner.trim +
          rounded (o.natAbs * 4096 * k.pitch) (s.planner.legCount.natAbs * 20000)) 4)))

/-- A landing, an address in APPROACH and the first address of ACQUIRE make a plan, whose coordinates are those of the map as
the landing leaves it. In the reach window a SEEK or REJOIN ends REACHED and the drive holds at its target, a FOLLOW plays
from there; just below the target it approaches; a leg that a check of R45 refuses ends the motion UNREACHED at the fix, with
its unreached record; else a leg begins, fine for 64 tracks or less, of −1 past the window on the target's own track, and by
sled for more. An attached REJOIN ends so and its FOLLOW goes on following, its notice of entry REJOIN (R39, R42 to R50, R53,
R62 to R64, R133 to R135, R138). That nothing is held once a jump has begun, and that an approach ends a hold, are the model's
(entries 33 and 31). -/
def Obligations.PlansReachOrEndMotions : Prop :=
  ∀ (p : Port) (tag : Byte) (address : Addr) (k : DiscClass) (c g : Nat) (m : Motion) (s : State),
    FixComes p address k c s → s.supervisor.drive = .moving → s.recovery.phase = .none →
    s.arbiter.active = some m → m.phase ≠ some .following → s.planner.target = some g →
    (s.planner.acquireStep = .wait ∧ s.planner.legStage = .idle ∨
      s.planner.acquireStep = .none ∧ s.planner.legStage = .landing ∧ s.planner.legDisturbed = false ∨
      s.planner.acquireStep = .none ∧ s.planner.legStage = .idle ∧ m.phase = some .approach) →
    let a := address.toNat
    ∃ t, exec (.addressReport p tag address 0) s = .next t ∧ (t.port p).reply = some ⟨.accepted, tag, [0]⟩ ∧
      t.planner.acquireStep = .none ∧ lastGood t = some a ∧
      ∀ pg pa, t.map.predict g = some pg → t.map.predict a = some pa →
        let d : Int := (pg : Int) - (pa : Int)
        let checked := s.setPlanner { s.planner with trim := t.planner.trim }
        (s.planner.owner = .active → s.arbiter.attached = none →
          (InReach g a → m.kind ≠ .follow → m.target = some g → EndedHolding m .reached a g s t) ∧
          (∀ z, InReach g a → m.kind = .follow → m.endAddr = some z → (s.zones.decode a).access = .opened → a < z →
            PlaysFrom m (if m.rejoinEnded then .rejoin else if s.planner.returning then .return else .start) a z s t ∧
              ReportsStay s t) ∧
          (∀ e, CallsForLeg g a d → FailsCheck k d checked e →
            EndedHolding m .unreached a a s t ∧
            t.planner.unreached = some ⟨m.port, m.tag, m.target, some a, m.legs, e⟩) ∧
          (CallsForLeg g a d → d.natAbs ≤ 64 → s.planner.sessionLegs < 6 →
            FineLegBegun g d s t ∧ t.planner.sessionLegs = s.planner.sessionLegs + 1 ∧
            t.arbiter.active = some { withLeg m with phase := some .leg } ∧ ReportsStay s t) ∧
          (CallsForApproach g a d → Approaches g d s t ∧
            t.arbiter.active = some { m with phase := some .approach } ∧ t.planner.owner = .active ∧ ReportsStay s t) ∧
          (∀ x n, CallsForLeg g a d → 64 < d.natAbs → s.planner.sessionLegs < 6 → s.planner.sessionSled < 3 →
            s.sled.state = .idle ∨ s.sled.state = .creep → s.sled.position = some x →
            n = railSteps k d t.planner.trim x → n ≠ 0 →
            SledLegBegun g d n s t ∧ t.arbiter.active = some { withLeg m with phase := some .leg } ∧
            ReportsStay s t)) ∧
        (∀ r, s.planner.owner = .attached → s.arbiter.attached = some r →
          (CallsForLeg g a d → d.natAbs ≤ 64 → s.planner.sessionLegs < 6 →
            FineLegBegun g d s t ∧ t.planner.owner = .attached ∧ t.planner.sessionLegs = s.planner.sessionLegs + 1 ∧
            t.arbiter.active = some { m with phase := some .leg } ∧ t.arbiter.attached = some (withLeg r) ∧
            ReportsStay s t) ∧
          (CallsForApproach g a d → Approaches g d s t ∧ t.planner.owner = .attached ∧
            t.arbiter.active = some { m with phase := some .approach } ∧ t.arbiter.attached = some r ∧
            ReportsStay s t)) ∧
        (∀ r z, s.planner.owner = .attached → s.arbiter.attached = some r → m.kind = .follow → m.endAddr = some z →
          (s.zones.decode a).access = .opened → a < z →
          (InReach g a → PlaysFrom m .rejoin a z s t ∧ t.arbiter.attached = none ∧
            OneMoreReport r.port ⟨r.tag, r.kind, .reached, some a, r.legs, r.bad⟩ s t) ∧
          (∀ e, CallsForLeg g a d → FailsCheck k d checked e →
            PlaysFrom m .rejoin a z s t ∧ t.arbiter.attached = none ∧
            OneMoreReport r.port ⟨r.tag, r.kind, .unreached, some a, r.legs, r.bad⟩ s t ∧
            t.planner.unreached = some ⟨r.port, r.tag, r.target, some a, r.legs, e⟩))

/-- An identification goes on from stage to stage: a homing complete to the leg toward step 150, that leg full to the fixed
speed and cut to a fresh leg, COARSE to the try of profile H, a switch complete to the focus search, the lock to the close, the
close to the candidate and its window. A failed search, and a focus drop while closing or in the window, fail a try: that of
profile H leads to the try of profile L, that of profile L to the fault DISC_UNREADABLE (R68, R84, R86, R88, R98, R100, R151 to
R154). That a close in progress is a list of its senders is DEDUCED (entry 11), a drop is commanded with its length in µs (entry
9), and the clock is brought to the time of an expiry first (entry 3). -/
def Obligations.IdentificationRunsItsStages : Prop :=
  ∀ (i : Ident) (s : State), Identifies i s →
    (i.stage = .homing → s.sled.state = .homing → s.sled.paused = false → s.sled.stopPending = false →
      ∃ t, exec (.sledStep true) s = .next t ∧
        t.supervisor.ident = some { i with stage := .positioning, step := none } ∧ t.sled.state = .leg ∧
        t.sled.position = some 0 ∧ t.sled.legSteps = 150 ∧ t.sled.taken = 0 ∧ t.sled.requester = some .supervisor) ∧
    (∀ x, i.stage = .positioning → s.sled.state = .leg → s.sled.position = some x →
      s.sled.requester = some .supervisor →
      (let moved := if 0 ≤ s.sled.legSteps then x + 1 else x - 1
       s.sled.legSteps.natAbs ≤ s.sled.taken + 1 → s.spindle.state = .stopped ∨ s.spindle.state = .braking →
       s.spindle.target = 0 → ¬ Within 10 s.spindle.measured 500 →
       ∃ t, exec (.sledStep false) s = .next t ∧
        t.supervisor.ident = some { i with stage := .spinning, step := none } ∧ t.sled.position = some moved ∧
        t.spindle.mode = .fixed ∧ t.spindle.target = 500 ∧ t.spindle.state = .spinup ∧
        t.spindle.lockLimit = some s.clock) ∧
      (s.sled.homeClosed = false → s.sled.taken + 1 < s.sled.legSteps.natAbs → s.sled.legSteps < 0 → 1 < x →
       ∃ t, exec (.sledStep true) s = .next t ∧
        t.supervisor.ident = some { i with stage := .positioning, step := none } ∧ t.sled.state = .leg ∧
        t.sled.position = some 0 ∧ t.sled.legSteps = 150 ∧ t.sled.taken = 0 ∧
        t.sled.requester = some .supervisor)) ∧
    (∀ rpm, i.stage = .spinning → s.spindle.state = .spinup → Within 10 (min rpm 9999) s.spindle.target →
      s.optics.profile ≠ some .H →
      ∃ t, exec (.tachometerReading rpm) s = .next t ∧ t.spindle.state = .coarse ∧
        t.supervisor.ident = some { i with
          stage := .profileH, step := some .switching, candidate := none, window := none } ∧
        t.optics.profile = none ∧ t.optics.switch = some (.H, s.clock) ∧ t.optics.focus = .off ∧
        t.optics.tracking = .off) ∧
    (i.stage = .profileH ∨ i.stage = .profileL →
      (∀ k since, i.step = some .switching → i.window = none → s.optics.switch = some (k, since) →
        s.optics.storedSearch = none → s.optics.focus ≠ .locked →
        ∃ t, exec .profileSwitchComplete s = .next t ∧ t.optics.profile = some k ∧ t.optics.switch = none ∧
          t.supervisor.ident = some { i with step := some .searching } ∧
          SearchBegun .supervisor s.recovery.retryCount (runTo since 50 s) t) ∧
      (i.step = some .searching → s.optics.focus = .search → s.optics.requester = some .supervisor →
        s.optics.attempt ≤ 1 ∨ s.optics.attemptTimer ≠ some s.clock → s.optics.tracking = .off →
        ∃ t, exec .focusCapture s = .next t ∧ t.optics.focus = .locked ∧
          t.supervisor.ident = some { i with step := some .closing } ∧ Requester.supervisor ∈ t.optics.closers) ∧
      (i.step = some .closing → s.optics.closers = [.supervisor] → s.optics.focus = .locked →
        s.optics.tracking = .off →
        ∃ t, exec .trackingClosed s = .next t ∧ t.optics.tracking = .closed ∧
          (i.stage = .profileH →
            t.supervisor.ident = some { i with step := some .window, candidate := some .H, window := some 0 } ∧
            (i.candidate ≠ some .H → Noticed (.disc .candidateH .H none) s t)) ∧
          (i.stage = .profileL →
            t.supervisor.ident = some { i with step := some .window, candidate := some .L, window := some 0 } ∧
            (i.candidate ≠ some .L → Noticed (.disc .candidateL .L none) s t))) ∧
      (∀ since, i.step = some .searching → i.window = none → s.optics.attemptTimer = some since →
        s.optics.allowed ≤ s.optics.attempt → s.optics.requester = some .supervisor → s.optics.focus = .search →
        s.optics.profile = some .H ∨ i.stage = .profileL →
        ∃ t, exec .attemptTimerExpiry s = .next t ∧
          (i.stage = .profileH → TriesProfileL i (runTo since 300 s) t) ∧
          (i.stage = .profileL → FaultParked .discUnreadable (runTo since 300 s) t)) ∧
      (∀ us, i.step = some .closing ∨ i.step = some .window → s.optics.focus = .locked →
        (if s.optics.robustGain then 5000 else 2000) < us → s.optics.profile = some .H ∨ i.stage = .profileL →
        ∃ t, exec (.focusDrop us) s = .next t ∧
          (i.stage = .profileH → TriesProfileL i s t) ∧
          (i.stage = .profileL → FaultParked .discUnreadable s t)))

/-- A confirming address in the window of a try confirms its class: the class, its map, the fix, the held speed 1, the CLV
command with the target of R67 for 1×, the hold, ON_TRACK, the identification over, a DISC notice of IDENTIFIED; its reply
says CONFIRM. An empty map is seeded with the five records of its class, origin SEED and sequence 0, the insertion counter 1;
a map of the class is kept as it stands, and one of the other class is cleared and seeded (R6, R7, R21, R67, R70, R109, R155). -/
def Obligations.ConfirmingAddressIdentifiesTheDisc : Prop :=
  let seed (x : Nat × Nat) : MapRecord := ⟨x.1, x.2, .seed, 0⟩
  let seeded (k : DiscClass) : PosMap :=
    { records := (match k with
        | .L => [(0, 0), (52561, 5000), (119622, 10000), (201183, 15000), (310270, 20625)]
        | .H => [(0, 0), (368592, 10811), (842497, 21622), (1421714, 32432), (2293830, 45946)]).map seed
      cls := some k, counter := 1 }
  ∀ (p : Port) (tag : Byte) (address : Addr) (k : DiscClass) (i : Ident) (c : Nat) (s : State),
    Takes 0x20 p s → s.supervisor.drive = .identifying → s.supervisor.ident = some i → i.paused = false →
    i.step = some .window → i.candidate = some k → address.toNat ≤ k.maxAddress →
    (if s.map.records ≠ [] ∧ s.map.cls = some k then s.map else seeded k).predict address.toNat = some c →
    s.optics.focus = .locked → s.optics.tracking = .closed → s.planner.legStage = .idle →
    s.planner.acquireStep ≠ .spin → NoMotion s →
    ∃ t, exec (.addressReport p tag address 0) s = .next t ∧ (t.port p).reply = some ⟨.accepted, tag, [1]⟩ ∧
      t.supervisor = { s.supervisor with drive := .onTrack, cls := some k, ident := none } ∧
      (s.map.records = [] → t.map = seeded k) ∧
      (s.map.records ≠ [] → s.map.cls = some k → t.map = s.map) ∧
      (s.map.records ≠ [] → s.map.cls ≠ some k →
        t.map = seeded k ∧ t.monitor.resume = none ∧ t.recovery.returnAddr = none) ∧
      t.monitor.fix = some ⟨address.toNat, c, s.clock, (s.zones.decode address.toNat).zone, true⟩ ∧
      t.spindle.held = .one ∧ t.spindle.mode = .clv ∧ t.spindle.basis = some c ∧ t.spindle.m = .one ∧ ClvTarget t ∧
      t.optics.tracking = .hold ∧ t.optics.holdAddress = some address.toNat ∧
      t.recovery.holdCopy = some address.toNat ∧
      ∀ q, admits (s.port q).mask 1 = true →
        ∃ r, Report.notice (.disc .identified k (some address.toNat)) r ∈ (t.port q).queue
end

