-- ==== Sys2Proof/Laws/Map.lean ====
section
/-! SUPPORT. The position map: every insertion keeps the order, the end records and the capacity of R4. -/

namespace Sys2Proof.Laws

open Sys2Proof.Machine Sys2Proof.Safety

/-! ### Placement (R15) -/

theorem placeRecord_perm (r : MapRecord) (l : List MapRecord) : (placeRecord r l).Perm (r :: l) := by
  induction l with
  | nil => exact .refl _
  | cons q rest ih =>
    simp only [placeRecord]
    split
    · exact .refl _
    · exact (ih.cons q).trans (.swap r q rest)

theorem placeRecord_mem (r q : MapRecord) (l : List MapRecord) : q ∈ placeRecord r l ↔ q = r ∨ q ∈ l := by
  rw [(placeRecord_perm r l).mem_iff, List.mem_cons]

theorem placeRecord_length (r : MapRecord) (l : List MapRecord) : (placeRecord r l).length = l.length + 1 := by
  rw [(placeRecord_perm r l).length_eq, List.length_cons]

/-- A record that breaks no order may stand with (a, c). -/
def fits (a c : Nat) (q : MapRecord) : Prop := (q.address < a ∧ q.coord < c) ∨ (a < q.address ∧ c < q.coord)

theorem placeRecord_rising (r : MapRecord) (l : List MapRecord) (h : StrictlyRising l)
    (hf : ∀ q ∈ l, fits r.address r.coord q) : StrictlyRising (placeRecord r l) := by
  induction l with
  | nil => simp [placeRecord, StrictlyRising]
  | cons q rest ih =>
    rw [StrictlyRising, List.pairwise_cons] at h
    have hq := hf q (by simp)
    simp only [placeRecord]
    split
    · rename_i hlt
      refine List.pairwise_cons.2 ⟨?_, List.pairwise_cons.2 h⟩
      intro x hx
      rcases List.mem_cons.1 hx with rfl | hx
      · rcases hq with hq | hq
        · omega
        · exact hq
      · have := (h.1 x hx).1
        rcases hf x (by simp [hx]) with hx' | hx'
        · omega
        · exact hx'
    · rename_i hge
      refine List.pairwise_cons.2 ⟨?_, ih h.2 (fun x hx => hf x (by simp [hx]))⟩
      intro x hx
      rcases (placeRecord_mem r x rest).1 hx with rfl | hx
      · rcases hq with hq | hq
        · exact hq
        · omega
      · exact h.1 x hx

theorem placeRecord_head (r lo : MapRecord) (l : List MapRecord) (h : l.head? = some lo) (hlt : lo.address < r.address) :
    (placeRecord r l).head? = some lo := by
  cases l with
  | nil => simp at h
  | cons q rest =>
    simp only [List.head?_cons, Option.some.injEq] at h
    subst h
    rw [placeRecord, if_neg (by omega)]
    rfl

theorem placeRecord_last (r hi : MapRecord) (l : List MapRecord) (h : l.getLast? = some hi)
    (hlt : r.address < hi.address) : (placeRecord r l).getLast? = some hi := by
  obtain ⟨ys, rfl⟩ := List.getLast?_eq_some_iff.1 h
  have key : placeRecord r (ys ++ [hi]) = placeRecord r ys ++ [hi] := by
    clear h
    induction ys with
    | nil => simp [placeRecord, hlt]
    | cons q rest ih =>
      simp only [List.cons_append, placeRecord]
      split
      · rfl
      · rw [ih]
        rfl
  rw [key]
  simp

/-! ### Filters that keep the end records -/

theorem filter_head {f : MapRecord → Bool} {l : List MapRecord} {lo : MapRecord} (h : l.head? = some lo)
    (hf : f lo = true) : (l.filter f).head? = some lo := by
  cases l with
  | nil => simp at h
  | cons q rest =>
    simp only [List.head?_cons, Option.some.injEq] at h
    subst h
    simp [hf]

theorem filter_last {f : MapRecord → Bool} {l : List MapRecord} {hi : MapRecord} (h : l.getLast? = some hi)
    (hf : f hi = true) : (l.filter f).getLast? = some hi := by
  obtain ⟨ys, rfl⟩ := List.getLast?_eq_some_iff.1 h
  simp [hf]

/-! ### Eviction (R14) -/

theorem oldestInserted_mem {l : List MapRecord} {r : MapRecord} (h : oldestInserted l = some r) :
    r ∈ l ∧ r.origin ≠ .seed := by
  induction l generalizing r with
  | nil => simp [oldestInserted] at h
  | cons q rest ih =>
    simp only [oldestInserted] at h
    split at h
    · obtain ⟨h1, h2⟩ := ih h
      exact ⟨by simp [h1], h2⟩
    · rename_i _ ho
      cases h
      exact ⟨by simp, ho⟩
    · rename_i other hs ho
      split at h <;> cases h
      · exact ⟨by simp, ho⟩
      · obtain ⟨h1, h2⟩ := ih hs
        exact ⟨by simp [h1], h2⟩

theorem oldestInserted_none {l : List MapRecord} (h : oldestInserted l = none) : ∀ r ∈ l, r.origin = .seed := by
  induction l with
  | nil => simp
  | cons q rest ih =>
    simp only [oldestInserted] at h
    split at h
    · rename_i ho
      intro r hr
      rcases List.mem_cons.1 hr with rfl | hr
      · exact ho
      · exact ih h r hr
    · cases h
    · split at h <;> cases h

/-- Rising records have different addresses. -/
theorem rising_nodup {l : List MapRecord} (h : StrictlyRising l) : l.Nodup :=
  List.Pairwise.imp (fun {a b} hab hne => by subst hne; omega) h

theorem rising_address {l : List MapRecord} (h : StrictlyRising l) {r q : MapRecord} (hr : r ∈ l) (hq : q ∈ l)
    (ha : r.address = q.address) : r = q := by
  induction l with
  | nil => simp at hr
  | cons x rest ih =>
    rw [StrictlyRising, List.pairwise_cons] at h
    rcases List.mem_cons.1 hr with rfl | hr'
    · rcases List.mem_cons.1 hq with rfl | hq'
      · rfl
      · have := (h.1 q hq').1
        omega
    · rcases List.mem_cons.1 hq with rfl | hq'
      · have := (h.1 r hr').1
        omega
      · exact ih h.2 hr' hq'

/-! ### Insertion (R10 to R15) -/

theorem mem_survivors {rs : List MapRecord} {a c : Nat} {r : MapRecord} :
    r ∈ survivors rs a c ↔ r ∈ rs ∧ fits a c r := by
  simp only [survivors, List.mem_filter, breaksOrder, fits, Bool.and_eq_true, Bool.not_eq_true',
    Bool.or_eq_false_iff, beq_eq_false_iff_ne, Bool.and_eq_false_iff, decide_eq_false_iff_not]
  constructor
  · rintro ⟨h, h1, h2, h3⟩
    exact ⟨h, by omega⟩
  · rintro ⟨h, h1⟩
    exact ⟨h, by omega, by omega, by omega⟩

/-- An insertion that the range test admits keeps the map in order, between its end records and within its capacity
(R4, R10 to R15). -/
theorem insert_ok {mp : PosMap} {a c : Nat} {o : Origin} {i : Inserted} (h : MapOk mp) (ho : o ≠ .seed)
    (hi : mp.insert a c o = some i) : MapOk i.map ∧ i.map.cls = mp.cls := by
  unfold PosMap.insert at hi
  split at hi
  · rename_i hadm
    simp only [Option.some.injEq] at hi
    subst hi
    refine ⟨?_, rfl⟩
    unfold MapOk at h ⊢
    dsimp only
    split at h
    · simp [PosMap.admitsRecord, h] at hadm
    · rename_i k hk
      obtain ⟨hlen, hrise, hhead, hlast, hseed⟩ := h
      simp only [PosMap.admitsRecord, hhead, hlast, Bool.and_eq_true, decide_eq_true_eq] at hadm
      obtain ⟨⟨⟨ha0, ha1⟩, hc0⟩, hc1⟩ := hadm
      have hlo : MapRecord.mk 0 0 .seed 0 ∈ mp.records := List.mem_of_mem_head? hhead
      have hhi : MapRecord.mk k.maxAddress k.maxCoord .seed 0 ∈ mp.records := List.mem_of_mem_getLast? hlast
      have krise : StrictlyRising (survivors mp.records a c) := hrise.filter _
      have khead : (survivors mp.records a c).head? = some ⟨0, 0, .seed, 0⟩ := by
        refine filter_head hhead ?_
        have := (mem_survivors (rs := [⟨0, 0, .seed, 0⟩])).2 ⟨List.mem_singleton.2 rfl, .inl ⟨ha0, hc0⟩⟩
        exact (List.mem_filter.1 this).2
      have klast : (survivors mp.records a c).getLast? = some ⟨k.maxAddress, k.maxCoord, .seed, 0⟩ := by
        refine filter_last hlast ?_
        have := (mem_survivors (rs := [⟨k.maxAddress, k.maxCoord, .seed, 0⟩])).2
          ⟨List.mem_singleton.2 rfl, .inr ⟨ha1, hc1⟩⟩
        exact (List.mem_filter.1 this).2
      have kseed : ∀ r ∈ survivors mp.records a c, r.origin = .seed → r ∈ seeds k :=
        fun r hr => hseed r (mem_survivors.1 hr).1
      have kfits : ∀ r ∈ survivors mp.records a c, fits a c r := fun r hr => (mem_survivors.1 hr).2
      have klen : (survivors mp.records a c).length ≤ mp.records.length := List.length_filter_le _ _
      generalize hkept : survivors mp.records a c = kept at *
      -- the records after eviction
      have key : ∀ l, l = afterEviction kept (evictedRecord kept (holdsAddress mp.records a)) →
          l.length + 1 ≤ 32 ∧ StrictlyRising l ∧ l.head? = some ⟨0, 0, .seed, 0⟩ ∧
          l.getLast? = some ⟨k.maxAddress, k.maxCoord, .seed, 0⟩ ∧ (∀ r ∈ l, r ∈ kept) := by
        intro l hl
        subst hl
        cases hev : evictedRecord kept (holdsAddress mp.records a) with
        | none =>
          refine ⟨?_, krise, khead, klast, fun r hr => hr⟩
          by_cases hrep : holdsAddress mp.records a = true
          · -- a replacement: the record at the address does not survive
            obtain ⟨q, hq, hqa⟩ := List.any_eq_true.1 hrep
            have hlt : kept.length < mp.records.length := by
              rw [← hkept, survivors, List.length_filter_lt_length_iff_exists]
              exact ⟨q, hq, by simp [hqa]⟩
            simp only [afterEviction]
            omega
          · unfold evictedRecord at hev
            rw [Bool.not_eq_true] at hrep
            by_cases hcap : Config.mapCapacity ≤ kept.length
            · exfalso
              rw [if_pos ⟨hrep, hcap⟩] at hev
              have hall := oldestInserted_none hev
              have hsub : kept ⊆ seeds k := fun r hr => kseed r hr (hall r hr)
              have := ((rising_nodup krise).subperm hsub).length_le
              have h5 : (seeds k).length = 5 := by cases k <;> rfl
              simp only [Config.mapCapacity] at hcap
              omega
            · simp only [Config.mapCapacity] at hcap
              simp only [afterEviction]
              omega
        | some e =>
          have hmem : e ∈ kept ∧ e.origin ≠ .seed := by
            unfold evictedRecord at hev
            split at hev
            · exact oldestInserted_mem hev
            · cases hev
          have hne : ∀ q ∈ kept, q.origin = .seed → (!(q.address == e.address)) = true := by
            intro q hq hs
            simp only [Bool.not_eq_true', beq_eq_false_iff_ne, ne_eq]
            intro hadr
            exact hmem.2 (rising_address krise hq hmem.1 hadr ▸ hs)
          refine ⟨?_, krise.filter _, filter_head khead (hne _ (List.mem_of_mem_head? khead) rfl),
            filter_last klast (hne _ (List.mem_of_mem_getLast? klast) rfl), fun r hr => (List.mem_filter.1 hr).1⟩
          have hlt : (kept.filter (fun q => !(q.address == e.address))).length < kept.length := by
            rw [List.length_filter_lt_length_iff_exists]
            exact ⟨e, hmem.1, by simp⟩
          simp only [afterEviction]
          omega
      obtain ⟨e1, e2, e3, e4, e5⟩ := key _ rfl
      refine ⟨?_, ?_, ?_, ?_, ?_⟩
      · rw [placeRecord_length]
        exact e1
      · exact placeRecord_rising _ _ e2 (fun q hq => kfits q (e5 q hq))
      · exact placeRecord_head _ _ _ e3 ha0
      · exact placeRecord_last _ _ _ e4 ha1
      · intro r hr hs
        rcases (placeRecord_mem _ _ _).1 hr with rfl | hr
        · exact absurd hs ho
        · exact kseed r (e5 r hr) hs
  · cases hi

/-- The seeded map of a class is a map (R4, R6). -/
theorem seeded_ok (k : DiscClass) : MapOk (PosMap.seeded k) := by
  cases k <;> simp [MapOk, PosMap.seeded, seeds, seedRecord, StrictlyRising, DiscClass.maxAddress, DiscClass.maxCoord]

end Sys2Proof.Laws
end

