-- ==== Sys2Proof/Laws/State.lean ====
section
/-! SUPPORT. What each named update of a block leaves in each field of State. -/

namespace Sys2Proof.Machine.State

variable (s : State)

/-! ### setClock -/

@[simp] theorem setClock_clock (x : Time) : (s.setClock x).clock = x := rfl
@[simp] theorem setClock_control (x : Time) : (s.setClock x).control = s.control := rfl
@[simp] theorem setClock_stream (x : Time) : (s.setClock x).stream = s.stream := rfl
@[simp] theorem setClock_mechanism (x : Time) : (s.setClock x).mechanism = s.mechanism := rfl
@[simp] theorem setClock_arbiter (x : Time) : (s.setClock x).arbiter = s.arbiter := rfl
@[simp] theorem setClock_planner (x : Time) : (s.setClock x).planner = s.planner := rfl
@[simp] theorem setClock_map (x : Time) : (s.setClock x).map = s.map := rfl
@[simp] theorem setClock_zones (x : Time) : (s.setClock x).zones = s.zones := rfl
@[simp] theorem setClock_monitor (x : Time) : (s.setClock x).monitor = s.monitor := rfl
@[simp] theorem setClock_optics (x : Time) : (s.setClock x).optics = s.optics := rfl
@[simp] theorem setClock_sled (x : Time) : (s.setClock x).sled = s.sled := rfl
@[simp] theorem setClock_spindle (x : Time) : (s.setClock x).spindle = s.spindle := rfl
@[simp] theorem setClock_recovery (x : Time) : (s.setClock x).recovery = s.recovery := rfl
@[simp] theorem setClock_supervisor (x : Time) : (s.setClock x).supervisor = s.supervisor := rfl
@[simp] theorem setClock_picks (x : Time) : (s.setClock x).picks = s.picks := rfl
@[simp] theorem setClock_pending (x : Time) : (s.setClock x).pending = s.pending := rfl
@[simp] theorem setClock_port (x : Time) (p : Port) : (s.setClock x).port p = s.port p := by cases p <;> rfl

/-! ### setArbiter -/

@[simp] theorem setArbiter_clock (x : Arbiter) : (s.setArbiter x).clock = s.clock := rfl
@[simp] theorem setArbiter_control (x : Arbiter) : (s.setArbiter x).control = s.control := rfl
@[simp] theorem setArbiter_stream (x : Arbiter) : (s.setArbiter x).stream = s.stream := rfl
@[simp] theorem setArbiter_mechanism (x : Arbiter) : (s.setArbiter x).mechanism = s.mechanism := rfl
@[simp] theorem setArbiter_arbiter (x : Arbiter) : (s.setArbiter x).arbiter = x := rfl
@[simp] theorem setArbiter_planner (x : Arbiter) : (s.setArbiter x).planner = s.planner := rfl
@[simp] theorem setArbiter_map (x : Arbiter) : (s.setArbiter x).map = s.map := rfl
@[simp] theorem setArbiter_zones (x : Arbiter) : (s.setArbiter x).zones = s.zones := rfl
@[simp] theorem setArbiter_monitor (x : Arbiter) : (s.setArbiter x).monitor = s.monitor := rfl
@[simp] theorem setArbiter_optics (x : Arbiter) : (s.setArbiter x).optics = s.optics := rfl
@[simp] theorem setArbiter_sled (x : Arbiter) : (s.setArbiter x).sled = s.sled := rfl
@[simp] theorem setArbiter_spindle (x : Arbiter) : (s.setArbiter x).spindle = s.spindle := rfl
@[simp] theorem setArbiter_recovery (x : Arbiter) : (s.setArbiter x).recovery = s.recovery := rfl
@[simp] theorem setArbiter_supervisor (x : Arbiter) : (s.setArbiter x).supervisor = s.supervisor := rfl
@[simp] theorem setArbiter_picks (x : Arbiter) : (s.setArbiter x).picks = s.picks := rfl
@[simp] theorem setArbiter_pending (x : Arbiter) : (s.setArbiter x).pending = s.pending := rfl
@[simp] theorem setArbiter_port (x : Arbiter) (p : Port) : (s.setArbiter x).port p = s.port p := by cases p <;> rfl

/-! ### setPlanner -/

@[simp] theorem setPlanner_clock (x : Planner) : (s.setPlanner x).clock = s.clock := rfl
@[simp] theorem setPlanner_control (x : Planner) : (s.setPlanner x).control = s.control := rfl
@[simp] theorem setPlanner_stream (x : Planner) : (s.setPlanner x).stream = s.stream := rfl
@[simp] theorem setPlanner_mechanism (x : Planner) : (s.setPlanner x).mechanism = s.mechanism := rfl
@[simp] theorem setPlanner_arbiter (x : Planner) : (s.setPlanner x).arbiter = s.arbiter := rfl
@[simp] theorem setPlanner_planner (x : Planner) : (s.setPlanner x).planner = x := rfl
@[simp] theorem setPlanner_map (x : Planner) : (s.setPlanner x).map = s.map := rfl
@[simp] theorem setPlanner_zones (x : Planner) : (s.setPlanner x).zones = s.zones := rfl
@[simp] theorem setPlanner_monitor (x : Planner) : (s.setPlanner x).monitor = s.monitor := rfl
@[simp] theorem setPlanner_optics (x : Planner) : (s.setPlanner x).optics = s.optics := rfl
@[simp] theorem setPlanner_sled (x : Planner) : (s.setPlanner x).sled = s.sled := rfl
@[simp] theorem setPlanner_spindle (x : Planner) : (s.setPlanner x).spindle = s.spindle := rfl
@[simp] theorem setPlanner_recovery (x : Planner) : (s.setPlanner x).recovery = s.recovery := rfl
@[simp] theorem setPlanner_supervisor (x : Planner) : (s.setPlanner x).supervisor = s.supervisor := rfl
@[simp] theorem setPlanner_picks (x : Planner) : (s.setPlanner x).picks = s.picks := rfl
@[simp] theorem setPlanner_pending (x : Planner) : (s.setPlanner x).pending = s.pending := rfl
@[simp] theorem setPlanner_port (x : Planner) (p : Port) : (s.setPlanner x).port p = s.port p := by cases p <;> rfl

/-! ### setMap -/

@[simp] theorem setMap_clock (x : PosMap) : (s.setMap x).clock = s.clock := rfl
@[simp] theorem setMap_control (x : PosMap) : (s.setMap x).control = s.control := rfl
@[simp] theorem setMap_stream (x : PosMap) : (s.setMap x).stream = s.stream := rfl
@[simp] theorem setMap_mechanism (x : PosMap) : (s.setMap x).mechanism = s.mechanism := rfl
@[simp] theorem setMap_arbiter (x : PosMap) : (s.setMap x).arbiter = s.arbiter := rfl
@[simp] theorem setMap_planner (x : PosMap) : (s.setMap x).planner = s.planner := rfl
@[simp] theorem setMap_map (x : PosMap) : (s.setMap x).map = x := rfl
@[simp] theorem setMap_zones (x : PosMap) : (s.setMap x).zones = s.zones := rfl
@[simp] theorem setMap_monitor (x : PosMap) : (s.setMap x).monitor = s.monitor := rfl
@[simp] theorem setMap_optics (x : PosMap) : (s.setMap x).optics = s.optics := rfl
@[simp] theorem setMap_sled (x : PosMap) : (s.setMap x).sled = s.sled := rfl
@[simp] theorem setMap_spindle (x : PosMap) : (s.setMap x).spindle = s.spindle := rfl
@[simp] theorem setMap_recovery (x : PosMap) : (s.setMap x).recovery = s.recovery := rfl
@[simp] theorem setMap_supervisor (x : PosMap) : (s.setMap x).supervisor = s.supervisor := rfl
@[simp] theorem setMap_picks (x : PosMap) : (s.setMap x).picks = s.picks := rfl
@[simp] theorem setMap_pending (x : PosMap) : (s.setMap x).pending = s.pending := rfl
@[simp] theorem setMap_port (x : PosMap) (p : Port) : (s.setMap x).port p = s.port p := by cases p <;> rfl

/-! ### setZones -/

@[simp] theorem setZones_clock (x : ZoneTable) : (s.setZones x).clock = s.clock := rfl
@[simp] theorem setZones_control (x : ZoneTable) : (s.setZones x).control = s.control := rfl
@[simp] theorem setZones_stream (x : ZoneTable) : (s.setZones x).stream = s.stream := rfl
@[simp] theorem setZones_mechanism (x : ZoneTable) : (s.setZones x).mechanism = s.mechanism := rfl
@[simp] theorem setZones_arbiter (x : ZoneTable) : (s.setZones x).arbiter = s.arbiter := rfl
@[simp] theorem setZones_planner (x : ZoneTable) : (s.setZones x).planner = s.planner := rfl
@[simp] theorem setZones_map (x : ZoneTable) : (s.setZones x).map = s.map := rfl
@[simp] theorem setZones_zones (x : ZoneTable) : (s.setZones x).zones = x := rfl
@[simp] theorem setZones_monitor (x : ZoneTable) : (s.setZones x).monitor = s.monitor := rfl
@[simp] theorem setZones_optics (x : ZoneTable) : (s.setZones x).optics = s.optics := rfl
@[simp] theorem setZones_sled (x : ZoneTable) : (s.setZones x).sled = s.sled := rfl
@[simp] theorem setZones_spindle (x : ZoneTable) : (s.setZones x).spindle = s.spindle := rfl
@[simp] theorem setZones_recovery (x : ZoneTable) : (s.setZones x).recovery = s.recovery := rfl
@[simp] theorem setZones_supervisor (x : ZoneTable) : (s.setZones x).supervisor = s.supervisor := rfl
@[simp] theorem setZones_picks (x : ZoneTable) : (s.setZones x).picks = s.picks := rfl
@[simp] theorem setZones_pending (x : ZoneTable) : (s.setZones x).pending = s.pending := rfl
@[simp] theorem setZones_port (x : ZoneTable) (p : Port) : (s.setZones x).port p = s.port p := by cases p <;> rfl

/-! ### setMonitor -/

@[simp] theorem setMonitor_clock (x : Monitor) : (s.setMonitor x).clock = s.clock := rfl
@[simp] theorem setMonitor_control (x : Monitor) : (s.setMonitor x).control = s.control := rfl
@[simp] theorem setMonitor_stream (x : Monitor) : (s.setMonitor x).stream = s.stream := rfl
@[simp] theorem setMonitor_mechanism (x : Monitor) : (s.setMonitor x).mechanism = s.mechanism := rfl
@[simp] theorem setMonitor_arbiter (x : Monitor) : (s.setMonitor x).arbiter = s.arbiter := rfl
@[simp] theorem setMonitor_planner (x : Monitor) : (s.setMonitor x).planner = s.planner := rfl
@[simp] theorem setMonitor_map (x : Monitor) : (s.setMonitor x).map = s.map := rfl
@[simp] theorem setMonitor_zones (x : Monitor) : (s.setMonitor x).zones = s.zones := rfl
@[simp] theorem setMonitor_monitor (x : Monitor) : (s.setMonitor x).monitor = x := rfl
@[simp] theorem setMonitor_optics (x : Monitor) : (s.setMonitor x).optics = s.optics := rfl
@[simp] theorem setMonitor_sled (x : Monitor) : (s.setMonitor x).sled = s.sled := rfl
@[simp] theorem setMonitor_spindle (x : Monitor) : (s.setMonitor x).spindle = s.spindle := rfl
@[simp] theorem setMonitor_recovery (x : Monitor) : (s.setMonitor x).recovery = s.recovery := rfl
@[simp] theorem setMonitor_supervisor (x : Monitor) : (s.setMonitor x).supervisor = s.supervisor := rfl
@[simp] theorem setMonitor_picks (x : Monitor) : (s.setMonitor x).picks = s.picks := rfl
@[simp] theorem setMonitor_pending (x : Monitor) : (s.setMonitor x).pending = s.pending := rfl
@[simp] theorem setMonitor_port (x : Monitor) (p : Port) : (s.setMonitor x).port p = s.port p := by cases p <;> rfl

/-! ### setOptics -/

@[simp] theorem setOptics_clock (x : Optics) : (s.setOptics x).clock = s.clock := rfl
@[simp] theorem setOptics_control (x : Optics) : (s.setOptics x).control = s.control := rfl
@[simp] theorem setOptics_stream (x : Optics) : (s.setOptics x).stream = s.stream := rfl
@[simp] theorem setOptics_mechanism (x : Optics) : (s.setOptics x).mechanism = s.mechanism := rfl
@[simp] theorem setOptics_arbiter (x : Optics) : (s.setOptics x).arbiter = s.arbiter := rfl
@[simp] theorem setOptics_planner (x : Optics) : (s.setOptics x).planner = s.planner := rfl
@[simp] theorem setOptics_map (x : Optics) : (s.setOptics x).map = s.map := rfl
@[simp] theorem setOptics_zones (x : Optics) : (s.setOptics x).zones = s.zones := rfl
@[simp] theorem setOptics_monitor (x : Optics) : (s.setOptics x).monitor = s.monitor := rfl
@[simp] theorem setOptics_optics (x : Optics) : (s.setOptics x).optics = x := rfl
@[simp] theorem setOptics_sled (x : Optics) : (s.setOptics x).sled = s.sled := rfl
@[simp] theorem setOptics_spindle (x : Optics) : (s.setOptics x).spindle = s.spindle := rfl
@[simp] theorem setOptics_recovery (x : Optics) : (s.setOptics x).recovery = s.recovery := rfl
@[simp] theorem setOptics_supervisor (x : Optics) : (s.setOptics x).supervisor = s.supervisor := rfl
@[simp] theorem setOptics_picks (x : Optics) : (s.setOptics x).picks = s.picks := rfl
@[simp] theorem setOptics_pending (x : Optics) : (s.setOptics x).pending = s.pending := rfl
@[simp] theorem setOptics_port (x : Optics) (p : Port) : (s.setOptics x).port p = s.port p := by cases p <;> rfl

/-! ### setSled -/

@[simp] theorem setSled_clock (x : Sled) : (s.setSled x).clock = s.clock := rfl
@[simp] theorem setSled_control (x : Sled) : (s.setSled x).control = s.control := rfl
@[simp] theorem setSled_stream (x : Sled) : (s.setSled x).stream = s.stream := rfl
@[simp] theorem setSled_mechanism (x : Sled) : (s.setSled x).mechanism = s.mechanism := rfl
@[simp] theorem setSled_arbiter (x : Sled) : (s.setSled x).arbiter = s.arbiter := rfl
@[simp] theorem setSled_planner (x : Sled) : (s.setSled x).planner = s.planner := rfl
@[simp] theorem setSled_map (x : Sled) : (s.setSled x).map = s.map := rfl
@[simp] theorem setSled_zones (x : Sled) : (s.setSled x).zones = s.zones := rfl
@[simp] theorem setSled_monitor (x : Sled) : (s.setSled x).monitor = s.monitor := rfl
@[simp] theorem setSled_optics (x : Sled) : (s.setSled x).optics = s.optics := rfl
@[simp] theorem setSled_sled (x : Sled) : (s.setSled x).sled = x := rfl
@[simp] theorem setSled_spindle (x : Sled) : (s.setSled x).spindle = s.spindle := rfl
@[simp] theorem setSled_recovery (x : Sled) : (s.setSled x).recovery = s.recovery := rfl
@[simp] theorem setSled_supervisor (x : Sled) : (s.setSled x).supervisor = s.supervisor := rfl
@[simp] theorem setSled_picks (x : Sled) : (s.setSled x).picks = s.picks := rfl
@[simp] theorem setSled_pending (x : Sled) : (s.setSled x).pending = s.pending := rfl
@[simp] theorem setSled_port (x : Sled) (p : Port) : (s.setSled x).port p = s.port p := by cases p <;> rfl

/-! ### setSpindle -/

@[simp] theorem setSpindle_clock (x : Spindle) : (s.setSpindle x).clock = s.clock := rfl
@[simp] theorem setSpindle_control (x : Spindle) : (s.setSpindle x).control = s.control := rfl
@[simp] theorem setSpindle_stream (x : Spindle) : (s.setSpindle x).stream = s.stream := rfl
@[simp] theorem setSpindle_mechanism (x : Spindle) : (s.setSpindle x).mechanism = s.mechanism := rfl
@[simp] theorem setSpindle_arbiter (x : Spindle) : (s.setSpindle x).arbiter = s.arbiter := rfl
@[simp] theorem setSpindle_planner (x : Spindle) : (s.setSpindle x).planner = s.planner := rfl
@[simp] theorem setSpindle_map (x : Spindle) : (s.setSpindle x).map = s.map := rfl
@[simp] theorem setSpindle_zones (x : Spindle) : (s.setSpindle x).zones = s.zones := rfl
@[simp] theorem setSpindle_monitor (x : Spindle) : (s.setSpindle x).monitor = s.monitor := rfl
@[simp] theorem setSpindle_optics (x : Spindle) : (s.setSpindle x).optics = s.optics := rfl
@[simp] theorem setSpindle_sled (x : Spindle) : (s.setSpindle x).sled = s.sled := rfl
@[simp] theorem setSpindle_spindle (x : Spindle) : (s.setSpindle x).spindle = x := rfl
@[simp] theorem setSpindle_recovery (x : Spindle) : (s.setSpindle x).recovery = s.recovery := rfl
@[simp] theorem setSpindle_supervisor (x : Spindle) : (s.setSpindle x).supervisor = s.supervisor := rfl
@[simp] theorem setSpindle_picks (x : Spindle) : (s.setSpindle x).picks = s.picks := rfl
@[simp] theorem setSpindle_pending (x : Spindle) : (s.setSpindle x).pending = s.pending := rfl
@[simp] theorem setSpindle_port (x : Spindle) (p : Port) : (s.setSpindle x).port p = s.port p := by cases p <;> rfl

/-! ### setRecovery -/

@[simp] theorem setRecovery_clock (x : Recovery) : (s.setRecovery x).clock = s.clock := rfl
@[simp] theorem setRecovery_control (x : Recovery) : (s.setRecovery x).control = s.control := rfl
@[simp] theorem setRecovery_stream (x : Recovery) : (s.setRecovery x).stream = s.stream := rfl
@[simp] theorem setRecovery_mechanism (x : Recovery) : (s.setRecovery x).mechanism = s.mechanism := rfl
@[simp] theorem setRecovery_arbiter (x : Recovery) : (s.setRecovery x).arbiter = s.arbiter := rfl
@[simp] theorem setRecovery_planner (x : Recovery) : (s.setRecovery x).planner = s.planner := rfl
@[simp] theorem setRecovery_map (x : Recovery) : (s.setRecovery x).map = s.map := rfl
@[simp] theorem setRecovery_zones (x : Recovery) : (s.setRecovery x).zones = s.zones := rfl
@[simp] theorem setRecovery_monitor (x : Recovery) : (s.setRecovery x).monitor = s.monitor := rfl
@[simp] theorem setRecovery_optics (x : Recovery) : (s.setRecovery x).optics = s.optics := rfl
@[simp] theorem setRecovery_sled (x : Recovery) : (s.setRecovery x).sled = s.sled := rfl
@[simp] theorem setRecovery_spindle (x : Recovery) : (s.setRecovery x).spindle = s.spindle := rfl
@[simp] theorem setRecovery_recovery (x : Recovery) : (s.setRecovery x).recovery = x := rfl
@[simp] theorem setRecovery_supervisor (x : Recovery) : (s.setRecovery x).supervisor = s.supervisor := rfl
@[simp] theorem setRecovery_picks (x : Recovery) : (s.setRecovery x).picks = s.picks := rfl
@[simp] theorem setRecovery_pending (x : Recovery) : (s.setRecovery x).pending = s.pending := rfl
@[simp] theorem setRecovery_port (x : Recovery) (p : Port) : (s.setRecovery x).port p = s.port p := by cases p <;> rfl

/-! ### setSupervisor -/

@[simp] theorem setSupervisor_clock (x : Supervisor) : (s.setSupervisor x).clock = s.clock := rfl
@[simp] theorem setSupervisor_control (x : Supervisor) : (s.setSupervisor x).control = s.control := rfl
@[simp] theorem setSupervisor_stream (x : Supervisor) : (s.setSupervisor x).stream = s.stream := rfl
@[simp] theorem setSupervisor_mechanism (x : Supervisor) : (s.setSupervisor x).mechanism = s.mechanism := rfl
@[simp] theorem setSupervisor_arbiter (x : Supervisor) : (s.setSupervisor x).arbiter = s.arbiter := rfl
@[simp] theorem setSupervisor_planner (x : Supervisor) : (s.setSupervisor x).planner = s.planner := rfl
@[simp] theorem setSupervisor_map (x : Supervisor) : (s.setSupervisor x).map = s.map := rfl
@[simp] theorem setSupervisor_zones (x : Supervisor) : (s.setSupervisor x).zones = s.zones := rfl
@[simp] theorem setSupervisor_monitor (x : Supervisor) : (s.setSupervisor x).monitor = s.monitor := rfl
@[simp] theorem setSupervisor_optics (x : Supervisor) : (s.setSupervisor x).optics = s.optics := rfl
@[simp] theorem setSupervisor_sled (x : Supervisor) : (s.setSupervisor x).sled = s.sled := rfl
@[simp] theorem setSupervisor_spindle (x : Supervisor) : (s.setSupervisor x).spindle = s.spindle := rfl
@[simp] theorem setSupervisor_recovery (x : Supervisor) : (s.setSupervisor x).recovery = s.recovery := rfl
@[simp] theorem setSupervisor_supervisor (x : Supervisor) : (s.setSupervisor x).supervisor = x := rfl
@[simp] theorem setSupervisor_picks (x : Supervisor) : (s.setSupervisor x).picks = s.picks := rfl
@[simp] theorem setSupervisor_pending (x : Supervisor) : (s.setSupervisor x).pending = s.pending := rfl
@[simp] theorem setSupervisor_port (x : Supervisor) (p : Port) : (s.setSupervisor x).port p = s.port p := by cases p <;> rfl

/-! ### setPort -/

@[simp] theorem setPort_clock (p : Port) (x : PortState) : (s.setPort p x).clock = s.clock := by cases p <;> rfl
@[simp] theorem setPort_arbiter (p : Port) (x : PortState) : (s.setPort p x).arbiter = s.arbiter := by cases p <;> rfl
@[simp] theorem setPort_planner (p : Port) (x : PortState) : (s.setPort p x).planner = s.planner := by cases p <;> rfl
@[simp] theorem setPort_map (p : Port) (x : PortState) : (s.setPort p x).map = s.map := by cases p <;> rfl
@[simp] theorem setPort_zones (p : Port) (x : PortState) : (s.setPort p x).zones = s.zones := by cases p <;> rfl
@[simp] theorem setPort_monitor (p : Port) (x : PortState) : (s.setPort p x).monitor = s.monitor := by cases p <;> rfl
@[simp] theorem setPort_optics (p : Port) (x : PortState) : (s.setPort p x).optics = s.optics := by cases p <;> rfl
@[simp] theorem setPort_sled (p : Port) (x : PortState) : (s.setPort p x).sled = s.sled := by cases p <;> rfl
@[simp] theorem setPort_spindle (p : Port) (x : PortState) : (s.setPort p x).spindle = s.spindle := by cases p <;> rfl
@[simp] theorem setPort_recovery (p : Port) (x : PortState) : (s.setPort p x).recovery = s.recovery := by cases p <;> rfl
@[simp] theorem setPort_supervisor (p : Port) (x : PortState) : (s.setPort p x).supervisor = s.supervisor := by cases p <;> rfl
@[simp] theorem setPort_picks (p : Port) (x : PortState) : (s.setPort p x).picks = s.picks := by cases p <;> rfl
@[simp] theorem setPort_pending (p : Port) (x : PortState) : (s.setPort p x).pending = s.pending := by cases p <;> rfl
@[simp] theorem setPort_port (p q : Port) (x : PortState) :
    (s.setPort p x).port q = if q = p then x else s.port q := by cases p <;> cases q <;> rfl

@[simp] theorem port_control : s.port .control = s.control := rfl
@[simp] theorem port_stream : s.port .stream = s.stream := rfl
@[simp] theorem port_mechanism : s.port .mechanism = s.mechanism := rfl

/-- A state is its port interfaces and its other fields. -/
theorem setPort_port_same (p : Port) : s.setPort p (s.port p) = s := by cases p <;> rfl

/-! ### One write after another to the same block -/

@[simp] theorem setClock_setClock (x y : Time) : (s.setClock x).setClock y = s.setClock y := rfl
@[simp] theorem setArbiter_setArbiter (x y : Arbiter) : (s.setArbiter x).setArbiter y = s.setArbiter y := rfl
@[simp] theorem setPlanner_setPlanner (x y : Planner) : (s.setPlanner x).setPlanner y = s.setPlanner y := rfl
@[simp] theorem setMap_setMap (x y : PosMap) : (s.setMap x).setMap y = s.setMap y := rfl
@[simp] theorem setZones_setZones (x y : ZoneTable) : (s.setZones x).setZones y = s.setZones y := rfl
@[simp] theorem setMonitor_setMonitor (x y : Monitor) : (s.setMonitor x).setMonitor y = s.setMonitor y := rfl
@[simp] theorem setOptics_setOptics (x y : Optics) : (s.setOptics x).setOptics y = s.setOptics y := rfl
@[simp] theorem setSled_setSled (x y : Sled) : (s.setSled x).setSled y = s.setSled y := rfl
@[simp] theorem setSpindle_setSpindle (x y : Spindle) : (s.setSpindle x).setSpindle y = s.setSpindle y := rfl
@[simp] theorem setRecovery_setRecovery (x y : Recovery) : (s.setRecovery x).setRecovery y = s.setRecovery y := rfl
@[simp] theorem setSupervisor_setSupervisor (x y : Supervisor) : (s.setSupervisor x).setSupervisor y = s.setSupervisor y := rfl

end Sys2Proof.Machine.State
end

