-- ==== Sys2Proof/Laws/Keeps.lean ====
section
/-! SUPPORT. What every operation inside the part leaves as it is, or keeps so, whatever it does: the relation `Keeps`, and
what a write to one block must show to be in it. -/

namespace Sys2Proof.Laws

open Sys2Proof.Machine Sys2Proof.Safety

/-- What the blocks can do to a port interface: reports join its queue and its attention line, and nothing else. -/
structure PortKeeps (a b : PortState) : Prop where
  decoder : b.decoder = a.decoder
  reply : b.reply = a.reply
  reading : b.reading = a.reading
  resetArmed : b.resetArmed = a.resetArmed
  mask : b.mask = a.mask
  holdoff : b.holdoff = a.holdoff
  holdoffLeft : b.holdoffLeft = a.holdoffLeft
  tickets : b.tickets = a.tickets
  queue : QueueOk a → QueueOk b
  completions : ∃ l, completionsIn b.queue = completionsIn a.queue ++ l

theorem PortKeeps.refl (a : PortState) : PortKeeps a a := by
  constructor <;> first | rfl | exact id | exact ⟨[], by simp⟩

theorem PortKeeps.trans {a b c : PortState} (h : PortKeeps a b) (k : PortKeeps b c) : PortKeeps a c where
  decoder := k.decoder.trans h.decoder
  reply := k.reply.trans h.reply
  reading := k.reading.trans h.reading
  resetArmed := k.resetArmed.trans h.resetArmed
  mask := k.mask.trans h.mask
  holdoff := k.holdoff.trans h.holdoff
  holdoffLeft := k.holdoffLeft.trans h.holdoffLeft
  tickets := k.tickets.trans h.tickets
  queue := k.queue ∘ h.queue
  completions := by
    obtain ⟨l, hl⟩ := h.completions
    obtain ⟨l', hl'⟩ := k.completions
    exact ⟨l ++ l', by rw [hl', hl, List.append_assoc]⟩

/-- What an operation of the blocks leaves as it is, and what it keeps so, from state `s` to state `t`. `L` are the motions
in hand: taken from their slots, and not yet DONE or placed again. -/
structure Keeps (L : List Motion) (s t : State) : Prop where
  clock : t.clock = s.clock
  picks : t.picks = s.picks
  pending : t.pending = s.pending
  entries : t.zones.entries = s.zones.entries
  defaultCap : t.zones.defaultCap = s.zones.defaultCap
  retryCount : t.recovery.retryCount = s.recovery.retryCount
  amTime : t.recovery.amTime = s.recovery.amTime
  arrivals : t.arbiter.arrivals = s.arbiter.arrivals
  done : ∃ l, t.arbiter.done = s.arbiter.done ++ l
  clamp : t.supervisor.clamp = s.supervisor.clamp
  supply : t.supervisor.supply = s.supervisor.supply
  homeClosed : t.sled.homeClosed = s.sled.homeClosed
  measured : t.spindle.measured = s.spindle.measured
  port : ∀ p, PortKeeps (s.port p) (t.port p)
  trim : TrimOk s → TrimOk t
  settings : SettingsOk s → SettingsOk t
  target : TargetOk s → TargetOk t
  history : HistoryOk s → HistoryOk t
  speed : SpeedOk s → SpeedOk t
  gain : GainOk s → GainOk t
  classes : ClassesAgree s → ClassesAgree t
  map : MapOk s.map → MapOk t.map
  loops : LoopsOk s.optics → LoopsOk t.optics
  fresh : FreshOk s → FreshOk t
  rail : RailOk s.sled → RailOk t.sled
  attached : AttachedOk s → AttachedOk t
  restart : RestartOk s → RestartOk t
  motions : ∀ p tag, motionCount p tag t + L.countP (Motion.named p tag) = motionCount p tag s
  reports : ∀ p tag, doneCount p tag t + reportCount tag (s.port p).queue
      = doneCount p tag s + reportCount tag (t.port p).queue

variable {s t : State} {L : List Motion}

/-- Nothing has joined the DONE records. -/
theorem done_same (s : State) : ∃ l, s.arbiter.done = s.arbiter.done ++ l := ⟨[], (List.append_nil _).symm⟩

theorem Keeps.refl (s : State) : Keeps [] s s := by
  constructor <;> first | rfl | exact ⟨[], (List.append_nil _).symm⟩ | exact id | exact done_same _ | exact fun _ => PortKeeps.refl _ | exact fun _ _ => rfl

theorem Keeps.trans {u : State} (h : Keeps L s t) (k : Keeps [] t u) : Keeps L s u where
  clock := k.clock.trans h.clock
  picks := k.picks.trans h.picks
  pending := k.pending.trans h.pending
  entries := k.entries.trans h.entries
  defaultCap := k.defaultCap.trans h.defaultCap
  retryCount := k.retryCount.trans h.retryCount
  amTime := k.amTime.trans h.amTime
  arrivals := k.arrivals.trans h.arrivals
  done := by
    obtain ⟨l, hl⟩ := h.done
    obtain ⟨l', hl'⟩ := k.done
    exact ⟨l ++ l', by rw [hl', hl, List.append_assoc]⟩
  clamp := k.clamp.trans h.clamp
  supply := k.supply.trans h.supply
  homeClosed := k.homeClosed.trans h.homeClosed
  measured := k.measured.trans h.measured
  port p := (h.port p).trans (k.port p)
  trim := k.trim ∘ h.trim
  settings := k.settings ∘ h.settings
  target := k.target ∘ h.target
  history := k.history ∘ h.history
  speed := k.speed ∘ h.speed
  gain := k.gain ∘ h.gain
  classes := k.classes ∘ h.classes
  map := k.map ∘ h.map
  loops := k.loops ∘ h.loops
  fresh := k.fresh ∘ h.fresh
  rail := k.rail ∘ h.rail
  attached := k.attached ∘ h.attached
  restart := k.restart ∘ h.restart
  motions p tag := by
    have := h.motions p tag
    have := k.motions p tag
    simp only [List.countP_nil] at this
    omega
  reports p tag := by
    have := h.reports p tag
    have := k.reports p tag
    omega

/-! ### Writes to one block -/

/-- A write to the planner that leaves the trim. -/
theorem Keeps.planner {x : Planner} (h : Keeps L s t) (hx : x.trim = t.planner.trim := by rfl) :
    Keeps L s (t.setPlanner x) := by
  refine h.trans ?_
  constructor <;> first | rfl | exact id | exact done_same _ | exact fun _ => PortKeeps.refl _ | exact fun _ _ => rfl |
    simp [TrimOk, hx]

/-- A write to the supervisor that leaves the class and what the loader reported, and waits for a restart only in a try. -/
theorem Keeps.supervisor {x : Supervisor} (h : Keeps L s t) (h1 : x.cls = t.supervisor.cls := by rfl)
    (h2 : x.clamp = t.supervisor.clamp := by rfl) (h3 : x.supply = t.supervisor.supply := by rfl)
    (h4 : RestartOk t → RestartOk (t.setSupervisor x) := by exact id) :
    Keeps L s (t.setSupervisor x) := by
  refine h.trans ?_
  constructor <;> first | rfl | exact h4 | exact id | exact done_same _ | exact fun _ => PortKeeps.refl _ |
    exact fun _ _ => rfl | simp [ClassesAgree, h1, h2, h3]

/-- A write to the recovery record that leaves its settings, its history and its flag. -/
theorem Keeps.recovery {x : Recovery} (h : Keeps L s t) (h1 : x.retryCount = t.recovery.retryCount := by rfl)
    (h2 : x.amTime = t.recovery.amTime := by rfl) (h3 : x.retryLimit = t.recovery.retryLimit := by rfl)
    (h4 : x.history = t.recovery.history := by rfl) (h5 : x.rough = t.recovery.rough := by rfl) :
    Keeps L s (t.setRecovery x) := by
  refine h.trans ?_
  constructor <;> first | rfl | exact id | exact done_same _ | exact fun _ => PortKeeps.refl _ | exact fun _ _ => rfl |
    simp [SettingsOk, HistoryOk, SpeedOk, GainOk, h1, h2, h3, h4, h5]

/-- A write to the optics that leaves what `LoopsOk` speaks of, and keeps a close in progress to focus LOCKED and tracking
OFF. -/
theorem Keeps.optics {x : Optics} (h : Keeps L s t) (h1 : x.profile = t.optics.profile := by rfl)
    (h2 : x.switch = t.optics.switch := by rfl) (h3 : x.focus = t.optics.focus := by rfl)
    (h4 : x.attemptTimer = t.optics.attemptTimer := by rfl) (h5 : x.tracking = t.optics.tracking := by rfl)
    (h6 : x.jumpOrigin = t.optics.jumpOrigin := by rfl) (h7 : x.holdAddress = t.optics.holdAddress := by rfl)
    (h8 : x.robustGain = t.optics.robustGain := by rfl)
    (h9 : LoopsOk t.optics → x.closers ≠ [] → x.focus = .locked ∧ x.tracking = .off := by exact fun k => k.closing) :
    Keeps L s (t.setOptics x) := by
  refine h.trans ?_
  constructor <;> first | rfl | exact id | exact done_same _ | exact fun _ => PortKeeps.refl _ | exact fun _ _ => rfl | skip
  · simp [GainOk, h8]
  · intro k
    constructor
    · simpa [h5, h3] using k.tracking
    · simpa [h4, h3] using k.search
    · simpa [h2, h1] using k.switch
    · simpa [h1, h3] using k.dark
    · simpa [h5, h7] using k.held
    · simpa [h5, h6, h7] using k.back
    · simpa [h5, h7] using k.absent
    · exact h9 k
  · simp [FreshOk, h3, h5]

/-- A write to the sled that leaves the switch and keeps it on the rail. -/
theorem Keeps.sled {x : Sled} (h : Keeps L s t) (h1 : x.homeClosed = t.sled.homeClosed := by rfl)
    (h2 : RailOk t.sled → RailOk x := by exact id) : Keeps L s (t.setSled x) := by
  refine h.trans ?_
  constructor <;>
    first | rfl | exact id | exact done_same _ | exact fun _ => PortKeeps.refl _ | exact fun _ _ => rfl | exact h1 | exact h2

/-- A write to the monitor that makes no fix fresh. -/
theorem Keeps.monitor {x : Monitor} (h : Keeps L s t)
    (hx : ∀ f, x.fix = some f → f.fresh = true → ∃ g, t.monitor.fix = some g ∧ g.fresh = true := by
      exact fun f h1 h2 => ⟨f, h1, h2⟩) : Keeps L s (t.setMonitor x) := by
  refine h.trans ?_
  constructor <;> first | rfl | exact id | exact done_same _ | exact fun _ => PortKeeps.refl _ | exact fun _ _ => rfl | skip
  intro k f h1 h2
  obtain ⟨g, hg, hf⟩ := hx f h1 h2
  exact k g hg hf

/-- A write to the spindle that leaves the reading and the multiples, and its target in range. -/
theorem Keeps.spindle {x : Spindle} (h : Keeps L s t) (h1 : x.measured = t.spindle.measured := by rfl)
    (h2 : x.held = t.spindle.held := by rfl) (h3 : x.m = t.spindle.m := by rfl)
    (h4 : TargetOk t → TargetOk (t.setSpindle x) := by exact id) : Keeps L s (t.setSpindle x) := by
  refine h.trans ?_
  constructor <;> first | rfl | exact id | exact done_same _ | exact fun _ => PortKeeps.refl _ | exact fun _ _ => rfl | skip
  · simpa using h1
  · exact h4
  · simp [SpeedOk, h2, h3]

/-- A write to the arbiter that leaves the arrivals, the attached slot and, for every port and tag, the records and those that
are DONE. -/
theorem Keeps.arbiter {x : Arbiter} (h : Keeps L s t) (h1 : x.arrivals = t.arbiter.arrivals := by rfl)
    (h2 : x.done = t.arbiter.done := by rfl)
    (h3 : ∀ p tag, (liveMotions (t.setArbiter x)).countP (Motion.named p tag)
      = (liveMotions t).countP (Motion.named p tag) := by exact fun _ _ => rfl)
    (h4 : x.attached = t.arbiter.attached := by rfl) : Keeps L s (t.setArbiter x) := by
  refine h.trans ?_
  constructor <;> first | rfl | exact id | exact done_same _ | exact fun _ => PortKeeps.refl _ | exact fun _ _ => rfl | skip
  · simpa using h1
  · exact ⟨[], by simp [h2]⟩
  · simp [AttachedOk, h4]
  · intro p tag
    simp [motionCount, doneCount, h2, h3]
  · intro p tag
    simp [doneCount, h2]

/-- A write to the zone table that leaves its entries. -/
theorem Keeps.zones {x : ZoneTable} (h : Keeps L s t) (h1 : x.entries = t.zones.entries := by rfl)
    (h2 : x.defaultCap = t.zones.defaultCap := by rfl) : Keeps L s (t.setZones x) := by
  refine h.trans ?_
  constructor <;>
    first | rfl | exact id | exact done_same _ | exact fun _ => PortKeeps.refl _ | exact fun _ _ => rfl | exact h1 | exact h2

end Sys2Proof.Laws
end

