-- ==== Sys2Proof/Laws/Reports.lean ====
section
/-! SUPPORT. The report queues: what a report that joins, or a notice that is offered, does to a port and to the part. -/

namespace Sys2Proof.Laws

open Sys2Proof.Machine Sys2Proof.Safety

variable {s t : State} {L : List Motion}

/-! ### Queues -/

@[simp] theorem completionsIn_nil : completionsIn [] = [] := rfl

@[simp] theorem completionsIn_completion (c : Completion) (q : List Report) :
    completionsIn (.completion c :: q) = c :: completionsIn q := rfl

@[simp] theorem completionsIn_notice (n : Notice) (r : Nat) (q : List Report) :
    completionsIn (.notice n r :: q) = completionsIn q := rfl

@[simp] theorem completionsIn_append (q q' : List Report) :
    completionsIn (q ++ q') = completionsIn q ++ completionsIn q' := by simp [completionsIn]

/-- Coalescing moves and changes no completion report (R197). -/
@[simp] theorem completionsIn_coalesce (n : Notice) (q : List Report) :
    completionsIn (coalesce n q) = completionsIn q := by
  induction q with
  | nil => rfl
  | cons r q ih => cases r with
    | completion c => simp [coalesce, ih]
    | notice o k =>
      simp only [coalesce]
      split <;> simp [ih]

/-- Coalescing leaves one entry for each entry (R197). -/
@[simp] theorem coalesce_length (n : Notice) (q : List Report) : (coalesce n q).length = q.length := by
  induction q with
  | nil => rfl
  | cons r q ih => cases r with
    | completion c => simp [coalesce, ih]
    | notice o k =>
      simp only [coalesce]
      split <;> simp [ih]

@[simp] theorem coalesce_eq_nil (n : Notice) (q : List Report) : coalesce n q = [] ↔ q = [] := by
  rw [← List.length_eq_zero_iff, coalesce_length, List.length_eq_zero_iff]

/-- Coalescing leaves the number of notices of each kind (R197). -/
@[simp] theorem noticeCount_coalesce (n : Notice) (code : Nat) (q : List Report) :
    noticeCount code (coalesce n q) = noticeCount code q := by
  induction q with
  | nil => rfl
  | cons r q ih => cases r with
    | completion c => simpa [coalesce, noticeCount, Report.isNotice, List.countP_cons] using ih
    | notice o k =>
      simp only [coalesce]
      split
      · rename_i h
        simp [noticeCount, List.countP_cons, Report.isNotice, h]
      · simpa [noticeCount, List.countP_cons] using ih

theorem noticeCount_append (code : Nat) (q q' : List Report) :
    noticeCount code (q ++ q') = noticeCount code q + noticeCount code q' := by simp [noticeCount]

theorem noticeCount_eq_zero (code : Nat) (q : List Report) (h : q.any (Report.isNotice code) = false) :
    noticeCount code q = 0 := by
  simp only [noticeCount, List.countP_eq_zero]
  intro r hr hc
  have : q.any (Report.isNotice code) = true := List.any_eq_true.2 ⟨r, hr, hc⟩
  simp [this] at h

/-! ### One port -/

/-- A report that joins a queue: a completion, or a notice of a kind the queue does not hold (R195, R200). -/
theorem joined_keeps (p : PortState) (r : Report)
    (h : ∀ n k, r = .notice n k → p.queue.any (Report.isNotice n.code) = false) : PortKeeps p (p.joined r) := by
  constructor <;> try rfl
  · rintro ⟨h1, h2, h3⟩
    refine ⟨?_, ?_, ?_⟩
    · intro code
      simp only [PortState.joined, noticeCount_append]
      cases r with
      | completion c => simpa [noticeCount, Report.isNotice] using h1 code
      | notice n k =>
        by_cases hc : n.code = code
        · subst hc
          rw [noticeCount_eq_zero _ _ (h n k rfl)]
          simp [noticeCount, Report.isNotice]
        · have := h1 code
          simp [noticeCount, Report.isNotice, hc] at this ⊢
          exact this
    · refine ⟨fun _ => by simp [PortState.joined], ?_⟩
      simp only [PortState.joined]
      split
      · simp
      · intro ha
        contradiction
    · intro hr
      obtain ⟨n, k, rest, hq⟩ := h3 hr
      exact ⟨n, k, rest ++ [r], by simp [PortState.joined, hq]⟩
  · exact ⟨completionsIn [r], by simp [PortState.joined]⟩

/-- A notice offered to a port (R197). -/
theorem offered_keeps (n : Notice) (p : PortState) : PortKeeps p (p.offered n) := by
  unfold PortState.offered
  split
  · split
    · rename_i h
      constructor <;> try rfl
      · rintro ⟨h1, h2, h3⟩
        refine ⟨?_, ?_, ?_⟩
        · intro code
          simpa using h1 code
        · refine ⟨fun ha => by simpa using h2.1 ha, fun ha => ?_⟩
          simpa using h2.2 ha
        · intro hr
          cases hq : p.queue with
          | nil => simp [hq] at h
          | cons r rest =>
            cases r with
            | notice o k =>
              simp only [coalesce]
              split <;> exact ⟨_, _, _, rfl⟩
            | completion c =>
              exfalso
              simp only [hq, headIsNotice, Report.isNotice, Bool.and_false, Bool.or_false] at hr
              obtain ⟨n', k', rest', hq'⟩ := h3 hr
              simp [hq] at hq'
      · exact ⟨[], by simp⟩
    · rename_i h
      apply joined_keeps
      intro n' k hn
      cases hn
      simpa using h
  · exact PortKeeps.refl _

/-- A notice changes no completion report. -/
theorem offered_completions (n : Notice) (p : PortState) :
    completionsIn (p.offered n).queue = completionsIn p.queue := by
  unfold PortState.offered
  split
  · split <;> simp [PortState.joined]
  · rfl

/-! ### The part -/

@[simp] theorem offer_port (n : Notice) (s : State) (p : Port) : (offer n s).port p = (s.port p).offered n := by
  cases p <;> rfl

@[simp] theorem offer_clock (n : Notice) (s : State) : (offer n s).clock = s.clock := rfl
@[simp] theorem offer_arbiter (n : Notice) (s : State) : (offer n s).arbiter = s.arbiter := rfl
@[simp] theorem offer_planner (n : Notice) (s : State) : (offer n s).planner = s.planner := rfl
@[simp] theorem offer_map (n : Notice) (s : State) : (offer n s).map = s.map := rfl
@[simp] theorem offer_zones (n : Notice) (s : State) : (offer n s).zones = s.zones := rfl
@[simp] theorem offer_monitor (n : Notice) (s : State) : (offer n s).monitor = s.monitor := rfl
@[simp] theorem offer_optics (n : Notice) (s : State) : (offer n s).optics = s.optics := rfl
@[simp] theorem offer_sled (n : Notice) (s : State) : (offer n s).sled = s.sled := rfl
@[simp] theorem offer_spindle (n : Notice) (s : State) : (offer n s).spindle = s.spindle := rfl
@[simp] theorem offer_recovery (n : Notice) (s : State) : (offer n s).recovery = s.recovery := rfl
@[simp] theorem offer_supervisor (n : Notice) (s : State) : (offer n s).supervisor = s.supervisor := rfl
@[simp] theorem offer_picks (n : Notice) (s : State) : (offer n s).picks = s.picks := rfl
@[simp] theorem offer_pending (n : Notice) (s : State) : (offer n s).pending = s.pending := rfl

/-- A notice changes the three port interfaces alone, and there only the queue and the attention line (R197). -/
theorem Keeps.offer {n : Notice} (h : Keeps L s t) : Keeps L s (offer n t) := by
  refine h.trans ?_
  constructor <;> first | rfl | exact id | exact done_same t | skip
  · intro p
    rw [offer_port]
    exact offered_keeps n _
  · exact fun _ _ => rfl
  · intro p tag
    rw [offer_port]
    simp [reportCount, offered_completions, doneCount]

/-- A completion report joins the queue of its port (R196). -/
theorem queueCompletion_port (p q : Port) (c : Completion) (s : State) :
    (queueCompletion p c s).port q = if q = p then (s.port p).joined (.completion c) else s.port q := by
  simp [queueCompletion]

theorem queueCompletion_reports (p q : Port) (c : Completion) (tag : Byte) (s : State) :
    reportCount tag ((queueCompletion p c s).port q).queue
      = reportCount tag (s.port q).queue + if p = q ∧ c.tag = tag then 1 else 0 := by
  rw [queueCompletion_port]
  by_cases hp : q = p
  · subst hp
    simp [PortState.joined, reportCount, List.countP_cons]
  · simp [hp, Ne.symm hp]

theorem queueCompletion_keepsPort (p q : Port) (c : Completion) (s : State) :
    PortKeeps (s.port q) ((queueCompletion p c s).port q) := by
  rw [queueCompletion_port]
  split
  · rename_i h
    subst h
    exact joined_keeps _ _ (fun n k hk => by cases hk)
  · exact PortKeeps.refl _

end Sys2Proof.Laws
end

