-- ==== Sys2Proof/Laws/Spindle.lean ====
section
/-! SUPPORT. The spindle controller: what its commands do to the target, the multiples and the reading. -/

namespace Sys2Proof.Laws

set_option Elab.async false

open Sys2Proof.Machine Sys2Proof.Safety

variable {s t : State} {L : List Motion}

/-! ### The spindle record -/

/-- What every command of the spindle leaves, and the targets it can set. -/
structure SpindleKeeps (a b : Spindle) : Prop where
  measured : b.measured = a.measured
  held : b.held = a.held
  m : b.m = a.m
  target : b.target = a.target ∨ b.target = 0 ∨ (150 ≤ b.target ∧ b.target ≤ 4000)

theorem SpindleKeeps.refl (a : Spindle) : SpindleKeeps a a := ⟨rfl, rfl, rfl, .inl rfl⟩

/-- A CLV target lies from 150 to 4,000 rpm (R67). -/
theorem clvTarget_range (k : DiscClass) (m : Multiple) (c : Nat) :
    150 ≤ (clvTarget k m c).1 ∧ (clvTarget k m c).1 ≤ 4000 := by
  simp only [clvTarget, clampTo]
  split
  · omega
  · split <;> omega

theorem setTarget_keeps (sp : Spindle) (now : Time) (x : Nat) (b : Bool) (hx : 150 ≤ x ∧ x ≤ 4000) :
    SpindleKeeps sp (sp.setTarget now x b) := by
  unfold Spindle.setTarget
  split
  · exact ⟨rfl, rfl, rfl, .inl rfl⟩
  · split <;> exact ⟨rfl, rfl, rfl, .inr (.inr hx)⟩

theorem retarget_keeps (sp : Spindle) (now : Time) (k : Option DiscClass) : SpindleKeeps sp (sp.retarget now k) := by
  unfold Spindle.retarget
  split
  · exact setTarget_keeps _ _ _ _ (by omega)
  · exact setTarget_keeps _ _ _ _ (clvTarget_range _ _ _)
  · exact SpindleKeeps.refl _

theorem brake_keeps (sp : Spindle) (now : Time) : SpindleKeeps sp (sp.brake now) := by
  unfold Spindle.brake
  split <;> first | exact ⟨rfl, rfl, rfl, .inl rfl⟩ | exact ⟨rfl, rfl, rfl, .inr (.inl rfl)⟩

theorem coast_keeps (sp : Spindle) : SpindleKeeps sp sp.coast := by
  unfold Spindle.coast
  split <;> exact ⟨rfl, rfl, rfl, .inl rfl⟩

theorem driveAgain_keeps (sp : Spindle) (now : Time) : SpindleKeeps sp (sp.driveAgain now) := by
  unfold Spindle.driveAgain
  split <;> exact ⟨rfl, rfl, rfl, .inl rfl⟩

/-! ### The part -/

theorem SpindleKeeps.range {a b : Spindle} (h : SpindleKeeps a b)
    (ha : a.target = 0 ∨ (150 ≤ a.target ∧ a.target ≤ 4000)) :
    b.target = 0 ∨ (150 ≤ b.target ∧ b.target ≤ 4000) := by
  rcases h.target with h | h
  · rw [h]; exact ha
  · exact h

/-- A write to the spindle by one of its commands. -/
theorem Keeps.spindleBy {x : Spindle} (h : Keeps L s t) (hx : SpindleKeeps t.spindle x) : Keeps L s (t.setSpindle x) :=
  h.spindle hx.measured hx.held hx.m hx.range

theorem Keeps.speedNotice {b : Spindle} (h : Keeps L s t) : Keeps L s (speedNotice b t) := by
  unfold Machine.speedNotice
  split
  · exact h
  · exact h.offer

theorem Keeps.spindleCommand {md : DriveMode} {b : Option Nat} (h : Keeps L s t) : Keeps L s (spindleCommand md b t) := by
  have hk := retarget_keeps { t.spindle with mode := md, basis := b } t.clock t.supervisor.cls
  exact (h.spindleBy (x := _) ⟨hk.measured, hk.held, hk.m, hk.target⟩).speedNotice

theorem Keeps.brakeSpindle (h : Keeps L s t) : Keeps L s (brakeSpindle t) := (h.spindleBy (brake_keeps _ _)).speedNotice

theorem Keeps.coastSpindle (h : Keeps L s t) : Keeps L s (coastSpindle t) := h.spindleBy (coast_keeps _)

theorem Keeps.driveSpindleAgain (h : Keeps L s t) : Keeps L s (driveSpindleAgain t) := h.spindleBy (driveAgain_keeps _ _)

/-! ### The effective speed multiple -/

@[simp] theorem least_val (a b : Multiple) : (a.least b).val = min a.val b.val := by cases a <;> cases b <;> rfl

/-- The multiple that R71 computes never exceeds the held speed, and is 1 while ROUGH. -/
theorem effectiveMultiple_le (s : State) : (effectiveMultiple s).val ≤ s.spindle.held.val := by
  simp only [effectiveMultiple, least_val]
  omega

theorem effectiveMultiple_rough (s : State) (h : s.recovery.rough = true) : effectiveMultiple s = .one := by
  have : (effectiveMultiple s).val ≤ 1 := by
    simp only [effectiveMultiple, least_val, roadTerm, h, if_true]
    simp [Multiple.val]
  revert this
  cases effectiveMultiple s <;> simp [Multiple.val]

/-- A write of the effective multiple to the spindle, with the target it gives. -/
theorem Keeps.spindleM {x : Spindle} (h : Keeps L s t) (h1 : x.measured = t.spindle.measured)
    (h2 : x.held = t.spindle.held) (h3 : x.m = t.spindle.m ∨ x.m = effectiveMultiple t)
    (h4 : TargetOk t → TargetOk (t.setSpindle x)) : Keeps L s (t.setSpindle x) := by
  rcases h3 with h3 | h3
  · exact h.spindle h1 h2 h3 h4
  · refine h.trans ?_
    constructor <;> first | rfl | exact id | exact done_same _ | exact fun _ => PortKeeps.refl _ | exact fun _ _ => rfl | skip
    · simpa using h1
    · exact h4
    · intro _
      refine ⟨?_, ?_⟩
      · simpa [h2, h3] using effectiveMultiple_le t
      · intro hr
        simpa [h3] using effectiveMultiple_rough t hr

/-- The speed multiple is what the three terms give after it is computed again (R71, R72). -/
theorem recomputeM_speed (s : State) : SpeedOk (recomputeM s) := by
  unfold recomputeM
  dsimp only
  split
  · rename_i h
    exact ⟨h ▸ effectiveMultiple_le s, fun hr => h ▸ effectiveMultiple_rough s hr⟩
  · have key : ∀ x : Spindle, x.held = s.spindle.held → x.m = effectiveMultiple s →
        SpeedOk (speedNotice s.spindle (s.setSpindle x)) := by
      intro x h2 h3
      refine Keeps.speed (Keeps.speedNotice (Keeps.refl _)) ⟨?_, ?_⟩
      · simpa [h2, h3] using effectiveMultiple_le s
      · intro hr
        simpa [h3] using effectiveMultiple_rough s hr
    split
    · exact key _ (retarget_keeps _ _ _).held (retarget_keeps _ _ _).m
    · exact key _ rfl rfl

theorem Keeps.recomputeM (h : Keeps L s t) : Keeps L s (recomputeM t) := by
  unfold Machine.recomputeM
  dsimp only
  split
  · exact h
  · apply Keeps.speedNotice
    have hk := retarget_keeps { t.spindle with m := effectiveMultiple t } t.clock t.supervisor.cls
    split
    · exact h.spindleM hk.measured hk.held (.inr hk.m) (fun ht => hk.range ht)
    · exact h.spindleM rfl rfl (.inr rfl) id

theorem Keeps.setHeldSpeed {v : Multiple} (h : Keeps L s t) : Keeps L s (setHeldSpeed v t) := by
  unfold Machine.setHeldSpeed
  split
  · exact h
  · let u := t.setSpindle { t.spindle with held := v }
    have hk : Keeps [] u (Machine.recomputeM u) := (Keeps.refl u).recomputeM
    refine h.trans ?_
    have hs := recomputeM_speed u
    exact { hk with speed := fun _ => hs }

theorem Keeps.spindleOnFix {c : Nat} (h : Keeps L s t) : Keeps L s (spindleOnFix c t) := by
  unfold Machine.spindleOnFix
  dsimp only
  generalize hm : (if t.supervisor.drive = DriveState.moving then t.spindle.m else effectiveMultiple t) = m
  have hm' : m = t.spindle.m ∨ m = effectiveMultiple t := by
    rw [← hm]
    split <;> simp
  have hk := retarget_keeps { t.spindle with basis := basisAfterFix t c, m := m } t.clock t.supervisor.cls
  by_cases hc : basisAfterFix t c = t.spindle.basis ∧ m = t.spindle.m
  · rw [if_pos hc]
    exact h
  · rw [if_neg hc]
    apply Keeps.speedNotice
    split
    · refine h.spindleM hk.measured hk.held ?_ (fun ht => hk.range ht)
      rw [hk.m]
      exact hm'
    · exact h.spindleM rfl rfl hm' id

/-! ### What the spindle's operations leave: every block but the spindle and the report queues -/

@[simp] theorem speedNotice_clock (b : Spindle) (s : State) : (speedNotice b s).clock = s.clock := by
  unfold speedNotice
  split <;> simp
@[simp] theorem speedNotice_arbiter (b : Spindle) (s : State) : (speedNotice b s).arbiter = s.arbiter := by
  unfold speedNotice
  split <;> simp
@[simp] theorem speedNotice_planner (b : Spindle) (s : State) : (speedNotice b s).planner = s.planner := by
  unfold speedNotice
  split <;> simp
@[simp] theorem speedNotice_map (b : Spindle) (s : State) : (speedNotice b s).map = s.map := by
  unfold speedNotice
  split <;> simp
@[simp] theorem speedNotice_zones (b : Spindle) (s : State) : (speedNotice b s).zones = s.zones := by
  unfold speedNotice
  split <;> simp
@[simp] theorem speedNotice_monitor (b : Spindle) (s : State) : (speedNotice b s).monitor = s.monitor := by
  unfold speedNotice
  split <;> simp
@[simp] theorem speedNotice_optics (b : Spindle) (s : State) : (speedNotice b s).optics = s.optics := by
  unfold speedNotice
  split <;> simp
@[simp] theorem speedNotice_sled (b : Spindle) (s : State) : (speedNotice b s).sled = s.sled := by
  unfold speedNotice
  split <;> simp
@[simp] theorem speedNotice_recovery (b : Spindle) (s : State) : (speedNotice b s).recovery = s.recovery := by
  unfold speedNotice
  split <;> simp
@[simp] theorem speedNotice_supervisor (b : Spindle) (s : State) : (speedNotice b s).supervisor = s.supervisor := by
  unfold speedNotice
  split <;> simp
@[simp] theorem speedNotice_picks (b : Spindle) (s : State) : (speedNotice b s).picks = s.picks := by
  unfold speedNotice
  split <;> simp
@[simp] theorem speedNotice_pending (b : Spindle) (s : State) : (speedNotice b s).pending = s.pending := by
  unfold speedNotice
  split <;> simp

@[simp] theorem recomputeM_clock (s : State) : (recomputeM s).clock = s.clock := by
  unfold recomputeM
  dsimp only
  split <;> simp
@[simp] theorem recomputeM_arbiter (s : State) : (recomputeM s).arbiter = s.arbiter := by
  unfold recomputeM
  dsimp only
  split <;> simp
@[simp] theorem recomputeM_planner (s : State) : (recomputeM s).planner = s.planner := by
  unfold recomputeM
  dsimp only
  split <;> simp
@[simp] theorem recomputeM_map (s : State) : (recomputeM s).map = s.map := by
  unfold recomputeM
  dsimp only
  split <;> simp
@[simp] theorem recomputeM_zones (s : State) : (recomputeM s).zones = s.zones := by
  unfold recomputeM
  dsimp only
  split <;> simp
@[simp] theorem recomputeM_monitor (s : State) : (recomputeM s).monitor = s.monitor := by
  unfold recomputeM
  dsimp only
  split <;> simp
@[simp] theorem recomputeM_optics (s : State) : (recomputeM s).optics = s.optics := by
  unfold recomputeM
  dsimp only
  split <;> simp
@[simp] theorem recomputeM_sled (s : State) : (recomputeM s).sled = s.sled := by
  unfold recomputeM
  dsimp only
  split <;> simp
@[simp] theorem recomputeM_recovery (s : State) : (recomputeM s).recovery = s.recovery := by
  unfold recomputeM
  dsimp only
  split <;> simp
@[simp] theorem recomputeM_supervisor (s : State) : (recomputeM s).supervisor = s.supervisor := by
  unfold recomputeM
  dsimp only
  split <;> simp
@[simp] theorem recomputeM_picks (s : State) : (recomputeM s).picks = s.picks := by
  unfold recomputeM
  dsimp only
  split <;> simp
@[simp] theorem recomputeM_pending (s : State) : (recomputeM s).pending = s.pending := by
  unfold recomputeM
  dsimp only
  split <;> simp

@[simp] theorem spindleCommand_clock (md : DriveMode) (b : Option Nat) (s : State) : (spindleCommand md b s).clock = s.clock := by
  simp [spindleCommand]
@[simp] theorem spindleCommand_arbiter (md : DriveMode) (b : Option Nat) (s : State) : (spindleCommand md b s).arbiter = s.arbiter := by
  simp [spindleCommand]
@[simp] theorem spindleCommand_planner (md : DriveMode) (b : Option Nat) (s : State) : (spindleCommand md b s).planner = s.planner := by
  simp [spindleCommand]
@[simp] theorem spindleCommand_map (md : DriveMode) (b : Option Nat) (s : State) : (spindleCommand md b s).map = s.map := by
  simp [spindleCommand]
@[simp] theorem spindleCommand_zones (md : DriveMode) (b : Option Nat) (s : State) : (spindleCommand md b s).zones = s.zones := by
  simp [spindleCommand]
@[simp] theorem spindleCommand_monitor (md : DriveMode) (b : Option Nat) (s : State) : (spindleCommand md b s).monitor = s.monitor := by
  simp [spindleCommand]
@[simp] theorem spindleCommand_optics (md : DriveMode) (b : Option Nat) (s : State) : (spindleCommand md b s).optics = s.optics := by
  simp [spindleCommand]
@[simp] theorem spindleCommand_sled (md : DriveMode) (b : Option Nat) (s : State) : (spindleCommand md b s).sled = s.sled := by
  simp [spindleCommand]
@[simp] theorem spindleCommand_recovery (md : DriveMode) (b : Option Nat) (s : State) : (spindleCommand md b s).recovery = s.recovery := by
  simp [spindleCommand]
@[simp] theorem spindleCommand_supervisor (md : DriveMode) (b : Option Nat) (s : State) : (spindleCommand md b s).supervisor = s.supervisor := by
  simp [spindleCommand]
@[simp] theorem spindleCommand_picks (md : DriveMode) (b : Option Nat) (s : State) : (spindleCommand md b s).picks = s.picks := by
  simp [spindleCommand]
@[simp] theorem spindleCommand_pending (md : DriveMode) (b : Option Nat) (s : State) : (spindleCommand md b s).pending = s.pending := by
  simp [spindleCommand]

@[simp] theorem setHeldSpeed_clock (v : Multiple) (s : State) : (setHeldSpeed v s).clock = s.clock := by
  unfold setHeldSpeed
  split <;> simp
@[simp] theorem setHeldSpeed_arbiter (v : Multiple) (s : State) : (setHeldSpeed v s).arbiter = s.arbiter := by
  unfold setHeldSpeed
  split <;> simp
@[simp] theorem setHeldSpeed_planner (v : Multiple) (s : State) : (setHeldSpeed v s).planner = s.planner := by
  unfold setHeldSpeed
  split <;> simp
@[simp] theorem setHeldSpeed_map (v : Multiple) (s : State) : (setHeldSpeed v s).map = s.map := by
  unfold setHeldSpeed
  split <;> simp
@[simp] theorem setHeldSpeed_zones (v : Multiple) (s : State) : (setHeldSpeed v s).zones = s.zones := by
  unfold setHeldSpeed
  split <;> simp
@[simp] theorem setHeldSpeed_monitor (v : Multiple) (s : State) : (setHeldSpeed v s).monitor = s.monitor := by
  unfold setHeldSpeed
  split <;> simp
@[simp] theorem setHeldSpeed_optics (v : Multiple) (s : State) : (setHeldSpeed v s).optics = s.optics := by
  unfold setHeldSpeed
  split <;> simp
@[simp] theorem setHeldSpeed_sled (v : Multiple) (s : State) : (setHeldSpeed v s).sled = s.sled := by
  unfold setHeldSpeed
  split <;> simp
@[simp] theorem setHeldSpeed_recovery (v : Multiple) (s : State) : (setHeldSpeed v s).recovery = s.recovery := by
  unfold setHeldSpeed
  split <;> simp
@[simp] theorem setHeldSpeed_supervisor (v : Multiple) (s : State) : (setHeldSpeed v s).supervisor = s.supervisor := by
  unfold setHeldSpeed
  split <;> simp
@[simp] theorem setHeldSpeed_picks (v : Multiple) (s : State) : (setHeldSpeed v s).picks = s.picks := by
  unfold setHeldSpeed
  split <;> simp
@[simp] theorem setHeldSpeed_pending (v : Multiple) (s : State) : (setHeldSpeed v s).pending = s.pending := by
  unfold setHeldSpeed
  split <;> simp

@[simp] theorem spindleOnFix_clock (c : Nat) (s : State) : (spindleOnFix c s).clock = s.clock := by
  unfold spindleOnFix
  dsimp only
  split_ifs <;> simp
@[simp] theorem spindleOnFix_arbiter (c : Nat) (s : State) : (spindleOnFix c s).arbiter = s.arbiter := by
  unfold spindleOnFix
  dsimp only
  split_ifs <;> simp
@[simp] theorem spindleOnFix_planner (c : Nat) (s : State) : (spindleOnFix c s).planner = s.planner := by
  unfold spindleOnFix
  dsimp only
  split_ifs <;> simp
@[simp] theorem spindleOnFix_map (c : Nat) (s : State) : (spindleOnFix c s).map = s.map := by
  unfold spindleOnFix
  dsimp only
  split_ifs <;> simp
@[simp] theorem spindleOnFix_zones (c : Nat) (s : State) : (spindleOnFix c s).zones = s.zones := by
  unfold spindleOnFix
  dsimp only
  split_ifs <;> simp
@[simp] theorem spindleOnFix_monitor (c : Nat) (s : State) : (spindleOnFix c s).monitor = s.monitor := by
  unfold spindleOnFix
  dsimp only
  split_ifs <;> simp
@[simp] theorem spindleOnFix_optics (c : Nat) (s : State) : (spindleOnFix c s).optics = s.optics := by
  unfold spindleOnFix
  dsimp only
  split_ifs <;> simp
@[simp] theorem spindleOnFix_sled (c : Nat) (s : State) : (spindleOnFix c s).sled = s.sled := by
  unfold spindleOnFix
  dsimp only
  split_ifs <;> simp
@[simp] theorem spindleOnFix_recovery (c : Nat) (s : State) : (spindleOnFix c s).recovery = s.recovery := by
  unfold spindleOnFix
  dsimp only
  split_ifs <;> simp
@[simp] theorem spindleOnFix_supervisor (c : Nat) (s : State) : (spindleOnFix c s).supervisor = s.supervisor := by
  unfold spindleOnFix
  dsimp only
  split_ifs <;> simp
@[simp] theorem spindleOnFix_picks (c : Nat) (s : State) : (spindleOnFix c s).picks = s.picks := by
  unfold spindleOnFix
  dsimp only
  split_ifs <;> simp
@[simp] theorem spindleOnFix_pending (c : Nat) (s : State) : (spindleOnFix c s).pending = s.pending := by
  unfold spindleOnFix
  dsimp only
  split_ifs <;> simp

@[simp] theorem brakeSpindle_clock (s : State) : (brakeSpindle s).clock = s.clock := by
  simp [brakeSpindle]
@[simp] theorem brakeSpindle_arbiter (s : State) : (brakeSpindle s).arbiter = s.arbiter := by
  simp [brakeSpindle]
@[simp] theorem brakeSpindle_planner (s : State) : (brakeSpindle s).planner = s.planner := by
  simp [brakeSpindle]
@[simp] theorem brakeSpindle_map (s : State) : (brakeSpindle s).map = s.map := by
  simp [brakeSpindle]
@[simp] theorem brakeSpindle_zones (s : State) : (brakeSpindle s).zones = s.zones := by
  simp [brakeSpindle]
@[simp] theorem brakeSpindle_monitor (s : State) : (brakeSpindle s).monitor = s.monitor := by
  simp [brakeSpindle]
@[simp] theorem brakeSpindle_optics (s : State) : (brakeSpindle s).optics = s.optics := by
  simp [brakeSpindle]
@[simp] theorem brakeSpindle_sled (s : State) : (brakeSpindle s).sled = s.sled := by
  simp [brakeSpindle]
@[simp] theorem brakeSpindle_recovery (s : State) : (brakeSpindle s).recovery = s.recovery := by
  simp [brakeSpindle]
@[simp] theorem brakeSpindle_supervisor (s : State) : (brakeSpindle s).supervisor = s.supervisor := by
  simp [brakeSpindle]
@[simp] theorem brakeSpindle_picks (s : State) : (brakeSpindle s).picks = s.picks := by
  simp [brakeSpindle]
@[simp] theorem brakeSpindle_pending (s : State) : (brakeSpindle s).pending = s.pending := by
  simp [brakeSpindle]

/-! ### What the multiple and the target are computed from -/

theorem setTarget_mode (sp : Spindle) (now : Time) (x : Nat) (b : Bool) :
    (sp.setTarget now x b).mode = sp.mode ∧ (sp.setTarget now x b).basis = sp.basis := by
  unfold Spindle.setTarget
  split
  · exact ⟨rfl, rfl⟩
  · split <;> exact ⟨rfl, rfl⟩

/-- A new target leaves the drive mode and the basis (R68). -/
theorem retarget_mode (sp : Spindle) (now : Time) (k : Option DiscClass) :
    (sp.retarget now k).mode = sp.mode ∧ (sp.retarget now k).basis = sp.basis := by
  unfold Spindle.retarget
  split
  · exact setTarget_mode _ _ _ _
  · exact setTarget_mode _ _ _ _
  · exact ⟨rfl, rfl⟩

@[simp] theorem speedNotice_spindle (b : Spindle) (s : State) : (speedNotice b s).spindle = s.spindle := by
  unfold speedNotice; split <;> rfl

/-- The decode of an address depends on the entries and the default cap alone (R25). -/
theorem decode_congr {y z : ZoneTable} (h1 : y.entries = z.entries) (h2 : y.defaultCap = z.defaultCap) (a : Nat) :
    y.decode a = z.decode a := by simp [ZoneTable.decode, h1, h2]

/-- What the effective multiple depends on (R71). -/
theorem effectiveMultiple_congr (h1 : t.spindle.held = s.spindle.held) (h2 : t.recovery.rough = s.recovery.rough)
    (h3 : t.supervisor.drive = s.supervisor.drive) (h4 : t.planner.target = s.planner.target)
    (h5 : t.monitor.fix = s.monitor.fix) (h6 : t.zones.entries = s.zones.entries)
    (h7 : t.zones.defaultCap = s.zones.defaultCap) : effectiveMultiple t = effectiveMultiple s := by
  simp [effectiveMultiple, zoneTerm, roadTerm, zoneAddress, h1, h2, h3, h4, h5, decode_congr h6 h7]

/-- m after it has been computed again, and what that leaves of the spindle (R72). -/
theorem recomputeM_spindle (s : State) : (recomputeM s).spindle.m = effectiveMultiple s ∧
    (recomputeM s).spindle.held = s.spindle.held ∧ (recomputeM s).spindle.mode = s.spindle.mode ∧
    (recomputeM s).spindle.basis = s.spindle.basis ∧ (recomputeM s).spindle.measured = s.spindle.measured := by
  unfold recomputeM
  dsimp only
  split
  · rename_i h
    exact ⟨h.symm, rfl, rfl, rfl, rfl⟩
  · rw [speedNotice_spindle]
    split
    · have h := retarget_keeps { s.spindle with m := effectiveMultiple s } s.clock s.supervisor.cls
      have h' := retarget_mode { s.spindle with m := effectiveMultiple s } s.clock s.supervisor.cls
      exact ⟨h.m, h.held, h'.1, h'.2, h.measured⟩
    · exact ⟨rfl, rfl, rfl, rfl, rfl⟩

end Sys2Proof.Laws
end

