-- ==== Sys2Proof/Laws/Loops.lean ====
section
/-! SUPPORT. The fix, the drive state, the optical loops and the sled: what the commands of their blocks keep. -/

namespace Sys2Proof.Laws

set_option Elab.async false

open Sys2Proof.Machine Sys2Proof.Safety

variable {s t : State} {L : List Motion}

/-! ### Fix and drive state -/

theorem Keeps.staleFix (h : Keeps L s t) : Keeps L s (staleFix t) := by
  refine h.monitor ?_
  intro f hf hfresh
  cases hm : t.monitor.fix with
  | none => simp [hm] at hf
  | some g =>
    simp only [hm, Option.map_some, Option.some.injEq] at hf
    subst hf
    simp at hfresh

theorem Keeps.restartMonitor (h : Keeps L s t) : Keeps L s (restartMonitor t) := h.monitor

theorem Keeps.compareZone (h : Keeps L s t) : Keeps L s (compareZone t) := by
  unfold Machine.compareZone
  split
  · exact h
  · split
    · exact h.zones.offer
    · exact h

theorem Keeps.setDrive {d : DriveState} (h : Keeps L s t) : Keeps L s (setDrive d t) := by
  unfold Machine.setDrive
  dsimp only
  split
  · exact h
  · have h1 := (h.supervisor (x := { t.supervisor with drive := d })).offer
      (n := .drive d t.supervisor.drive t.supervisor.cls t.clock)
    split <;> split <;> first
      | exact h1.compareZone.recomputeM
      | exact h1.compareZone
      | exact h1.recomputeM
      | exact h1

theorem Keeps.reportDrive {d : DriveState} (h : Keeps L s t) : Keeps L s (reportDrive d t) := by
  unfold Machine.reportDrive
  split
  · exact h
  · exact h.setDrive

theorem Keeps.ownerTaken (h : Keeps L s t) : Keeps L s (ownerTaken t) := by
  unfold Machine.ownerTaken
  split
  · exact h.recomputeM
  · exact h

/-! ### What a comparison of zones and a change of drive state leave -/

@[simp] theorem compareZone_clock (s : State) : (compareZone s).clock = s.clock := by
  unfold compareZone
  split <;> (try split) <;> simp
@[simp] theorem compareZone_arbiter (s : State) : (compareZone s).arbiter = s.arbiter := by
  unfold compareZone
  split <;> (try split) <;> simp
@[simp] theorem compareZone_planner (s : State) : (compareZone s).planner = s.planner := by
  unfold compareZone
  split <;> (try split) <;> simp
@[simp] theorem compareZone_map (s : State) : (compareZone s).map = s.map := by
  unfold compareZone
  split <;> (try split) <;> simp
@[simp] theorem compareZone_monitor (s : State) : (compareZone s).monitor = s.monitor := by
  unfold compareZone
  split <;> (try split) <;> simp
@[simp] theorem compareZone_optics (s : State) : (compareZone s).optics = s.optics := by
  unfold compareZone
  split <;> (try split) <;> simp
@[simp] theorem compareZone_sled (s : State) : (compareZone s).sled = s.sled := by
  unfold compareZone
  split <;> (try split) <;> simp
@[simp] theorem compareZone_recovery (s : State) : (compareZone s).recovery = s.recovery := by
  unfold compareZone
  split <;> (try split) <;> simp
@[simp] theorem compareZone_picks (s : State) : (compareZone s).picks = s.picks := by
  unfold compareZone
  split <;> (try split) <;> simp
@[simp] theorem compareZone_pending (s : State) : (compareZone s).pending = s.pending := by
  unfold compareZone
  split <;> (try split) <;> simp
@[simp] theorem compareZone_spindle (s : State) : (compareZone s).spindle = s.spindle := by
  unfold compareZone
  split <;> (try split) <;> simp
@[simp] theorem compareZone_supervisor (s : State) : (compareZone s).supervisor = s.supervisor := by
  unfold compareZone
  split <;> (try split) <;> simp

@[simp] theorem setDrive_clock (d : DriveState) (s : State) : (setDrive d s).clock = s.clock := by
  unfold setDrive
  dsimp only
  split_ifs <;> simp
@[simp] theorem setDrive_arbiter (d : DriveState) (s : State) : (setDrive d s).arbiter = s.arbiter := by
  unfold setDrive
  dsimp only
  split_ifs <;> simp
@[simp] theorem setDrive_planner (d : DriveState) (s : State) : (setDrive d s).planner = s.planner := by
  unfold setDrive
  dsimp only
  split_ifs <;> simp
@[simp] theorem setDrive_map (d : DriveState) (s : State) : (setDrive d s).map = s.map := by
  unfold setDrive
  dsimp only
  split_ifs <;> simp
@[simp] theorem setDrive_monitor (d : DriveState) (s : State) : (setDrive d s).monitor = s.monitor := by
  unfold setDrive
  dsimp only
  split_ifs <;> simp
@[simp] theorem setDrive_optics (d : DriveState) (s : State) : (setDrive d s).optics = s.optics := by
  unfold setDrive
  dsimp only
  split_ifs <;> simp
@[simp] theorem setDrive_sled (d : DriveState) (s : State) : (setDrive d s).sled = s.sled := by
  unfold setDrive
  dsimp only
  split_ifs <;> simp
@[simp] theorem setDrive_recovery (d : DriveState) (s : State) : (setDrive d s).recovery = s.recovery := by
  unfold setDrive
  dsimp only
  split_ifs <;> simp
@[simp] theorem setDrive_picks (d : DriveState) (s : State) : (setDrive d s).picks = s.picks := by
  unfold setDrive
  dsimp only
  split_ifs <;> simp
@[simp] theorem setDrive_pending (d : DriveState) (s : State) : (setDrive d s).pending = s.pending := by
  unfold setDrive
  dsimp only
  split_ifs <;> simp

@[simp] theorem reportDrive_clock (d : DriveState) (s : State) : (reportDrive d s).clock = s.clock := by
  unfold reportDrive
  split <;> simp
@[simp] theorem reportDrive_arbiter (d : DriveState) (s : State) : (reportDrive d s).arbiter = s.arbiter := by
  unfold reportDrive
  split <;> simp
@[simp] theorem reportDrive_planner (d : DriveState) (s : State) : (reportDrive d s).planner = s.planner := by
  unfold reportDrive
  split <;> simp
@[simp] theorem reportDrive_map (d : DriveState) (s : State) : (reportDrive d s).map = s.map := by
  unfold reportDrive
  split <;> simp
@[simp] theorem reportDrive_monitor (d : DriveState) (s : State) : (reportDrive d s).monitor = s.monitor := by
  unfold reportDrive
  split <;> simp
@[simp] theorem reportDrive_optics (d : DriveState) (s : State) : (reportDrive d s).optics = s.optics := by
  unfold reportDrive
  split <;> simp
@[simp] theorem reportDrive_sled (d : DriveState) (s : State) : (reportDrive d s).sled = s.sled := by
  unfold reportDrive
  split <;> simp
@[simp] theorem reportDrive_recovery (d : DriveState) (s : State) : (reportDrive d s).recovery = s.recovery := by
  unfold reportDrive
  split <;> simp
@[simp] theorem reportDrive_picks (d : DriveState) (s : State) : (reportDrive d s).picks = s.picks := by
  unfold reportDrive
  split <;> simp
@[simp] theorem reportDrive_pending (d : DriveState) (s : State) : (reportDrive d s).pending = s.pending := by
  unfold reportDrive
  split <;> simp

/-- A change of drive state changes the drive state and nothing else of the supervisor (R146). -/
@[simp] theorem setDrive_supervisor (d : DriveState) (s : State) :
    (setDrive d s).supervisor = { s.supervisor with drive := d } := by
  unfold setDrive
  dsimp only
  by_cases h : d = s.supervisor.drive
  · rw [if_pos h, h]
  · rw [if_neg h]
    split_ifs <;> simp

/-- A neighbour's report of a drive state is taken or set aside (R147). -/
@[simp] theorem reportDrive_supervisor (d : DriveState) (s : State) :
    (reportDrive d s).supervisor = { s.supervisor with
      drive := if s.supervisor.drive.setsAside then s.supervisor.drive else d } := by
  unfold reportDrive
  split <;> simp

/-! ### Loops -/

/-- A write to the optics, the sled and the monitor together. -/
theorem Keeps.mechanism (h : Keeps L s t) (x : Optics) (y : Sled) (z : Monitor)
    (hl : LoopsOk t.optics → LoopsOk x) (hg : x.robustGain = t.optics.robustGain)
    (hr : RailOk t.sled → RailOk y) (hh : y.homeClosed = t.sled.homeClosed)
    (hf : FreshOk t → ∀ f, z.fix = some f → f.fresh = true → x.focus = .locked ∧ x.tracking ≠ .off) :
    Keeps L s (((t.setOptics x).setSled y).setMonitor z) := by
  refine h.trans ?_
  constructor <;>
    first | rfl | exact id | exact done_same _ | exact fun _ => PortKeeps.refl _ | exact fun _ _ => rfl | exact hl | exact hr | exact hh | skip
  · intro k
    simpa [GainOk, hg] using k
  · exact hf

/-- The fix after it has become stale is not fresh (R111). -/
theorem stale_not_fresh {x : Option Fix} {f : Fix} (h : x.map (fun f => { f with fresh := false }) = some f)
    (hf : f.fresh = true) : False := by
  cases x with
  | none => simp at h
  | some g =>
    simp only [Option.map_some, Option.some.injEq] at h
    subst h
    simp at hf

/-- The sled driver follows the tracking state without moving (R102). -/
theorem follows_rail (k : TrackingState) (sl : Sled) (h : RailOk sl) : RailOk (sl.follows k) := by
  have hs : (sl.follows k).position = sl.position ∧ (sl.follows k).legSteps = sl.legSteps ∧
      ((sl.follows k).state = .leg → sl.state = .leg) := by
    unfold Sled.follows
    split <;> try split
    all_goals simp_all
  intro x hx
  rw [hs.1] at hx
  exact ⟨(h x hx).1, fun hl => by rw [hs.2.1]; exact (h x hx).2 (hs.2.2 hl)⟩

theorem follows_home (k : TrackingState) (sl : Sled) : (sl.follows k).homeClosed = sl.homeClosed := by
  unfold Sled.follows
  split <;> try split
  all_goals rfl

/-- Tracking OFF is always allowed (R90). -/
theorem LoopsOk.off {o : Optics} (h : LoopsOk o) : LoopsOk { o with
    tracking := .off, holdAddress := none, openPending := false } where
  tracking := by simp
  search := h.search
  switch := h.switch
  dark := h.dark
  held := by simp
  back := by simp
  absent := by simp
  closing hc := ⟨(h.closing hc).1, rfl⟩

theorem Keeps.trackingOff (h : Keeps L s t) : Keeps L s (trackingOff t) :=
  h.mechanism _ _ _ LoopsOk.off rfl (follows_rail _ _) (follows_home _ _)
    (fun _ _ h1 h2 => (stale_not_fresh h1 h2).elim)

/-- Tracking becomes CLOSED with focus LOCKED and no hold address (R90, R94). -/
theorem Keeps.trackingOn (h : Keeps L s t) (hf : LoopsOk t.optics → t.optics.focus = .locked)
    (ha : LoopsOk t.optics → t.optics.holdAddress = none) (hc : LoopsOk t.optics → t.optics.closers = []) :
    Keeps L s (trackingOn t) := by
  have h1 : Keeps L s ((t.setOptics { t.optics with tracking := .closed }).setSled (t.sled.follows .closed)) := by
    refine h.mechanism { t.optics with tracking := .closed } (t.sled.follows .closed) t.monitor ?_ rfl
      (follows_rail _ _) (follows_home _ _) ?_
    · intro k
      exact ⟨fun _ => hf k, k.search, k.switch, k.dark, by simp, by simp, fun _ => ha k, fun h => absurd (hc k) h⟩
    · intro k f h1 h2
      exact ⟨(k f h1 h2).1, by simp⟩
  unfold Machine.trackingOn
  dsimp only
  split
  · exact h1.restartMonitor
  · exact h1

/-- Tracking becomes HOLD with focus LOCKED and a hold address (R94). -/
theorem Keeps.trackingHold (h : Keeps L s t) (hf : LoopsOk t.optics → t.optics.focus = .locked)
    (ha : LoopsOk t.optics → t.optics.holdAddress.isSome = true) (hc : LoopsOk t.optics → t.optics.closers = []) :
    Keeps L s (trackingHold t) := by
  refine h.mechanism { t.optics with tracking := .hold } (t.sled.follows .hold) t.monitor ?_ rfl
      (follows_rail _ _) (follows_home _ _) ?_
  · intro k
    exact ⟨fun _ => hf k, k.search, k.switch, k.dark, fun _ => ha k, by simp, by simp, fun h => absurd (hc k) h⟩
  · intro k f h1 h2
    exact ⟨(k f h1 h2).1, by simp⟩

theorem Keeps.lapseLeg (h : Keeps L s t) : Keeps L s (lapseLeg t) := by
  unfold Machine.lapseLeg
  split <;> first | exact h | exact h.planner

/-- The loops open: focus OFF, or LOST from a focus that was not OFF (R88 to R90). -/
theorem Keeps.loopsOpen {f : FocusState} (h : Keeps L s t)
    (hf : f = .off ∨ (f = .lost ∧ t.optics.focus ≠ .off)) : Keeps L s (loopsOpen f t) := by
  have key : ∀ z : Monitor, (∀ f, z.fix = some f → f.fresh = true → False) →
      Keeps L s (((t.setOptics { t.optics with
        closers := [], storedJump := none, attemptTimer := none, attempt := 0, focus := f
        tracking := .off, holdAddress := none, openPending := false }).setSled (t.sled.follows .off)).setMonitor z) := by
    intro z hz
    refine h.mechanism _ _ _ ?_ rfl (follows_rail _ _) (follows_home _ _) (fun _ f h1 h2 => (hz f h1 h2).elim)
    intro k
    refine ⟨by simp, by simp, k.switch, ?_, by simp, by simp, by simp, by simp⟩
    intro hp
    rcases hf with hf | ⟨_, hf⟩
    · exact hf
    · exact absurd (k.dark hp) hf
  have stale (z : Monitor) := key { z with fix := z.fix.map (fun f => { f with fresh := false }) }
    (fun f h1 h2 => stale_not_fresh h1 h2)
  have twice := stale { t.monitor with fix := t.monitor.fix.map (fun f => { f with fresh := false }) }
  have once := stale t.monitor
  dsimp only [State.setOptics, State.setSled, State.setMonitor] at once twice
  unfold Machine.loopsOpen Machine.trackingOff Machine.setFocus
  dsimp only
  split
  · dsimp only [State.setOptics, State.setSled, State.setMonitor, Machine.staleFix]
    exact twice
  · dsimp only [State.setOptics, State.setSled, State.setMonitor, Machine.staleFix]
    exact once

theorem Keeps.focusOff (h : Keeps L s t) : Keeps L s (focusOff t) := (h.optics.loopsOpen (.inl rfl)).lapseLeg

/-- The focus state after an off command (R89). -/
theorem focusOff_focus (s : State) : (focusOff s).optics.focus = .off ∧ (focusOff s).optics.tracking = .off ∧
    (focusOff s).optics.attemptTimer = none := by
  unfold focusOff lapseLeg loopsOpen trackingOff setFocus staleFix
  dsimp only
  split <;> split <;> simp

/-- The first attempt of a search, with focus not LOCKED and a profile lit (R86). -/
theorem Keeps.beginSearch {r : Requester} {n : Nat} (h : Keeps L s t)
    (hf : LoopsOk t.optics → t.optics.focus ≠ .locked) (hp : t.optics.profile.isSome = true) :
    Keeps L s (beginSearch r n t) := by
  have key : ∀ z : Monitor, (FreshOk t → ∀ f, z.fix = some f → f.fresh = true → False) →
      Keeps L s (((t.setOptics { t.optics with
      requester := some r, allowed := n, attempt := 1, attemptTimer := some t.clock, storedSearch := none
      focus := .search }).setSled t.sled).setMonitor z) := by
    intro z hz
    refine h.mechanism _ _ _ ?_ rfl id rfl (fun k f h1 h2 => (hz k f h1 h2).elim)
    intro k
    refine ⟨fun ht => absurd (k.tracking ht) (hf k), by simp, k.switch, ?_, k.held, k.back, k.absent,
      fun hc => absurd (k.closing hc).1 (hf k)⟩
    intro hn
    dsimp only at hn
    simp [hn] at hp
  unfold Machine.beginSearch Machine.setFocus Machine.staleFix
  dsimp only
  split
  · exact key _ (fun _ f h1 h2 => stale_not_fresh h1 h2)
  · rename_i hc
    refine key t.monitor (fun k f h1 h2 => hc ?_)
    simpa using (k f h1 h2).1

theorem Keeps.focusSearch {r : Requester} {n : Nat} (h : Keeps L s t) : Keeps L s (focusSearch r n t).1 := by
  unfold Machine.focusSearch
  split
  · exact h
  · split
    · exact h.optics
    · split
      · exact h
      · rename_i h1 _ h3
        exact h.beginSearch (fun _ => h1) (Option.isSome_iff_ne_none.2 h3)

theorem Keeps.closeTracking {r : Requester} (h : Keeps L s t) : Keeps L s (closeTracking r t).1 := by
  unfold Machine.closeTracking
  split
  · exact h
  · rename_i ht
    split
    · rename_i hf
      exact h.optics (h9 := fun _ _ => ⟨hf, not_not.1 ht⟩)
    · exact h

theorem Keeps.openTracking (h : Keeps L s t) : Keeps L s (openTracking t) := by
  unfold Machine.openTracking
  split
  · exact h
  · exact h.optics
  · exact h.trackingOff
  · exact h.trackingOff

/-- A jump begins with tracking not OFF; a back-jump with a hold address (R92, R94). -/
theorem Keeps.beginJump {k : Int} {o : JumpOrigin} (h : Keeps L s t) (ht : t.optics.tracking ≠ .off)
    (ho : o = .hold → LoopsOk t.optics → t.optics.holdAddress.isSome = true) : Keeps L s (beginJump k o t) := by
  refine h.mechanism { t.optics with
      tracking := .jump, jumpCount := k, crossings := 0, jumpOrigin := o
      holdAddress := if o = .leg then none else t.optics.holdAddress } (t.sled.follows .jump) t.monitor ?_ rfl
    (follows_rail _ _) (follows_home _ _) ?_
  · intro l
    refine ⟨fun _ => l.tracking ht, l.search, l.switch, l.dark, by simp, ?_, by simp, fun hc => absurd (l.closing hc).2 ht⟩
    intro _ hb
    have hb' : o = .hold := hb
    subst hb'
    simpa using ho rfl l
  · intro l f h1 h2
    exact ⟨(l f h1 h2).1, by simp⟩

theorem Keeps.hold {a : Nat} (h : Keeps L s t) : Keeps L s (hold a t) := by
  have key : t.optics.tracking ≠ .off → t.optics.tracking ≠ .closed → Keeps L s ((((t.setOptics { t.optics with
      holdAddress := some a }).setSled t.sled).setMonitor t.monitor).setRecovery { t.recovery with
        holdCopy := some a }) := by
    intro h1 h2
    refine (h.mechanism { t.optics with holdAddress := some a } t.sled t.monitor ?_ rfl id rfl ?_).recovery
      (x := { t.recovery with holdCopy := some a })
    · intro k
      exact ⟨k.tracking, k.search, k.switch, k.dark, by simp, by simp, fun h => by rcases h with h | h <;> contradiction,
        k.closing⟩
    · exact fun k f h1 h2 => k f h1 h2
  unfold Machine.hold
  split
  · exact h
  · rename_i hc
    have h1 : Keeps L s (((t.setOptics { t.optics with
        holdAddress := some a, tracking := .hold }).setSled (t.sled.follows .hold)).setMonitor t.monitor) := by
      refine h.mechanism _ _ _ ?_ rfl (follows_rail _ _) (follows_home _ _) ?_
      · intro k
        exact ⟨fun _ => k.tracking (by simp [hc]), k.search, k.switch, k.dark, by simp, by simp, by simp,
          fun h => absurd (k.closing h).2 (by simp [hc])⟩
      · intro k f h1 h2
        exact ⟨(k f h1 h2).1, by simp⟩
    exact h1.recovery (x := { t.recovery with holdCopy := some a })
  · rename_i hc
    exact key (by simp [hc]) (by simp [hc])
  · rename_i hc
    exact key (by simp [hc]) (by simp [hc])

/-- The end of a hold (R94). -/
theorem Keeps.endHold (h : Keeps L s t) : Keeps L s (endHold t) := by
  unfold Machine.endHold
  split
  · rename_i hc
    have h1 : Keeps L s (((t.setOptics { t.optics with holdAddress := none, tracking := .closed }).setSled
        (t.sled.follows .closed)).setMonitor t.monitor) := by
      refine h.mechanism _ _ _ ?_ rfl (follows_rail _ _) (follows_home _ _) ?_
      · intro k
        exact ⟨fun _ => k.tracking (by simp [hc]), k.search, k.switch, k.dark, by simp, by simp, by simp,
          fun h => absurd (k.closing h).2 (by simp [hc])⟩
      · intro k f h1 h2
        exact ⟨(k f h1 h2).1, by simp⟩
    have h2 : Machine.trackingOn (t.setOptics { t.optics with holdAddress := none })
        = ((t.setOptics { t.optics with holdAddress := none, tracking := .closed }).setSled
          (t.sled.follows .closed)).setMonitor t.monitor := by
      unfold Machine.trackingOn
      simp only [State.setOptics_optics, hc]
      rfl
    rw [h2]
    exact h1
  · exact h

theorem Keeps.releaseHold (h : Keeps L s t) : Keeps L s (releaseHold t) := h.recovery.endHold

/-- A jump is complete: the hold goes on, or tracking closes or opens (R92, R94). -/
theorem Keeps.completeJump (h : Keeps L s t) (ht : t.optics.tracking = .jump) : Keeps L s (completeJump t) := by
  have hc : LoopsOk t.optics → t.optics.closers = [] := fun k => by
    by_contra h
    simp [(k.closing h).2] at ht
  unfold Machine.completeJump
  dsimp only
  split
  · exact h.monitor.trackingOff
  · rename_i ho
    split
    · rename_i hh
      refine Keeps.trackingHold h.monitor (fun k => k.tracking (by simp [ht])) (fun k => ?_) hc
      rcases hh with hh | hh
      · exact k.back ht hh
      · exact Option.isSome_iff_ne_none.2 hh
    · rename_i hh
      have hn : t.optics.holdAddress = none := by
        by_contra hc
        exact hh (.inr hc)
      exact Keeps.trackingOn h.monitor (fun k => k.tracking (by simp [ht])) (fun _ => hn) hc

theorem Keeps.profileSelect {k : DiscClass} (h : Keeps L s t) : Keeps L s (profileSelect k t).1 := by
  unfold Machine.profileSelect
  split
  · exact h
  · obtain ⟨hf, ht, ha⟩ := focusOff_focus t
    have h1 := h.focusOff
    refine h1.mechanism { (Machine.focusOff t).optics with profile := none, switch := some (k, t.clock) }
      (Machine.focusOff t).sled (Machine.focusOff t).monitor ?_ rfl id rfl ?_
    · intro l
      exact ⟨l.tracking, l.search, by simp, fun _ => hf, l.held, l.back, l.absent, l.closing⟩
    · exact fun l f h1 h2 => l f h1 h2

theorem Keeps.lasersOff (h : Keeps L s t) : Keeps L s (lasersOff t) := by
  obtain ⟨hf, ht, ha⟩ := focusOff_focus t
  have h1 := h.focusOff
  refine h1.mechanism { (Machine.focusOff t).optics with profile := none, switch := none }
    (Machine.focusOff t).sled (Machine.focusOff t).monitor ?_ rfl id rfl ?_
  · intro l
    exact ⟨l.tracking, l.search, by simp, fun _ => hf, l.held, l.back, l.absent, l.closing⟩
  · exact fun l f h1 h2 => l f h1 h2

/-! ### Sled -/

/-- A sled that rests is on the rail where its position is (R97). -/
theorem legOver_rail (k : TrackingState) (n : Int) (sl : Sled) (h : RailOk sl) : RailOk ((sl.takesLeg n).legOver k) := by
  intro x hx
  refine ⟨(h x hx).1, ?_⟩
  simp only [Sled.legOver, restState]
  split <;> simp

theorem Keeps.sledLeg {r : Requester} {n : Int} (h : Keeps L s t) : Keeps L s (sledLeg r n t).1 := by
  have rests : Keeps L s (t.setSled ((t.sled.takesLeg n).legOver t.optics.tracking)) := h.sled rfl (legOver_rail _ _ _)
  have begins : ∀ x, t.sled.position = some x → beyondRail n x = false → Keeps L s (t.setSled { t.sled.takesLeg n with
      state := .leg, requester := some r }) := by
    intro x hx hb
    refine h.sled rfl ?_
    intro k y hy
    have hy' : t.sled.position = some y := hy
    have : y = x := by
      rw [hx] at hy'
      exact (Option.some.inj hy').symm
    subst this
    exact ⟨(k y hx).1, fun _ => hb⟩
  unfold Machine.sledLeg
  dsimp only
  split
  all_goals first
    | exact h
    | rename_i hx
      split
      · exact rests
      · split
        · exact rests
        · rename_i hb
          exact begins _ hx (by simpa using hb)

theorem stop_rail (sl : Sled) (h : RailOk sl) : RailOk sl.stop := by
  unfold Sled.stop
  split
  · exact h
  · rename_i hc
    exact fun x hx => ⟨(h x hx).1, by simp⟩
  · exact h
  · split
    · exact fun x hx => by simp at hx
    · exact h

theorem stop_home (sl : Sled) : sl.stop.homeClosed = sl.homeClosed := by
  unfold Sled.stop
  split <;> try split
  all_goals rfl

theorem Keeps.sledStop (h : Keeps L s t) : Keeps L s (sledStop t) := h.sled (stop_home _) (stop_rail _)

theorem Keeps.homingCommand (h : Keeps L s t) : Keeps L s (homingCommand t).1 := by
  unfold Machine.homingCommand
  dsimp only
  split <;> split
  · exact Keeps.sled h.planner rfl (fun _ x hx => by
      simp [Sled.homed] at hx
      subst hx
      simp [Sled.homed])
  · exact Keeps.sled h.planner rfl (fun _ x hx => by simp at hx)
  · exact h.sled rfl (fun _ x hx => by
      simp [Sled.homed] at hx
      subst hx
      simp [Sled.homed])
  · exact h.sled rfl (fun _ x hx => by simp at hx)

theorem Keeps.pauseHoming (h : Keeps L s t) : Keeps L s (pauseHoming t) := by
  unfold Machine.pauseHoming
  split
  · exact h.sled
  · exact h

theorem Keeps.resumeHoming (h : Keeps L s t) : Keeps L s (resumeHoming t) := by
  unfold Machine.resumeHoming
  split
  · exact h.sled
  · exact h

end Sys2Proof.Laws
end

