-- ==== Sys2Proof/Laws/Slots.lean ====
section
/-! SUPPORT. The arbiter's slots: a motion taken from a slot is in hand until it is DONE or placed again. -/

namespace Sys2Proof.Laws

set_option Elab.async false

open Sys2Proof.Machine Sys2Proof.Safety

variable {s t : State} {L : List Motion} {m m' : Motion}

/-! ### What the slot writes leave -/

@[simp] theorem setActive_arbiter (x : Option Motion) (s : State) :
    (setActive x s).arbiter = { s.arbiter with active := x } := rfl

@[simp] theorem setAttached_arbiter (x : Option Motion) (s : State) :
    (setAttached x s).arbiter = { s.arbiter with attached := x } := rfl

@[simp] theorem setWaiting_arbiter (x : List Motion) (s : State) :
    (setWaiting x s).arbiter = { s.arbiter with waiting := x } := rfl

@[simp] theorem disown_arbiter (s : State) : (disown s).arbiter = s.arbiter := rfl

theorem named_congr (h1 : m'.port = m.port) (h2 : m'.tag = m.tag) (p : Port) (tag : Byte) :
    Motion.named p tag m' = Motion.named p tag m := by simp [Motion.named, h1, h2]

/-- The record in hand may be rewritten; its port and tag name it. -/
theorem Keeps.renamed (h : Keeps (m :: L) s t) (h1 : m'.port = m.port := by rfl) (h2 : m'.tag = m.tag := by rfl) :
    Keeps (m' :: L) s t :=
  { h with
    motions := fun p tag => by
      have := h.motions p tag
      simpa [List.countP_cons, named_congr h1 h2] using this }

/-! ### The attached slot (R137) -/

theorem attachedOk_none {s : State} (h : s.arbiter.attached = none) : AttachedOk s := by
  intro r hr
  rw [h] at hr
  cases hr

theorem attachedOk_some {s : State} (h : s.arbiter.attached = some m) (hk : m.kind = .rejoin) : AttachedOk s := by
  intro r hr
  rw [h] at hr
  exact Option.some.inj hr ▸ hk

/-! ### Writes to the slots -/

/-- A write to the slots that moves motions between them and the hand. -/
theorem Keeps.slots {L' : List Motion} {x : Arbiter} (h : Keeps L s t)
    (h3 : ∀ p tag, (liveMotions (t.setArbiter x)).countP (Motion.named p tag) + L'.countP (Motion.named p tag)
      = (liveMotions t).countP (Motion.named p tag) + L.countP (Motion.named p tag))
    (h1 : x.arrivals = t.arbiter.arrivals := by rfl)
    (h2 : x.done = t.arbiter.done := by rfl)
    (h4 : AttachedOk t → AttachedOk (t.setArbiter x) := by exact id) : Keeps L' s (t.setArbiter x) where
  clock := h.clock
  picks := h.picks
  pending := h.pending
  entries := h.entries
  defaultCap := h.defaultCap
  retryCount := h.retryCount
  amTime := h.amTime
  arrivals := h1.trans h.arrivals
  done := by
    obtain ⟨l, hl⟩ := h.done
    exact ⟨l, h2.trans hl⟩
  clamp := h.clamp
  supply := h.supply
  homeClosed := h.homeClosed
  measured := h.measured
  port := h.port
  trim := h.trim
  settings := h.settings
  target := h.target
  history := h.history
  speed := h.speed
  gain := h.gain
  classes := h.classes
  map := h.map
  loops := h.loops
  fresh := h.fresh
  rail := h.rail
  attached := h4 ∘ h.attached
  restart := h.restart
  motions p tag := by
    have k := h.motions p tag
    have l := h3 p tag
    simp only [motionCount, doneCount, State.setArbiter_arbiter, h2] at k ⊢
    omega
  reports p tag := by
    have k := h.reports p tag
    simpa [doneCount, h2] using k

theorem Keeps.takeActive (h : Keeps L s t) (ha : t.arbiter.active = some m) : Keeps (m :: L) s (setActive none t) := by
  refine h.slots (fun p tag => ?_)
  simp only [liveMotions, State.setArbiter_arbiter, ha, List.countP_append, List.countP_cons,
    Option.toList_none, Option.toList_some, List.countP_nil]
  omega

theorem Keeps.putActive (h : Keeps (m :: L) s t) (ha : t.arbiter.active = none) : Keeps L s (setActive (some m) t) := by
  refine h.slots (fun p tag => ?_)
  simp only [liveMotions, State.setArbiter_arbiter, ha, List.countP_append, List.countP_cons,
    Option.toList_none, Option.toList_some, List.countP_nil]
  omega

theorem Keeps.mapActive {f : Motion → Motion} (h : Keeps L s t) (h1 : ∀ m, (f m).port = m.port := by intro; rfl)
    (h2 : ∀ m, (f m).tag = m.tag := by intro; rfl) : Keeps L s (setActive (t.arbiter.active.map f) t) := by
  refine h.slots (fun p tag => ?_)
  cases ha : t.arbiter.active <;>
    simp [liveMotions, ha, List.countP_cons, named_congr (h1 _) (h2 _)]

theorem Keeps.changeActive (h : Keeps L s t) (ha : t.arbiter.active = some m) (h1 : m'.port = m.port := by rfl)
    (h2 : m'.tag = m.tag := by rfl) : Keeps L s (setActive (some m') t) := by
  refine h.slots (fun p tag => ?_)
  simp [liveMotions, ha, List.countP_cons, named_congr h1 h2]

theorem Keeps.takeAttached (h : Keeps L s t) (ha : t.arbiter.attached = some m) :
    Keeps (m :: L) s (setAttached none t) := by
  refine h.slots (fun p tag => ?_) rfl rfl (fun _ => attachedOk_none rfl)
  simp only [liveMotions, State.setArbiter_arbiter, ha, List.countP_append, List.countP_cons,
    Option.toList_none, Option.toList_some, List.countP_nil]
  omega

theorem Keeps.putAttached (h : Keeps (m :: L) s t) (ha : t.arbiter.attached = none) (hk : m.kind = .rejoin) :
    Keeps L s (setAttached (some m) t) := by
  refine h.slots (fun p tag => ?_) rfl rfl (fun _ => attachedOk_some rfl hk)
  simp only [liveMotions, State.setArbiter_arbiter, ha, List.countP_append, List.countP_cons,
    Option.toList_none, Option.toList_some, List.countP_nil]
  omega

theorem Keeps.mapAttached {f : Motion → Motion} (h : Keeps L s t) (h1 : ∀ m, (f m).port = m.port := by intro; rfl)
    (h2 : ∀ m, (f m).tag = m.tag := by intro; rfl) (h3 : ∀ m, (f m).kind = m.kind := by intro; rfl) :
    Keeps L s (setAttached (t.arbiter.attached.map f) t) := by
  refine h.slots (fun p tag => ?_) rfl rfl (fun k => ?_)
  swap
  · cases ha : t.arbiter.attached with
    | none => exact attachedOk_none rfl
    | some m => exact attachedOk_some rfl ((h3 m).trans (k m ha))
  cases ha : t.arbiter.attached <;>
    simp [liveMotions, ha, List.countP_cons, named_congr (h1 _) (h2 _)]

theorem Keeps.changeAttached (h : Keeps L s t) (ha : t.arbiter.attached = some m) (h1 : m'.port = m.port := by rfl)
    (h2 : m'.tag = m.tag := by rfl) (h3 : m'.kind = m.kind := by rfl) : Keeps L s (setAttached (some m') t) := by
  refine h.slots (fun p tag => ?_) rfl rfl (fun k => attachedOk_some rfl (h3.trans (k m ha)))
  simp [liveMotions, ha, List.countP_cons, named_congr h1 h2]

theorem Keeps.takeHead {rest : List Motion} (h : Keeps L s t) (ha : t.arbiter.waiting = m :: rest) :
    Keeps (m :: L) s (setWaiting rest t) := by
  refine h.slots (fun p tag => ?_)
  simp only [liveMotions, State.setArbiter_arbiter, ha, List.countP_append, List.countP_cons]
  omega

theorem Keeps.takeWaiting (h : Keeps L s t) (ha : m ∈ t.arbiter.waiting) :
    Keeps (m :: L) s (setWaiting (t.arbiter.waiting.erase m) t) := by
  refine h.slots (fun p tag => ?_)
  have := (List.perm_cons_erase ha).countP_eq (Motion.named p tag)
  simp only [liveMotions, State.setArbiter_arbiter, List.countP_append, List.countP_cons] at this ⊢
  omega

/-- Every insertion into the pending list keeps its motions (R130). -/
theorem insertWaiting_perm (m : Motion) (l : List Motion) : (insertWaiting m l).Perm (m :: l) := by
  induction l with
  | nil => exact .refl _
  | cons w rest ih =>
    simp only [insertWaiting]
    split
    · exact .refl _
    · exact (ih.cons w).trans (.swap m w rest)

theorem Keeps.putWaiting (h : Keeps (m :: L) s t) : Keeps L s (setWaiting (insertWaiting m t.arbiter.waiting) t) := by
  refine h.slots (fun p tag => ?_)
  have := (insertWaiting_perm m t.arbiter.waiting).countP_eq (Motion.named p tag)
  simp only [liveMotions, State.setArbiter_arbiter, List.countP_append, List.countP_cons] at this ⊢
  omega

/-! ### Phases and counts -/

theorem Keeps.setPhase {ph : Phase} (h : Keeps L s t) : Keeps L s (setPhase ph t) := h.mapActive

theorem Keeps.markRejoin {b : Bool} (h : Keeps L s t) : Keeps L s (markRejoin b t) := h.mapActive

theorem Keeps.setLegPhase {ph : Phase} (h : Keeps L s t) : Keeps L s (setLegPhase ph t) := by
  unfold Machine.setLegPhase
  split
  · exact h.setPhase
  · exact h

theorem Keeps.countLeg (h : Keeps L s t) : Keeps L s (countLeg t) := by
  unfold Machine.countLeg
  dsimp only
  split
  · exact h.mapActive
  · exact h.mapAttached
  · exact h
  · exact h

theorem Keeps.countBad (h : Keeps L s t) : Keeps L s (countBad t) := by
  unfold Machine.countBad
  dsimp only
  split
  · rename_i hr
    exact h.changeAttached hr
  · exact h.mapActive

/-! ### Ends -/

/-- What the end of a motion does: its record is DONE, its report joins its port's queue (R121, R144, R196). -/
theorem endMotion_arbiter (m : Motion) (r : Result) (f : Option Nat) (s : State) :
    (endMotion m r f s).arbiter = { s.arbiter with
      done := s.arbiter.done ++ [{ m with status := .done, phase := none, result := some r }] } := by
  simp [endMotion, queueCompletion]

theorem endMotion_port (m : Motion) (r : Result) (f : Option Nat) (s : State) (p : Port) :
    (endMotion m r f s).port p = if p = m.port then (s.port p).joined (.completion (m.report r f)) else s.port p := by
  simp only [endMotion, queueCompletion_port, State.setArbiter_port]
  split
  · rename_i h
    subst h
    rfl
  · rfl

theorem endMotion_blocks (m : Motion) (r : Result) (f : Option Nat) (s : State) :
    (endMotion m r f s).clock = s.clock ∧ (endMotion m r f s).planner = s.planner ∧
    (endMotion m r f s).map = s.map ∧ (endMotion m r f s).zones = s.zones ∧
    (endMotion m r f s).monitor = s.monitor ∧ (endMotion m r f s).optics = s.optics ∧
    (endMotion m r f s).sled = s.sled ∧ (endMotion m r f s).spindle = s.spindle ∧
    (endMotion m r f s).recovery = s.recovery ∧ (endMotion m r f s).supervisor = s.supervisor ∧
    (endMotion m r f s).picks = s.picks ∧ (endMotion m r f s).pending = s.pending := by
  simp [endMotion, queueCompletion]

theorem Keeps.endMotion {r : Result} {f : Option Nat} (h : Keeps (m :: L) s t) : Keeps L s (endMotion m r f t) := by
  obtain ⟨b1, b2, b3, b4, b5, b6, b7, b8, b9, b10, b11, b12⟩ := endMotion_blocks m r f t
  have hd : ∀ p tag, doneCount p tag (Machine.endMotion m r f t)
      = doneCount p tag t + if Motion.named p tag m then 1 else 0 := by
    intro p tag
    simp only [doneCount, endMotion_arbiter, List.countP_append, List.countP_cons, List.countP_nil, Nat.zero_add]
    rfl
  have hl : liveMotions (Machine.endMotion m r f t) = liveMotions t := by
    simp [liveMotions, endMotion_arbiter]
  have hr : ∀ p tag, reportCount tag ((Machine.endMotion m r f t).port p).queue
      = reportCount tag (t.port p).queue + if Motion.named p tag m then 1 else 0 := by
    intro p tag
    rw [Machine.endMotion, queueCompletion_reports]
    simp only [State.setArbiter_port, Motion.report, Motion.named, Bool.and_eq_true, beq_iff_eq]
    rfl
  exact {
    clock := by rw [b1]; exact h.clock
    picks := by rw [b11]; exact h.picks
    pending := by rw [b12]; exact h.pending
    entries := by rw [b4]; exact h.entries
    defaultCap := by rw [b4]; exact h.defaultCap
    retryCount := by rw [b9]; exact h.retryCount
    amTime := by rw [b9]; exact h.amTime
    arrivals := by rw [endMotion_arbiter]; exact h.arrivals
    done := by
      obtain ⟨l, hl⟩ := h.done
      exact ⟨l ++ [{ m with status := .done, phase := none, result := some r }],
        by rw [endMotion_arbiter, hl, List.append_assoc]⟩
    clamp := by rw [b10]; exact h.clamp
    supply := by rw [b10]; exact h.supply
    homeClosed := by rw [b7]; exact h.homeClosed
    measured := by rw [b8]; exact h.measured
    port := fun p => by
      have k := queueCompletion_keepsPort m.port p (m.report r f) (t.setArbiter { t.arbiter with
        done := t.arbiter.done ++ [{ m with status := .done, phase := none, result := some r }] })
      rw [State.setArbiter_port] at k
      exact (h.port p).trans k
    trim := by simpa only [TrimOk, b2] using h.trim
    settings := by simpa only [SettingsOk, b9] using h.settings
    target := by simpa only [TargetOk, b8] using h.target
    history := by simpa only [HistoryOk, b9] using h.history
    speed := by simpa only [SpeedOk, b8, b9] using h.speed
    gain := by simpa only [GainOk, b6, b9] using h.gain
    classes := by simpa only [ClassesAgree, b3, b10] using h.classes
    map := by rw [b3]; exact h.map
    loops := by rw [b6]; exact h.loops
    fresh := by simpa only [FreshOk, b5, b6] using h.fresh
    rail := by rw [b7]; exact h.rail
    attached := by simpa only [AttachedOk, endMotion_arbiter] using h.attached
    restart := by simpa only [RestartOk, b10] using h.restart
    motions := fun p tag => by
      have k := h.motions p tag
      simp only [motionCount, hl, hd, List.countP_cons] at k ⊢
      omega
    reports := fun p tag => by
      have k := h.reports p tag
      rw [hd, hr]
      omega }

theorem Keeps.endMotions {ms : List (Motion × Result)} {f : Option Nat} :
    ∀ {t : State}, Keeps (ms.map Prod.fst ++ L) s t → Keeps L s (endMotions ms f t) := by
  induction ms with
  | nil => exact fun h => h
  | cons e ms ih => exact fun h => ih (Keeps.endMotion h)

/-- The order of the motions in hand does not matter. -/
theorem Keeps.perm {L' : List Motion} (h : Keeps L s t) (hp : L.Perm L') : Keeps L' s t :=
  { h with motions := fun p tag => by rw [← hp.countP_eq]; exact h.motions p tag }

theorem Keeps.disown (h : Keeps L s t) : Keeps L s (disown t) := h.planner

theorem Keeps.stopSledLeg (h : Keeps L s t) : Keeps L s (stopSledLeg t) := by
  unfold Machine.stopSledLeg
  split
  · exact h.sledStop
  · exact h

@[simp] theorem stopSledLeg_arbiter (s : State) : (stopSledLeg s).arbiter = s.arbiter := by
  unfold Machine.stopSledLeg
  split <;> rfl

/-- With no sled leg RUNNING there is nothing to stop (R59). -/
theorem stopSledLeg_still {s : State} (h : s.planner.legStage ≠ .running) : stopSledLeg s = s := by
  simp [Machine.stopSledLeg, h]

@[simp] theorem withdraw_arbiter (s : State) : (withdraw s).arbiter = s.arbiter := by simp [Machine.withdraw]

theorem Keeps.withdraw (h : Keeps L s t) : Keeps L s (withdraw t) := h.disown.stopSledLeg

theorem Keeps.endAll {r : Result} (h : Keeps L s t) : Keeps L s (endAll r t) := by
  unfold Machine.endAll
  apply Keeps.endMotions
  apply Keeps.disown
  refine h.slots (fun p tag => ?_) rfl rfl (fun _ => attachedOk_none rfl)
  simp [liveMotions, Function.comp_def]
  omega

theorem Keeps.endRecovery (h : Keeps L s t) : Keeps L s (endRecovery t) := h.recovery

theorem Keeps.holdAt {a : Nat} (h : Keeps L s t) : Keeps L s (holdAt a t) := h.hold.reportDrive

theorem Keeps.holdHere (h : Keeps L s t) : Keeps L s (holdHere t) := by
  unfold Machine.holdHere
  split
  · exact h.holdAt
  · exact h.reportDrive

end Sys2Proof.Laws
end

