-- ==== Sys2Proof/Laws/Planner.lean ====
section
/-! SUPPORT. The seek planner: what plans, legs, landings and ends of targets keep. -/

namespace Sys2Proof.Laws

set_option Elab.async false

open Sys2Proof.Machine Sys2Proof.Safety

variable {s t : State} {L : List Motion} {m m' : Motion}

/-! ### Legs -/

theorem Keeps.legBegins {k : LegKind} {n : Int} (h : Keeps L s t) : Keeps L s (legBegins k n t) := by
  unfold Machine.legBegins
  dsimp only
  apply Keeps.staleFix
  split
  · exact h.planner.countLeg.setPhase
  · exact h.planner.countLeg

theorem Keeps.fineLegEnds (h : Keeps L s t) : Keeps L s (fineLegEnds t) := by
  unfold Machine.fineLegEnds
  split
  · split
    · exact h.planner
    · exact h.planner.setLegPhase
  · exact h

theorem Keeps.beginFine {k : Int} (h : Keeps L s t) : Keeps L s (beginFine k t) := by
  unfold Machine.beginFine
  dsimp only
  split
  · exact h.legBegins.fineLegEnds
  split
  · rename_i hc
    exact h.legBegins.beginJump (by simp [hc]) (by simp)
  · rename_i hc
    exact h.legBegins.beginJump (by simp [hc]) (by simp)
  · exact h.legBegins.optics
  · exact h.legBegins.lapseLeg

theorem Keeps.sledLegEnds {b : Bool} (h : Keeps L s t) : Keeps L s (sledLegEnds b t) := by
  unfold Machine.sledLegEnds
  dsimp only
  split
  · exact h.closeTracking.planner.setLegPhase
  · exact h

theorem Keeps.beginSled {n : Int} (h : Keeps L s t) : Keeps L s (beginSled n t) := by
  have h1 := (h.legBegins (k := .sled) (n := n)).openTracking.sledLeg (r := .planner) (n := n)
  unfold Machine.beginSled
  dsimp only
  split
  · exact h1
  · exact h1.sledLegEnds
  · exact h1.sledLegEnds

theorem Keeps.planLeg {k : DiscClass} {d : Int} (h : Keeps L s t) : Keeps L s (planLeg k d t).1 := by
  unfold Machine.planLeg
  dsimp only
  split
  · exact h
  · split
    · exact h.beginFine
    · exact h.beginSled

theorem Keeps.makePlan (h : Keeps L s t) : Keeps L s (makePlan t).1 := by
  unfold Machine.makePlan
  split
  · split
    · dsimp only
      split
      · exact h.planner.spindleCommand
      · exact h.planner.spindleCommand
      · exact (Keeps.spindleCommand h.planner).planLeg
    · exact h
  · exact h

/-! ### Ends of targets -/

theorem Keeps.followTest {a : Nat} (h : Keeps L s t) : Keeps L s (followTest a t) := by
  unfold Machine.followTest
  split
  · rename_i m hm
    dsimp only
    split
    · split
      · exact (h.takeActive hm).endMotion.holdAt
      · split
        · exact (Keeps.endMotion ((h.takeActive hm).renamed)).holdAt
        · exact h.changeActive hm
    · exact h
  · exact h

theorem Keeps.enterFollowing {e : FollowEntry} (h : Keeps L s t) : Keeps L s (enterFollowing e t) := by
  unfold Machine.enterFollowing
  split
  · exact h.setPhase.markRejoin.disown.reportDrive.releaseHold.offer.followTest
  · exact h

theorem Keeps.endAttached {r : Result} (h : Keeps L s t) : Keeps L s (endAttached r t) := by
  unfold Machine.endAttached
  split
  · rename_i m hm
    exact (h.takeAttached hm).endMotion.enterFollowing
  · exact h

theorem Keeps.endInternal {a : Nat} (h : Keeps L s t) : Keeps L s (endInternal a t) :=
  h.hold.disown.endRecovery.reportDrive

theorem Keeps.targetReached {a : Nat} (h : Keeps L s t) : Keeps L s (targetReached a t) := by
  unfold Machine.targetReached
  split
  · exact h
  · exact h.endInternal
  · exact h.endAttached
  · split
    · rename_i m hm
      split
      · exact h.enterFollowing
      · exact (h.takeActive hm).disown.endMotion.holdAt
    · exact h

theorem Keeps.unreachedBy {c : Cause} (h : Keeps L s t) : Keeps L s (unreachedBy m c t) := h.planner

theorem Keeps.targetUnreached {c : Cause} (h : Keeps L s t) : Keeps L s (targetUnreached c t) := by
  unfold Machine.targetUnreached
  split
  · exact h
  · exact h.endInternal
  · split
    · exact h.unreachedBy.endAttached
    · exact h
  · split
    · rename_i m hm
      exact ((Keeps.unreachedBy h).takeActive (m := m) hm).disown.endMotion.holdHere
    · exact h

theorem Keeps.plan (h : Keeps L s t) : Keeps L s (plan t) := by
  have h1 := (h.planner (x := t.planner.legOver)).makePlan
  unfold Machine.plan
  dsimp only
  split
  · exact h
  · split
    · exact h1
    · exact h1
    · apply Keeps.endHold
      split
      · exact h1
      · exact h1.setPhase
    · exact h1.targetReached
    · exact h1.targetUnreached

/-! ### Landings -/

/-- An inserted map replaces the map (R10 to R15). -/
theorem Keeps.inserted {a c : Nat} {o : Origin} {i : Inserted} (h : Keeps L s t) (ho : o ≠ .seed)
    (hi : t.map.insert a c o = some i) : Keeps L s (t.setMap i.map) := by
  have hcls : i.map.cls = t.map.cls := by
    unfold PosMap.insert at hi
    split at hi <;> cases hi
    rfl
  refine h.trans ?_
  constructor <;> first | rfl | exact id | exact done_same _ | exact fun _ => PortKeeps.refl _ | exact fun _ _ => rfl | skip
  · intro k
    simpa [ClassesAgree, hcls] using k
  · exact fun k => (insert_ok k ho hi).1

theorem Keeps.learn {a : Nat} (h : Keeps L s t) : Keeps L s (learn a t) := by
  unfold Machine.learn
  dsimp only
  split
  · split
    · split
      · rename_i hi
        exact h.inserted (by simp) hi
      · exact h
    · exact h
  · exact h

/-- The trim a full sled leg gives lies in its range (R57). -/
theorem newTrim_range (k : DiscClass) (tr : Nat) (n o : Int) (h : 3686 ≤ tr ∧ tr ≤ 4506) :
    3686 ≤ newTrim k tr n o ∧ newTrim k tr n o ≤ 4506 := by
  unfold newTrim
  split
  · simp only [clampTo]
    split
    · omega
    · split <;> omega
  · exact h

theorem Keeps.updateTrim {a : Nat} (h : Keeps L s t) : Keeps L s (updateTrim a t) := by
  unfold Machine.updateTrim
  split
  · refine h.trans ?_
    constructor <;> first | rfl | exact id | exact done_same _ | exact fun _ => PortKeeps.refl _ | exact fun _ _ => rfl | skip
    exact newTrim_range _ _ _ _
  · exact h

theorem Keeps.landingTeaches {a : Nat} (h : Keeps L s t) : Keeps L s (landingTeaches a t) := by
  unfold Machine.landingTeaches
  split
  · split
    · exact h.learn
    · exact h.updateTrim
    · exact h
  · exact h

theorem Keeps.landUnowned {a : Nat} (h : Keeps L s t) : Keeps L s (landUnowned a t) := by
  have h1 := h.planner (x := t.planner.legOver)
  unfold Machine.landUnowned
  dsimp only
  split
  · split
    · exact h1.endAttached
    · exact h1
  · rename_i m _ hm
    split
    · exact (h1.takeActive hm).endMotion.holdAt
    · exact h1
  · exact h1.holdAt

theorem Keeps.land {a : Nat} (h : Keeps L s t) : Keeps L s (land a t) := by
  unfold Machine.land
  dsimp only
  split
  · exact h.planner
  · split
    · exact h.landingTeaches.landUnowned
    · exact h.landingTeaches.plan

theorem Keeps.settleEnds (h : Keeps L s t) : Keeps L s (settleEnds t) := h.planner.setLegPhase.restartMonitor

theorem Keeps.landLeft {a : Nat} (h : Keeps L s t) : Keeps L s (landLeft a t) := by
  unfold Machine.landLeft
  dsimp only
  split
  · split
    · exact h.planner
    · exact h.landingTeaches.planner
  · exact h

/-! ### ACQUIRE -/

theorem Keeps.acquireEnds {a : Nat} (h : Keeps L s t) : Keeps L s (acquireEnds a t) := h.landLeft.planner.plan

theorem Keeps.acquireClose (h : Keeps L s t) : Keeps L s (acquireClose t) := by
  have h1 := h.closeTracking (r := .planner)
  unfold Machine.acquireClose
  dsimp only
  split
  · exact h1.planner
  · exact h1.planner
  · exact h1

theorem Keeps.startAcquire (h : Keeps L s t) : Keeps L s (startAcquire t) := h.spindleCommand.planner.setPhase

end Sys2Proof.Laws
end

