-- ==== Sys2Proof/Laws/Supervisor.lean ====
section
/-! SUPPORT. The drive supervisor: what parks, faults, STOP and RELEASE mechanics and identification keep. -/

namespace Sys2Proof.Laws

set_option Elab.async false

open Sys2Proof.Machine Sys2Proof.Safety

variable {s t : State} {L : List Motion}

/-! ### Parks and faults -/

theorem Keeps.brake (h : Keeps L s t) : Keeps L s (brake t) := h.brakeSpindle.staleFix

theorem Keeps.endSagHold (h : Keeps L s t) : Keeps L s (endSagHold t) := h.supervisor

theorem Keeps.endIdent (h : Keeps L s t) : Keeps L s (endIdent t) :=
  h.supervisor rfl rfl rfl (fun _ i hi => by cases hi)

theorem Keeps.endSwitch (h : Keeps L s t) : Keeps L s (endSwitch t) := by
  refine h.mechanism { t.optics with switch := none } t.sled t.monitor ?_ rfl id rfl ?_
  · intro l
    exact ⟨l.tracking, l.search, by simp, l.dark, l.held, l.back, l.absent, l.closing⟩
  · exact fun l f h1 h2 => l f h1 h2

theorem Keeps.abandonIdent (h : Keeps L s t) : Keeps L s (abandonIdent t) := h.endIdent.endSwitch

theorem Keeps.park (h : Keeps L s t) : Keeps L s (park t) := h.brake.focusOff.sledStop.endSagHold.endRecovery

theorem Keeps.recordFault {k : FaultKind} (h : Keeps L s t) : Keeps L s (recordFault k t) := h.supervisor

theorem Keeps.raiseFault {k : FaultKind} (h : Keeps L s t) : Keeps L s (raiseFault k t) := by
  unfold Machine.raiseFault
  dsimp only
  split
  · exact h.offer
  · exact h.recordFault.park.abandonIdent.endAll.setDrive.offer

/-! ### Clearing the map -/

/-- The state a clearing of the map leaves before m is computed again (R21). -/
def cleared (s : State) : State :=
  { s with
    map := PosMap.empty
    monitor := { s.monitor with
      fix := none, resume := none, expectedBase := none, jumpSum := 0, started := false, elapsed := 0 }
    zones := { s.zones with announced := none }
    recovery := { s.recovery with returnAddr := none, holdCopy := none } }

theorem clearMap_eq (s : State) : clearMap s = recomputeM (cleared s) := rfl

/-- A clearing of the map, the class gone from the supervisor or a map of its class put in (R21). -/
theorem Keeps.clearedTo {u : State} (h : Keeps L s t) (mp : PosMap) (c : Option DiscClass)
    (hu : u = (Machine.clearMap (t.setSupervisor { t.supervisor with cls := c })).setMap mp)
    (hc : mp.cls = c) (hm : MapOk mp) : Keeps L s u := by
  subst hu
  have k := (Keeps.refl (cleared (t.setSupervisor { t.supervisor with cls := c }))).recomputeM
  refine h.trans ?_
  rw [clearMap_eq]
  exact {
    clock := k.clock
    picks := k.picks
    pending := k.pending
    entries := k.entries
    defaultCap := k.defaultCap
    retryCount := k.retryCount
    amTime := k.amTime
    arrivals := k.arrivals
    done := k.done
    clamp := k.clamp
    supply := k.supply
    homeClosed := k.homeClosed
    measured := k.measured
    port := k.port
    trim := k.trim
    settings := k.settings
    target := k.target
    history := k.history
    speed := k.speed
    gain := k.gain
    classes := fun _ => by simpa [ClassesAgree, cleared] using hc
    map := fun _ => hm
    loops := k.loops
    fresh := fun _ f h1 => by simp [cleared] at h1
    rail := k.rail
    attached := k.attached
    restart := k.restart
    motions := k.motions
    reports := k.reports }

/-- A clearing that ends with the empty map. -/
theorem clearMap_map (s : State) : (clearMap s).map = PosMap.empty := by
  rw [clearMap_eq, recomputeM_map]
  rfl

theorem setMap_self (s : State) : s.setMap s.map = s := rfl

theorem Keeps.discGone (h : Keeps L s t) : Keeps L s (discGone t) := by
  obtain ⟨u, hu⟩ : ∃ u, u = Machine.forgetStart (Machine.disown t) := ⟨_, rfl⟩
  have h0 : Keeps L s u := hu ▸ h.disown.planner
  have h1 : Keeps L s (Machine.clearMap (u.setSupervisor { u.supervisor with cls := none })) := by
    refine h0.clearedTo PosMap.empty none ?_ rfl rfl
    rw [← clearMap_map (u.setSupervisor { u.supervisor with cls := none }), setMap_self]
  unfold Machine.discGone
  dsimp only
  rw [← hu]
  exact h1.lasersOff

theorem Keeps.latch {b : Bool} (h : Keeps L s t) : Keeps L s (t.setArbiter { t.arbiter with releaseLatch := b }) :=
  h.arbiter

theorem Keeps.enterEmpty (h : Keeps L s t) : Keeps L s (enterEmpty t) := h.discGone.latch.setDrive

theorem Keeps.enterReleased (h : Keeps L s t) : Keeps L s (enterReleased t) := by
  unfold Machine.enterReleased
  dsimp only
  have h1 := (Keeps.discGone h).setDrive (d := .released)
  split
  · rename_i m hm
    exact (h1.takeActive hm).endMotion
  · exact h1

/-! ### RELEASE and STOP mechanics -/

theorem Keeps.releaseHoming (h : Keeps L s t) : Keeps L s (releaseHoming t) := by
  have h1 := (h.setPhase (ph := .homing)).homingCommand
  unfold Machine.releaseHoming
  dsimp only
  split
  · exact h1.enterReleased
  · split
    · exact h1.pauseHoming
    · exact h1

theorem Keeps.releaseSags (h : Keeps L s t) : Keeps L s (releaseSags t) := by
  unfold Machine.releaseSags
  split
  · exact h.pauseHoming
  · exact h

theorem Keeps.releaseMechanics (h : Keeps L s t) : Keeps L s (releaseMechanics t) := by
  have h1 := (h.disown.abandonIdent.endSagHold.endRecovery.brake.lasersOff.sledStop.setDrive (d := .releasing)).setPhase
    (ph := .braking)
  unfold Machine.releaseMechanics
  dsimp only
  split
  · exact h1.releaseHoming
  · exact h1

theorem Keeps.enterStopped (h : Keeps L s t) : Keeps L s (enterStopped t) := by
  unfold Machine.enterStopped
  dsimp only
  have h1 := Keeps.setDrive (d := .stopped) h
  split
  · rename_i m hm
    split
    · exact (h1.takeActive hm).endMotion
    · exact h1
  · exact h1

theorem Keeps.parkOrStop (h : Keeps L s t) : Keeps L s (parkOrStop t) := by
  unfold Machine.parkOrStop
  split
  · exact h.enterStopped
  · exact h.setDrive

theorem Keeps.stopMechanics (h : Keeps L s t) : Keeps L s (stopMechanics t) := h.disown.setPhase.park.parkOrStop

theorem Keeps.sagPark (h : Keeps L s t) : Keeps L s (sagPark t) := h.park.endAll.parkOrStop

theorem Keeps.emergency (h : Keeps L s t) : Keeps L s (emergency t) :=
  h.brake.lasersOff.sledStop.abandonIdent.endSagHold.endRecovery.endAll.enterEmpty

theorem Keeps.spindleReportsStopped (h : Keeps L s t) : Keeps L s (spindleReportsStopped t) := by
  unfold Machine.spindleReportsStopped
  split
  · exact h.enterStopped
  · split
    · exact h.releaseHoming
    · exact h
  · exact h

/-! ### Identification -/

/-- A change of the identification record that waits for a restart only in a try (R161). -/
theorem Keeps.changeIdent {f : Ident → Ident} (h : Keeps L s t)
    (hf : ∀ i, t.supervisor.ident = some i → (i.restart = true → i.stage = .profileH ∨ i.stage = .profileL) →
      (f i).restart = true → (f i).stage = .profileH ∨ (f i).stage = .profileL := by
        first | exact fun _ _ k => k | exact fun _ _ _ hr => by cases hr) :
    Keeps L s (changeIdent f t) := by
  refine h.supervisor rfl rfl rfl (fun k j hj => ?_)
  obtain ⟨i, hi, rfl⟩ := Option.map_eq_some_iff.1 hj
  exact hf i hi (k i hi)

theorem Keeps.identAt {g : IdentStage} {x : Option ProfileStep} (h : Keeps L s t) : Keeps L s (identAt g x t) :=
  h.changeIdent

theorem Keeps.identSpin (h : Keeps L s t) : Keeps L s (identSpin t) := h.identAt.spindleCommand

theorem Keeps.identPosition (h : Keeps L s t) : Keeps L s (identPosition t) := by
  unfold Machine.identPosition
  dsimp only
  split
  · exact h.identAt.sledLeg.identSpin
  · exact h.identAt.sledLeg

theorem Keeps.identHome (h : Keeps L s t) : Keeps L s (identHome t) := by
  unfold Machine.identHome
  dsimp only
  split
  · exact h.identAt.homingCommand.identPosition
  · exact h.identAt.homingCommand

theorem Keeps.tryWindow (h : Keeps L s t) : Keeps L s (tryWindow t) := by
  unfold Machine.tryWindow
  split
  · exact h
  · split
    · exact h
    · dsimp only
      split
      · exact h.changeIdent
      · exact h.changeIdent.offer

/-- A failure of a try that keeps. -/
theorem Keeps.tryClose {f : State → State} (hf : ∀ {t}, Keeps L s t → Keeps L s (f t)) (h : Keeps L s t) :
    Keeps L s (tryClose f t) := by
  have h1 := (h.changeIdent (f := fun i => { i with step := some .closing })).closeTracking (r := .supervisor)
  unfold Machine.tryClose
  dsimp only
  split
  · exact h1
  · exact h1.tryWindow
  · exact hf h1

theorem Keeps.trySearch {f : State → State} (hf : ∀ {t}, Keeps L s t → Keeps L s (f t)) (h : Keeps L s t) :
    Keeps L s (trySearch f t) := by
  have h1 := (h.changeIdent (f := fun i => { i with step := some .searching })).focusSearch (r := .supervisor)
    (n := t.recovery.retryCount)
  unfold Machine.trySearch
  dsimp only
  split
  · exact h1
  · exact Keeps.tryClose hf h1
  · exact hf h1

theorem Keeps.tryProfile {g : IdentStage} {k : DiscClass} {f : State → State}
    (hf : ∀ {t}, Keeps L s t → Keeps L s (f t)) (h : Keeps L s t) : Keeps L s (tryProfile g k f t) := by
  unfold Machine.tryProfile
  dsimp only
  split
  · exact Keeps.trySearch hf h.changeIdent.profileSelect
  · exact h.changeIdent.profileSelect

theorem Keeps.failL (h : Keeps L s t) : Keeps L s (failL t) := h.changeIdent.raiseFault

theorem Keeps.failH (h : Keeps L s t) : Keeps L s (failH t) := Keeps.tryProfile Keeps.failL h.spindleCommand

theorem Keeps.tryFails (h : Keeps L s t) : Keeps L s (tryFails t) := by
  unfold Machine.tryFails
  split
  · split
    · exact h.failL
    · exact h.failH
  · exact h

theorem Keeps.firstTry (h : Keeps L s t) : Keeps L s (firstTry t) := Keeps.tryProfile Keeps.failH h

theorem Keeps.restartTry (h : Keeps L s t) : Keeps L s (restartTry t) := by
  unfold Machine.restartTry
  dsimp only
  split
  · exact Keeps.tryClose Keeps.tryFails h.changeIdent
  · exact Keeps.trySearch Keeps.tryFails h.changeIdent

theorem Keeps.identBegin (h : Keeps L s t) : Keeps L s (identBegin t) := by
  unfold Machine.identBegin
  split
  · exact h.identHome
  · exact h.identPosition

theorem Keeps.startIdent {o : IdentOrigin} (h : Keeps L s t) : Keeps L s (startIdent o t) := by
  unfold Machine.startIdent
  dsimp only
  split
  · refine h.latch.setDrive.supervisor rfl rfl rfl (fun _ i hi hr => ?_)
    cases hi
    cases hr
  · refine Keeps.identBegin (h.latch.setDrive.supervisor rfl rfl rfl (fun _ i hi hr => ?_))
    cases hi
    cases hr

theorem Keeps.identPause (h : Keeps L s t) : Keeps L s (identPause t) := by
  unfold Machine.identPause
  split
  · exact h
  · dsimp only
    split
    · exact h.changeIdent.pauseHoming
    · exact h.changeIdent.sledStop
    · exact h.changeIdent.coastSpindle
    · exact h.changeIdent.coastSpindle.openTracking
    · exact h.changeIdent.coastSpindle.openTracking

theorem Keeps.identResume (h : Keeps L s t) : Keeps L s (identResume t) := by
  unfold Machine.identResume
  split
  · exact h
  · dsimp only
    split
    · split
      · exact h.changeIdent.resumeHoming
      · exact h.changeIdent.identHome
    · exact h.changeIdent.identPosition
    · split
      · exact h.changeIdent.driveSpindleAgain
      · exact h.changeIdent.identSpin
    all_goals
      rename_i hst
      refine h.changeIdent.driveSpindleAgain.changeIdent (fun j hj _ _ => ?_)
      change t.supervisor.ident.map _ = some j at hj
      obtain ⟨i', hi', rfl⟩ := Option.map_eq_some_iff.1 hj
      simp_all

/-! ### Confirmation -/

/-- The fix is stored under loops that stand (R110). -/
theorem Keeps.storeFix {a c : Nat} (h : Keeps L s t) (hf : t.optics.focus = .locked) (ht : t.optics.tracking ≠ .off) :
    Keeps L s (storeFix a c t) := by
  unfold Machine.storeFix
  apply Keeps.restartMonitor
  refine h.trans ?_
  constructor <;> first | rfl | exact id | exact done_same _ | exact fun _ => PortKeeps.refl _ | exact fun _ _ => rfl | skip
  exact fun _ _ _ _ => ⟨hf, ht⟩

@[simp] theorem clearMap_optics (s : State) : (clearMap s).optics = s.optics := by
  rw [clearMap_eq, recomputeM_optics]
  rfl

/-- A confirmation seeds, keeps or replaces the map: the classes agree after it (R6, R7, R145, R155). -/
theorem Keeps.seededFor {k : DiscClass} (h : Keeps L s t) :
    Keeps L s (seedOrKeep k (t.setSupervisor { t.supervisor with cls := some k })) := by
  unfold Machine.seedOrKeep
  split
  · refine h.trans ?_
    constructor <;> first | rfl | exact id | exact done_same _ | exact fun _ => PortKeeps.refl _ | exact fun _ _ => rfl | skip
    · exact fun _ => rfl
    · exact fun _ => seeded_ok k
  · split
    · rename_i hk
      refine h.trans ?_
      constructor <;> first | rfl | exact id | exact done_same _ | exact fun _ => PortKeeps.refl _ | exact fun _ _ => rfl | skip
      exact fun _ => hk
    · exact h.clearedTo (PosMap.seeded k) (some k) rfl rfl (seeded_ok k)

theorem seedOrKeep_optics (k : DiscClass) (s : State) : (seedOrKeep k s).optics = s.optics := by
  unfold seedOrKeep
  split
  · rfl
  · split
    · rfl
    · simp

theorem Keeps.confirm {k : DiscClass} {a : Nat} (h : Keeps L s t) (hf : t.optics.focus = .locked)
    (ht : t.optics.tracking ≠ .off) : Keeps L s (confirm k a t) := by
  have h1 := h.seededFor (k := k)
  unfold Machine.confirm
  dsimp only
  split
  · exact h1
  · rename_i c _
    have h2 : Keeps L s (Machine.storeFix a c _) :=
      h1.storeFix (by rw [seedOrKeep_optics]; exact hf) (by rw [seedOrKeep_optics]; exact ht)
    exact h2.spindleOnFix.landLeft.setHeldSpeed.spindleCommand.hold.endIdent.setDrive.offer

end Sys2Proof.Laws
end

