-- ==== Sys2Proof/Laws/Recovery.lean ====
section
/-! SUPPORT. The recovery controller: what disturbances, phases, returns and sag holds keep. -/

namespace Sys2Proof.Laws

set_option Elab.async false

open Sys2Proof.Machine Sys2Proof.Safety

variable {s t : State} {L : List Motion}

/-! ### History and ROUGH -/

/-- The history after an entry has joined it (R171). -/
theorem appendHistory_length (e : HistoryEntry) (l : List HistoryEntry) (h : l.length ≤ 8) :
    (appendHistory e l).length ≤ 8 := by
  unfold appendHistory
  by_cases hc : Config.historyCapacity ≤ l.length
  · rw [if_pos hc]
    simp only [List.length_append, List.length_drop, List.length_cons, List.length_nil]
    omega
  · rw [if_neg hc]
    simp only [List.length_append, List.length_cons, List.length_nil]
    simp only [Config.historyCapacity] at hc
    omega

/-- ROUGH, the robust gain and m change together (R71, R95, R172). -/
theorem Keeps.setRough {b : Bool} (h : Keeps L s t) : Keeps L s (setRough b t) := by
  let u : State := { t with
    recovery := { t.recovery with rough := b }
    optics := { t.optics with robustGain := b } }
  have hu : ∀ n, Keeps [] (Machine.offer n u) (Machine.recomputeM (Machine.offer n u)) :=
    fun n => (Keeps.refl _).recomputeM
  have hn : ∀ n, Keeps [] u (Machine.offer n u) := fun n => (Keeps.refl _).offer
  have k := (hn _).trans (hu (.rough b t.clock (recentCount t.recovery.history t.clock)))
  have hs := recomputeM_speed (Machine.offer (.rough b t.clock (recentCount t.recovery.history t.clock)) u)
  refine h.trans ?_
  exact {
    clock := k.clock
    picks := k.picks
    pending := k.pending
    entries := k.entries
    defaultCap := k.defaultCap
    retryCount := k.retryCount
    amTime := k.amTime
    arrivals := k.arrivals
    done := k.done
    clamp := k.clamp
    supply := k.supply
    homeClosed := k.homeClosed
    measured := k.measured
    port := k.port
    trim := k.trim
    settings := k.settings
    target := k.target
    history := k.history
    speed := fun _ => hs
    gain := fun _ => k.gain rfl
    classes := k.classes
    map := k.map
    loops := fun l => k.loops ⟨l.tracking, l.search, l.switch, l.dark, l.held, l.back, l.absent, l.closing⟩
    fresh := k.fresh
    rail := k.rail
    attached := k.attached
    restart := k.restart
    motions := k.motions
    reports := k.reports }

theorem Keeps.recordDisturbance {d : Disturbance} {ph : RecoveryPhase} (h : Keeps L s t) :
    Keeps L s (recordDisturbance d ph t) := by
  have key : ∀ (e : HistoryEntry) (x : Option Time), Keeps L s (t.setRecovery { t.recovery with
      history := appendHistory e t.recovery.history, roughExit := x }) := by
    intro e x
    refine h.trans ?_
    constructor <;>
      first | rfl | exact id | exact done_same _ | exact fun _ => PortKeeps.refl _ | exact fun _ _ => rfl | exact appendHistory_length _ _
  unfold Machine.recordDisturbance
  dsimp only
  split
  · exact (key _ _).offer.setRough
  · exact (key _ _).offer

/-! ### Phases -/

/-- A write to the recovery record that counts a phase. -/
theorem Keeps.enterPhase {c : Recovery → Nat} {r : Recovery → Recovery} {k : FaultKind} {f : State → State}
    (h : Keeps L s t) (hf : ∀ {t}, Keeps L s t → Keeps L s (f t)) (hr : ∀ x, (r x).retryCount = x.retryCount ∧
      (r x).amTime = x.amTime ∧ (r x).retryLimit = x.retryLimit ∧ (r x).history = x.history ∧ (r x).rough = x.rough) :
    Keeps L s (enterPhase c r k f t) := by
  unfold Machine.enterPhase
  split
  · exact h.raiseFault
  · obtain ⟨h1, h2, h3, h4, h5⟩ := hr t.recovery
    exact hf (h.recovery h1 h2 h3 h4 h5)

theorem Keeps.beginRefix (h : Keeps L s t) : Keeps L s (beginRefix t) :=
  h.enterPhase id (fun _ => ⟨rfl, rfl, rfl, rfl, rfl⟩)

theorem Keeps.retrackClose (h : Keeps L s t) : Keeps L s (retrackClose t) := by
  unfold Machine.retrackClose
  dsimp only
  split
  · exact h.closeTracking.recovery
  · exact h.closeTracking

theorem Keeps.beginRetrack (h : Keeps L s t) : Keeps L s (beginRetrack t) :=
  h.enterPhase Keeps.retrackClose (fun _ => ⟨rfl, rfl, rfl, rfl, rfl⟩)

theorem Keeps.refocusSearch (h : Keeps L s t) : Keeps L s (refocusSearch t) := by
  have h1 := h.openTracking.sledStop.focusSearch (r := .recovery)
    (n := (Machine.sledStop (Machine.openTracking t)).recovery.retryLimit)
  unfold Machine.refocusSearch
  dsimp only
  split
  · exact h1
  · exact h1.beginRetrack
  · exact h1.raiseFault

theorem Keeps.beginRefocus (h : Keeps L s t) : Keeps L s (beginRefocus t) :=
  h.enterPhase Keeps.refocusSearch (fun _ => ⟨rfl, rfl, rfl, rfl, rfl⟩)

theorem Keeps.respinEnds (h : Keeps L s t) : Keeps L s (respinEnds t) := by
  unfold Machine.respinEnds
  split
  · exact h.beginRefocus
  · split
    · exact h.beginRetrack
    · exact h.beginRefix

theorem Keeps.beginRespin (h : Keeps L s t) : Keeps L s (beginRespin t) := by
  refine h.enterPhase ?_ (fun _ => ⟨rfl, rfl, rfl, rfl, rfl⟩)
  intro t h
  by_cases hc : t.spindle.state = .locked
  · rw [if_pos hc]
    exact h.respinEnds
  · rw [if_neg hc]
    exact h

theorem Keeps.beginPhase {ph : RecoveryPhase} (h : Keeps L s t) : Keeps L s (beginPhase ph t) := by
  unfold Machine.beginPhase
  split
  · exact h.beginRefocus
  · exact h.beginRetrack
  · exact h.beginRefix
  · exact h.beginRespin
  · exact h
  · exact h

/-! ### Beginning and restarting -/

theorem Keeps.openRecovery {kept : Option Phase} (h : Keeps L s t) : Keeps L s (openRecovery kept t) := by
  unfold Machine.openRecovery
  dsimp only
  apply Keeps.setDrive
  apply Keeps.setPhase
  refine h.trans ?_
  constructor <;> first | rfl | exact id | exact done_same _ | exact fun _ => PortKeeps.refl _ | exact fun _ _ => rfl | skip
  exact fun k => ⟨k.1, k.2.1, k.1⟩

theorem Keeps.endWaitingCancel (h : Keeps L s t) : Keeps L s (endWaitingCancel t) := by
  unfold Machine.endWaitingCancel
  split
  · rename_i r _ hr
    split
    · exact (h.takeAttached hr).endMotion.setPhase.markRejoin
    · exact h
  · rename_i m _ hm
    split
    · exact (h.takeActive hm).endMotion
    · exact h
  · exact h

theorem Keeps.beginRecovery {ph : RecoveryPhase} (h : Keeps L s t) : Keeps L s (beginRecovery ph t) :=
  h.endWaitingCancel.openRecovery.beginPhase

theorem Keeps.restartRecovery {ph : RecoveryPhase} (h : Keeps L s t) : Keeps L s (restartRecovery ph t) := by
  unfold Machine.restartRecovery
  dsimp only
  apply Keeps.beginPhase
  split
  · exact Keeps.withdraw h.recovery
  · exact h.recovery

theorem Keeps.disturbLeg (h : Keeps L s t) : Keeps L s (disturbLeg t) := by
  unfold Machine.disturbLeg
  split <;> first | exact h | exact h.planner

theorem Keeps.takeDisturbance {d : Disturbance} (h : Keeps L s t) : Keeps L s (takeDisturbance d t) := by
  unfold Machine.takeDisturbance
  dsimp only
  split
  · exact h.disturbLeg.recordDisturbance.restartRecovery
  · split
    · exact h.disturbLeg.recordDisturbance.beginRecovery
    · exact h.disturbLeg.recordDisturbance

/-! ### Return -/

theorem Keeps.handBack (h : Keeps L s t) : Keeps L s (handBack t) := by
  unfold Machine.handBack
  split
  · exact h.planner
  · exact h.planner

theorem Keeps.returnMotion (h : Keeps L s t) : Keeps L s (returnMotion t) := 
  h.handBack.endRecovery.reportDrive.ownerTaken.plan

theorem Keeps.returnInternal (h : Keeps L s t) : Keeps L s (returnInternal t) := by
  unfold Machine.returnInternal
  split
  · refine (Keeps.ownerTaken (h.trans ?_)).plan
    constructor <;> first | rfl | exact id | exact done_same _ | exact fun _ => PortKeeps.refl _ | exact fun _ _ => rfl
  · exact h.endInternal

theorem Keeps.refixEnds (h : Keeps L s t) : Keeps L s (refixEnds t) := by
  unfold Machine.refixEnds
  split
  · exact h.returnMotion
  · split
    · exact h.recovery
    · exact h.returnInternal

/-! ### Sag hold -/

theorem Keeps.sagLeg (h : Keeps L s t) : Keeps L s (sagLeg t) := by
  unfold Machine.sagLeg
  split
  · exact h
  · exact h.planner

theorem Keeps.beginSagHold (h : Keeps L s t) : Keeps L s (beginSagHold t) := by
  have h1 := h.coastSpindle.sledStop.openTracking.sagLeg.endWaitingCancel
  unfold Machine.beginSagHold
  dsimp only
  apply Keeps.setDrive
  split
  · exact (Keeps.planner h1.supervisor).endRecovery.setPhase.disown
  · exact (Keeps.planner h1.supervisor).endRecovery.setPhase

theorem Keeps.endSagWithRecovery (h : Keeps L s t) : Keeps L s (endSagWithRecovery t) :=
  h.driveSpindleAgain.endSagHold.openRecovery.beginPhase

end Sys2Proof.Laws
end

