-- ==== Sys2Proof/Laws/Arbiter.lean ====
section
/-! SUPPORT. The motion arbiter and the operations every command ends with: what placement, the start test, CANCEL, a new
fix, the resets and the passing of time keep. -/

namespace Sys2Proof.Laws

set_option Elab.async false

open Sys2Proof.Machine Sys2Proof.Safety

variable {s t : State} {L : List Motion} {m m' : Motion}

/-! ### Supersession (R126 to R128) -/

/-- The motions a new kind ends and those it leaves are the motions there were. -/
theorem ended_count (k : MotionKind) (p : Port) (tag : Byte) (l : List Motion) :
    ((l.filterMap (fun m => (m.endedBy k).map (fun r => (m, r)))).map Prod.fst).countP (Motion.named p tag)
      + (l.filter (fun m => !ends k m)).countP (Motion.named p tag) = l.countP (Motion.named p tag) := by
  induction l with
  | nil => rfl
  | cons m l ih =>
    simp only [List.filterMap_cons, List.filter_cons, ends]
    cases hm : m.endedBy k with
    | none =>
      simp only [Option.map_none, Option.isSome_none, Bool.not_false, if_true, List.countP_cons]
      simp only [ends] at ih
      omega
    | some r =>
      simp only [Option.map_some, Option.isSome_some, Bool.not_true, List.map_cons, List.countP_cons]
      simp only [ends] at ih
      simp only [Bool.false_eq_true, if_false]
      omega

theorem Keeps.supersede {k : MotionKind} (h : Keeps L s t) : Keeps L s (supersede k t) := by
  unfold Machine.supersede
  dsimp only
  apply Keeps.endMotions
  refine h.slots (fun p tag => ?_) rfl rfl (fun k r hr => k r (Option.filter_eq_some_iff.1 hr).1)
  have := ended_count k p tag (liveMotions t)
  simp only [liveMotions, List.filter_append, List.countP_append, List.map_append, List.filterMap_append,
    State.setArbiter_arbiter, ← Option.toList_filter] at this ⊢
  omega

theorem endMotions_active (ms : List (Motion × Result)) (f : Option Nat) (s : State) :
    (endMotions ms f s).arbiter.active = s.arbiter.active ∧
    (endMotions ms f s).arbiter.attached = s.arbiter.attached ∧
    (endMotions ms f s).arbiter.waiting = s.arbiter.waiting := by
  unfold endMotions
  induction ms generalizing s with
  | nil => exact ⟨rfl, rfl, rfl⟩
  | cons e ms ih =>
    obtain ⟨h1, h2, h3⟩ := ih (endMotion e.1 e.2 f s)
    rw [List.foldl_cons, h1, h2, h3, endMotion_arbiter]
    exact ⟨rfl, rfl, rfl⟩

/-- The slots after step 2 (R126 to R128). -/
theorem supersede_slots (k : MotionKind) (s : State) :
    (supersede k s).arbiter.active = s.arbiter.active.filter (fun m => !ends k m) ∧
    (supersede k s).arbiter.attached = s.arbiter.attached.filter (fun m => !ends k m) ∧
    (supersede k s).arbiter.waiting = s.arbiter.waiting.filter (fun m => !ends k m) := by
  unfold supersede
  obtain ⟨h1, h2, h3⟩ := endMotions_active ((liveMotions s).filterMap (fun m => (m.endedBy k).map (fun r => (m, r))))
    (lastGood s) (s.setArbiter { s.arbiter with
      active := s.arbiter.active.filter (fun m => !ends k m)
      attached := s.arbiter.attached.filter (fun m => !ends k m)
      waiting := s.arbiter.waiting.filter (fun m => !ends k m) })
  exact ⟨h1, h2, h3⟩

/-! ### A motion takes the planner -/

theorem Keeps.activeIn {ph : Phase} (h : Keeps (m :: L) s t) : Keeps (m.activeIn ph :: L) s t := h.renamed

theorem Keeps.takePlanner {ph : Phase} (h : Keeps (m :: L) s t) (ha : t.arbiter.active = none) :
    Keeps L s (takePlanner m ph t) := by
  have h1 : Keeps (m :: L) s (t.setRecovery { t.recovery with holdCopy := none }) := h.recovery
  have h2 := h1.activeIn (ph := ph).putActive ha
  unfold Machine.takePlanner
  dsimp only
  split
  · exact (Keeps.planner h2).stopSledLeg.setHeldSpeed
  · exact (Keeps.planner h2).stopSledLeg

theorem Keeps.nowMoving (h : Keeps L s t) : Keeps L s (nowMoving t) := h.reportDrive.recomputeM

theorem Keeps.takeLeg (h : Keeps L s t) : Keeps L s (takeLeg t) := h.setPhase

theorem Keeps.beginWork (h : Keeps L s t) : Keeps L s (beginWork t) := by
  unfold Machine.beginWork
  split
  · exact h.takeLeg
  · split
    · exact h.plan
    · exact h.startAcquire

theorem Keeps.takeSlot {ph : Phase} (h : Keeps (m :: L) s t) (ha : t.arbiter.active = none) :
    Keeps L s (takeSlot m ph t) := by
  have h1 : ∀ ph, Keeps L s (Machine.takePlanner m ph t) := fun ph => h.takePlanner ha
  unfold Machine.takeSlot
  dsimp only
  split
  · exact (Keeps.recovery (h1 _)).nowMoving
  · exact (h1 _).supervisor
  · exact (h1 _).nowMoving.beginWork
  · exact (h1 _).nowMoving.beginWork
  · exact (h1 _).nowMoving.beginWork
  · exact (h1 _).nowMoving.beginWork
  · exact (h1 _).nowMoving.beginWork
  · exact (h1 _).nowMoving.startAcquire
  · exact (h1 _).setDrive.recomputeM.startAcquire
  · exact (h1 _).setDrive.recomputeM.startAcquire

theorem Keeps.beginSession (h : Keeps L s t) : Keeps L s (beginSession t) := h.planner.recovery

theorem Keeps.activateStop (h : Keeps (m :: L) s t) (ha : t.arbiter.active = none) : Keeps L s (activateStop m t) := by
  have h1 := h.beginSession
  exact (h1.activeIn.putActive ha).stopMechanics

theorem Keeps.activateRelease {o : Option Motion} (h : Keeps (m :: L) s t) (ha : t.arbiter.active = none) :
    Keeps L s (activateRelease m o t) := by
  have h1 := h.beginSession
  unfold Machine.activateRelease
  dsimp only
  split
  · split
    · exact h1.activeIn.putActive ha
    · exact (h1.activeIn.putActive ha).releaseMechanics
  · exact (h1.activeIn.putActive ha).releaseMechanics

/-! ### Attachment and the start test -/

theorem Keeps.attachOwner (h : Keeps (m :: L) s t) (ha : t.arbiter.attached = none) (hk : m.kind = .rejoin) :
    Keeps L s (attachOwner m t) := by
  have h1 : Keeps (m.attachedOn :: L) s t := h.renamed
  exact (h1.putAttached ha hk).planner.stopSledLeg

theorem Keeps.attach (h : Keeps (m :: L) s t) (ha : t.arbiter.attached = none) (hk : m.kind = .rejoin) :
    Keeps L s (attach m t) := by
  have h1 := h.attachOwner ha hk
  unfold Machine.attach
  dsimp only
  split
  · exact h1.nowMoving
  · exact h1
  · split
    · exact h1.nowMoving
    · exact h1.nowMoving.plan

theorem Keeps.startHead (h : Keeps (m :: L) s t) (ha : t.arbiter.active = none) : Keeps L s (startHead m t) := by
  have h1 := h.endRecovery
  unfold Machine.startHead
  dsimp only
  split
  · exact h1.activateStop ha
  · exact h1.activateRelease ha
  · exact (h1.takePlanner ha).nowMoving.beginWork
  · exact (h1.takePlanner ha).nowMoving.beginWork
  · exact (h1.takePlanner ha).nowMoving.beginWork

theorem Keeps.testHead (h : Keeps L s t) : Keeps L s (testHead t).1 := by
  unfold Machine.testHead
  split
  · exact h
  · rename_i m rest hw
    split
    · rename_i hc
      refine (h.takeHead hw).startHead ?_
      simp only [canStart, Bool.and_eq_true, Option.isNone_iff_eq_none] at hc
      exact hc.1
    · split
      · rename_i hc
        refine (h.takeHead hw).attach ?_ hc.1
        have := hc.2
        simp only [followPlays, Bool.and_eq_true, Option.isNone_iff_eq_none] at this
        exact this.1
      · exact h

theorem Keeps.testHeads {n : Nat} : ∀ {t : State}, Keeps L s t → Keeps L s (testHeads n t) := by
  induction n with
  | zero => exact fun h => h
  | succ n ih =>
    intro t h
    unfold Machine.testHeads
    split
    · exact ih h.testHead
    · exact h

/-! ### Placement (R125) -/

theorem filter_not_of_filter {o : Option Motion} {f : Motion → Bool} {x : Motion} (h : o.filter f = some x) :
    o.filter (fun m => !f m) = none := by
  cases o with
  | none => rfl
  | some y =>
    rw [Option.filter_some] at h ⊢
    by_cases hy : f y = true
    · simp [hy]
    · simp [hy] at h

theorem filter_not_of_any {o : Option Motion} {f : Motion → Bool} (h : o.any f = true) :
    o.filter (fun m => !f m) = none := by
  cases o with
  | none => rfl
  | some y =>
    simp only [Option.any_some] at h
    simp [h]

/-- The accepted motion is placed: DONE, ACTIVE, ATTACHED or PENDING (R125, R127, R129, R132, R137). -/
theorem Keeps.place {b : State} (h : Keeps (m :: L) s t)
    (ha : t.arbiter.active = b.arbiter.active.filter (fun x => !ends m.kind x))
    (hb : t.arbiter.attached = b.arbiter.attached.filter (fun x => !ends m.kind x)) : Keeps L s (place m b t) := by
  unfold Machine.place
  split
  · exact h.endMotion
  · split
    · rename_i hk
      refine h.activateRelease ?_
      rw [ha, hk]
      cases b.arbiter.active with
      | none => rfl
      | some y => simp [ends, Motion.endedBy]
    · rename_i hk
      split
      · rename_i hc
        refine h.activateStop ?_
        rw [ha, hk]
        exact filter_not_of_any hc
      · exact h.putWaiting
    all_goals
      split
      · rename_i hc
        refine h.takeSlot ?_
        rw [ha]
        exact filter_not_of_filter hc
      · split
        · rename_i hc
          refine h.attach ?_ hc.1
          rw [hb, hc.1]
          exact filter_not_of_any hc.2
        · exact h.putWaiting

/-! ### CANCEL -/

theorem Keeps.leaveMechanism {ph : Option Phase} (h : Keeps L s t) : Keeps L s (leaveMechanism ph t) := by
  unfold Machine.leaveMechanism
  split
  · exact h.stopMechanics
  · exact h.recovery
  · exact h.supervisor
  · exact h.holdHere

theorem Keeps.cancelAttached (h : Keeps L s t) (ha : t.arbiter.attached = some m) : Keeps L s (cancelAttached m t) := by
  have h1 := h.withdraw
  have ha : (Machine.withdraw t).arbiter.attached = some m := by simpa using ha
  have h2 := (h1.takeAttached (m := m) ha).endMotion (r := .cancelled) (f := lastGood t)
  unfold Machine.cancelAttached
  dsimp only
  split
  · exact h1.changeAttached (m := m) ha
  · split
    · exact (Keeps.recovery h2).markRejoin
    · exact (Keeps.supervisor h2).markRejoin
    · exact h2.enterFollowing

theorem Keeps.cancelActive (h : Keeps L s t) (ha : t.arbiter.active = some m) : Keeps L s (cancelActive m t) := by
  unfold Machine.cancelActive
  split
  · rename_i r hr
    dsimp only
    refine Keeps.reportDrive (Keeps.planner (Keeps.recovery (Keeps.endMotion (m := m) ?_)))
    have h1 : Keeps (r.activeIn (m.phase.getD .acquire) :: m :: L) s (setActive none (setAttached none t)) :=
      (((h.takeAttached hr).takeActive (m := m) ha).perm (.swap r m L)).renamed
    exact h1.putActive rfl
  · dsimp only
    have ha : (Machine.withdraw t).arbiter.active = some m := by simpa using ha
    split
    · exact h.withdraw.changeActive (m := m) ha
    · exact (h.withdraw.takeActive (m := m) ha).endMotion.leaveMechanism

theorem Keeps.cancel {p : Port} {tag : Byte} (h : Keeps L s t) : Keeps L s (cancel p tag t).1 := by
  unfold Machine.cancel
  split
  · exact h
  · rename_i m hm
    split
    · exact h
    · split
      · rename_i hc
        exact h.cancelActive hc
      · split
        · rename_i hc
          exact h.cancelAttached hc
        · rename_i h1 h2
          have hmem := List.mem_of_find?_eq_some hm
          have hw : m ∈ t.arbiter.waiting := by
            simp only [liveMotions, List.mem_append, Option.mem_toList] at hmem
            rcases hmem with (hmem | hmem) | hmem
            · exact absurd hmem h1
            · exact absurd hmem h2
            · exact hmem
          exact (h.takeWaiting hw).endMotion

/-! ### What follows a command -/

theorem Keeps.acquireSearch (h : Keeps L s t) : Keeps L s (acquireSearch t) := by
  have h1 := (h.planner (x := { t.planner with acquireStep := .search })).focusSearch (r := .planner)
    (n := t.recovery.retryCount)
  unfold Machine.acquireSearch
  dsimp only
  split
  · exact h1
  · exact h1.acquireClose
  · exact h1.raiseFault

theorem Keeps.onSpindleReady (h : Keeps L s t) : Keeps L s (onSpindleReady t) := by
  unfold Machine.onSpindleReady
  split
  · split
    · exact h.firstTry
    · split
      · exact h.restartTry
      · split
        · exact h.acquireSearch
        · exact h
  · exact h

/-- With nothing pending, no ACQUIRE waiting for the spindle and an identification only paused, nothing follows a command. -/
theorem react_paused {s : State} (hw : s.arbiter.waiting = []) (ha : s.planner.acquireStep ≠ .spin)
    (hi : ∀ i, s.supervisor.ident = some i → i.paused = true) : react s = s := by
  have hr : onSpindleReady s = s := by
    unfold Machine.onSpindleReady Machine.identIn
    cases h : s.supervisor.ident with
    | none => simp [ha]
    | some i => simp [ha, hi i h]
  have hh : testHeads 3 s = s := by simp [testHeads, testHead, hw]
  rw [Machine.react, hr, hh, hr]

/-- With nothing pending, no identification and no ACQUIRE waiting for the spindle, nothing follows a command. -/
theorem react_settled {s : State} (h : Settled s) : react s = s :=
  react_paused h.1 h.2.2 (by simp [h.2.1])

/-- What follows every command keeps all that `Keeps` says (R39, R131, R152, R161). -/
theorem Keeps.react (h : Keeps L s t) : Keeps L s (react t) := h.onSpindleReady.testHeads.onSpindleReady

/-! ### A new fix -/

theorem Keeps.plannerOnFix {a : Nat} {b : State} (h : Keeps L s t) : Keeps L s (plannerOnFix a b t) := by
  unfold Machine.plannerOnFix
  split
  · exact h.acquireEnds
  · split
    · exact h.landLeft
    · split
      · exact h.land
      · split
        · exact h.plan
        · split
          · exact h.plan
          · exact h

theorem Keeps.holdOnFix {a : Nat} {b : State} (h : Keeps L s t) : Keeps L s (holdOnFix a b t) := by
  unfold Machine.holdOnFix
  split
  · split
    · rename_i hc
      exact h.beginJump (by simp [hc.2.1]) (fun _ k => k.held hc.2.1)
    · exact h
  · exact h

theorem Keeps.arbiterOnFix {a : Nat} {b : State} (h : Keeps L s t) : Keeps L s (arbiterOnFix a b t) := by
  unfold Machine.arbiterOnFix
  split
  · exact h.followTest
  · exact h

theorem Keeps.recoveryOnFix {b : State} (h : Keeps L s t) : Keeps L s (recoveryOnFix b t) := by
  unfold Machine.recoveryOnFix
  split
  · exact h.refixEnds
  · exact h

/-- A new fix, taken under loops that stand, keeps all that `Keeps` says (R110). -/
theorem Keeps.takeFix {a : Nat} (h : Keeps L s t) (hf : t.optics.focus = .locked) (ht : t.optics.tracking ≠ .off) :
    Keeps L s (takeFix a t) := by
  unfold Machine.takeFix
  split
  · exact h
  · rename_i c _
    exact (h.storeFix (a := a) (c := c) hf ht).compareZone.spindleOnFix.plannerOnFix.holdOnFix.arbiterOnFix.recoveryOnFix

/-! ### Acceptance (R125) -/

/-- The state of a machine that also has a motion waiting, seen only by `accept_keeps`. -/
def withWaiting (m : Motion) (s : State) : State := s.setArbiter { s.arbiter with waiting := m :: s.arbiter.waiting }

@[simp] theorem withWaiting_port (m : Motion) (s : State) (p : Port) : (withWaiting m s).port p = s.port p := by
  simp [withWaiting]

/-- An accepted motion is placed once: from the state that has its ticket and its arrival number, and counts it among its
motions (R120, R123, R125). -/
theorem accept_keeps (m : Motion) (s : State) : Keeps [] (withWaiting m (takeTicket m s)) (accept m s) := by
  have h0 : Keeps [m] (withWaiting m (takeTicket m s)) (takeTicket m s) := by
    have h1 : Keeps [m] (withWaiting m (takeTicket m s))
        (setWaiting (takeTicket m s).arbiter.waiting (withWaiting m (takeTicket m s))) :=
      (Keeps.refl (withWaiting m (takeTicket m s))).takeHead rfl
    exact h1
  unfold accept
  dsimp only
  have h2 : Keeps [m] (withWaiting m (takeTicket m s)) (if m.kind = .release then
      (takeTicket m s).setArbiter { (takeTicket m s).arbiter with releaseLatch := true } else takeTicket m s) := by
    split
    · exact h0.latch
    · exact h0
  obtain ⟨k1, k2, _⟩ := supersede_slots m.kind (if m.kind = .release then
      (takeTicket m s).setArbiter { (takeTicket m s).arbiter with releaseLatch := true } else takeTicket m s)
  exact h2.supersede.place k1 k2

end Sys2Proof.Laws
end

