-- ==== Sys2Proof/Laws/Safe.lean ====
section
/-! SUPPORT. What the parts of the commands' meanings keep of Sys2Proof/Safety.lean: the relation `Safe`, for what a command
itself writes beside the operations of `Keeps`. -/

namespace Sys2Proof.Laws

set_option Elab.async false

open Sys2Proof.Machine Sys2Proof.Safety

/-- Each predicate of Sys2Proof/Safety.lean goes from state `s` to state `t`. -/
structure Safe (s t : State) : Prop where
  trim : TrimOk s → TrimOk t
  settings : SettingsOk s → SettingsOk t
  target : TargetOk s → TargetOk t
  history : HistoryOk s → HistoryOk t
  zones : ZonesOk s → ZonesOk t
  speed : SpeedOk s → SpeedOk t
  gain : GainOk s → GainOk t
  classes : ClassesAgree s → ClassesAgree t
  map : MapOk s.map → MapOk t.map
  loops : LoopsOk s.optics → LoopsOk t.optics
  fresh : FreshOk s → FreshOk t
  rail : RailOk s.sled → RailOk t.sled
  attached : AttachedOk s → AttachedOk t
  restart : RestartOk s → RestartOk t
  queues : QueuesOk s → QueuesOk t
  tickets : QueuesOk s → TicketsOk s → TicketsOk t

variable {s t : State}

theorem Safe.refl (s : State) : Safe s s := by
  constructor <;> first | exact id | exact fun _ => id

theorem Safe.trans {u : State} (h : Safe s t) (k : Safe t u) : Safe s u where
  trim := k.trim ∘ h.trim
  settings := k.settings ∘ h.settings
  target := k.target ∘ h.target
  history := k.history ∘ h.history
  zones := k.zones ∘ h.zones
  speed := k.speed ∘ h.speed
  gain := k.gain ∘ h.gain
  classes := k.classes ∘ h.classes
  map := k.map ∘ h.map
  loops := k.loops ∘ h.loops
  fresh := k.fresh ∘ h.fresh
  rail := k.rail ∘ h.rail
  attached := k.attached ∘ h.attached
  restart := k.restart ∘ h.restart
  queues := k.queues ∘ h.queues
  tickets q x := k.tickets (h.queues q) (h.tickets q x)

/-! ### Operations of `Keeps` -/

theorem Keeps.queues {L : List Motion} (h : Keeps L s t) (q : QueuesOk s) : QueuesOk t :=
  ⟨(h.port .control).queue q.1, (h.port .stream).queue q.2.1, (h.port .mechanism).queue q.2.2⟩

theorem Keeps.tickets (h : Keeps [] s t) (x : TicketsOk s) : TicketsOk t := by
  intro p
  obtain ⟨x1, x2, x3, x4⟩ := x p
  have ht := (h.port p).tickets
  refine ⟨by rw [ht]; exact x1, by rw [ht]; exact x2, fun tag => ?_, fun tag => ?_⟩
  · have := h.motions p tag
    simp only [List.countP_nil, Nat.add_zero] at this
    rw [this, ht]
    exact x3 tag
  · have h1 := h.reports p tag
    have h2 := x4 tag
    omega

theorem Safe.keeps {u : State} (h : Safe s t) (k : Keeps [] t u) : Safe s u :=
  h.trans {
    trim := k.trim
    settings := k.settings
    target := k.target
    history := k.history
    zones := fun z => by rw [ZonesOk, k.entries]; exact z
    speed := k.speed
    gain := k.gain
    classes := k.classes
    map := k.map
    loops := k.loops
    fresh := k.fresh
    rail := k.rail
    attached := k.attached
    restart := k.restart
    queues := k.queues
    tickets := fun _ => k.tickets }

theorem Safe.react (h : Safe s t) : Safe s (react t) := h.keeps (Keeps.refl t).react

/-! ### Time -/

theorem run_queue (dt : Nat) (p : PortState) (h : QueueOk p) : QueueOk (p.run dt) := h

/-- The passing of time (entries 1 and 3). -/
theorem Safe.passTime {dt : Nat} (h : Safe s t) : Safe s (passTime dt t) := by
  refine h.trans ?_
  constructor <;> first | exact id | exact fun _ => id | skip
  · intro x i hi hr
    obtain ⟨j, hj, rfl⟩ := Option.map_eq_some_iff.1 hi
    have hs : (j.run dt).restart = j.restart ∧ (j.run dt).stage = j.stage := by
      unfold Ident.run
      split <;> exact ⟨rfl, rfl⟩
    rw [hs.1] at hr
    rw [hs.2]
    exact x j hj hr
  · intro _ x p
    cases p
    · exact x .control
    · exact x .stream
    · exact x .mechanism

theorem Safe.runTo {since : Time} {n : Nat} (h : Safe s t) : Safe s (runTo since n t) := h.passTime

/-! ### Port interfaces -/

/-- A write to a port that leaves its tickets and its completion reports. -/
theorem Safe.setPort {p : Port} {x : PortState} (h : Safe s t) (hq : QueueOk (t.port p) → QueueOk x)
    (ht : x.tickets = (t.port p).tickets := by rfl)
    (hc : completionsIn x.queue = completionsIn (t.port p).queue := by rfl) : Safe s (t.setPort p x) := by
  have hm : ∀ q tag, motionCount q tag (t.setPort p x) = motionCount q tag t := by
    intro q tag
    simp [motionCount, liveMotions, doneCount]
  have hd : ∀ q tag, doneCount q tag (t.setPort p x) = doneCount q tag t := by
    intro q tag
    simp [doneCount]
  refine h.trans ?_
  constructor <;> first
    | exact fun k => by simpa [TrimOk] using k
    | exact fun k => by simpa [SettingsOk] using k
    | exact fun k => by simpa [TargetOk] using k
    | exact fun k => by simpa [HistoryOk] using k
    | exact fun k => by simpa [ZonesOk] using k
    | exact fun k => by simpa [SpeedOk] using k
    | exact fun k => by simpa [GainOk] using k
    | exact fun k => by simpa [ClassesAgree] using k
    | exact fun k => by simpa [FreshOk] using k
    | exact fun k => by simpa [AttachedOk] using k
    | exact fun k => by simpa [RestartOk] using k
    | exact fun k => by simpa using k
    | skip
  · rintro ⟨q1, q2, q3⟩
    cases p
    · exact ⟨hq q1, q2, q3⟩
    · exact ⟨q1, hq q2, q3⟩
    · exact ⟨q1, q2, hq q3⟩
  · intro _ k q
    obtain ⟨k1, k2, k3, k4⟩ := k q
    by_cases hqp : q = p
    · subst hqp
      refine ⟨?_, ?_, ?_, ?_⟩
      · simpa [ht] using k1
      · simpa [ht] using k2
      · intro tag
        rw [hm]
        simpa [ht] using k3 tag
      · intro tag
        rw [hd]
        have := k4 tag
        simpa [reportCount, hc] using this
    · refine ⟨?_, ?_, ?_, ?_⟩
      · simpa [hqp] using k1
      · simpa [hqp] using k2
      · intro tag
        rw [hm]
        simpa [hqp] using k3 tag
      · intro tag
        rw [hd]
        simpa [hqp] using k4 tag

/-- A reply (R188). -/
theorem Safe.answer {p : Port} {tag : Byte} {st : Status} {d : List Byte} (h : Safe s t) :
    Safe s (t.answer p tag st d) := h.setPort id

/-- The end of a holdoff (R200). -/
theorem holdoffEnds_queue (p : PortState) (h : QueueOk p) : QueueOk p.holdoffEnds := by
  obtain ⟨h1, h2, h3⟩ := h
  unfold PortState.holdoffEnds
  split
  · refine ⟨h1, ?_, h3⟩
    by_cases hq : p.queue = []
    · simp [AttentionOk, hq]
    · simp [AttentionOk, hq]
  · exact ⟨h1, h2, h3⟩

theorem holdoffEnds_same (p : PortState) : p.holdoffEnds.tickets = p.tickets ∧ p.holdoffEnds.queue = p.queue := by
  unfold PortState.holdoffEnds
  split <;> exact ⟨rfl, rfl⟩

theorem Safe.holdoffEnds {p : Port} (h : Safe s t) : Safe s (t.setPort p (t.port p).holdoffEnds) :=
  h.setPort (holdoffEnds_queue _) (holdoffEnds_same _).1 (by rw [(holdoffEnds_same _).2])

/-! ### The end of a read (R196, R198, R200) -/

theorem afterRemoval_same (p : PortState) :
    p.afterRemoval.queue = p.queue ∧ p.afterRemoval.tickets = p.tickets := by
  unfold PortState.afterRemoval
  split <;> try split
  all_goals exact ⟨rfl, rfl⟩

theorem afterRemoval_attention (p : PortState) (h : p.attention = .quiet → p.queue = []) :
    AttentionOk p.afterRemoval := by
  unfold PortState.afterRemoval
  split
  · rename_i hq
    exact ⟨fun _ => hq, h⟩
  · split <;> simp_all [AttentionOk]

theorem oneOfEachKind_tail {r : Report} {q : List Report} (h : OneOfEachKind (r :: q)) : OneOfEachKind q := by
  intro code
  have := h code
  simp only [noticeCount, List.countP_cons] at this ⊢
  omega

theorem endRead_queue (p : PortState) (h : QueueOk p) : QueueOk p.endRead := by
  obtain ⟨h1, h2, h3⟩ := h
  unfold PortState.endRead
  dsimp only
  split
  · rename_i hr
    obtain ⟨n, k, rest, hq⟩ := h3 hr
    unfold PortState.headStays
    simp only [hq]
    refine ⟨?_, ?_, by simp [HeadOk]⟩
    · intro code
      have := h1 code
      simp only [hq, noticeCount, List.countP_cons, Report.isNotice] at this ⊢
      exact this
    · refine ⟨by simp, fun ha => ?_⟩
      have := h2.2 ha
      simp [hq] at this
  · unfold PortState.headLeaves
    split
    · rename_i hq
      exact ⟨h1, h2, by simp [HeadOk]⟩
    · rename_i c rest hq
      obtain ⟨e1, e2⟩ := afterRemoval_same { p with queue := rest, tickets := p.tickets.erase c.tag }
      refine ⟨?_, ?_, by simp [HeadOk]⟩
      · simp only [e1]
        rw [hq] at h1
        exact oneOfEachKind_tail h1
      · have := afterRemoval_attention { p with queue := rest, tickets := p.tickets.erase c.tag }
          (fun ha => by have := h2.2 ha; simp [hq] at this)
        exact this
    · rename_i n k rest hq
      obtain ⟨e1, e2⟩ := afterRemoval_same { p with queue := rest }
      refine ⟨?_, ?_, by simp [HeadOk]⟩
      · simp only [e1]
        rw [hq] at h1
        exact oneOfEachKind_tail h1
      · have := afterRemoval_attention { p with queue := rest }
          (fun ha => by have := h2.2 ha; simp [hq] at this)
        exact this

/-- The end of a reply: what a completed read takes from the queue, the tickets and the records it takes together
(R121, R196, R198). -/
theorem Safe.endReport {p : Port} (h : Safe s t) : Safe s (endReport p t) := by
  unfold Machine.endReport
  dsimp only
  split
  · rename_i hread
    -- a notice at the head, or nothing: a write to the port alone
    have plain : (t.port p).readCompletion = none → (t.port p).endRead.tickets = (t.port p).tickets ∧
        completionsIn (t.port p).endRead.queue = completionsIn (t.port p).queue := by
      intro hn
      unfold PortState.endRead
      dsimp only
      unfold PortState.readCompletion at hn
      cases hq : (t.port p).queue with
      | nil =>
        split <;> simp [PortState.headStays, PortState.headLeaves, hq]
      | cons r rest =>
        cases r with
        | completion c => simp [hread, hq] at hn
        | notice n k =>
          split
          · simp [PortState.headStays, hq]
          · obtain ⟨e1, e2⟩ := afterRemoval_same { t.port p with queue := rest }
            simp only [PortState.headLeaves, hq, e1, e2]
            simp
    have key : Safe s (match (t.port p).readCompletion with
        | some tag => discardDone p tag (t.setPort p (t.port p).endRead)
        | none => t.setPort p (t.port p).endRead) := by
      refine h.trans ?_
      have hqueues : QueuesOk t → QueuesOk (t.setPort p (t.port p).endRead) := by
        rintro ⟨q1, q2, q3⟩
        cases p
        · exact ⟨endRead_queue _ q1, q2, q3⟩
        · exact ⟨q1, endRead_queue _ q2, q3⟩
        · exact ⟨q1, q2, endRead_queue _ q3⟩
      have hport : QueuesOk t → QueueOk (t.port p) := by
        rintro ⟨q1, q2, q3⟩
        cases p
        · exact q1
        · exact q2
        · exact q3
      split
      · rename_i tag hc
        constructor <;> first
          | exact fun k => by simpa [TrimOk, discardDone] using k
          | exact fun k => by simpa [SettingsOk, discardDone] using k
          | exact fun k => by simpa [TargetOk, discardDone] using k
          | exact fun k => by simpa [HistoryOk, discardDone] using k
          | exact fun k => by simpa [ZonesOk, discardDone] using k
          | exact fun k => by simpa [SpeedOk, discardDone] using k
          | exact fun k => by simpa [GainOk, discardDone] using k
          | exact fun k => by simpa [ClassesAgree, discardDone] using k
          | exact fun k => by simpa [FreshOk, discardDone] using k
          | exact fun k => by simpa [AttachedOk, discardDone] using k
          | exact fun k => by simpa [RestartOk, discardDone] using k
          | exact fun k => by simpa [discardDone] using k
          | skip
        · exact hqueues
        · intro hq x q
          unfold PortState.readCompletion at hc
          split at hc
          · rename_i c rest h1 h2
            simp only [Option.some.injEq] at hc
            have hhead : (t.port p).headRenewed = false := by
              by_contra hr
              rw [Bool.not_eq_false] at hr
              obtain ⟨n, k, rest', hq'⟩ := (hport hq).2.2 hr
              rw [h2] at hq'
              cases hq'
            have hend : (t.port p).endRead.tickets = (t.port p).tickets.erase c.tag ∧
                (t.port p).endRead.queue = rest := by
              unfold PortState.endRead
              dsimp only
              rw [hhead]
              obtain ⟨e1, e2⟩ := afterRemoval_same
                { t.port p with queue := rest, tickets := (t.port p).tickets.erase c.tag }
              simp only [Bool.false_eq_true, if_false, PortState.headLeaves, h2, e1, e2]
              trivial
            obtain ⟨x1, x2, x3, x4⟩ := x q
            have hdone : ∀ q' tag', doneCount q' tag' (discardDone p tag (t.setPort p (t.port p).endRead))
                = if q' = p ∧ tag' = tag then 0 else doneCount q' tag' t := by
              intro q' tag'
              simp only [doneCount, discardDone, State.setArbiter_arbiter, State.setPort_arbiter, List.countP_filter]
              split
              · rename_i hcond
                rw [List.countP_eq_zero]
                intro m _
                simp [Motion.named, hcond.1, hcond.2]
              · rename_i hcond
                apply List.countP_congr
                intro m _
                simp only [Motion.named, Bool.and_eq_true, beq_iff_eq, Bool.not_eq_true', Bool.and_eq_false_iff,
                  beq_eq_false_iff_ne, and_iff_left_iff_imp]
                rintro ⟨rfl, rfl⟩
                by_contra hneg
                exact hcond (by tauto)
            have hlive : liveMotions (discardDone p tag (t.setPort p (t.port p).endRead)) = liveMotions t := by
              simp [liveMotions, discardDone]
            have hportq : (discardDone p tag (t.setPort p (t.port p).endRead)).port q
                = if q = p then (t.port p).endRead else t.port q := by
              simp [discardDone]
            rw [hportq]
            by_cases hqp : q = p
            · subst hqp
              obtain ⟨hend1, hend2⟩ := hend
              have hmem : tag ∈ (t.port q).tickets := by
                by_contra hnot
                have e3 := x3 tag
                have e4 := x4 tag
                rw [if_neg hnot] at e3
                simp only [motionCount] at e3
                rw [h2] at e4
                simp only [reportCount, completionsIn_completion, List.countP_cons, hc, beq_self_eq_true, if_true] at e4
                omega
              have hone : doneCount q tag t = 1 ∧ (liveMotions t).countP (Motion.named q tag) = 0 := by
                have e3 := x3 tag
                have e4 := x4 tag
                rw [if_pos hmem] at e3
                simp only [motionCount] at e3
                rw [h2] at e4
                simp only [reportCount, completionsIn_completion, List.countP_cons, hc, beq_self_eq_true, if_true] at e4
                omega
              rw [if_pos rfl, hend1, hend2]
              refine ⟨?_, x2.erase _, ?_, ?_⟩
              · have := List.length_erase_le (a := c.tag) (l := (t.port q).tickets)
                omega
              · intro tag'
                simp only [motionCount, hlive, hdone]
                by_cases htag : tag' = tag
                · subst htag
                  rw [hc]
                  simp [hone.2, x2.not_mem_erase]
                · have e3 := x3 tag'
                  simp only [motionCount] at e3
                  rw [if_neg (by tauto), e3]
                  have : tag' ∈ (t.port q).tickets.erase c.tag ↔ tag' ∈ (t.port q).tickets := by
                    rw [List.mem_erase_of_ne]
                    rw [hc]
                    exact htag
                  simp [this]
              · intro tag'
                have e4 := x4 tag'
                rw [hdone]
                rw [h2] at e4
                simp only [reportCount, completionsIn_completion, List.countP_cons] at e4 ⊢
                by_cases htag : tag' = tag
                · subst htag
                  rw [hc] at e4
                  simp only [beq_self_eq_true, if_true] at e4
                  simp only [and_self, if_true]
                  omega
                · rw [if_neg (by tauto)]
                  have : (c.tag == tag') = false := by
                    rw [hc, beq_eq_false_iff_ne]
                    exact Ne.symm htag
                  simpa [this] using e4
            · rw [if_neg hqp]
              refine ⟨x1, x2, fun tag' => ?_, fun tag' => ?_⟩
              · simp only [motionCount, hlive, hdone]
                rw [if_neg (by tauto)]
                exact x3 tag'
              · rw [hdone, if_neg (by tauto)]
                exact x4 tag'
          · cases hc
      · rename_i hc
        exact Safe.setPort (Safe.refl t) (endRead_queue _) (plain hc).1 (plain hc).2
    exact key
  · exact h

end Sys2Proof.Laws
end

