-- ==== Sys2Proof/Laws/Events.lean ====
section
/-! SUPPORT. The parts of the commands' meanings: what acceptance, settings, resets, reports and sensor events keep of
Sys2Proof/Safety.lean. -/

namespace Sys2Proof.Laws

set_option Elab.async false

open Sys2Proof.Machine Sys2Proof.Safety

variable {s t : State} {L : List Motion}

/-! ### Acceptance (R120, R123, R125) -/

theorem takeTicket_port (m : Motion) (s : State) (p : Port) : (takeTicket m s).port p
    = if p = m.port then { s.port m.port with tickets := (s.port m.port).tickets ++ [m.tag] } else s.port p := by
  simp [takeTicket]

/-- An accepted motion has one more ticket and one more record, and all else holds as before (R123, R125). -/
theorem accept_safe {m : Motion} (h : Safe s t) (hc : ticketCheck m.port m.tag t = none) : Safe s (accept m t) := by
  refine h.trans (Safe.trans (t := withWaiting m (takeTicket m t)) ?_ ((Safe.refl _).keeps (accept_keeps m t)))
  have hfree : (t.port m.port).tickets.length < 2 ∧ m.tag ∉ (t.port m.port).tickets := by
    unfold ticketCheck at hc
    simp only [Config.ticketLimit] at hc
    by_cases h1 : 2 ≤ (t.port m.port).tickets.length
    · simp [h1] at hc
    · by_cases h2 : m.tag ∈ (t.port m.port).tickets
      · simp [h1, h2] at hc
      · exact ⟨by omega, h2⟩
  have hport : ∀ p, (withWaiting m (takeTicket m t)).port p
      = if p = m.port then { t.port m.port with tickets := (t.port m.port).tickets ++ [m.tag] } else t.port p := by
    intro p
    rw [← takeTicket_port]
    simp [withWaiting]
  have hd : ∀ p tag, doneCount p tag (withWaiting m (takeTicket m t)) = doneCount p tag t := by
    intro p tag
    simp [doneCount, withWaiting, takeTicket]
  have hm : ∀ p tag, motionCount p tag (withWaiting m (takeTicket m t))
      = motionCount p tag t + if Motion.named p tag m then 1 else 0 := by
    intro p tag
    rw [motionCount, motionCount, hd]
    simp only [liveMotions, withWaiting, takeTicket, State.setArbiter_arbiter, State.setPort_arbiter,
      List.countP_append, List.countP_cons]
    omega
  constructor <;> first
    | exact fun k => by simpa [TrimOk, withWaiting, takeTicket] using k
    | exact fun k => by simpa [SettingsOk, withWaiting, takeTicket] using k
    | exact fun k => by simpa [TargetOk, withWaiting, takeTicket] using k
    | exact fun k => by simpa [HistoryOk, withWaiting, takeTicket] using k
    | exact fun k => by simpa [ZonesOk, withWaiting, takeTicket] using k
    | exact fun k => by simpa [SpeedOk, withWaiting, takeTicket] using k
    | exact fun k => by simpa [GainOk, withWaiting, takeTicket] using k
    | exact fun k => by simpa [ClassesAgree, withWaiting, takeTicket] using k
    | exact fun k => by simpa [FreshOk, withWaiting, takeTicket] using k
    | exact fun k => by simpa [AttachedOk, withWaiting, takeTicket] using k
    | exact fun k => by simpa [RestartOk, withWaiting, takeTicket] using k
    | exact fun k => by simpa [withWaiting, takeTicket] using k
    | skip
  · rintro ⟨q1, q2, q3⟩
    have hq : ∀ p, QueueOk (t.port p) → QueueOk ((withWaiting m (takeTicket m t)).port p) := by
      intro p hp
      rw [hport]
      split
      · rename_i e
        subst e
        exact hp
      · exact hp
    exact ⟨hq .control q1, hq .stream q2, hq .mechanism q3⟩
  · intro _ x p
    obtain ⟨x1, x2, x3, x4⟩ := x p
    rw [hport]
    by_cases hp : p = m.port
    · subst hp
      rw [if_pos rfl]
      refine ⟨?_, ?_, ?_, ?_⟩
      · simp only [List.length_append, List.length_cons, List.length_nil]
        omega
      · simp only [List.nodup_append, List.nodup_cons, List.not_mem_nil, not_false_eq_true, List.nodup_nil,
          List.mem_cons, or_false, forall_eq, and_self, true_and, x2]
        intro a ha hb
        exact hfree.2 (hb ▸ ha)
      · intro tag
        rw [hm, x3]
        by_cases ht : tag = m.tag
        · subst ht
          simp [Motion.named, hfree.2]
        · simp [Motion.named, ht, Ne.symm ht]
      · intro tag
        rw [hd]
        exact x4 tag
    · rw [if_neg hp]
      refine ⟨x1, x2, fun tag => ?_, fun tag => ?_⟩
      · rw [hm, x3]
        simp [Motion.named, Ne.symm hp]
      · rw [hd]
        exact x4 tag

/-! ### Settings -/

theorem Keeps.zoneRewritten (h : Keeps L s t) : Keeps L s (zoneRewritten t) := by
  unfold Machine.zoneRewritten
  apply Keeps.recomputeM
  apply Keeps.compareZone
  refine h.monitor ?_
  intro f hf hfresh
  cases hm : t.monitor.fix with
  | none => simp [hm] at hf
  | some g =>
    simp only [hm, Option.map_some, Option.some.injEq] at hf
    subst hf
    exact ⟨g, rfl, hfresh⟩

/-- A rewrite of the zone table (R27, R28, R31, R34). -/
theorem Safe.zoneRewritten {x : ZoneTable} (h : Safe s t) (hx : x.entries.length = t.zones.entries.length) :
    Safe s (zoneRewritten (t.setZones x)) := by
  refine Safe.keeps ?_ (Keeps.refl _).zoneRewritten
  refine h.trans ?_
  constructor <;> first | exact id | exact fun _ => id | skip
  intro k
  simpa [ZonesOk, hx] using k

theorem clampTo_range {lo hi v : Nat} (h : lo ≤ hi) : lo ≤ clampTo lo hi v ∧ clampTo lo hi v ≤ hi := by
  unfold clampTo
  split
  · omega
  · split <;> omega

/-- New recovery settings (R185). -/
theorem Safe.newSettings {r v : Byte} (h : Safe s t) : Safe s (t.setRecovery { t.recovery with
    retryCount := clampRetry r, amTime := clampMonitorTime v }) := by
  refine h.trans ?_
  constructor <;> first | exact id | exact fun _ => id | skip
  intro k
  exact ⟨clampTo_range (by omega), clampTo_range (by omega), k.2.2⟩

theorem Keeps.clearRecords (h : Keeps L s t) : Keeps L s (clearRecords t) := by
  refine h.trans ?_
  constructor <;> first | rfl | exact id | exact done_same _ | exact fun _ => PortKeeps.refl _ | exact fun _ _ => rfl

theorem Keeps.identifyOrEmpty (h : Keeps L s t) : Keeps L s (identifyOrEmpty t) := by
  unfold Machine.identifyOrEmpty
  split
  · exact h.startIdent
  · exact h.enterEmpty

theorem Keeps.leaveFaulted {f : Option FaultRecord} (h : Keeps L s t) : Keeps L s (leaveFaulted f t) := by
  unfold Machine.leaveFaulted
  split
  · exact h.identifyOrEmpty
  · exact h.identifyOrEmpty
  · split
    · exact h.identifyOrEmpty
    · exact h.parkOrStop

theorem Keeps.clearFault (h : Keeps L s t) : Keeps L s (clearFault t) := by
  unfold Machine.clearFault
  split
  · exact h.clearRecords.leaveFaulted.react
  · exact h.clearRecords

/-! ### Resets (R202) -/

theorem reset_queue (p : Port) (c : ResetCause) (d : Decoder) : QueueOk (PortState.afterReset p c d) := by
  refine ⟨?_, by simp [AttentionOk, PortState.afterReset], by simp [HeadOk, PortState.afterReset]⟩
  intro code
  simp only [PortState.afterReset, noticeCount, List.countP_cons, List.countP_nil]
  split <;> omega

/-- What a reset leaves at a port (R202). -/
theorem resetAll_port (c : ResetCause) (s : State) (p : Port) :
    (resetAll c s).port p = PortState.afterReset p c (s.port p).decoder.afterReset := by cases p <;> rfl

/-- A reset leaves every predicate true, whatever held before it. -/
theorem Safe.reset {c : ResetCause} (h : Safe s t) : Safe s (resetAll c t) := by
  refine h.trans ?_
  constructor
  · exact fun _ => by simp [TrimOk, resetAll, Planner.reset]
  · exact fun _ => by simp [SettingsOk, resetAll, Recovery.reset]
  · exact fun _ => by simp [TargetOk, resetAll, Spindle.reset]
  · exact fun _ => by simp [HistoryOk, resetAll, Recovery.reset]
  · exact fun _ => by simp [ZonesOk, resetAll, ZoneTable.reset]
  · exact fun _ => by simp [SpeedOk, resetAll, Spindle.reset, Recovery.reset]
  · exact fun _ => by simp [GainOk, resetAll, Optics.reset, Recovery.reset]
  · exact fun _ => by simp [ClassesAgree, resetAll, PosMap.empty, Supervisor.reset]
  · exact fun _ => by simp [MapOk, resetAll, PosMap.empty]
  · exact fun _ => by constructor <;> simp [resetAll, Optics.reset]
  · exact fun _ => by simp [FreshOk, resetAll, Monitor.reset]
  · exact fun _ => by simp [RailOk, resetAll, Sled.reset]
  · exact fun _ => by simp [AttachedOk, resetAll, Arbiter.reset]
  · exact fun _ => by simp [RestartOk, resetAll, Supervisor.reset]
  · exact fun _ => ⟨reset_queue _ _ _, reset_queue _ _ _, reset_queue _ _ _⟩
  · intro _ _ p
    cases p <;> refine ⟨?_, ?_, ?_, ?_⟩ <;>
      simp [resetAll, PortState.afterReset, motionCount, doneCount, liveMotions, Arbiter.reset, reportCount]

theorem Safe.softResetDue {p : Port} (h : Safe s t) : Safe s (softResetDue p t) := by
  unfold Machine.softResetDue
  split
  · exact h.reset
  · exact h

/-! ### Reports of addresses, of the clamp and of the supply -/

theorem Keeps.judge {a : Nat} {g : Bool} (h : Keeps L s t) : Keeps L s (judge a g t).1 := by
  unfold Machine.judge
  split
  · exact h
  · split
    · exact h.countBad
    · split
      · exact h
      · rename_i hs
        have hl : t.optics.focus = .locked ∧ t.optics.tracking ≠ .off := by
          simp only [setsReportAside, Bool.or_eq_true, bne_iff_ne, ne_eq, beq_iff_eq] at hs
          tauto
        split
        · dsimp only
          unfold Machine.confirming
          split
          · exact h.confirm hl.1 hl.2
          · exact h
        · split
          · exact h.staleFix.takeDisturbance
          · exact h.takeFix hl.1 hl.2

/-- What a clamp report does beyond recording the state it carries (R148, R149). -/
theorem clampReport_keeps (c : ClampState) (t : State) :
    Keeps [] (t.setSupervisor { t.supervisor with clamp := c }) (clampReport c t) := by
  unfold Machine.clampReport
  dsimp only
  split
  · exact (Keeps.refl _).startIdent
  · exact (Keeps.refl _).startIdent
  · exact (Keeps.refl _).enterEmpty
  · exact Keeps.refl _
  · exact (Keeps.refl _).emergency
  · exact Keeps.refl _

/-- A clamp report (R148, R149). -/
theorem Safe.clampReport {c : ClampState} (h : Safe s t) : Safe s (clampReport c t) := by
  have h1 : Safe s (t.setSupervisor { t.supervisor with clamp := c }) := by
    refine h.trans ?_
    constructor <;> first | exact id | exact fun _ => id
  exact h1.keeps (clampReport_keeps c t)

theorem Keeps.supplyActs {x : SupplyState} (h : Keeps L s t) : Keeps L s (supplyActs x t) := by
  unfold Machine.supplyActs
  split
  · exact h.beginSagHold
  · exact h.beginSagHold
  · exact h.beginSagHold
  · exact h.identPause
  · exact h.releaseSags
  · exact h.endSagWithRecovery
  · exact h.identResume
  · exact h.resumeHoming
  · exact h

/-- What a supply report does beyond recording the state it carries (R157). -/
theorem supplyReport_keeps (x : SupplyState) (t : State) :
    Keeps [] (t.setSupervisor { t.supervisor with supply := x }) (supplyReport x t) := by
  unfold Machine.supplyReport
  dsimp only
  split
  · rename_i hx
    subst hx
    exact Keeps.refl t
  · exact ((Keeps.refl _).offer).supplyActs

/-- A supply report (R157). -/
theorem Safe.supplyReport {x : SupplyState} (h : Safe s t) : Safe s (supplyReport x t) := by
  have h1 : Safe s (t.setSupervisor { t.supervisor with supply := x }) := by
    refine h.trans ?_
    constructor <;> first | exact id | exact fun _ => id
  exact h1.keeps (supplyReport_keeps x t)

/-! ### Spindle events -/

theorem read_keeps (sp : Spindle) (now : Time) (rpm : Nat) :
    (sp.read now rpm).held = sp.held ∧ (sp.read now rpm).m = sp.m ∧ (sp.read now rpm).target = sp.target := by
  unfold Spindle.read
  dsimp only
  split <;> (try split_ifs) <;> exact ⟨rfl, rfl, rfl⟩

/-- A write to the spindle that leaves the multiples and the target. -/
theorem Safe.spindle {x : Spindle} (h : Safe s t) (h1 : x.held = t.spindle.held := by rfl)
    (h2 : x.m = t.spindle.m := by rfl) (h3 : x.target = t.spindle.target := by rfl) : Safe s (t.setSpindle x) := by
  refine h.trans ?_
  constructor <;> first | exact id | exact fun _ => id | skip
  · intro k
    simpa [TargetOk, h3] using k
  · intro k
    simpa [SpeedOk, h1, h2] using k

theorem Keeps.readingReports {b : Spindle} {rpm : Nat} (h : Keeps L s t) : Keeps L s (readingReports b rpm t) := by
  unfold Machine.readingReports
  split
  · split
    · exact h.takeDisturbance
    · exact h
  · split
    · exact h.spindleReportsStopped
    · exact h

theorem Keeps.enterLocked (h : Keeps L s t) : Keeps L s (enterLocked t) := by
  unfold Machine.enterLocked
  dsimp only
  split
  · exact Keeps.respinEnds h.spindle
  · exact h.spindle

theorem Keeps.lockFails (h : Keeps L s t) : Keeps L s (lockFails t) := Keeps.raiseFault h.spindle
theorem Keeps.stopFails (h : Keeps L s t) : Keeps L s (stopFails t) := Keeps.raiseFault h.spindle

/-! ### Loop events -/

/-- A profile switch ends: a laser is lit, and a stored search begins (R84, R86). -/
theorem Keeps.switchEnds {k : DiscClass} (h : Keeps L s t) (hs : t.optics.switch.isSome = true) :
    Keeps L s (switchEnds k t) := by
  have h1 : Keeps L s (t.setOptics { t.optics with profile := some k, switch := none }) := by
    refine h.mechanism { t.optics with profile := some k, switch := none } t.sled t.monitor ?_ rfl id rfl
      (fun l f a b => l f a b)
    intro l
    exact ⟨l.tracking, l.search, by simp, by simp, l.held, l.back, l.absent, l.closing⟩
  unfold Machine.switchEnds
  dsimp only
  split
  · rename_i r n _
    unfold Machine.beginSearch Machine.setFocus Machine.staleFix
    dsimp only
    have key : ∀ z : Monitor, (FreshOk t → ∀ f, z.fix = some f → f.fresh = true → False) →
        Keeps L s (((t.setOptics { t.optics with
          profile := some k, switch := none, requester := some r, allowed := n, attempt := 1
          attemptTimer := some t.clock, storedSearch := none, focus := .search }).setSled t.sled).setMonitor z) := by
      intro z hz
      refine h.mechanism _ _ _ ?_ rfl id rfl (fun l f a b => (hz l f a b).elim)
      intro l
      have hf : t.optics.focus = .off := l.dark (l.switch hs)
      refine ⟨?_, by simp, by simp, by simp, l.held, l.back, l.absent, fun hc => by
        have h1 := (l.closing hc).1
        rw [hf] at h1
        cases h1⟩
      intro ht
      have := l.tracking ht
      rw [hf] at this
      cases this
    split
    · exact key _ (fun _ f a b => stale_not_fresh a b)
    · rename_i hc
      refine key t.monitor (fun l f a b => hc ?_)
      simpa using (l f a b).1
  · exact h1

theorem Keeps.reportLock {r : Option Requester} (h : Keeps L s t) : Keeps L s (reportLock r t) := by
  unfold Machine.reportLock
  split
  · split
    · exact h.acquireClose
    · exact h
  · split
    · exact h.beginRetrack
    · exact h
  · split
    · exact Keeps.tryClose Keeps.tryFails h
    · exact h
  · exact h

/-- Focus is captured in SEARCH (R87). -/
theorem Keeps.captured (h : Keeps L s t) (hs : t.optics.focus = .search) :
    Keeps L s (Machine.setFocus .locked (t.setOptics { t.optics with attempt := 0, attemptTimer := none, requester := none })) := by
  have h1 : Keeps L s (((t.setOptics { t.optics with
      attempt := 0, attemptTimer := none, requester := none, focus := .locked }).setSled t.sled).setMonitor t.monitor) := by
    refine h.mechanism { t.optics with
      attempt := 0, attemptTimer := none, requester := none, focus := .locked } t.sled t.monitor ?_ rfl id rfl ?_
    · intro l
      refine ⟨fun _ => rfl, by simp, l.switch, ?_, l.held, l.back, l.absent, fun hc => ⟨rfl, (l.closing hc).2⟩⟩
      intro hp
      have := l.dark hp
      rw [hs] at this
      cases this
    · intro l f a b
      exact ⟨rfl, (l f a b).2⟩
  have h2 : Machine.setFocus .locked (t.setOptics { t.optics with
      attempt := 0, attemptTimer := none, requester := none }) = (((t.setOptics { t.optics with
      attempt := 0, attemptTimer := none, requester := none, focus := .locked }).setSled t.sled).setMonitor
        t.monitor) := by
    unfold Machine.setFocus
    simp only [ne_eq, not_true_eq_false, and_false, if_false]
    rfl
  rw [h2]
  exact h1

theorem Keeps.reportNoLock {r : Option Requester} (h : Keeps L s t) : Keeps L s (reportNoLock r t) := by
  unfold Machine.reportNoLock
  split
  · split
    · exact h.raiseFault
    · exact h
  · split
    · exact h.raiseFault
    · exact h
  · split
    · exact h.tryFails
    · exact h
  · exact h

/-- An attempt fails while its timer runs (R87). -/
theorem Keeps.attemptFails (h : Keeps L s t) (ha : t.optics.attemptTimer.isSome = true) : Keeps L s (attemptFails t) := by
  unfold Machine.attemptFails
  split
  · refine h.mechanism { t.optics with attempt := t.optics.attempt + 1, attemptTimer := some t.clock } t.sled t.monitor
      ?_ rfl id rfl (fun l f a b => l f a b)
    intro l
    exact ⟨l.tracking, fun _ => l.search ha, l.switch, l.dark, l.held, l.back, l.absent, l.closing⟩
  · apply Keeps.reportNoLock
    have key : ∀ z : Monitor, (FreshOk t → ∀ f, z.fix = some f → f.fresh = true → False) →
        Keeps L s (((t.setOptics { t.optics with
          attempt := 0, attemptTimer := none, requester := none, focus := .off }).setSled t.sled).setMonitor z) := by
      intro z hz
      refine h.mechanism _ _ _ ?_ rfl id rfl (fun l f a b => (hz l f a b).elim)
      intro l
      refine ⟨?_, by simp, l.switch, by simp, l.held, l.back, l.absent, fun hc => by
        have h1 := (l.closing hc).1
        rw [l.search ha] at h1
        cases h1⟩
      intro ht
      have h1 := l.tracking ht
      rw [l.search ha] at h1
      cases h1
    unfold Machine.setFocus Machine.staleFix
    dsimp only
    split
    · exact key _ (fun _ f a b => stale_not_fresh a b)
    · rename_i hc
      refine key t.monitor (fun l f a b => hc ?_)
      simpa using (l f a b).1

theorem Keeps.loseFocus (h : Keeps L s t) (hf : t.optics.focus ≠ .off) : Keeps L s (loseFocus t) := by
  have h1 := h.loopsOpen (f := .lost) (.inr ⟨rfl, hf⟩)
  unfold Machine.loseFocus
  dsimp only
  split
  · exact h1.planner
  · exact h1

@[simp] theorem disturbLeg_optics (s : State) : (disturbLeg s).optics = s.optics := by
  unfold disturbLeg
  split <;> rfl

theorem Keeps.focusLost (h : Keeps L s t) (hf : t.optics.focus ≠ .off) : Keeps L s (focusLost t) := by
  unfold Machine.focusLost
  split
  · exact (h.disturbLeg.loseFocus (by rw [disturbLeg_optics]; exact hf)).takeDisturbance
  · dsimp only
    split
    · exact (h.loseFocus hf).supervisor
    · split
      · exact (h.loseFocus hf).tryFails
      · exact h.loseFocus hf

theorem Keeps.backJumpEnds (h : Keeps L s t) : Keeps L s (backJumpEnds t) := by
  unfold Machine.backJumpEnds
  split
  · exact h
  · dsimp only
    split
    · exact Keeps.lapseLeg h.optics
    · rename_i hc
      exact Keeps.beginJump h.optics hc (by simp)

/-- A jump has crossed its tracks (R92). -/
theorem Keeps.jumpEnds (h : Keeps L s t) (ht : t.optics.tracking = .jump) : Keeps L s (jumpEnds t) := by
  unfold Machine.jumpEnds
  split
  · exact (h.completeJump ht).fineLegEnds
  · exact (h.completeJump ht).backJumpEnds

theorem Keeps.reportClose {r : Requester} (h : Keeps L s t) : Keeps L s (reportClose t r) := by
  unfold Machine.reportClose
  split
  · split
    · exact h.planner
    · exact h
  · split
    · exact h.recovery
    · exact h
  · split
    · exact h.tryWindow
    · exact h

theorem Keeps.reportCloses {rs : List Requester} : ∀ {t : State}, Keeps L s t → Keeps L s (rs.foldl Machine.reportClose t) := by
  induction rs with
  | nil => exact fun h => h
  | cons r rs ih => exact fun h => ih h.reportClose

/-- A close in progress ends with focus LOCKED and tracking OFF (R90). -/
theorem Keeps.closed (h : Keeps L s t) (hf : t.optics.focus = .locked) (ht : t.optics.tracking = .off) :
    Keeps L s (Machine.trackingOn (t.setOptics { t.optics with closers := [] })) :=
  Keeps.trackingOn (h.optics (h9 := fun _ hc => absurd rfl hc)) (fun _ => hf) (fun k => k.absent (.inl ht)) (fun _ => rfl)

/-! ### Sled events -/

/-- A write to the sled that keeps it on the rail. -/
theorem Safe.sled {x : Sled} (h : Safe s t) (hx : RailOk t.sled → RailOk x) : Safe s (t.setSled x) := by
  refine h.trans ?_
  constructor <;> first | exact id | exact fun _ => id | exact hx

theorem Keeps.homingComplete (h : Keeps L s t) : Keeps L s (homingComplete t) := by
  unfold Machine.homingComplete
  split
  · exact h.enterReleased
  · split
    · exact h.identPosition
    · exact h

theorem homed_rail (sl : Sled) : RailOk sl.homed := by
  intro x hx
  simp only [Sled.homed, Option.some.injEq] at hx
  subst hx
  exact ⟨by omega, by simp [Sled.homed]⟩

/-- A step of a homing (R98, R99). -/
theorem Safe.homingStep {c : Bool} (h : Safe s t) : Safe s (homingStep c t) := by
  have hx : ∀ {x : Sled}, x.position = t.sled.position → x.legSteps = t.sled.legSteps → x.state = t.sled.state →
      RailOk t.sled → RailOk x := by
    intro x h1 h2 h3 k y hy
    rw [h1] at hy
    exact ⟨(k y hy).1, fun hs => by rw [h2]; rw [h3] at hs; exact (k y hy).2 hs⟩
  unfold Machine.homingStep
  dsimp only
  split
  · exact h.sled (fun _ x hx => by simp at hx)
  · split
    · exact (h.sled (fun _ => homed_rail _)).keeps (Keeps.refl _).homingComplete
    · split
      · exact (h.sled (fun _ x hx => by simp at hx)).keeps (Keeps.refl _).raiseFault
      · exact h.sled (hx rfl rfl rfl)

/-- A leg is over and reported, the sled written to a position on the rail (R100). -/
theorem Safe.legReported {b : Bool} {y : Sled} (h : Safe s t)
    (hy : RailOk t.sled → ∀ x, y.position = some x → x ≤ 1800) : Safe s (legReported b (t.setSled y)) := by
  have h1 : Safe s (t.setSled { y with
      state := restState t.optics.tracking, stopPending := false, requester := none }) := by
    refine h.sled ?_
    intro k x hx
    refine ⟨hy k x hx, ?_⟩
    unfold restState
    split <;> simp
  have h2 : ∀ u, u = (t.setSled y).setSled { (t.setSled y).sled with
      state := restState (t.setSled y).optics.tracking, stopPending := false, requester := none } →
      Safe s (if (t.setSled y).sled.requester = some Requester.planner then Machine.sledLegEnds b u else u) := by
    intro u hu
    subst hu
    split
    · exact h1.keeps (Keeps.refl _).sledLegEnds
    · exact h1
  have h3 : ∀ w, Safe s w → ∀ c : Prop, ∀ _ : Decidable c,
      Safe s (if identIn .positioning w = true then (if c then identSpin w else identPosition w) else w) := by
    intro w hw c _
    split
    · split
      · exact hw.keeps (Keeps.refl _).identSpin
      · exact hw.keeps (Keeps.refl _).identPosition
    · exact hw
  exact h3 _ (h2 _ rfl) _ _

/-- A step of a leg (R100, R101). -/
theorem Safe.legStep {x : Nat} {c : Bool} (h : Safe s t) (hp : t.sled.position = some x) (hs : t.sled.state = .leg) :
    Safe s (legStep x c t) := by
  have hx : RailOk t.sled → (if 0 ≤ t.sled.legSteps then x + 1 else x - 1) ≤ 1800 := by
    intro k
    obtain ⟨k1, k2⟩ := k x hp
    have := k2 hs
    unfold beyondRail at this
    split
    · rename_i hn
      rw [if_pos hn] at this
      simp only [decide_eq_false_iff_not] at this
      omega
    · omega
  unfold Machine.legStep
  dsimp only
  generalize hmv : (if 0 ≤ t.sled.legSteps then x + 1 else x - 1) = moved at *
  have hpos : RailOk t.sled → (if (c && !t.sled.homeClosed && decide (0 < moved)) = true then 0 else moved) ≤ 1800 := by
    intro k
    split
    · omega
    · exact hx k
  generalize (if (c && !t.sled.homeClosed && decide (0 < moved)) = true then 0 else moved) = x' at hpos ⊢
  generalize (c && !t.sled.homeClosed && decide (0 < moved)) = cor
  have hle : RailOk t.sled → ∀ y, some x' = some y → y ≤ 1800 := by
    intro k y hy
    rw [← Option.some.inj hy]
    exact hpos k
  split
  · exact h.legReported hle
  · split
    · exact h.legReported hle
    · rename_i hn
      refine h.sled ?_
      intro k y hy
      refine ⟨hle k y hy, fun _ => ?_⟩
      have hy' := Option.some.inj hy
      simp only [Bool.or_eq_true, not_or, Bool.not_eq_true] at hn
      rw [← hy']
      exact hn.2

end Sys2Proof.Laws
end

