-- ==== Sys2Proof/Laws/Blocks.lean ====
section
/-! SUPPORT. Which blocks each shared operation leaves as they are: one lemma per operation and block. -/

namespace Sys2Proof.Laws

set_option Elab.async false

open Sys2Proof.Machine

variable (s : State)

/-! ### staleFix -/

@[simp] theorem staleFix_clock : (staleFix s).clock = s.clock := rfl
@[simp] theorem staleFix_arbiter : (staleFix s).arbiter = s.arbiter := rfl
@[simp] theorem staleFix_planner : (staleFix s).planner = s.planner := rfl
@[simp] theorem staleFix_map : (staleFix s).map = s.map := rfl
@[simp] theorem staleFix_zones : (staleFix s).zones = s.zones := rfl
@[simp] theorem staleFix_optics : (staleFix s).optics = s.optics := rfl
@[simp] theorem staleFix_sled : (staleFix s).sled = s.sled := rfl
@[simp] theorem staleFix_spindle : (staleFix s).spindle = s.spindle := rfl
@[simp] theorem staleFix_recovery : (staleFix s).recovery = s.recovery := rfl
@[simp] theorem staleFix_supervisor : (staleFix s).supervisor = s.supervisor := rfl
@[simp] theorem staleFix_picks : (staleFix s).picks = s.picks := rfl
@[simp] theorem staleFix_pending : (staleFix s).pending = s.pending := rfl
@[simp] theorem staleFix_port (q : Port) : (staleFix s).port q = s.port q := by cases q <;> rfl

/-! ### restartMonitor -/

@[simp] theorem restartMonitor_clock : (restartMonitor s).clock = s.clock := rfl
@[simp] theorem restartMonitor_arbiter : (restartMonitor s).arbiter = s.arbiter := rfl
@[simp] theorem restartMonitor_planner : (restartMonitor s).planner = s.planner := rfl
@[simp] theorem restartMonitor_map : (restartMonitor s).map = s.map := rfl
@[simp] theorem restartMonitor_zones : (restartMonitor s).zones = s.zones := rfl
@[simp] theorem restartMonitor_optics : (restartMonitor s).optics = s.optics := rfl
@[simp] theorem restartMonitor_sled : (restartMonitor s).sled = s.sled := rfl
@[simp] theorem restartMonitor_spindle : (restartMonitor s).spindle = s.spindle := rfl
@[simp] theorem restartMonitor_recovery : (restartMonitor s).recovery = s.recovery := rfl
@[simp] theorem restartMonitor_supervisor : (restartMonitor s).supervisor = s.supervisor := rfl
@[simp] theorem restartMonitor_picks : (restartMonitor s).picks = s.picks := rfl
@[simp] theorem restartMonitor_pending : (restartMonitor s).pending = s.pending := rfl
@[simp] theorem restartMonitor_port (q : Port) : (restartMonitor s).port q = s.port q := by cases q <;> rfl

/-! ### trackingOff -/

@[simp] theorem trackingOff_clock : (trackingOff s).clock = s.clock := rfl
@[simp] theorem trackingOff_arbiter : (trackingOff s).arbiter = s.arbiter := rfl
@[simp] theorem trackingOff_planner : (trackingOff s).planner = s.planner := rfl
@[simp] theorem trackingOff_map : (trackingOff s).map = s.map := rfl
@[simp] theorem trackingOff_zones : (trackingOff s).zones = s.zones := rfl
@[simp] theorem trackingOff_spindle : (trackingOff s).spindle = s.spindle := rfl
@[simp] theorem trackingOff_recovery : (trackingOff s).recovery = s.recovery := rfl
@[simp] theorem trackingOff_supervisor : (trackingOff s).supervisor = s.supervisor := rfl
@[simp] theorem trackingOff_picks : (trackingOff s).picks = s.picks := rfl
@[simp] theorem trackingOff_pending : (trackingOff s).pending = s.pending := rfl
@[simp] theorem trackingOff_port (q : Port) : (trackingOff s).port q = s.port q := by cases q <;> rfl

/-! ### trackingOn -/

@[simp] theorem trackingOn_clock : (trackingOn s).clock = s.clock := by unfold trackingOn; dsimp only; split <;> rfl
@[simp] theorem trackingOn_arbiter : (trackingOn s).arbiter = s.arbiter := by unfold trackingOn; dsimp only; split <;> rfl
@[simp] theorem trackingOn_planner : (trackingOn s).planner = s.planner := by unfold trackingOn; dsimp only; split <;> rfl
@[simp] theorem trackingOn_map : (trackingOn s).map = s.map := by unfold trackingOn; dsimp only; split <;> rfl
@[simp] theorem trackingOn_zones : (trackingOn s).zones = s.zones := by unfold trackingOn; dsimp only; split <;> rfl
@[simp] theorem trackingOn_spindle : (trackingOn s).spindle = s.spindle := by unfold trackingOn; dsimp only; split <;> rfl
@[simp] theorem trackingOn_recovery : (trackingOn s).recovery = s.recovery := by unfold trackingOn; dsimp only; split <;> rfl
@[simp] theorem trackingOn_supervisor : (trackingOn s).supervisor = s.supervisor := by unfold trackingOn; dsimp only; split <;> rfl
@[simp] theorem trackingOn_picks : (trackingOn s).picks = s.picks := by unfold trackingOn; dsimp only; split <;> rfl
@[simp] theorem trackingOn_pending : (trackingOn s).pending = s.pending := by unfold trackingOn; dsimp only; split <;> rfl
@[simp] theorem trackingOn_port (q : Port) : (trackingOn s).port q = s.port q := by unfold trackingOn; dsimp only; split <;> simp

/-! ### trackingHold -/

@[simp] theorem trackingHold_clock : (trackingHold s).clock = s.clock := rfl
@[simp] theorem trackingHold_arbiter : (trackingHold s).arbiter = s.arbiter := rfl
@[simp] theorem trackingHold_planner : (trackingHold s).planner = s.planner := rfl
@[simp] theorem trackingHold_map : (trackingHold s).map = s.map := rfl
@[simp] theorem trackingHold_zones : (trackingHold s).zones = s.zones := rfl
@[simp] theorem trackingHold_monitor : (trackingHold s).monitor = s.monitor := rfl
@[simp] theorem trackingHold_spindle : (trackingHold s).spindle = s.spindle := rfl
@[simp] theorem trackingHold_recovery : (trackingHold s).recovery = s.recovery := rfl
@[simp] theorem trackingHold_supervisor : (trackingHold s).supervisor = s.supervisor := rfl
@[simp] theorem trackingHold_picks : (trackingHold s).picks = s.picks := rfl
@[simp] theorem trackingHold_pending : (trackingHold s).pending = s.pending := rfl
@[simp] theorem trackingHold_port (q : Port) : (trackingHold s).port q = s.port q := by cases q <;> rfl

/-! ### setFocus -/

@[simp] theorem setFocus_clock (f : FocusState) : (setFocus f s).clock = s.clock := by unfold setFocus; dsimp only; split <;> rfl
@[simp] theorem setFocus_arbiter (f : FocusState) : (setFocus f s).arbiter = s.arbiter := by unfold setFocus; dsimp only; split <;> rfl
@[simp] theorem setFocus_planner (f : FocusState) : (setFocus f s).planner = s.planner := by unfold setFocus; dsimp only; split <;> rfl
@[simp] theorem setFocus_map (f : FocusState) : (setFocus f s).map = s.map := by unfold setFocus; dsimp only; split <;> rfl
@[simp] theorem setFocus_zones (f : FocusState) : (setFocus f s).zones = s.zones := by unfold setFocus; dsimp only; split <;> rfl
@[simp] theorem setFocus_sled (f : FocusState) : (setFocus f s).sled = s.sled := by unfold setFocus; dsimp only; split <;> rfl
@[simp] theorem setFocus_spindle (f : FocusState) : (setFocus f s).spindle = s.spindle := by unfold setFocus; dsimp only; split <;> rfl
@[simp] theorem setFocus_recovery (f : FocusState) : (setFocus f s).recovery = s.recovery := by unfold setFocus; dsimp only; split <;> rfl
@[simp] theorem setFocus_supervisor (f : FocusState) : (setFocus f s).supervisor = s.supervisor := by unfold setFocus; dsimp only; split <;> rfl
@[simp] theorem setFocus_picks (f : FocusState) : (setFocus f s).picks = s.picks := by unfold setFocus; dsimp only; split <;> rfl
@[simp] theorem setFocus_pending (f : FocusState) : (setFocus f s).pending = s.pending := by unfold setFocus; dsimp only; split <;> rfl
@[simp] theorem setFocus_port (f : FocusState) (q : Port) : (setFocus f s).port q = s.port q := by unfold setFocus; dsimp only; split <;> simp

/-! ### loopsOpen -/

@[simp] theorem loopsOpen_clock (f : FocusState) : (loopsOpen f s).clock = s.clock := by simp [loopsOpen]
@[simp] theorem loopsOpen_arbiter (f : FocusState) : (loopsOpen f s).arbiter = s.arbiter := by simp [loopsOpen]
@[simp] theorem loopsOpen_planner (f : FocusState) : (loopsOpen f s).planner = s.planner := by simp [loopsOpen]
@[simp] theorem loopsOpen_map (f : FocusState) : (loopsOpen f s).map = s.map := by simp [loopsOpen]
@[simp] theorem loopsOpen_zones (f : FocusState) : (loopsOpen f s).zones = s.zones := by simp [loopsOpen]
@[simp] theorem loopsOpen_spindle (f : FocusState) : (loopsOpen f s).spindle = s.spindle := by simp [loopsOpen]
@[simp] theorem loopsOpen_recovery (f : FocusState) : (loopsOpen f s).recovery = s.recovery := by simp [loopsOpen]
@[simp] theorem loopsOpen_supervisor (f : FocusState) : (loopsOpen f s).supervisor = s.supervisor := by simp [loopsOpen]
@[simp] theorem loopsOpen_picks (f : FocusState) : (loopsOpen f s).picks = s.picks := by simp [loopsOpen]
@[simp] theorem loopsOpen_pending (f : FocusState) : (loopsOpen f s).pending = s.pending := by simp [loopsOpen]
@[simp] theorem loopsOpen_port (f : FocusState) (q : Port) : (loopsOpen f s).port q = s.port q := by simp [loopsOpen]

/-! ### lapseLeg -/

@[simp] theorem lapseLeg_clock : (lapseLeg s).clock = s.clock := by unfold lapseLeg; split <;> rfl
@[simp] theorem lapseLeg_arbiter : (lapseLeg s).arbiter = s.arbiter := by unfold lapseLeg; split <;> rfl
@[simp] theorem lapseLeg_map : (lapseLeg s).map = s.map := by unfold lapseLeg; split <;> rfl
@[simp] theorem lapseLeg_zones : (lapseLeg s).zones = s.zones := by unfold lapseLeg; split <;> rfl
@[simp] theorem lapseLeg_monitor : (lapseLeg s).monitor = s.monitor := by unfold lapseLeg; split <;> rfl
@[simp] theorem lapseLeg_optics : (lapseLeg s).optics = s.optics := by unfold lapseLeg; split <;> rfl
@[simp] theorem lapseLeg_sled : (lapseLeg s).sled = s.sled := by unfold lapseLeg; split <;> rfl
@[simp] theorem lapseLeg_spindle : (lapseLeg s).spindle = s.spindle := by unfold lapseLeg; split <;> rfl
@[simp] theorem lapseLeg_recovery : (lapseLeg s).recovery = s.recovery := by unfold lapseLeg; split <;> rfl
@[simp] theorem lapseLeg_supervisor : (lapseLeg s).supervisor = s.supervisor := by unfold lapseLeg; split <;> rfl
@[simp] theorem lapseLeg_picks : (lapseLeg s).picks = s.picks := by unfold lapseLeg; split <;> rfl
@[simp] theorem lapseLeg_pending : (lapseLeg s).pending = s.pending := by unfold lapseLeg; split <;> rfl
@[simp] theorem lapseLeg_port (q : Port) : (lapseLeg s).port q = s.port q := by unfold lapseLeg; split <;> simp

/-! ### focusOff -/

@[simp] theorem focusOff_clock : (focusOff s).clock = s.clock := by simp [focusOff]
@[simp] theorem focusOff_arbiter : (focusOff s).arbiter = s.arbiter := by simp [focusOff]
@[simp] theorem focusOff_map : (focusOff s).map = s.map := by simp [focusOff]
@[simp] theorem focusOff_zones : (focusOff s).zones = s.zones := by simp [focusOff]
@[simp] theorem focusOff_spindle : (focusOff s).spindle = s.spindle := by simp [focusOff]
@[simp] theorem focusOff_recovery : (focusOff s).recovery = s.recovery := by simp [focusOff]
@[simp] theorem focusOff_supervisor : (focusOff s).supervisor = s.supervisor := by simp [focusOff]
@[simp] theorem focusOff_picks : (focusOff s).picks = s.picks := by simp [focusOff]
@[simp] theorem focusOff_pending : (focusOff s).pending = s.pending := by simp [focusOff]
@[simp] theorem focusOff_port (q : Port) : (focusOff s).port q = s.port q := by simp [focusOff]

/-! ### beginSearch -/

@[simp] theorem beginSearch_clock (r : Requester) (n : Nat) : (beginSearch r n s).clock = s.clock := by simp [beginSearch]
@[simp] theorem beginSearch_arbiter (r : Requester) (n : Nat) : (beginSearch r n s).arbiter = s.arbiter := by simp [beginSearch]
@[simp] theorem beginSearch_planner (r : Requester) (n : Nat) : (beginSearch r n s).planner = s.planner := by simp [beginSearch]
@[simp] theorem beginSearch_map (r : Requester) (n : Nat) : (beginSearch r n s).map = s.map := by simp [beginSearch]
@[simp] theorem beginSearch_zones (r : Requester) (n : Nat) : (beginSearch r n s).zones = s.zones := by simp [beginSearch]
@[simp] theorem beginSearch_sled (r : Requester) (n : Nat) : (beginSearch r n s).sled = s.sled := by simp [beginSearch]
@[simp] theorem beginSearch_spindle (r : Requester) (n : Nat) : (beginSearch r n s).spindle = s.spindle := by simp [beginSearch]
@[simp] theorem beginSearch_recovery (r : Requester) (n : Nat) : (beginSearch r n s).recovery = s.recovery := by simp [beginSearch]
@[simp] theorem beginSearch_supervisor (r : Requester) (n : Nat) : (beginSearch r n s).supervisor = s.supervisor := by simp [beginSearch]
@[simp] theorem beginSearch_picks (r : Requester) (n : Nat) : (beginSearch r n s).picks = s.picks := by simp [beginSearch]
@[simp] theorem beginSearch_pending (r : Requester) (n : Nat) : (beginSearch r n s).pending = s.pending := by simp [beginSearch]
@[simp] theorem beginSearch_port (r : Requester) (n : Nat) (q : Port) : (beginSearch r n s).port q = s.port q := by simp [beginSearch]

/-! ### focusSearch -/

@[simp] theorem focusSearch_clock (r : Requester) (n : Nat) : (focusSearch r n s).1.clock = s.clock := by
  unfold focusSearch
  split
  · rfl
  · split
    · rfl
    · split <;> simp
@[simp] theorem focusSearch_arbiter (r : Requester) (n : Nat) : (focusSearch r n s).1.arbiter = s.arbiter := by
  unfold focusSearch
  split
  · rfl
  · split
    · rfl
    · split <;> simp
@[simp] theorem focusSearch_planner (r : Requester) (n : Nat) : (focusSearch r n s).1.planner = s.planner := by
  unfold focusSearch
  split
  · rfl
  · split
    · rfl
    · split <;> simp
@[simp] theorem focusSearch_map (r : Requester) (n : Nat) : (focusSearch r n s).1.map = s.map := by
  unfold focusSearch
  split
  · rfl
  · split
    · rfl
    · split <;> simp
@[simp] theorem focusSearch_zones (r : Requester) (n : Nat) : (focusSearch r n s).1.zones = s.zones := by
  unfold focusSearch
  split
  · rfl
  · split
    · rfl
    · split <;> simp
@[simp] theorem focusSearch_sled (r : Requester) (n : Nat) : (focusSearch r n s).1.sled = s.sled := by
  unfold focusSearch
  split
  · rfl
  · split
    · rfl
    · split <;> simp
@[simp] theorem focusSearch_spindle (r : Requester) (n : Nat) : (focusSearch r n s).1.spindle = s.spindle := by
  unfold focusSearch
  split
  · rfl
  · split
    · rfl
    · split <;> simp
@[simp] theorem focusSearch_recovery (r : Requester) (n : Nat) : (focusSearch r n s).1.recovery = s.recovery := by
  unfold focusSearch
  split
  · rfl
  · split
    · rfl
    · split <;> simp
@[simp] theorem focusSearch_supervisor (r : Requester) (n : Nat) : (focusSearch r n s).1.supervisor = s.supervisor := by
  unfold focusSearch
  split
  · rfl
  · split
    · rfl
    · split <;> simp
@[simp] theorem focusSearch_picks (r : Requester) (n : Nat) : (focusSearch r n s).1.picks = s.picks := by
  unfold focusSearch
  split
  · rfl
  · split
    · rfl
    · split <;> simp
@[simp] theorem focusSearch_pending (r : Requester) (n : Nat) : (focusSearch r n s).1.pending = s.pending := by
  unfold focusSearch
  split
  · rfl
  · split
    · rfl
    · split <;> simp
@[simp] theorem focusSearch_port (r : Requester) (n : Nat) (q : Port) : (focusSearch r n s).1.port q = s.port q := by
  unfold focusSearch
  split
  · simp
  · split
    · simp
    · split <;> simp

/-! ### closeTracking -/

@[simp] theorem closeTracking_clock (r : Requester) : (closeTracking r s).1.clock = s.clock := by
  unfold closeTracking
  split
  · rfl
  · split <;> rfl
@[simp] theorem closeTracking_arbiter (r : Requester) : (closeTracking r s).1.arbiter = s.arbiter := by
  unfold closeTracking
  split
  · rfl
  · split <;> rfl
@[simp] theorem closeTracking_planner (r : Requester) : (closeTracking r s).1.planner = s.planner := by
  unfold closeTracking
  split
  · rfl
  · split <;> rfl
@[simp] theorem closeTracking_map (r : Requester) : (closeTracking r s).1.map = s.map := by
  unfold closeTracking
  split
  · rfl
  · split <;> rfl
@[simp] theorem closeTracking_zones (r : Requester) : (closeTracking r s).1.zones = s.zones := by
  unfold closeTracking
  split
  · rfl
  · split <;> rfl
@[simp] theorem closeTracking_monitor (r : Requester) : (closeTracking r s).1.monitor = s.monitor := by
  unfold closeTracking
  split
  · rfl
  · split <;> rfl
@[simp] theorem closeTracking_sled (r : Requester) : (closeTracking r s).1.sled = s.sled := by
  unfold closeTracking
  split
  · rfl
  · split <;> rfl
@[simp] theorem closeTracking_spindle (r : Requester) : (closeTracking r s).1.spindle = s.spindle := by
  unfold closeTracking
  split
  · rfl
  · split <;> rfl
@[simp] theorem closeTracking_recovery (r : Requester) : (closeTracking r s).1.recovery = s.recovery := by
  unfold closeTracking
  split
  · rfl
  · split <;> rfl
@[simp] theorem closeTracking_supervisor (r : Requester) : (closeTracking r s).1.supervisor = s.supervisor := by
  unfold closeTracking
  split
  · rfl
  · split <;> rfl
@[simp] theorem closeTracking_picks (r : Requester) : (closeTracking r s).1.picks = s.picks := by
  unfold closeTracking
  split
  · rfl
  · split <;> rfl
@[simp] theorem closeTracking_pending (r : Requester) : (closeTracking r s).1.pending = s.pending := by
  unfold closeTracking
  split
  · rfl
  · split <;> rfl
@[simp] theorem closeTracking_port (r : Requester) (q : Port) : (closeTracking r s).1.port q = s.port q := by
  unfold closeTracking
  split
  · simp
  · split <;> simp

/-! ### openTracking -/

@[simp] theorem openTracking_clock : (openTracking s).clock = s.clock := by unfold openTracking; split <;> simp
@[simp] theorem openTracking_arbiter : (openTracking s).arbiter = s.arbiter := by unfold openTracking; split <;> simp
@[simp] theorem openTracking_planner : (openTracking s).planner = s.planner := by unfold openTracking; split <;> simp
@[simp] theorem openTracking_map : (openTracking s).map = s.map := by unfold openTracking; split <;> simp
@[simp] theorem openTracking_zones : (openTracking s).zones = s.zones := by unfold openTracking; split <;> simp
@[simp] theorem openTracking_spindle : (openTracking s).spindle = s.spindle := by unfold openTracking; split <;> simp
@[simp] theorem openTracking_recovery : (openTracking s).recovery = s.recovery := by unfold openTracking; split <;> simp
@[simp] theorem openTracking_supervisor : (openTracking s).supervisor = s.supervisor := by unfold openTracking; split <;> simp
@[simp] theorem openTracking_picks : (openTracking s).picks = s.picks := by unfold openTracking; split <;> simp
@[simp] theorem openTracking_pending : (openTracking s).pending = s.pending := by unfold openTracking; split <;> simp
@[simp] theorem openTracking_port (q : Port) : (openTracking s).port q = s.port q := by unfold openTracking; split <;> simp
/-- An open command in OFF changes nothing (R90). -/
theorem openTracking_off (h : s.optics.tracking = .off) : openTracking s = s := by simp [openTracking, h]
@[simp] theorem openTracking_closers : (openTracking s).optics.closers = s.optics.closers := by
  unfold openTracking; split <;> rfl
@[simp] theorem openTracking_focus : (openTracking s).optics.focus = s.optics.focus := by
  unfold openTracking; split <;> rfl

/-! ### beginJump -/

@[simp] theorem beginJump_clock (k : Int) (o : JumpOrigin) : (beginJump k o s).clock = s.clock := rfl
@[simp] theorem beginJump_arbiter (k : Int) (o : JumpOrigin) : (beginJump k o s).arbiter = s.arbiter := rfl
@[simp] theorem beginJump_planner (k : Int) (o : JumpOrigin) : (beginJump k o s).planner = s.planner := rfl
@[simp] theorem beginJump_map (k : Int) (o : JumpOrigin) : (beginJump k o s).map = s.map := rfl
@[simp] theorem beginJump_zones (k : Int) (o : JumpOrigin) : (beginJump k o s).zones = s.zones := rfl
@[simp] theorem beginJump_monitor (k : Int) (o : JumpOrigin) : (beginJump k o s).monitor = s.monitor := rfl
@[simp] theorem beginJump_spindle (k : Int) (o : JumpOrigin) : (beginJump k o s).spindle = s.spindle := rfl
@[simp] theorem beginJump_recovery (k : Int) (o : JumpOrigin) : (beginJump k o s).recovery = s.recovery := rfl
@[simp] theorem beginJump_supervisor (k : Int) (o : JumpOrigin) : (beginJump k o s).supervisor = s.supervisor := rfl
@[simp] theorem beginJump_picks (k : Int) (o : JumpOrigin) : (beginJump k o s).picks = s.picks := rfl
@[simp] theorem beginJump_pending (k : Int) (o : JumpOrigin) : (beginJump k o s).pending = s.pending := rfl
@[simp] theorem beginJump_port (k : Int) (o : JumpOrigin) (q : Port) : (beginJump k o s).port q = s.port q := by cases q <;> rfl

/-! ### hold -/

@[simp] theorem hold_clock (a : Nat) : (hold a s).clock = s.clock := by unfold hold; split <;> simp
@[simp] theorem hold_arbiter (a : Nat) : (hold a s).arbiter = s.arbiter := by unfold hold; split <;> simp
@[simp] theorem hold_planner (a : Nat) : (hold a s).planner = s.planner := by unfold hold; split <;> simp
@[simp] theorem hold_map (a : Nat) : (hold a s).map = s.map := by unfold hold; split <;> simp
@[simp] theorem hold_zones (a : Nat) : (hold a s).zones = s.zones := by unfold hold; split <;> simp
@[simp] theorem hold_monitor (a : Nat) : (hold a s).monitor = s.monitor := by unfold hold; split <;> simp
@[simp] theorem hold_spindle (a : Nat) : (hold a s).spindle = s.spindle := by unfold hold; split <;> simp
@[simp] theorem hold_supervisor (a : Nat) : (hold a s).supervisor = s.supervisor := by unfold hold; split <;> simp
@[simp] theorem hold_picks (a : Nat) : (hold a s).picks = s.picks := by unfold hold; split <;> simp
@[simp] theorem hold_pending (a : Nat) : (hold a s).pending = s.pending := by unfold hold; split <;> simp
@[simp] theorem hold_port (a : Nat) (q : Port) : (hold a s).port q = s.port q := by unfold hold; split <;> simp

/-! ### endHold, releaseHold -/

@[simp] theorem endHold_clock : (endHold s).clock = s.clock := by unfold endHold; split <;> simp
@[simp] theorem endHold_arbiter : (endHold s).arbiter = s.arbiter := by unfold endHold; split <;> simp
@[simp] theorem endHold_planner : (endHold s).planner = s.planner := by unfold endHold; split <;> simp
@[simp] theorem endHold_map : (endHold s).map = s.map := by unfold endHold; split <;> simp
@[simp] theorem endHold_zones : (endHold s).zones = s.zones := by unfold endHold; split <;> simp
@[simp] theorem endHold_spindle : (endHold s).spindle = s.spindle := by unfold endHold; split <;> simp
@[simp] theorem endHold_recovery : (endHold s).recovery = s.recovery := by unfold endHold; split <;> simp
@[simp] theorem endHold_supervisor : (endHold s).supervisor = s.supervisor := by unfold endHold; split <;> simp
@[simp] theorem endHold_picks : (endHold s).picks = s.picks := by unfold endHold; split <;> simp
@[simp] theorem endHold_pending : (endHold s).pending = s.pending := by unfold endHold; split <;> simp
@[simp] theorem endHold_port (q : Port) : (endHold s).port q = s.port q := by unfold endHold; split <;> simp

@[simp] theorem releaseHold_clock : (releaseHold s).clock = s.clock := by simp [releaseHold]
@[simp] theorem releaseHold_arbiter : (releaseHold s).arbiter = s.arbiter := by simp [releaseHold]
@[simp] theorem releaseHold_planner : (releaseHold s).planner = s.planner := by simp [releaseHold]
@[simp] theorem releaseHold_map : (releaseHold s).map = s.map := by simp [releaseHold]
@[simp] theorem releaseHold_zones : (releaseHold s).zones = s.zones := by simp [releaseHold]
@[simp] theorem releaseHold_spindle : (releaseHold s).spindle = s.spindle := by simp [releaseHold]
@[simp] theorem releaseHold_supervisor : (releaseHold s).supervisor = s.supervisor := by simp [releaseHold]
@[simp] theorem releaseHold_picks : (releaseHold s).picks = s.picks := by simp [releaseHold]
@[simp] theorem releaseHold_pending : (releaseHold s).pending = s.pending := by simp [releaseHold]
@[simp] theorem releaseHold_port (q : Port) : (releaseHold s).port q = s.port q := by simp [releaseHold]

/-! ### completeJump -/

@[simp] theorem completeJump_clock : (completeJump s).clock = s.clock := by
  unfold completeJump
  dsimp only
  split
  · simp
  · split <;> simp
@[simp] theorem completeJump_arbiter : (completeJump s).arbiter = s.arbiter := by
  unfold completeJump
  dsimp only
  split
  · simp
  · split <;> simp
@[simp] theorem completeJump_planner : (completeJump s).planner = s.planner := by
  unfold completeJump
  dsimp only
  split
  · simp
  · split <;> simp
@[simp] theorem completeJump_map : (completeJump s).map = s.map := by
  unfold completeJump
  dsimp only
  split
  · simp
  · split <;> simp
@[simp] theorem completeJump_zones : (completeJump s).zones = s.zones := by
  unfold completeJump
  dsimp only
  split
  · simp
  · split <;> simp
@[simp] theorem completeJump_spindle : (completeJump s).spindle = s.spindle := by
  unfold completeJump
  dsimp only
  split
  · simp
  · split <;> simp
@[simp] theorem completeJump_recovery : (completeJump s).recovery = s.recovery := by
  unfold completeJump
  dsimp only
  split
  · simp
  · split <;> simp
@[simp] theorem completeJump_supervisor : (completeJump s).supervisor = s.supervisor := by
  unfold completeJump
  dsimp only
  split
  · simp
  · split <;> simp
@[simp] theorem completeJump_picks : (completeJump s).picks = s.picks := by
  unfold completeJump
  dsimp only
  split
  · simp
  · split <;> simp
@[simp] theorem completeJump_pending : (completeJump s).pending = s.pending := by
  unfold completeJump
  dsimp only
  split
  · simp
  · split <;> simp
@[simp] theorem completeJump_port (q : Port) : (completeJump s).port q = s.port q := by
  unfold completeJump
  dsimp only
  split
  · simp
  · split <;> simp

/-! ### profileSelect -/

@[simp] theorem profileSelect_clock (k : DiscClass) : (profileSelect k s).1.clock = s.clock := by unfold profileSelect; split <;> simp
@[simp] theorem profileSelect_arbiter (k : DiscClass) : (profileSelect k s).1.arbiter = s.arbiter := by unfold profileSelect; split <;> simp
@[simp] theorem profileSelect_map (k : DiscClass) : (profileSelect k s).1.map = s.map := by unfold profileSelect; split <;> simp
@[simp] theorem profileSelect_zones (k : DiscClass) : (profileSelect k s).1.zones = s.zones := by unfold profileSelect; split <;> simp
@[simp] theorem profileSelect_spindle (k : DiscClass) : (profileSelect k s).1.spindle = s.spindle := by unfold profileSelect; split <;> simp
@[simp] theorem profileSelect_recovery (k : DiscClass) : (profileSelect k s).1.recovery = s.recovery := by unfold profileSelect; split <;> simp
@[simp] theorem profileSelect_supervisor (k : DiscClass) : (profileSelect k s).1.supervisor = s.supervisor := by unfold profileSelect; split <;> simp
@[simp] theorem profileSelect_picks (k : DiscClass) : (profileSelect k s).1.picks = s.picks := by unfold profileSelect; split <;> simp
@[simp] theorem profileSelect_pending (k : DiscClass) : (profileSelect k s).1.pending = s.pending := by unfold profileSelect; split <;> simp
@[simp] theorem profileSelect_port (k : DiscClass) (q : Port) : (profileSelect k s).1.port q = s.port q := by unfold profileSelect; split <;> simp

/-! ### lasersOff -/

@[simp] theorem lasersOff_clock : (lasersOff s).clock = s.clock := by simp [lasersOff]
@[simp] theorem lasersOff_arbiter : (lasersOff s).arbiter = s.arbiter := by simp [lasersOff]
@[simp] theorem lasersOff_map : (lasersOff s).map = s.map := by simp [lasersOff]
@[simp] theorem lasersOff_zones : (lasersOff s).zones = s.zones := by simp [lasersOff]
@[simp] theorem lasersOff_spindle : (lasersOff s).spindle = s.spindle := by simp [lasersOff]
@[simp] theorem lasersOff_recovery : (lasersOff s).recovery = s.recovery := by simp [lasersOff]
@[simp] theorem lasersOff_supervisor : (lasersOff s).supervisor = s.supervisor := by simp [lasersOff]
@[simp] theorem lasersOff_picks : (lasersOff s).picks = s.picks := by simp [lasersOff]
@[simp] theorem lasersOff_pending : (lasersOff s).pending = s.pending := by simp [lasersOff]
@[simp] theorem lasersOff_port (q : Port) : (lasersOff s).port q = s.port q := by simp [lasersOff]

/-! ### sledLeg -/

@[simp] theorem sledLeg_clock (r : Requester) (n : Int) : (sledLeg r n s).1.clock = s.clock := by unfold sledLeg; split <;> (try split) <;> (try split) <;> rfl
@[simp] theorem sledLeg_arbiter (r : Requester) (n : Int) : (sledLeg r n s).1.arbiter = s.arbiter := by unfold sledLeg; split <;> (try split) <;> (try split) <;> rfl
@[simp] theorem sledLeg_planner (r : Requester) (n : Int) : (sledLeg r n s).1.planner = s.planner := by unfold sledLeg; split <;> (try split) <;> (try split) <;> rfl
@[simp] theorem sledLeg_map (r : Requester) (n : Int) : (sledLeg r n s).1.map = s.map := by unfold sledLeg; split <;> (try split) <;> (try split) <;> rfl
@[simp] theorem sledLeg_zones (r : Requester) (n : Int) : (sledLeg r n s).1.zones = s.zones := by unfold sledLeg; split <;> (try split) <;> (try split) <;> rfl
@[simp] theorem sledLeg_monitor (r : Requester) (n : Int) : (sledLeg r n s).1.monitor = s.monitor := by unfold sledLeg; split <;> (try split) <;> (try split) <;> rfl
@[simp] theorem sledLeg_optics (r : Requester) (n : Int) : (sledLeg r n s).1.optics = s.optics := by unfold sledLeg; split <;> (try split) <;> (try split) <;> rfl
@[simp] theorem sledLeg_spindle (r : Requester) (n : Int) : (sledLeg r n s).1.spindle = s.spindle := by unfold sledLeg; split <;> (try split) <;> (try split) <;> rfl
@[simp] theorem sledLeg_recovery (r : Requester) (n : Int) : (sledLeg r n s).1.recovery = s.recovery := by unfold sledLeg; split <;> (try split) <;> (try split) <;> rfl
@[simp] theorem sledLeg_supervisor (r : Requester) (n : Int) : (sledLeg r n s).1.supervisor = s.supervisor := by unfold sledLeg; split <;> (try split) <;> (try split) <;> rfl
@[simp] theorem sledLeg_picks (r : Requester) (n : Int) : (sledLeg r n s).1.picks = s.picks := by unfold sledLeg; split <;> (try split) <;> (try split) <;> rfl
@[simp] theorem sledLeg_pending (r : Requester) (n : Int) : (sledLeg r n s).1.pending = s.pending := by unfold sledLeg; split <;> (try split) <;> (try split) <;> rfl
@[simp] theorem sledLeg_port (r : Requester) (n : Int) (q : Port) : (sledLeg r n s).1.port q = s.port q := by unfold sledLeg; split <;> (try split) <;> (try split) <;> simp

/-! ### sledStop -/

@[simp] theorem sledStop_clock : (sledStop s).clock = s.clock := rfl
@[simp] theorem sledStop_arbiter : (sledStop s).arbiter = s.arbiter := rfl
@[simp] theorem sledStop_planner : (sledStop s).planner = s.planner := rfl
@[simp] theorem sledStop_map : (sledStop s).map = s.map := rfl
@[simp] theorem sledStop_zones : (sledStop s).zones = s.zones := rfl
@[simp] theorem sledStop_monitor : (sledStop s).monitor = s.monitor := rfl
@[simp] theorem sledStop_optics : (sledStop s).optics = s.optics := rfl
@[simp] theorem sledStop_spindle : (sledStop s).spindle = s.spindle := rfl
@[simp] theorem sledStop_recovery : (sledStop s).recovery = s.recovery := rfl
@[simp] theorem sledStop_supervisor : (sledStop s).supervisor = s.supervisor := rfl
@[simp] theorem sledStop_picks : (sledStop s).picks = s.picks := rfl
@[simp] theorem sledStop_pending : (sledStop s).pending = s.pending := rfl
@[simp] theorem sledStop_port (q : Port) : (sledStop s).port q = s.port q := by cases q <;> rfl

/-! ### homingCommand -/

@[simp] theorem homingCommand_clock : (homingCommand s).1.clock = s.clock := by unfold homingCommand; dsimp only; split <;> split <;> rfl
@[simp] theorem homingCommand_arbiter : (homingCommand s).1.arbiter = s.arbiter := by unfold homingCommand; dsimp only; split <;> split <;> rfl
@[simp] theorem homingCommand_map : (homingCommand s).1.map = s.map := by unfold homingCommand; dsimp only; split <;> split <;> rfl
@[simp] theorem homingCommand_zones : (homingCommand s).1.zones = s.zones := by unfold homingCommand; dsimp only; split <;> split <;> rfl
@[simp] theorem homingCommand_monitor : (homingCommand s).1.monitor = s.monitor := by unfold homingCommand; dsimp only; split <;> split <;> rfl
@[simp] theorem homingCommand_optics : (homingCommand s).1.optics = s.optics := by unfold homingCommand; dsimp only; split <;> split <;> rfl
@[simp] theorem homingCommand_spindle : (homingCommand s).1.spindle = s.spindle := by unfold homingCommand; dsimp only; split <;> split <;> rfl
@[simp] theorem homingCommand_recovery : (homingCommand s).1.recovery = s.recovery := by unfold homingCommand; dsimp only; split <;> split <;> rfl
@[simp] theorem homingCommand_supervisor : (homingCommand s).1.supervisor = s.supervisor := by unfold homingCommand; dsimp only; split <;> split <;> rfl
@[simp] theorem homingCommand_picks : (homingCommand s).1.picks = s.picks := by unfold homingCommand; dsimp only; split <;> split <;> rfl
@[simp] theorem homingCommand_pending : (homingCommand s).1.pending = s.pending := by unfold homingCommand; dsimp only; split <;> split <;> rfl
@[simp] theorem homingCommand_port (q : Port) : (homingCommand s).1.port q = s.port q := by unfold homingCommand; dsimp only; split <;> split <;> simp

/-! ### pauseHoming -/

@[simp] theorem pauseHoming_clock : (pauseHoming s).clock = s.clock := by unfold pauseHoming; split <;> rfl
@[simp] theorem pauseHoming_arbiter : (pauseHoming s).arbiter = s.arbiter := by unfold pauseHoming; split <;> rfl
@[simp] theorem pauseHoming_planner : (pauseHoming s).planner = s.planner := by unfold pauseHoming; split <;> rfl
@[simp] theorem pauseHoming_map : (pauseHoming s).map = s.map := by unfold pauseHoming; split <;> rfl
@[simp] theorem pauseHoming_zones : (pauseHoming s).zones = s.zones := by unfold pauseHoming; split <;> rfl
@[simp] theorem pauseHoming_monitor : (pauseHoming s).monitor = s.monitor := by unfold pauseHoming; split <;> rfl
@[simp] theorem pauseHoming_optics : (pauseHoming s).optics = s.optics := by unfold pauseHoming; split <;> rfl
@[simp] theorem pauseHoming_spindle : (pauseHoming s).spindle = s.spindle := by unfold pauseHoming; split <;> rfl
@[simp] theorem pauseHoming_recovery : (pauseHoming s).recovery = s.recovery := by unfold pauseHoming; split <;> rfl
@[simp] theorem pauseHoming_supervisor : (pauseHoming s).supervisor = s.supervisor := by unfold pauseHoming; split <;> rfl
@[simp] theorem pauseHoming_picks : (pauseHoming s).picks = s.picks := by unfold pauseHoming; split <;> rfl
@[simp] theorem pauseHoming_pending : (pauseHoming s).pending = s.pending := by unfold pauseHoming; split <;> rfl
@[simp] theorem pauseHoming_port (q : Port) : (pauseHoming s).port q = s.port q := by unfold pauseHoming; split <;> simp

/-! ### resumeHoming -/

@[simp] theorem resumeHoming_clock : (resumeHoming s).clock = s.clock := by unfold resumeHoming; split <;> rfl
@[simp] theorem resumeHoming_arbiter : (resumeHoming s).arbiter = s.arbiter := by unfold resumeHoming; split <;> rfl
@[simp] theorem resumeHoming_planner : (resumeHoming s).planner = s.planner := by unfold resumeHoming; split <;> rfl
@[simp] theorem resumeHoming_map : (resumeHoming s).map = s.map := by unfold resumeHoming; split <;> rfl
@[simp] theorem resumeHoming_zones : (resumeHoming s).zones = s.zones := by unfold resumeHoming; split <;> rfl
@[simp] theorem resumeHoming_monitor : (resumeHoming s).monitor = s.monitor := by unfold resumeHoming; split <;> rfl
@[simp] theorem resumeHoming_optics : (resumeHoming s).optics = s.optics := by unfold resumeHoming; split <;> rfl
@[simp] theorem resumeHoming_spindle : (resumeHoming s).spindle = s.spindle := by unfold resumeHoming; split <;> rfl
@[simp] theorem resumeHoming_recovery : (resumeHoming s).recovery = s.recovery := by unfold resumeHoming; split <;> rfl
@[simp] theorem resumeHoming_supervisor : (resumeHoming s).supervisor = s.supervisor := by unfold resumeHoming; split <;> rfl
@[simp] theorem resumeHoming_picks : (resumeHoming s).picks = s.picks := by unfold resumeHoming; split <;> rfl
@[simp] theorem resumeHoming_pending : (resumeHoming s).pending = s.pending := by unfold resumeHoming; split <;> rfl
@[simp] theorem resumeHoming_port (q : Port) : (resumeHoming s).port q = s.port q := by unfold resumeHoming; split <;> simp

/-! ### releaseSags -/

@[simp] theorem releaseSags_clock : (releaseSags s).clock = s.clock := by unfold releaseSags; split <;> simp
@[simp] theorem releaseSags_arbiter : (releaseSags s).arbiter = s.arbiter := by unfold releaseSags; split <;> simp
@[simp] theorem releaseSags_planner : (releaseSags s).planner = s.planner := by unfold releaseSags; split <;> simp
@[simp] theorem releaseSags_map : (releaseSags s).map = s.map := by unfold releaseSags; split <;> simp
@[simp] theorem releaseSags_zones : (releaseSags s).zones = s.zones := by unfold releaseSags; split <;> simp
@[simp] theorem releaseSags_monitor : (releaseSags s).monitor = s.monitor := by unfold releaseSags; split <;> simp
@[simp] theorem releaseSags_optics : (releaseSags s).optics = s.optics := by unfold releaseSags; split <;> simp
@[simp] theorem releaseSags_spindle : (releaseSags s).spindle = s.spindle := by unfold releaseSags; split <;> simp
@[simp] theorem releaseSags_recovery : (releaseSags s).recovery = s.recovery := by unfold releaseSags; split <;> simp
@[simp] theorem releaseSags_supervisor : (releaseSags s).supervisor = s.supervisor := by unfold releaseSags; split <;> simp
@[simp] theorem releaseSags_picks : (releaseSags s).picks = s.picks := by unfold releaseSags; split <;> simp
@[simp] theorem releaseSags_pending : (releaseSags s).pending = s.pending := by unfold releaseSags; split <;> simp
@[simp] theorem releaseSags_port (q : Port) : (releaseSags s).port q = s.port q := by unfold releaseSags; split <;> simp

/-! ### brake -/

@[simp] theorem brake_clock : (brake s).clock = s.clock := by simp [brake]
@[simp] theorem brake_arbiter : (brake s).arbiter = s.arbiter := by simp [brake]
@[simp] theorem brake_planner : (brake s).planner = s.planner := by simp [brake]
@[simp] theorem brake_map : (brake s).map = s.map := by simp [brake]
@[simp] theorem brake_zones : (brake s).zones = s.zones := by simp [brake]
@[simp] theorem brake_optics : (brake s).optics = s.optics := by simp [brake]
@[simp] theorem brake_sled : (brake s).sled = s.sled := by simp [brake]
@[simp] theorem brake_recovery : (brake s).recovery = s.recovery := by simp [brake]
@[simp] theorem brake_supervisor : (brake s).supervisor = s.supervisor := by simp [brake]
@[simp] theorem brake_picks : (brake s).picks = s.picks := by simp [brake]
@[simp] theorem brake_pending : (brake s).pending = s.pending := by simp [brake]

/-! ### coastSpindle -/

@[simp] theorem coastSpindle_clock : (coastSpindle s).clock = s.clock := rfl
@[simp] theorem coastSpindle_arbiter : (coastSpindle s).arbiter = s.arbiter := rfl
@[simp] theorem coastSpindle_planner : (coastSpindle s).planner = s.planner := rfl
@[simp] theorem coastSpindle_map : (coastSpindle s).map = s.map := rfl
@[simp] theorem coastSpindle_zones : (coastSpindle s).zones = s.zones := rfl
@[simp] theorem coastSpindle_monitor : (coastSpindle s).monitor = s.monitor := rfl
@[simp] theorem coastSpindle_optics : (coastSpindle s).optics = s.optics := rfl
@[simp] theorem coastSpindle_sled : (coastSpindle s).sled = s.sled := rfl
@[simp] theorem coastSpindle_recovery : (coastSpindle s).recovery = s.recovery := rfl
@[simp] theorem coastSpindle_supervisor : (coastSpindle s).supervisor = s.supervisor := rfl
@[simp] theorem coastSpindle_picks : (coastSpindle s).picks = s.picks := rfl
@[simp] theorem coastSpindle_pending : (coastSpindle s).pending = s.pending := rfl
@[simp] theorem coastSpindle_port (q : Port) : (coastSpindle s).port q = s.port q := by cases q <;> rfl

/-! ### driveSpindleAgain -/

@[simp] theorem driveSpindleAgain_clock : (driveSpindleAgain s).clock = s.clock := rfl
@[simp] theorem driveSpindleAgain_arbiter : (driveSpindleAgain s).arbiter = s.arbiter := rfl
@[simp] theorem driveSpindleAgain_planner : (driveSpindleAgain s).planner = s.planner := rfl
@[simp] theorem driveSpindleAgain_map : (driveSpindleAgain s).map = s.map := rfl
@[simp] theorem driveSpindleAgain_zones : (driveSpindleAgain s).zones = s.zones := rfl
@[simp] theorem driveSpindleAgain_monitor : (driveSpindleAgain s).monitor = s.monitor := rfl
@[simp] theorem driveSpindleAgain_optics : (driveSpindleAgain s).optics = s.optics := rfl
@[simp] theorem driveSpindleAgain_sled : (driveSpindleAgain s).sled = s.sled := rfl
@[simp] theorem driveSpindleAgain_recovery : (driveSpindleAgain s).recovery = s.recovery := rfl
@[simp] theorem driveSpindleAgain_supervisor : (driveSpindleAgain s).supervisor = s.supervisor := rfl
@[simp] theorem driveSpindleAgain_picks : (driveSpindleAgain s).picks = s.picks := rfl
@[simp] theorem driveSpindleAgain_pending : (driveSpindleAgain s).pending = s.pending := rfl
@[simp] theorem driveSpindleAgain_port (q : Port) : (driveSpindleAgain s).port q = s.port q := by cases q <;> rfl

/-! ### disown -/

@[simp] theorem disown_clock : (disown s).clock = s.clock := rfl
@[simp] theorem disown_map : (disown s).map = s.map := rfl
@[simp] theorem disown_zones : (disown s).zones = s.zones := rfl
@[simp] theorem disown_monitor : (disown s).monitor = s.monitor := rfl
@[simp] theorem disown_optics : (disown s).optics = s.optics := rfl
@[simp] theorem disown_sled : (disown s).sled = s.sled := rfl
@[simp] theorem disown_spindle : (disown s).spindle = s.spindle := rfl
@[simp] theorem disown_recovery : (disown s).recovery = s.recovery := rfl
@[simp] theorem disown_supervisor : (disown s).supervisor = s.supervisor := rfl
@[simp] theorem disown_picks : (disown s).picks = s.picks := rfl
@[simp] theorem disown_pending : (disown s).pending = s.pending := rfl
@[simp] theorem disown_port (q : Port) : (disown s).port q = s.port q := by cases q <;> rfl

/-! ### stopSledLeg, withdraw, forgetStart -/

@[simp] theorem stopSledLeg_clock : (stopSledLeg s).clock = s.clock := by unfold stopSledLeg; split <;> rfl
@[simp] theorem stopSledLeg_map : (stopSledLeg s).map = s.map := by unfold stopSledLeg; split <;> rfl
@[simp] theorem stopSledLeg_zones : (stopSledLeg s).zones = s.zones := by unfold stopSledLeg; split <;> rfl
@[simp] theorem stopSledLeg_monitor : (stopSledLeg s).monitor = s.monitor := by unfold stopSledLeg; split <;> rfl
@[simp] theorem stopSledLeg_optics : (stopSledLeg s).optics = s.optics := by unfold stopSledLeg; split <;> rfl
@[simp] theorem stopSledLeg_spindle : (stopSledLeg s).spindle = s.spindle := by unfold stopSledLeg; split <;> rfl
@[simp] theorem stopSledLeg_recovery : (stopSledLeg s).recovery = s.recovery := by unfold stopSledLeg; split <;> rfl
@[simp] theorem stopSledLeg_supervisor : (stopSledLeg s).supervisor = s.supervisor := by unfold stopSledLeg; split <;> rfl
@[simp] theorem stopSledLeg_picks : (stopSledLeg s).picks = s.picks := by unfold stopSledLeg; split <;> rfl
@[simp] theorem stopSledLeg_pending : (stopSledLeg s).pending = s.pending := by unfold stopSledLeg; split <;> rfl
@[simp] theorem stopSledLeg_planner : (stopSledLeg s).planner = s.planner := by unfold stopSledLeg; split <;> rfl
@[simp] theorem stopSledLeg_port (q : Port) : (stopSledLeg s).port q = s.port q := by unfold stopSledLeg; split <;> simp

@[simp] theorem withdraw_clock : (withdraw s).clock = s.clock := by simp [withdraw]
@[simp] theorem withdraw_map : (withdraw s).map = s.map := by simp [withdraw]
@[simp] theorem withdraw_zones : (withdraw s).zones = s.zones := by simp [withdraw]
@[simp] theorem withdraw_monitor : (withdraw s).monitor = s.monitor := by simp [withdraw]
@[simp] theorem withdraw_optics : (withdraw s).optics = s.optics := by simp [withdraw]
@[simp] theorem withdraw_spindle : (withdraw s).spindle = s.spindle := by simp [withdraw]
@[simp] theorem withdraw_recovery : (withdraw s).recovery = s.recovery := by simp [withdraw]
@[simp] theorem withdraw_supervisor : (withdraw s).supervisor = s.supervisor := by simp [withdraw]
@[simp] theorem withdraw_picks : (withdraw s).picks = s.picks := by simp [withdraw]
@[simp] theorem withdraw_pending : (withdraw s).pending = s.pending := by simp [withdraw]
@[simp] theorem withdraw_planner : (withdraw s).planner = (disown s).planner := by simp [withdraw]
@[simp] theorem withdraw_port (q : Port) : (withdraw s).port q = s.port q := by simp [withdraw]

@[simp] theorem forgetStart_clock : (forgetStart s).clock = s.clock := rfl
@[simp] theorem forgetStart_arbiter : (forgetStart s).arbiter = s.arbiter := rfl
@[simp] theorem forgetStart_map : (forgetStart s).map = s.map := rfl
@[simp] theorem forgetStart_zones : (forgetStart s).zones = s.zones := rfl
@[simp] theorem forgetStart_monitor : (forgetStart s).monitor = s.monitor := rfl
@[simp] theorem forgetStart_optics : (forgetStart s).optics = s.optics := rfl
@[simp] theorem forgetStart_sled : (forgetStart s).sled = s.sled := rfl
@[simp] theorem forgetStart_spindle : (forgetStart s).spindle = s.spindle := rfl
@[simp] theorem forgetStart_recovery : (forgetStart s).recovery = s.recovery := rfl
@[simp] theorem forgetStart_supervisor : (forgetStart s).supervisor = s.supervisor := rfl
@[simp] theorem forgetStart_picks : (forgetStart s).picks = s.picks := rfl
@[simp] theorem forgetStart_pending : (forgetStart s).pending = s.pending := rfl
@[simp] theorem forgetStart_port (q : Port) : (forgetStart s).port q = s.port q := by cases q <;> rfl

/-! ### endRecovery -/

@[simp] theorem endRecovery_clock : (endRecovery s).clock = s.clock := rfl
@[simp] theorem endRecovery_arbiter : (endRecovery s).arbiter = s.arbiter := rfl
@[simp] theorem endRecovery_planner : (endRecovery s).planner = s.planner := rfl
@[simp] theorem endRecovery_map : (endRecovery s).map = s.map := rfl
@[simp] theorem endRecovery_zones : (endRecovery s).zones = s.zones := rfl
@[simp] theorem endRecovery_monitor : (endRecovery s).monitor = s.monitor := rfl
@[simp] theorem endRecovery_optics : (endRecovery s).optics = s.optics := rfl
@[simp] theorem endRecovery_sled : (endRecovery s).sled = s.sled := rfl
@[simp] theorem endRecovery_spindle : (endRecovery s).spindle = s.spindle := rfl
@[simp] theorem endRecovery_supervisor : (endRecovery s).supervisor = s.supervisor := rfl
@[simp] theorem endRecovery_picks : (endRecovery s).picks = s.picks := rfl
@[simp] theorem endRecovery_pending : (endRecovery s).pending = s.pending := rfl
@[simp] theorem endRecovery_port (q : Port) : (endRecovery s).port q = s.port q := by cases q <;> rfl

/-! ### endSagHold -/

@[simp] theorem endSagHold_clock : (endSagHold s).clock = s.clock := rfl
@[simp] theorem endSagHold_arbiter : (endSagHold s).arbiter = s.arbiter := rfl
@[simp] theorem endSagHold_planner : (endSagHold s).planner = s.planner := rfl
@[simp] theorem endSagHold_map : (endSagHold s).map = s.map := rfl
@[simp] theorem endSagHold_zones : (endSagHold s).zones = s.zones := rfl
@[simp] theorem endSagHold_monitor : (endSagHold s).monitor = s.monitor := rfl
@[simp] theorem endSagHold_optics : (endSagHold s).optics = s.optics := rfl
@[simp] theorem endSagHold_sled : (endSagHold s).sled = s.sled := rfl
@[simp] theorem endSagHold_spindle : (endSagHold s).spindle = s.spindle := rfl
@[simp] theorem endSagHold_recovery : (endSagHold s).recovery = s.recovery := rfl
@[simp] theorem endSagHold_picks : (endSagHold s).picks = s.picks := rfl
@[simp] theorem endSagHold_pending : (endSagHold s).pending = s.pending := rfl
@[simp] theorem endSagHold_port (q : Port) : (endSagHold s).port q = s.port q := by cases q <;> rfl

/-! ### endIdent -/

@[simp] theorem endIdent_clock : (endIdent s).clock = s.clock := rfl
@[simp] theorem endIdent_arbiter : (endIdent s).arbiter = s.arbiter := rfl
@[simp] theorem endIdent_planner : (endIdent s).planner = s.planner := rfl
@[simp] theorem endIdent_map : (endIdent s).map = s.map := rfl
@[simp] theorem endIdent_zones : (endIdent s).zones = s.zones := rfl
@[simp] theorem endIdent_monitor : (endIdent s).monitor = s.monitor := rfl
@[simp] theorem endIdent_optics : (endIdent s).optics = s.optics := rfl
@[simp] theorem endIdent_sled : (endIdent s).sled = s.sled := rfl
@[simp] theorem endIdent_spindle : (endIdent s).spindle = s.spindle := rfl
@[simp] theorem endIdent_recovery : (endIdent s).recovery = s.recovery := rfl
@[simp] theorem endIdent_picks : (endIdent s).picks = s.picks := rfl
@[simp] theorem endIdent_pending : (endIdent s).pending = s.pending := rfl
@[simp] theorem endIdent_port (q : Port) : (endIdent s).port q = s.port q := by cases q <;> rfl

/-! ### endSwitch -/

@[simp] theorem endSwitch_clock : (endSwitch s).clock = s.clock := rfl
@[simp] theorem endSwitch_arbiter : (endSwitch s).arbiter = s.arbiter := rfl
@[simp] theorem endSwitch_planner : (endSwitch s).planner = s.planner := rfl
@[simp] theorem endSwitch_map : (endSwitch s).map = s.map := rfl
@[simp] theorem endSwitch_zones : (endSwitch s).zones = s.zones := rfl
@[simp] theorem endSwitch_monitor : (endSwitch s).monitor = s.monitor := rfl
@[simp] theorem endSwitch_supervisor : (endSwitch s).supervisor = s.supervisor := rfl
@[simp] theorem endSwitch_sled : (endSwitch s).sled = s.sled := rfl
@[simp] theorem endSwitch_spindle : (endSwitch s).spindle = s.spindle := rfl
@[simp] theorem endSwitch_recovery : (endSwitch s).recovery = s.recovery := rfl
@[simp] theorem endSwitch_picks : (endSwitch s).picks = s.picks := rfl
@[simp] theorem endSwitch_pending : (endSwitch s).pending = s.pending := rfl
@[simp] theorem endSwitch_port (q : Port) : (endSwitch s).port q = s.port q := by cases q <;> rfl

/-! ### abandonIdent -/

@[simp] theorem abandonIdent_clock : (abandonIdent s).clock = s.clock := rfl
@[simp] theorem abandonIdent_arbiter : (abandonIdent s).arbiter = s.arbiter := rfl
@[simp] theorem abandonIdent_planner : (abandonIdent s).planner = s.planner := rfl
@[simp] theorem abandonIdent_map : (abandonIdent s).map = s.map := rfl
@[simp] theorem abandonIdent_zones : (abandonIdent s).zones = s.zones := rfl
@[simp] theorem abandonIdent_monitor : (abandonIdent s).monitor = s.monitor := rfl
@[simp] theorem abandonIdent_optics : (abandonIdent s).optics = { s.optics with switch := none } := rfl
@[simp] theorem abandonIdent_sled : (abandonIdent s).sled = s.sled := rfl
@[simp] theorem abandonIdent_spindle : (abandonIdent s).spindle = s.spindle := rfl
@[simp] theorem abandonIdent_recovery : (abandonIdent s).recovery = s.recovery := rfl
@[simp] theorem abandonIdent_picks : (abandonIdent s).picks = s.picks := rfl
@[simp] theorem abandonIdent_pending : (abandonIdent s).pending = s.pending := rfl
@[simp] theorem abandonIdent_port (q : Port) : (abandonIdent s).port q = s.port q := by simp [abandonIdent]

/-! ### setActive -/

@[simp] theorem setActive_clock (m : Option Motion) : (setActive m s).clock = s.clock := rfl
@[simp] theorem setActive_planner (m : Option Motion) : (setActive m s).planner = s.planner := rfl
@[simp] theorem setActive_map (m : Option Motion) : (setActive m s).map = s.map := rfl
@[simp] theorem setActive_zones (m : Option Motion) : (setActive m s).zones = s.zones := rfl
@[simp] theorem setActive_monitor (m : Option Motion) : (setActive m s).monitor = s.monitor := rfl
@[simp] theorem setActive_optics (m : Option Motion) : (setActive m s).optics = s.optics := rfl
@[simp] theorem setActive_sled (m : Option Motion) : (setActive m s).sled = s.sled := rfl
@[simp] theorem setActive_spindle (m : Option Motion) : (setActive m s).spindle = s.spindle := rfl
@[simp] theorem setActive_recovery (m : Option Motion) : (setActive m s).recovery = s.recovery := rfl
@[simp] theorem setActive_supervisor (m : Option Motion) : (setActive m s).supervisor = s.supervisor := rfl
@[simp] theorem setActive_picks (m : Option Motion) : (setActive m s).picks = s.picks := rfl
@[simp] theorem setActive_pending (m : Option Motion) : (setActive m s).pending = s.pending := rfl
@[simp] theorem setActive_port (m : Option Motion) (q : Port) : (setActive m s).port q = s.port q := by cases q <;> rfl

/-! ### setAttached -/

@[simp] theorem setAttached_clock (m : Option Motion) : (setAttached m s).clock = s.clock := rfl
@[simp] theorem setAttached_planner (m : Option Motion) : (setAttached m s).planner = s.planner := rfl
@[simp] theorem setAttached_map (m : Option Motion) : (setAttached m s).map = s.map := rfl
@[simp] theorem setAttached_zones (m : Option Motion) : (setAttached m s).zones = s.zones := rfl
@[simp] theorem setAttached_monitor (m : Option Motion) : (setAttached m s).monitor = s.monitor := rfl
@[simp] theorem setAttached_optics (m : Option Motion) : (setAttached m s).optics = s.optics := rfl
@[simp] theorem setAttached_sled (m : Option Motion) : (setAttached m s).sled = s.sled := rfl
@[simp] theorem setAttached_spindle (m : Option Motion) : (setAttached m s).spindle = s.spindle := rfl
@[simp] theorem setAttached_recovery (m : Option Motion) : (setAttached m s).recovery = s.recovery := rfl
@[simp] theorem setAttached_supervisor (m : Option Motion) : (setAttached m s).supervisor = s.supervisor := rfl
@[simp] theorem setAttached_picks (m : Option Motion) : (setAttached m s).picks = s.picks := rfl
@[simp] theorem setAttached_pending (m : Option Motion) : (setAttached m s).pending = s.pending := rfl
@[simp] theorem setAttached_port (m : Option Motion) (q : Port) : (setAttached m s).port q = s.port q := by cases q <;> rfl

/-! ### setWaiting -/

@[simp] theorem setWaiting_clock (ms : List Motion) : (setWaiting ms s).clock = s.clock := rfl
@[simp] theorem setWaiting_planner (ms : List Motion) : (setWaiting ms s).planner = s.planner := rfl
@[simp] theorem setWaiting_map (ms : List Motion) : (setWaiting ms s).map = s.map := rfl
@[simp] theorem setWaiting_zones (ms : List Motion) : (setWaiting ms s).zones = s.zones := rfl
@[simp] theorem setWaiting_monitor (ms : List Motion) : (setWaiting ms s).monitor = s.monitor := rfl
@[simp] theorem setWaiting_optics (ms : List Motion) : (setWaiting ms s).optics = s.optics := rfl
@[simp] theorem setWaiting_sled (ms : List Motion) : (setWaiting ms s).sled = s.sled := rfl
@[simp] theorem setWaiting_spindle (ms : List Motion) : (setWaiting ms s).spindle = s.spindle := rfl
@[simp] theorem setWaiting_recovery (ms : List Motion) : (setWaiting ms s).recovery = s.recovery := rfl
@[simp] theorem setWaiting_supervisor (ms : List Motion) : (setWaiting ms s).supervisor = s.supervisor := rfl
@[simp] theorem setWaiting_picks (ms : List Motion) : (setWaiting ms s).picks = s.picks := rfl
@[simp] theorem setWaiting_pending (ms : List Motion) : (setWaiting ms s).pending = s.pending := rfl
@[simp] theorem setWaiting_port (ms : List Motion) (q : Port) : (setWaiting ms s).port q = s.port q := by cases q <;> rfl

/-! ### setPhase -/

@[simp] theorem setPhase_clock (ph : Phase) : (setPhase ph s).clock = s.clock := rfl
@[simp] theorem setPhase_planner (ph : Phase) : (setPhase ph s).planner = s.planner := rfl
@[simp] theorem setPhase_map (ph : Phase) : (setPhase ph s).map = s.map := rfl
@[simp] theorem setPhase_zones (ph : Phase) : (setPhase ph s).zones = s.zones := rfl
@[simp] theorem setPhase_monitor (ph : Phase) : (setPhase ph s).monitor = s.monitor := rfl
@[simp] theorem setPhase_optics (ph : Phase) : (setPhase ph s).optics = s.optics := rfl
@[simp] theorem setPhase_sled (ph : Phase) : (setPhase ph s).sled = s.sled := rfl
@[simp] theorem setPhase_spindle (ph : Phase) : (setPhase ph s).spindle = s.spindle := rfl
@[simp] theorem setPhase_recovery (ph : Phase) : (setPhase ph s).recovery = s.recovery := rfl
@[simp] theorem setPhase_supervisor (ph : Phase) : (setPhase ph s).supervisor = s.supervisor := rfl
@[simp] theorem setPhase_picks (ph : Phase) : (setPhase ph s).picks = s.picks := rfl
@[simp] theorem setPhase_pending (ph : Phase) : (setPhase ph s).pending = s.pending := rfl
@[simp] theorem setPhase_port (ph : Phase) (q : Port) : (setPhase ph s).port q = s.port q := by cases q <;> rfl

/-! ### markRejoin -/

@[simp] theorem markRejoin_clock (b : Bool) : (markRejoin b s).clock = s.clock := rfl
@[simp] theorem markRejoin_planner (b : Bool) : (markRejoin b s).planner = s.planner := rfl
@[simp] theorem markRejoin_map (b : Bool) : (markRejoin b s).map = s.map := rfl
@[simp] theorem markRejoin_zones (b : Bool) : (markRejoin b s).zones = s.zones := rfl
@[simp] theorem markRejoin_monitor (b : Bool) : (markRejoin b s).monitor = s.monitor := rfl
@[simp] theorem markRejoin_optics (b : Bool) : (markRejoin b s).optics = s.optics := rfl
@[simp] theorem markRejoin_sled (b : Bool) : (markRejoin b s).sled = s.sled := rfl
@[simp] theorem markRejoin_spindle (b : Bool) : (markRejoin b s).spindle = s.spindle := rfl
@[simp] theorem markRejoin_recovery (b : Bool) : (markRejoin b s).recovery = s.recovery := rfl
@[simp] theorem markRejoin_supervisor (b : Bool) : (markRejoin b s).supervisor = s.supervisor := rfl
@[simp] theorem markRejoin_picks (b : Bool) : (markRejoin b s).picks = s.picks := rfl
@[simp] theorem markRejoin_pending (b : Bool) : (markRejoin b s).pending = s.pending := rfl
@[simp] theorem markRejoin_port (b : Bool) (q : Port) : (markRejoin b s).port q = s.port q := by cases q <;> rfl

/-! ### setLegPhase -/

@[simp] theorem setLegPhase_clock (ph : Phase) : (setLegPhase ph s).clock = s.clock := by unfold setLegPhase; split <;> rfl
@[simp] theorem setLegPhase_planner (ph : Phase) : (setLegPhase ph s).planner = s.planner := by unfold setLegPhase; split <;> rfl
@[simp] theorem setLegPhase_map (ph : Phase) : (setLegPhase ph s).map = s.map := by unfold setLegPhase; split <;> rfl
@[simp] theorem setLegPhase_zones (ph : Phase) : (setLegPhase ph s).zones = s.zones := by unfold setLegPhase; split <;> rfl
@[simp] theorem setLegPhase_monitor (ph : Phase) : (setLegPhase ph s).monitor = s.monitor := by unfold setLegPhase; split <;> rfl
@[simp] theorem setLegPhase_optics (ph : Phase) : (setLegPhase ph s).optics = s.optics := by unfold setLegPhase; split <;> rfl
@[simp] theorem setLegPhase_sled (ph : Phase) : (setLegPhase ph s).sled = s.sled := by unfold setLegPhase; split <;> rfl
@[simp] theorem setLegPhase_spindle (ph : Phase) : (setLegPhase ph s).spindle = s.spindle := by unfold setLegPhase; split <;> rfl
@[simp] theorem setLegPhase_recovery (ph : Phase) : (setLegPhase ph s).recovery = s.recovery := by unfold setLegPhase; split <;> rfl
@[simp] theorem setLegPhase_supervisor (ph : Phase) : (setLegPhase ph s).supervisor = s.supervisor := by unfold setLegPhase; split <;> rfl
@[simp] theorem setLegPhase_picks (ph : Phase) : (setLegPhase ph s).picks = s.picks := by unfold setLegPhase; split <;> rfl
@[simp] theorem setLegPhase_pending (ph : Phase) : (setLegPhase ph s).pending = s.pending := by unfold setLegPhase; split <;> rfl
@[simp] theorem setLegPhase_port (ph : Phase) (q : Port) : (setLegPhase ph s).port q = s.port q := by unfold setLegPhase; split <;> simp

/-! ### countLeg -/

@[simp] theorem countLeg_clock : (countLeg s).clock = s.clock := by unfold countLeg; dsimp only; split <;> rfl
@[simp] theorem countLeg_planner : (countLeg s).planner = s.planner := by unfold countLeg; dsimp only; split <;> rfl
@[simp] theorem countLeg_map : (countLeg s).map = s.map := by unfold countLeg; dsimp only; split <;> rfl
@[simp] theorem countLeg_zones : (countLeg s).zones = s.zones := by unfold countLeg; dsimp only; split <;> rfl
@[simp] theorem countLeg_monitor : (countLeg s).monitor = s.monitor := by unfold countLeg; dsimp only; split <;> rfl
@[simp] theorem countLeg_optics : (countLeg s).optics = s.optics := by unfold countLeg; dsimp only; split <;> rfl
@[simp] theorem countLeg_sled : (countLeg s).sled = s.sled := by unfold countLeg; dsimp only; split <;> rfl
@[simp] theorem countLeg_spindle : (countLeg s).spindle = s.spindle := by unfold countLeg; dsimp only; split <;> rfl
@[simp] theorem countLeg_recovery : (countLeg s).recovery = s.recovery := by unfold countLeg; dsimp only; split <;> rfl
@[simp] theorem countLeg_supervisor : (countLeg s).supervisor = s.supervisor := by unfold countLeg; dsimp only; split <;> rfl
@[simp] theorem countLeg_picks : (countLeg s).picks = s.picks := by unfold countLeg; dsimp only; split <;> rfl
@[simp] theorem countLeg_pending : (countLeg s).pending = s.pending := by unfold countLeg; dsimp only; split <;> rfl
@[simp] theorem countLeg_port (q : Port) : (countLeg s).port q = s.port q := by unfold countLeg; dsimp only; split <;> simp

/-! ### countBad -/

@[simp] theorem countBad_clock : (countBad s).clock = s.clock := by unfold countBad; dsimp only; split <;> rfl
@[simp] theorem countBad_planner : (countBad s).planner = s.planner := by unfold countBad; dsimp only; split <;> rfl
@[simp] theorem countBad_map : (countBad s).map = s.map := by unfold countBad; dsimp only; split <;> rfl
@[simp] theorem countBad_zones : (countBad s).zones = s.zones := by unfold countBad; dsimp only; split <;> rfl
@[simp] theorem countBad_monitor : (countBad s).monitor = s.monitor := by unfold countBad; dsimp only; split <;> rfl
@[simp] theorem countBad_optics : (countBad s).optics = s.optics := by unfold countBad; dsimp only; split <;> rfl
@[simp] theorem countBad_sled : (countBad s).sled = s.sled := by unfold countBad; dsimp only; split <;> rfl
@[simp] theorem countBad_spindle : (countBad s).spindle = s.spindle := by unfold countBad; dsimp only; split <;> rfl
@[simp] theorem countBad_recovery : (countBad s).recovery = s.recovery := by unfold countBad; dsimp only; split <;> rfl
@[simp] theorem countBad_supervisor : (countBad s).supervisor = s.supervisor := by unfold countBad; dsimp only; split <;> rfl
@[simp] theorem countBad_picks : (countBad s).picks = s.picks := by unfold countBad; dsimp only; split <;> rfl
@[simp] theorem countBad_pending : (countBad s).pending = s.pending := by unfold countBad; dsimp only; split <;> rfl
@[simp] theorem countBad_port (q : Port) : (countBad s).port q = s.port q := by unfold countBad; dsimp only; split <;> simp

/-! ### queueCompletion -/

@[simp] theorem queueCompletion_clock (p : Port) (c : Completion) : (queueCompletion p c s).clock = s.clock := by simp [queueCompletion]
@[simp] theorem queueCompletion_arbiter (p : Port) (c : Completion) : (queueCompletion p c s).arbiter = s.arbiter := by simp [queueCompletion]
@[simp] theorem queueCompletion_planner (p : Port) (c : Completion) : (queueCompletion p c s).planner = s.planner := by simp [queueCompletion]
@[simp] theorem queueCompletion_map (p : Port) (c : Completion) : (queueCompletion p c s).map = s.map := by simp [queueCompletion]
@[simp] theorem queueCompletion_zones (p : Port) (c : Completion) : (queueCompletion p c s).zones = s.zones := by simp [queueCompletion]
@[simp] theorem queueCompletion_monitor (p : Port) (c : Completion) : (queueCompletion p c s).monitor = s.monitor := by simp [queueCompletion]
@[simp] theorem queueCompletion_optics (p : Port) (c : Completion) : (queueCompletion p c s).optics = s.optics := by simp [queueCompletion]
@[simp] theorem queueCompletion_sled (p : Port) (c : Completion) : (queueCompletion p c s).sled = s.sled := by simp [queueCompletion]
@[simp] theorem queueCompletion_spindle (p : Port) (c : Completion) : (queueCompletion p c s).spindle = s.spindle := by simp [queueCompletion]
@[simp] theorem queueCompletion_recovery (p : Port) (c : Completion) : (queueCompletion p c s).recovery = s.recovery := by simp [queueCompletion]
@[simp] theorem queueCompletion_supervisor (p : Port) (c : Completion) : (queueCompletion p c s).supervisor = s.supervisor := by simp [queueCompletion]
@[simp] theorem queueCompletion_picks (p : Port) (c : Completion) : (queueCompletion p c s).picks = s.picks := by simp [queueCompletion]
@[simp] theorem queueCompletion_pending (p : Port) (c : Completion) : (queueCompletion p c s).pending = s.pending := by simp [queueCompletion]

/-! ### endMotion -/

@[simp] theorem endMotion_clock (m : Motion) (r : Result) (f : Option Nat) : (endMotion m r f s).clock = s.clock := by simp [endMotion]
@[simp] theorem endMotion_planner (m : Motion) (r : Result) (f : Option Nat) : (endMotion m r f s).planner = s.planner := by simp [endMotion]
@[simp] theorem endMotion_map (m : Motion) (r : Result) (f : Option Nat) : (endMotion m r f s).map = s.map := by simp [endMotion]
@[simp] theorem endMotion_zones (m : Motion) (r : Result) (f : Option Nat) : (endMotion m r f s).zones = s.zones := by simp [endMotion]
@[simp] theorem endMotion_monitor (m : Motion) (r : Result) (f : Option Nat) : (endMotion m r f s).monitor = s.monitor := by simp [endMotion]
@[simp] theorem endMotion_optics (m : Motion) (r : Result) (f : Option Nat) : (endMotion m r f s).optics = s.optics := by simp [endMotion]
@[simp] theorem endMotion_sled (m : Motion) (r : Result) (f : Option Nat) : (endMotion m r f s).sled = s.sled := by simp [endMotion]
@[simp] theorem endMotion_spindle (m : Motion) (r : Result) (f : Option Nat) : (endMotion m r f s).spindle = s.spindle := by simp [endMotion]
@[simp] theorem endMotion_recovery (m : Motion) (r : Result) (f : Option Nat) : (endMotion m r f s).recovery = s.recovery := by simp [endMotion]
@[simp] theorem endMotion_supervisor (m : Motion) (r : Result) (f : Option Nat) : (endMotion m r f s).supervisor = s.supervisor := by simp [endMotion]
@[simp] theorem endMotion_picks (m : Motion) (r : Result) (f : Option Nat) : (endMotion m r f s).picks = s.picks := by simp [endMotion]
@[simp] theorem endMotion_pending (m : Motion) (r : Result) (f : Option Nat) : (endMotion m r f s).pending = s.pending := by simp [endMotion]

/-! ### endMotions -/

@[simp] theorem endMotions_clock (l : List (Motion × Result)) (f : Option Nat) : (endMotions l f s).clock = s.clock := by
  unfold endMotions
  induction l generalizing s with
  | nil => rfl
  | cons x l ih => rw [List.foldl_cons, ih]; simp
@[simp] theorem endMotions_planner (l : List (Motion × Result)) (f : Option Nat) : (endMotions l f s).planner = s.planner := by
  unfold endMotions
  induction l generalizing s with
  | nil => rfl
  | cons x l ih => rw [List.foldl_cons, ih]; simp
@[simp] theorem endMotions_map (l : List (Motion × Result)) (f : Option Nat) : (endMotions l f s).map = s.map := by
  unfold endMotions
  induction l generalizing s with
  | nil => rfl
  | cons x l ih => rw [List.foldl_cons, ih]; simp
@[simp] theorem endMotions_zones (l : List (Motion × Result)) (f : Option Nat) : (endMotions l f s).zones = s.zones := by
  unfold endMotions
  induction l generalizing s with
  | nil => rfl
  | cons x l ih => rw [List.foldl_cons, ih]; simp
@[simp] theorem endMotions_monitor (l : List (Motion × Result)) (f : Option Nat) : (endMotions l f s).monitor = s.monitor := by
  unfold endMotions
  induction l generalizing s with
  | nil => rfl
  | cons x l ih => rw [List.foldl_cons, ih]; simp
@[simp] theorem endMotions_optics (l : List (Motion × Result)) (f : Option Nat) : (endMotions l f s).optics = s.optics := by
  unfold endMotions
  induction l generalizing s with
  | nil => rfl
  | cons x l ih => rw [List.foldl_cons, ih]; simp
@[simp] theorem endMotions_sled (l : List (Motion × Result)) (f : Option Nat) : (endMotions l f s).sled = s.sled := by
  unfold endMotions
  induction l generalizing s with
  | nil => rfl
  | cons x l ih => rw [List.foldl_cons, ih]; simp
@[simp] theorem endMotions_spindle (l : List (Motion × Result)) (f : Option Nat) : (endMotions l f s).spindle = s.spindle := by
  unfold endMotions
  induction l generalizing s with
  | nil => rfl
  | cons x l ih => rw [List.foldl_cons, ih]; simp
@[simp] theorem endMotions_recovery (l : List (Motion × Result)) (f : Option Nat) : (endMotions l f s).recovery = s.recovery := by
  unfold endMotions
  induction l generalizing s with
  | nil => rfl
  | cons x l ih => rw [List.foldl_cons, ih]; simp
@[simp] theorem endMotions_supervisor (l : List (Motion × Result)) (f : Option Nat) : (endMotions l f s).supervisor = s.supervisor := by
  unfold endMotions
  induction l generalizing s with
  | nil => rfl
  | cons x l ih => rw [List.foldl_cons, ih]; simp
@[simp] theorem endMotions_picks (l : List (Motion × Result)) (f : Option Nat) : (endMotions l f s).picks = s.picks := by
  unfold endMotions
  induction l generalizing s with
  | nil => rfl
  | cons x l ih => rw [List.foldl_cons, ih]; simp
@[simp] theorem endMotions_pending (l : List (Motion × Result)) (f : Option Nat) : (endMotions l f s).pending = s.pending := by
  unfold endMotions
  induction l generalizing s with
  | nil => rfl
  | cons x l ih => rw [List.foldl_cons, ih]; simp

/-! ### endAll -/

@[simp] theorem endAll_clock (r : Result) : (endAll r s).clock = s.clock := by simp [endAll]
@[simp] theorem endAll_map (r : Result) : (endAll r s).map = s.map := by simp [endAll]
@[simp] theorem endAll_zones (r : Result) : (endAll r s).zones = s.zones := by simp [endAll]
@[simp] theorem endAll_monitor (r : Result) : (endAll r s).monitor = s.monitor := by simp [endAll]
@[simp] theorem endAll_optics (r : Result) : (endAll r s).optics = s.optics := by simp [endAll]
@[simp] theorem endAll_sled (r : Result) : (endAll r s).sled = s.sled := by simp [endAll]
@[simp] theorem endAll_spindle (r : Result) : (endAll r s).spindle = s.spindle := by simp [endAll]
@[simp] theorem endAll_recovery (r : Result) : (endAll r s).recovery = s.recovery := by simp [endAll]
@[simp] theorem endAll_supervisor (r : Result) : (endAll r s).supervisor = s.supervisor := by simp [endAll]
@[simp] theorem endAll_picks (r : Result) : (endAll r s).picks = s.picks := by simp [endAll]
@[simp] theorem endAll_pending (r : Result) : (endAll r s).pending = s.pending := by simp [endAll]

/-! ### clearMap -/

@[simp] theorem clearMap_clock : (clearMap s).clock = s.clock := by simp [clearMap]
@[simp] theorem clearMap_arbiter : (clearMap s).arbiter = s.arbiter := by simp [clearMap]
@[simp] theorem clearMap_planner : (clearMap s).planner = s.planner := by simp [clearMap]
@[simp] theorem clearMap_sled : (clearMap s).sled = s.sled := by simp [clearMap]
@[simp] theorem clearMap_supervisor : (clearMap s).supervisor = s.supervisor := by simp [clearMap]
@[simp] theorem clearMap_picks : (clearMap s).picks = s.picks := by simp [clearMap]
@[simp] theorem clearMap_pending : (clearMap s).pending = s.pending := by simp [clearMap]

/-! ### park -/

@[simp] theorem park_clock : (park s).clock = s.clock := by simp [park]
@[simp] theorem park_arbiter : (park s).arbiter = s.arbiter := by simp [park]
@[simp] theorem park_map : (park s).map = s.map := by simp [park]
@[simp] theorem park_zones : (park s).zones = s.zones := by simp [park]
@[simp] theorem park_picks : (park s).picks = s.picks := by simp [park]
@[simp] theorem park_pending : (park s).pending = s.pending := by simp [park]

/-! ### recordFault -/

@[simp] theorem recordFault_clock (k : FaultKind) : (recordFault k s).clock = s.clock := rfl
@[simp] theorem recordFault_arbiter (k : FaultKind) : (recordFault k s).arbiter = s.arbiter := rfl
@[simp] theorem recordFault_planner (k : FaultKind) : (recordFault k s).planner = s.planner := rfl
@[simp] theorem recordFault_map (k : FaultKind) : (recordFault k s).map = s.map := rfl
@[simp] theorem recordFault_zones (k : FaultKind) : (recordFault k s).zones = s.zones := rfl
@[simp] theorem recordFault_monitor (k : FaultKind) : (recordFault k s).monitor = s.monitor := rfl
@[simp] theorem recordFault_optics (k : FaultKind) : (recordFault k s).optics = s.optics := rfl
@[simp] theorem recordFault_sled (k : FaultKind) : (recordFault k s).sled = s.sled := rfl
@[simp] theorem recordFault_spindle (k : FaultKind) : (recordFault k s).spindle = s.spindle := rfl
@[simp] theorem recordFault_recovery (k : FaultKind) : (recordFault k s).recovery = s.recovery := rfl
@[simp] theorem recordFault_picks (k : FaultKind) : (recordFault k s).picks = s.picks := rfl
@[simp] theorem recordFault_pending (k : FaultKind) : (recordFault k s).pending = s.pending := rfl
@[simp] theorem recordFault_port (k : FaultKind) (q : Port) : (recordFault k s).port q = s.port q := by cases q <;> rfl

/-! ### discGone -/

@[simp] theorem discGone_clock : (discGone s).clock = s.clock := by simp [discGone]
@[simp] theorem discGone_arbiter : (discGone s).arbiter = s.arbiter := by simp [discGone]
@[simp] theorem discGone_picks : (discGone s).picks = s.picks := by simp [discGone]
@[simp] theorem discGone_pending : (discGone s).pending = s.pending := by simp [discGone]

/-! ### legBegins -/

@[simp] theorem legBegins_clock (k : LegKind) (n : Int) : (legBegins k n s).clock = s.clock := by simp only [legBegins, staleFix]; split <;> simp
@[simp] theorem legBegins_map (k : LegKind) (n : Int) : (legBegins k n s).map = s.map := by simp only [legBegins, staleFix]; split <;> simp
@[simp] theorem legBegins_zones (k : LegKind) (n : Int) : (legBegins k n s).zones = s.zones := by simp only [legBegins, staleFix]; split <;> simp
@[simp] theorem legBegins_optics (k : LegKind) (n : Int) : (legBegins k n s).optics = s.optics := by simp only [legBegins, staleFix]; split <;> simp
@[simp] theorem legBegins_sled (k : LegKind) (n : Int) : (legBegins k n s).sled = s.sled := by simp only [legBegins, staleFix]; split <;> simp
@[simp] theorem legBegins_spindle (k : LegKind) (n : Int) : (legBegins k n s).spindle = s.spindle := by simp only [legBegins, staleFix]; split <;> simp
@[simp] theorem legBegins_recovery (k : LegKind) (n : Int) : (legBegins k n s).recovery = s.recovery := by simp only [legBegins, staleFix]; split <;> simp
@[simp] theorem legBegins_supervisor (k : LegKind) (n : Int) : (legBegins k n s).supervisor = s.supervisor := by simp only [legBegins, staleFix]; split <;> simp
@[simp] theorem legBegins_picks (k : LegKind) (n : Int) : (legBegins k n s).picks = s.picks := by simp only [legBegins, staleFix]; split <;> simp
@[simp] theorem legBegins_pending (k : LegKind) (n : Int) : (legBegins k n s).pending = s.pending := by simp only [legBegins, staleFix]; split <;> simp
@[simp] theorem legBegins_port (k : LegKind) (n : Int) (q : Port) : (legBegins k n s).port q = s.port q := by simp only [legBegins, staleFix]; split <;> simp

/-! ### changeIdent -/

@[simp] theorem changeIdent_clock (f : Ident → Ident) : (changeIdent f s).clock = s.clock := rfl
@[simp] theorem changeIdent_arbiter (f : Ident → Ident) : (changeIdent f s).arbiter = s.arbiter := rfl
@[simp] theorem changeIdent_planner (f : Ident → Ident) : (changeIdent f s).planner = s.planner := rfl
@[simp] theorem changeIdent_map (f : Ident → Ident) : (changeIdent f s).map = s.map := rfl
@[simp] theorem changeIdent_zones (f : Ident → Ident) : (changeIdent f s).zones = s.zones := rfl
@[simp] theorem changeIdent_monitor (f : Ident → Ident) : (changeIdent f s).monitor = s.monitor := rfl
@[simp] theorem changeIdent_optics (f : Ident → Ident) : (changeIdent f s).optics = s.optics := rfl
@[simp] theorem changeIdent_sled (f : Ident → Ident) : (changeIdent f s).sled = s.sled := rfl
@[simp] theorem changeIdent_spindle (f : Ident → Ident) : (changeIdent f s).spindle = s.spindle := rfl
@[simp] theorem changeIdent_recovery (f : Ident → Ident) : (changeIdent f s).recovery = s.recovery := rfl
@[simp] theorem changeIdent_picks (f : Ident → Ident) : (changeIdent f s).picks = s.picks := rfl
@[simp] theorem changeIdent_pending (f : Ident → Ident) : (changeIdent f s).pending = s.pending := rfl
@[simp] theorem changeIdent_port (f : Ident → Ident) (q : Port) : (changeIdent f s).port q = s.port q := by cases q <;> rfl

/-! ### identAt -/

@[simp] theorem identAt_clock (x : IdentStage) (y : Option ProfileStep) : (identAt x y s).clock = s.clock := rfl
@[simp] theorem identAt_arbiter (x : IdentStage) (y : Option ProfileStep) : (identAt x y s).arbiter = s.arbiter := rfl
@[simp] theorem identAt_planner (x : IdentStage) (y : Option ProfileStep) : (identAt x y s).planner = s.planner := rfl
@[simp] theorem identAt_map (x : IdentStage) (y : Option ProfileStep) : (identAt x y s).map = s.map := rfl
@[simp] theorem identAt_zones (x : IdentStage) (y : Option ProfileStep) : (identAt x y s).zones = s.zones := rfl
@[simp] theorem identAt_monitor (x : IdentStage) (y : Option ProfileStep) : (identAt x y s).monitor = s.monitor := rfl
@[simp] theorem identAt_optics (x : IdentStage) (y : Option ProfileStep) : (identAt x y s).optics = s.optics := rfl
@[simp] theorem identAt_sled (x : IdentStage) (y : Option ProfileStep) : (identAt x y s).sled = s.sled := rfl
@[simp] theorem identAt_spindle (x : IdentStage) (y : Option ProfileStep) : (identAt x y s).spindle = s.spindle := rfl
@[simp] theorem identAt_recovery (x : IdentStage) (y : Option ProfileStep) : (identAt x y s).recovery = s.recovery := rfl
@[simp] theorem identAt_picks (x : IdentStage) (y : Option ProfileStep) : (identAt x y s).picks = s.picks := rfl
@[simp] theorem identAt_pending (x : IdentStage) (y : Option ProfileStep) : (identAt x y s).pending = s.pending := rfl
@[simp] theorem identAt_port (x : IdentStage) (y : Option ProfileStep) (q : Port) : (identAt x y s).port q = s.port q := by cases q <;> rfl

/-! ### setRough -/

@[simp] theorem setRough_clock (b : Bool) : (setRough b s).clock = s.clock := by simp [setRough]
@[simp] theorem setRough_arbiter (b : Bool) : (setRough b s).arbiter = s.arbiter := by simp [setRough]
@[simp] theorem setRough_planner (b : Bool) : (setRough b s).planner = s.planner := by simp [setRough]
@[simp] theorem setRough_map (b : Bool) : (setRough b s).map = s.map := by simp [setRough]
@[simp] theorem setRough_zones (b : Bool) : (setRough b s).zones = s.zones := by simp [setRough]
@[simp] theorem setRough_monitor (b : Bool) : (setRough b s).monitor = s.monitor := by simp [setRough]
@[simp] theorem setRough_sled (b : Bool) : (setRough b s).sled = s.sled := by simp [setRough]
@[simp] theorem setRough_supervisor (b : Bool) : (setRough b s).supervisor = s.supervisor := by simp [setRough]
@[simp] theorem setRough_picks (b : Bool) : (setRough b s).picks = s.picks := by simp [setRough]
@[simp] theorem setRough_pending (b : Bool) : (setRough b s).pending = s.pending := by simp [setRough]

/-! ### recordDisturbance -/

@[simp] theorem recordDisturbance_clock (k : Disturbance) (ph : RecoveryPhase) : (recordDisturbance k ph s).clock = s.clock := by unfold recordDisturbance; dsimp only; split <;> simp
@[simp] theorem recordDisturbance_arbiter (k : Disturbance) (ph : RecoveryPhase) : (recordDisturbance k ph s).arbiter = s.arbiter := by unfold recordDisturbance; dsimp only; split <;> simp
@[simp] theorem recordDisturbance_planner (k : Disturbance) (ph : RecoveryPhase) : (recordDisturbance k ph s).planner = s.planner := by unfold recordDisturbance; dsimp only; split <;> simp
@[simp] theorem recordDisturbance_map (k : Disturbance) (ph : RecoveryPhase) : (recordDisturbance k ph s).map = s.map := by unfold recordDisturbance; dsimp only; split <;> simp
@[simp] theorem recordDisturbance_zones (k : Disturbance) (ph : RecoveryPhase) : (recordDisturbance k ph s).zones = s.zones := by unfold recordDisturbance; dsimp only; split <;> simp
@[simp] theorem recordDisturbance_monitor (k : Disturbance) (ph : RecoveryPhase) : (recordDisturbance k ph s).monitor = s.monitor := by unfold recordDisturbance; dsimp only; split <;> simp
@[simp] theorem recordDisturbance_sled (k : Disturbance) (ph : RecoveryPhase) : (recordDisturbance k ph s).sled = s.sled := by unfold recordDisturbance; dsimp only; split <;> simp
@[simp] theorem recordDisturbance_supervisor (k : Disturbance) (ph : RecoveryPhase) : (recordDisturbance k ph s).supervisor = s.supervisor := by unfold recordDisturbance; dsimp only; split <;> simp
@[simp] theorem recordDisturbance_picks (k : Disturbance) (ph : RecoveryPhase) : (recordDisturbance k ph s).picks = s.picks := by unfold recordDisturbance; dsimp only; split <;> simp
@[simp] theorem recordDisturbance_pending (k : Disturbance) (ph : RecoveryPhase) : (recordDisturbance k ph s).pending = s.pending := by unfold recordDisturbance; dsimp only; split <;> simp

/-! ### disturbLeg -/

@[simp] theorem disturbLeg_clock : (disturbLeg s).clock = s.clock := by unfold disturbLeg; split <;> rfl
@[simp] theorem disturbLeg_arbiter : (disturbLeg s).arbiter = s.arbiter := by unfold disturbLeg; split <;> rfl
@[simp] theorem disturbLeg_map : (disturbLeg s).map = s.map := by unfold disturbLeg; split <;> rfl
@[simp] theorem disturbLeg_zones : (disturbLeg s).zones = s.zones := by unfold disturbLeg; split <;> rfl
@[simp] theorem disturbLeg_monitor : (disturbLeg s).monitor = s.monitor := by unfold disturbLeg; split <;> rfl
@[simp] theorem disturbLeg_sled : (disturbLeg s).sled = s.sled := by unfold disturbLeg; split <;> rfl
@[simp] theorem disturbLeg_spindle : (disturbLeg s).spindle = s.spindle := by unfold disturbLeg; split <;> rfl
@[simp] theorem disturbLeg_recovery : (disturbLeg s).recovery = s.recovery := by unfold disturbLeg; split <;> rfl
@[simp] theorem disturbLeg_supervisor : (disturbLeg s).supervisor = s.supervisor := by unfold disturbLeg; split <;> rfl
@[simp] theorem disturbLeg_picks : (disturbLeg s).picks = s.picks := by unfold disturbLeg; split <;> rfl
@[simp] theorem disturbLeg_pending : (disturbLeg s).pending = s.pending := by unfold disturbLeg; split <;> rfl
@[simp] theorem disturbLeg_port (q : Port) : (disturbLeg s).port q = s.port q := by unfold disturbLeg; split <;> simp

/-! ### passTime -/

@[simp] theorem passTime_arbiter (dt : Nat) : (passTime dt s).arbiter = s.arbiter := rfl
@[simp] theorem passTime_planner (dt : Nat) : (passTime dt s).planner = s.planner := rfl
@[simp] theorem passTime_map (dt : Nat) : (passTime dt s).map = s.map := rfl
@[simp] theorem passTime_zones (dt : Nat) : (passTime dt s).zones = s.zones := rfl
@[simp] theorem passTime_optics (dt : Nat) : (passTime dt s).optics = s.optics := rfl
@[simp] theorem passTime_sled (dt : Nat) : (passTime dt s).sled = s.sled := rfl
@[simp] theorem passTime_spindle (dt : Nat) : (passTime dt s).spindle = s.spindle := rfl
@[simp] theorem passTime_recovery (dt : Nat) : (passTime dt s).recovery = s.recovery := rfl
@[simp] theorem passTime_picks (dt : Nat) : (passTime dt s).picks = s.picks := rfl
@[simp] theorem passTime_pending (dt : Nat) : (passTime dt s).pending = s.pending := rfl

/-! ### runTo -/

@[simp] theorem runTo_arbiter (t : Time) (n : Nat) : (runTo t n s).arbiter = s.arbiter := rfl
@[simp] theorem runTo_planner (t : Time) (n : Nat) : (runTo t n s).planner = s.planner := rfl
@[simp] theorem runTo_map (t : Time) (n : Nat) : (runTo t n s).map = s.map := rfl
@[simp] theorem runTo_zones (t : Time) (n : Nat) : (runTo t n s).zones = s.zones := rfl
@[simp] theorem runTo_optics (t : Time) (n : Nat) : (runTo t n s).optics = s.optics := rfl
@[simp] theorem runTo_sled (t : Time) (n : Nat) : (runTo t n s).sled = s.sled := rfl
@[simp] theorem runTo_spindle (t : Time) (n : Nat) : (runTo t n s).spindle = s.spindle := rfl
@[simp] theorem runTo_recovery (t : Time) (n : Nat) : (runTo t n s).recovery = s.recovery := rfl
@[simp] theorem runTo_picks (t : Time) (n : Nat) : (runTo t n s).picks = s.picks := rfl
@[simp] theorem runTo_pending (t : Time) (n : Nat) : (runTo t n s).pending = s.pending := rfl

/-! ### answer -/

@[simp] theorem answer_clock (p : Port) (tag : Byte) (st : Status) (d : List Byte) : (s.answer p tag st d).clock = s.clock := by simp [State.answer]
@[simp] theorem answer_arbiter (p : Port) (tag : Byte) (st : Status) (d : List Byte) : (s.answer p tag st d).arbiter = s.arbiter := by simp [State.answer]
@[simp] theorem answer_planner (p : Port) (tag : Byte) (st : Status) (d : List Byte) : (s.answer p tag st d).planner = s.planner := by simp [State.answer]
@[simp] theorem answer_map (p : Port) (tag : Byte) (st : Status) (d : List Byte) : (s.answer p tag st d).map = s.map := by simp [State.answer]
@[simp] theorem answer_zones (p : Port) (tag : Byte) (st : Status) (d : List Byte) : (s.answer p tag st d).zones = s.zones := by simp [State.answer]
@[simp] theorem answer_monitor (p : Port) (tag : Byte) (st : Status) (d : List Byte) : (s.answer p tag st d).monitor = s.monitor := by simp [State.answer]
@[simp] theorem answer_optics (p : Port) (tag : Byte) (st : Status) (d : List Byte) : (s.answer p tag st d).optics = s.optics := by simp [State.answer]
@[simp] theorem answer_sled (p : Port) (tag : Byte) (st : Status) (d : List Byte) : (s.answer p tag st d).sled = s.sled := by simp [State.answer]
@[simp] theorem answer_spindle (p : Port) (tag : Byte) (st : Status) (d : List Byte) : (s.answer p tag st d).spindle = s.spindle := by simp [State.answer]
@[simp] theorem answer_recovery (p : Port) (tag : Byte) (st : Status) (d : List Byte) : (s.answer p tag st d).recovery = s.recovery := by simp [State.answer]
@[simp] theorem answer_supervisor (p : Port) (tag : Byte) (st : Status) (d : List Byte) : (s.answer p tag st d).supervisor = s.supervisor := by simp [State.answer]
@[simp] theorem answer_picks (p : Port) (tag : Byte) (st : Status) (d : List Byte) : (s.answer p tag st d).picks = s.picks := by simp [State.answer]
@[simp] theorem answer_pending (p : Port) (tag : Byte) (st : Status) (d : List Byte) : (s.answer p tag st d).pending = s.pending := by simp [State.answer]

/-! ### Ports, and what the passing of time does to each block -/

@[simp] theorem answer_port (p q : Port) (tag : Byte) (st : Status) (d : List Byte) : (s.answer p tag st d).port q
    = if q = p then { s.port p with decoder := .turnaround, reply := some ⟨st, tag, d⟩ } else s.port q := by
  simp [State.answer]
@[simp] theorem passTime_port (dt : Nat) (q : Port) : (passTime dt s).port q = (s.port q).run dt := by cases q <;> rfl
@[simp] theorem runTo_port (t : Time) (n : Nat) (q : Port) : (runTo t n s).port q = (s.port q).run (left t n s) := by cases q <;> rfl
@[simp] theorem passTime_fix (dt : Nat) : (passTime dt s).monitor.fix = s.monitor.fix := rfl
@[simp] theorem runTo_fix (t : Time) (n : Nat) : (runTo t n s).monitor.fix = s.monitor.fix := rfl
@[simp] theorem passTime_supervisor (dt : Nat) : (passTime dt s).supervisor
    = { s.supervisor with ident := s.supervisor.ident.map (Ident.run dt) } := rfl
@[simp] theorem runTo_supervisor (t : Time) (n : Nat) : (runTo t n s).supervisor
    = { s.supervisor with ident := s.supervisor.ident.map (Ident.run (left t n s)) } := rfl

/-! ### What the end of a leg leaves of the planner -/

@[simp] theorem lapseLeg_planner_owner : (lapseLeg s).planner.owner = s.planner.owner := by unfold lapseLeg; split <;> rfl
@[simp] theorem lapseLeg_planner_target : (lapseLeg s).planner.target = s.planner.target := by unfold lapseLeg; split <;> rfl
@[simp] theorem lapseLeg_planner_targetCoord : (lapseLeg s).planner.targetCoord = s.planner.targetCoord := by unfold lapseLeg; split <;> rfl
@[simp] theorem lapseLeg_planner_startCoord : (lapseLeg s).planner.startCoord = s.planner.startCoord := by unfold lapseLeg; split <;> rfl
@[simp] theorem lapseLeg_planner_distance : (lapseLeg s).planner.distance = s.planner.distance := by unfold lapseLeg; split <;> rfl
@[simp] theorem lapseLeg_planner_legCount : (lapseLeg s).planner.legCount = s.planner.legCount := by unfold lapseLeg; split <;> rfl
@[simp] theorem lapseLeg_planner_legDisturbed : (lapseLeg s).planner.legDisturbed = s.planner.legDisturbed := by unfold lapseLeg; split <;> rfl
@[simp] theorem lapseLeg_planner_acquireStep : (lapseLeg s).planner.acquireStep = s.planner.acquireStep := by unfold lapseLeg; split <;> rfl
@[simp] theorem lapseLeg_planner_returning : (lapseLeg s).planner.returning = s.planner.returning := by unfold lapseLeg; split <;> rfl
@[simp] theorem lapseLeg_planner_sessionLegs : (lapseLeg s).planner.sessionLegs = s.planner.sessionLegs := by unfold lapseLeg; split <;> rfl
@[simp] theorem lapseLeg_planner_sessionSled : (lapseLeg s).planner.sessionSled = s.planner.sessionSled := by unfold lapseLeg; split <;> rfl
@[simp] theorem lapseLeg_planner_trim : (lapseLeg s).planner.trim = s.planner.trim := by unfold lapseLeg; split <;> rfl
@[simp] theorem lapseLeg_planner_unreached : (lapseLeg s).planner.unreached = s.planner.unreached := by unfold lapseLeg; split <;> rfl

@[simp] theorem focusOff_planner_owner : (focusOff s).planner.owner = s.planner.owner := by simp [focusOff]
@[simp] theorem focusOff_planner_target : (focusOff s).planner.target = s.planner.target := by simp [focusOff]
@[simp] theorem focusOff_planner_targetCoord : (focusOff s).planner.targetCoord = s.planner.targetCoord := by simp [focusOff]
@[simp] theorem focusOff_planner_startCoord : (focusOff s).planner.startCoord = s.planner.startCoord := by simp [focusOff]
@[simp] theorem focusOff_planner_distance : (focusOff s).planner.distance = s.planner.distance := by simp [focusOff]
@[simp] theorem focusOff_planner_legCount : (focusOff s).planner.legCount = s.planner.legCount := by simp [focusOff]
@[simp] theorem focusOff_planner_legDisturbed : (focusOff s).planner.legDisturbed = s.planner.legDisturbed := by simp [focusOff]
@[simp] theorem focusOff_planner_acquireStep : (focusOff s).planner.acquireStep = s.planner.acquireStep := by simp [focusOff]
@[simp] theorem focusOff_planner_returning : (focusOff s).planner.returning = s.planner.returning := by simp [focusOff]
@[simp] theorem focusOff_planner_sessionLegs : (focusOff s).planner.sessionLegs = s.planner.sessionLegs := by simp [focusOff]
@[simp] theorem focusOff_planner_sessionSled : (focusOff s).planner.sessionSled = s.planner.sessionSled := by simp [focusOff]
@[simp] theorem focusOff_planner_trim : (focusOff s).planner.trim = s.planner.trim := by simp [focusOff]
@[simp] theorem focusOff_planner_unreached : (focusOff s).planner.unreached = s.planner.unreached := by simp [focusOff]

@[simp] theorem lasersOff_planner_owner : (lasersOff s).planner.owner = s.planner.owner := by simp [lasersOff]
@[simp] theorem lasersOff_planner_target : (lasersOff s).planner.target = s.planner.target := by simp [lasersOff]
@[simp] theorem lasersOff_planner_targetCoord : (lasersOff s).planner.targetCoord = s.planner.targetCoord := by simp [lasersOff]
@[simp] theorem lasersOff_planner_startCoord : (lasersOff s).planner.startCoord = s.planner.startCoord := by simp [lasersOff]
@[simp] theorem lasersOff_planner_distance : (lasersOff s).planner.distance = s.planner.distance := by simp [lasersOff]
@[simp] theorem lasersOff_planner_legCount : (lasersOff s).planner.legCount = s.planner.legCount := by simp [lasersOff]
@[simp] theorem lasersOff_planner_legDisturbed : (lasersOff s).planner.legDisturbed = s.planner.legDisturbed := by simp [lasersOff]
@[simp] theorem lasersOff_planner_acquireStep : (lasersOff s).planner.acquireStep = s.planner.acquireStep := by simp [lasersOff]
@[simp] theorem lasersOff_planner_returning : (lasersOff s).planner.returning = s.planner.returning := by simp [lasersOff]
@[simp] theorem lasersOff_planner_sessionLegs : (lasersOff s).planner.sessionLegs = s.planner.sessionLegs := by simp [lasersOff]
@[simp] theorem lasersOff_planner_sessionSled : (lasersOff s).planner.sessionSled = s.planner.sessionSled := by simp [lasersOff]
@[simp] theorem lasersOff_planner_trim : (lasersOff s).planner.trim = s.planner.trim := by simp [lasersOff]
@[simp] theorem lasersOff_planner_unreached : (lasersOff s).planner.unreached = s.planner.unreached := by simp [lasersOff]

@[simp] theorem park_planner_owner : (park s).planner.owner = s.planner.owner := by simp [park]
@[simp] theorem park_planner_target : (park s).planner.target = s.planner.target := by simp [park]
@[simp] theorem park_planner_targetCoord : (park s).planner.targetCoord = s.planner.targetCoord := by simp [park]
@[simp] theorem park_planner_startCoord : (park s).planner.startCoord = s.planner.startCoord := by simp [park]
@[simp] theorem park_planner_distance : (park s).planner.distance = s.planner.distance := by simp [park]
@[simp] theorem park_planner_legCount : (park s).planner.legCount = s.planner.legCount := by simp [park]
@[simp] theorem park_planner_legDisturbed : (park s).planner.legDisturbed = s.planner.legDisturbed := by simp [park]
@[simp] theorem park_planner_acquireStep : (park s).planner.acquireStep = s.planner.acquireStep := by simp [park]
@[simp] theorem park_planner_returning : (park s).planner.returning = s.planner.returning := by simp [park]
@[simp] theorem park_planner_sessionLegs : (park s).planner.sessionLegs = s.planner.sessionLegs := by simp [park]
@[simp] theorem park_planner_sessionSled : (park s).planner.sessionSled = s.planner.sessionSled := by simp [park]
@[simp] theorem park_planner_trim : (park s).planner.trim = s.planner.trim := by simp [park]
@[simp] theorem park_planner_unreached : (park s).planner.unreached = s.planner.unreached := by simp [park]

/-! ### The last good address (R104): no loss of loops takes it away -/

@[simp] theorem lastGood_staleFix : lastGood (staleFix s) = lastGood s := by
  simp [lastGood, staleFix, Option.map_map, Function.comp_def]
@[simp] theorem lastGood_restartMonitor : lastGood (restartMonitor s) = lastGood s := rfl
@[simp] theorem lastGood_trackingOff : lastGood (trackingOff s) = lastGood s := by
  simp [trackingOff, lastGood, staleFix, Option.map_map, Function.comp_def]
@[simp] theorem lastGood_trackingOn : lastGood (trackingOn s) = lastGood s := by
  unfold trackingOn; dsimp only; split <;> simp [lastGood, restartMonitor]
@[simp] theorem lastGood_setFocus (f : FocusState) : lastGood (setFocus f s) = lastGood s := by
  unfold setFocus; dsimp only; split
  · simp [lastGood, staleFix, Option.map_map, Function.comp_def]
  · rfl
@[simp] theorem lastGood_loopsOpen (f : FocusState) : lastGood (loopsOpen f s) = lastGood s := by
  rw [loopsOpen, lastGood_trackingOff, lastGood_setFocus]; rfl
@[simp] theorem lastGood_focusOff : lastGood (focusOff s) = lastGood s := by
  have h (t : State) : lastGood (lapseLeg t) = lastGood t := by simp [lastGood]
  rw [focusOff, h, lastGood_loopsOpen]
  rfl
@[simp] theorem lastGood_lasersOff : lastGood (lasersOff s) = lastGood s := by
  exact lastGood_focusOff s
@[simp] theorem lastGood_openTracking : lastGood (openTracking s) = lastGood s := by
  unfold openTracking; split
  · rfl
  · rfl
  · rw [lastGood_trackingOff]
  · rw [lastGood_trackingOff]
@[simp] theorem lastGood_brake : lastGood (brake s) = lastGood s := by
  unfold brake
  rw [lastGood_staleFix]
  simp [lastGood]
@[simp] theorem lastGood_park : lastGood (park s) = lastGood s := by
  have h (t : State) : lastGood (endRecovery (endSagHold (sledStop t))) = lastGood t := rfl
  rw [park, h, lastGood_focusOff, lastGood_brake]
@[simp] theorem lastGood_disturbLeg : lastGood (disturbLeg s) = lastGood s := by simp [lastGood]
@[simp] theorem lastGood_passTime (dt : Nat) : lastGood (passTime dt s) = lastGood s := rfl
@[simp] theorem lastGood_runTo (t : Time) (n : Nat) : lastGood (runTo t n s) = lastGood s := rfl

/-- There is a fix exactly when there is a last good address. -/
theorem lastGood_eq_none {s : State} : lastGood s = none ↔ s.monitor.fix = none := by simp [lastGood]

/-! ### Freshness (R111) -/

@[simp] theorem fixFresh_staleFix : fixFresh (staleFix s) = false := by
  unfold fixFresh staleFix
  cases s.monitor.fix <;> simp

@[simp] theorem fixFresh_trackingOff : fixFresh (trackingOff s) = false := by simp [trackingOff]

@[simp] theorem fixFresh_loopsOpen (f : FocusState) : fixFresh (loopsOpen f s) = false := by simp [loopsOpen]

@[simp] theorem fixFresh_focusOff : fixFresh (focusOff s) = false := by
  have h (t : State) : fixFresh (lapseLeg t) = fixFresh t := by simp [fixFresh]
  rw [focusOff, h]
  simp

@[simp] theorem fixFresh_lasersOff : fixFresh (lasersOff s) = false := by
  exact fixFresh_focusOff s

@[simp] theorem fixFresh_park : fixFresh (park s) = false := by
  have h (t : State) : fixFresh (endRecovery (endSagHold (sledStop t))) = fixFresh t := rfl
  rw [park, h, fixFresh_focusOff]

@[simp] theorem fixFresh_brake : fixFresh (brake s) = false := by simp [brake]

end Sys2Proof.Laws
end

