-- ==== Sys2Proof/Laws/Frames.lean ====
section
/-! SUPPORT. Kind codes, the requests that frames spell, and what serving a request comes to (R187 to R191). -/

namespace Sys2Proof.Laws

set_option Elab.async false

open Sys2Proof.Machine

/-! ### Kind codes -/

/-- The code of a kind names it. -/
@[simp] theorem kindOf_code (k : Kind) : kindOf k.code = some k := by cases k <;> rfl

/-- A code that names a kind is the kind's code. -/
theorem kindOf_some {code : Byte} {k : Kind} (h : kindOf code = some k) : code = k.code := by
  have h1 := List.find?_some h
  simpa using (beq_iff_eq.mp h1).symm

theorem allowedLengths_some {code : Byte} {ls : List Nat} (h : allowedLengths code = some ls) :
    ∃ k : Kind, code = k.code ∧ ls = k.lengths := by
  unfold allowedLengths at h
  cases hk : kindOf code with
  | none => simp [hk] at h
  | some k => exact ⟨k, kindOf_some hk, by simpa [hk] using h.symm⟩

@[simp] theorem allowedLengths_code (k : Kind) : allowedLengths k.code = some k.lengths := by simp [allowedLengths]

@[simp] theorem servedOn_code (k : Kind) (p : Port) : servedOn k.code p = k.servedOn p := by simp [servedOn]

/-- No kind allows a length above 10. -/
theorem lengths_le (k : Kind) {n : Nat} (h : n ∈ k.lengths) : n ≤ 10 := by
  cases k <;> simp [Kind.lengths] at h <;> omega

/-! ### Requests -/

/-- A request has a kind, a port and a tag together. -/
theorem requestKind_of_port {i : Instr} {p : Port} {tag : Byte} (h : requestPortTag i = some (p, tag)) :
    ∃ k, requestKind i = some k := by
  cases i <;> simp [requestPortTag] at h <;> exact ⟨_, rfl⟩

/-! ### What each kind's parameters spell (R191) -/

variable (p : Port) (tag : Byte)

@[simp] theorem request_readStatus :
    Kind.request p tag .readStatus [] = some (.readStatus p tag) := rfl
@[simp] theorem request_readReport :
    Kind.request p tag .readReport [] = some (.readReport p tag) := rfl
@[simp] theorem request_setNoticeMask (m1 m0 : Byte) :
    Kind.request p tag .setNoticeMask [m1, m0] = some (.setNoticeMask p tag (m1 ++ m0)) := rfl
@[simp] theorem request_setHoldoff (v : Byte) :
    Kind.request p tag .setHoldoff [v] = some (.setHoldoff p tag v) := rfl
@[simp] theorem request_readIdentity :
    Kind.request p tag .readIdentity [] = some (.readIdentity p tag) := rfl
@[simp] theorem request_seek (t2 t1 t0 v : Byte) :
    Kind.request p tag .seek [t2, t1, t0, v] = some (.seek p tag (addrOfBytes t2 t1 t0) v) := rfl
@[simp] theorem request_follow (t2 t1 t0 v : Byte) :
    Kind.request p tag .follow [t2, t1, t0, v] = some (.follow p tag (addrOfBytes t2 t1 t0) v none) := rfl
@[simp] theorem request_follow_end (t2 t1 t0 v e2 e1 e0 : Byte) :
    Kind.request p tag .follow [t2, t1, t0, v, e2, e1, e0] = some (.follow p tag (addrOfBytes t2 t1 t0) v (some (addrOfBytes e2 e1 e0))) := rfl
@[simp] theorem request_stop :
    Kind.request p tag .stop [] = some (.stop p tag) := rfl
@[simp] theorem request_cancel (w : Byte) :
    Kind.request p tag .cancel [w] = some (.cancel p tag w) := rfl
@[simp] theorem request_setZone (i en b2 b1 b0 m2 m1 m0 c a : Byte) :
    Kind.request p tag .setZone [i, en, b2, b1, b0, m2, m1, m0, c, a] = some (.setZone p tag i en (addrOfBytes b2 b1 b0) (addrOfBytes m2 m1 m0) c a) := rfl
@[simp] theorem request_readZone (i : Byte) :
    Kind.request p tag .readZone [i] = some (.readZone p tag i) := rfl
@[simp] theorem request_setDefaultZone (c : Byte) :
    Kind.request p tag .setDefaultZone [c] = some (.setDefaultZone p tag c) := rfl
@[simp] theorem request_readMap (i : Byte) :
    Kind.request p tag .readMap [i] = some (.readMap p tag i) := rfl
@[simp] theorem request_mapImport (a2 a1 a0 c1 c0 : Byte) :
    Kind.request p tag .mapImport [a2, a1, a0, c1, c0] = some (.mapImport p tag (addrOfBytes a2 a1 a0) (c1 ++ c0)) := rfl
@[simp] theorem request_recoverySettings (r t : Byte) :
    Kind.request p tag .recoverySettings [r, t] = some (.recoverySettings p tag r t) := rfl
@[simp] theorem request_readFault :
    Kind.request p tag .readFault [] = some (.readFault p tag) := rfl
@[simp] theorem request_clearFault :
    Kind.request p tag .clearFault [] = some (.clearFault p tag) := rfl
@[simp] theorem request_softReset :
    Kind.request p tag .softReset [] = some (.softReset p tag) := rfl
@[simp] theorem request_addressReport (a2 a1 a0 f : Byte) :
    Kind.request p tag .addressReport [a2, a1, a0, f] = some (.addressReport p tag (addrOfBytes a2 a1 a0) f) := rfl
@[simp] theorem request_resumeAt_empty :
    Kind.request p tag .resumeAt [] = some (.resumeAt p tag none) := rfl
@[simp] theorem request_resumeAt (a2 a1 a0 : Byte) :
    Kind.request p tag .resumeAt [a2, a1, a0] = some (.resumeAt p tag (some (addrOfBytes a2 a1 a0))) := rfl
@[simp] theorem request_rejoin (t2 t1 t0 : Byte) :
    Kind.request p tag .rejoin [t2, t1, t0] = some (.rejoin p tag (addrOfBytes t2 t1 t0)) := rfl
@[simp] theorem request_clampState (v : Byte) :
    Kind.request p tag .clampState [v] = some (.clampState p tag v) := rfl
@[simp] theorem request_supplyState (v : Byte) :
    Kind.request p tag .supplyState [v] = some (.supplyState p tag v) := rfl
@[simp] theorem request_release :
    Kind.request p tag .release [] = some (.release p tag) := rfl

variable {p : Port} {tag : Byte}

/-- What parameters spell has the kind, the port and the tag of the frame. -/
theorem request_some {ps : List Byte} {i : Instr} (k : Kind)
    (h : k.request p tag ps = some i) : requestPortTag i = some (p, tag) ∧ requestKind i = some k := by
  rcases ps with _ | ⟨a, _ | ⟨b, _ | ⟨c, _ | ⟨d, _ | ⟨e, _ | ⟨f, _ | ⟨g, _ | ⟨x, _ | ⟨y, _ | ⟨z, _ | ⟨w, r⟩⟩⟩⟩⟩⟩⟩⟩⟩⟩⟩ <;>
    cases k <;> first | (cases h; done) | (cases h; exact ⟨rfl, rfl⟩)

/-- A length a kind allows spells a request. -/
theorem request_of_length (p : Port) (tag : Byte) (ps : List Byte) (k : Kind) (h : ps.length ∈ k.lengths) :
    ∃ i, k.request p tag ps = some i := by
  rcases ps with _ | ⟨a, _ | ⟨b, _ | ⟨c, _ | ⟨d, _ | ⟨e, _ | ⟨f, _ | ⟨g, _ | ⟨x, _ | ⟨y, _ | ⟨z, _ | ⟨w, r⟩⟩⟩⟩⟩⟩⟩⟩⟩⟩⟩ <;>
    cases k <;> simp [Kind.lengths] at h <;> exact ⟨_, rfl⟩

/-- A frame that passes the checks spells a request of its kind code, its port and its tag. -/
theorem decodeFrame_ok {p : Port} {f : List Byte} {i : Instr} (h : decodeFrame p f = .ok i) :
    ∃ (k : Kind) (tag len : Byte) (rest : List Byte), f = k.code :: tag :: len :: rest ∧
      requestPortTag i = some (p, tag) ∧ requestKind i = some k := by
  unfold decodeFrame at h
  split at h
  · split at h; · cases h
    split at h; · cases h
    split at h; · cases h
    rename_i k hk
    split at h
    · split at h
      · rename_i hr
        cases h
        obtain ⟨h1, h2⟩ := request_some k hr
        exact ⟨k, _, _, _, by rw [kindOf_some hk], h1, h2⟩
      · cases h
    · cases h
  · cases h

/-- What a frame spells whose bytes sum to 0 and whose length its kind allows (R189, R191). -/
theorem decodeFrame_of {len : Byte} {rest : List Byte} {i : Instr} (k : Kind)
    (hs : sumBytes (k.code :: tag :: len :: rest) = 0) (hl : len.toNat ∈ k.lengths)
    (hr : k.request p tag rest.dropLast = some i) : decodeFrame p (k.code :: tag :: len :: rest) = .ok i := by
  have := lengths_le k hl
  unfold decodeFrame
  simp only
  rw [if_neg (by simpa using hs), if_neg (by omega)]
  simp [hl, hr]

/-- A request runs as its own command. -/
theorem execRequest_eq {i : Instr} {p : Port} {tag : Byte} (h : requestPortTag i = some (p, tag)) (s : State) :
    execRequest i s = exec i s := by
  cases i <;> first | rfl | simp [requestPortTag] at h

/-- What a request does to the state its owner sees, with the status and the data of its reply. -/
def ownerOf (i : Instr) (s : State) : State × Status × List Byte :=
  match i with
  | .readStatus _ _ => (s, .accepted, statusData s)
  | .readReport p _ => readHead p s
  | .setNoticeMask p _ m => (s.setPort p { s.port p with mask := storedMask m }, .accepted, bytes2 (storedMask m).toNat)
  | .setHoldoff p _ v => (s.setPort p { s.port p with holdoff := v }, .accepted, [v])
  | .readIdentity p _ => (s, .accepted, identityData p s)
  | .seek p tag t v => requestSeek p tag t v s
  | .follow p tag t v e => requestFollow p tag t v e s
  | .stop p tag => requestStop p tag s
  | .cancel p _ w => requestCancel p w s
  | .setZone _ _ i en b m c a => writeZone i en b m c a s
  | .readZone _ _ i => (s, readZone i s)
  | .setDefaultZone _ _ c => writeDefaultZone c s
  | .readMap _ _ i => (s, .accepted, mapData i s)
  | .mapImport _ _ a c => importRecord a c s
  | .recoverySettings _ _ r t =>
      (s.setRecovery { s.recovery with retryCount := clampRetry r, amTime := clampMonitorTime t },
        .accepted, [byte (clampRetry r), byte (clampMonitorTime t)])
  | .readFault _ _ => (s, .accepted, faultBytes s.supervisor.fault ++ unreachedBytes s.planner.unreached)
  | .clearFault _ _ => (clearFault s, .accepted, [(clearFault s).supervisor.drive.code])
  | .softReset p _ => (s.setPort p { s.port p with resetArmed := true }, .accepted, [])
  | .addressReport _ _ a f => reportAddress a f s
  | .resumeAt _ _ a => resumeAt a s
  | .rejoin p tag t => requestRejoin p tag t s
  | .release p tag => requestRelease p tag s
  | .clampState _ _ v => requestClamp v s
  | .supplyState _ _ v => requestSupply v s
  | _ => (s, .accepted, [])

/-- Every request is served by the one rule: outside RECEIVING nothing, on a wrong port WRONG_PORT, else its owner's answer. -/
theorem exec_request {i : Instr} {p : Port} {tag : Byte} {k : Kind} (h : requestPortTag i = some (p, tag))
    (hk : requestKind i = some k) (s : State) : exec i s = serve k.code p tag s (ownerOf i) := by
  cases i <;> simp [requestPortTag] at h <;> (obtain ⟨rfl, rfl⟩ := h; cases hk; rfl)

theorem serve_wrong {code : Byte} {p : Port} {tag : Byte} {s : State} {f : State → State × Status × List Byte}
    (h : (s.port p).decoder = .receiving) (hs : servedOn code p = false) :
    serve code p tag s f = .next (s.answer p tag .wrongPort []) := by simp [serve, h, hs]

theorem serve_taken {code : Byte} {p : Port} {tag : Byte} {s : State} {f : State → State × Status × List Byte}
    (h : (s.port p).decoder = .receiving) (hs : servedOn code p = true) :
    serve code p tag s f = .next ((f s).1.answer p tag (f s).2.1 (f s).2.2) := by simp [serve, h, hs]

theorem serve_ignored {code : Byte} {p : Port} {tag : Byte} {s : State} {f : State → State × Status × List Byte}
    (h : (s.port p).decoder ≠ .receiving) : serve code p tag s f = .next s := by simp [serve, h]

end Sys2Proof.Laws
end

