-- ==== Sys2Proof/Laws/Queues.lean ====
section
/-! SUPPORT. The completion reports of a queue: the operations that add none, and the end of a motion, which adds its
own (R144, R196). -/

namespace Sys2Proof.Laws

set_option Elab.async false

open Sys2Proof.Machine Sys2Proof.Safety

variable (s : State) (q : Port)

/-- The completion reports of a port. -/
def reportsOf (q : Port) (s : State) : List Completion := completionsIn (s.port q).queue

@[simp] theorem reportsOf_offer (n : Notice) : reportsOf q (offer n s) = reportsOf q s := by
  have h (p : PortState) : completionsIn (p.offered n).queue = completionsIn p.queue := by
    unfold PortState.offered PortState.joined
    split
    · split <;> simp
    · rfl
  cases q <;> exact h _

@[simp] theorem reportsOf_setPort_other (p : Port) (x : PortState) (h : q ≠ p) :
    reportsOf q (s.setPort p x) = reportsOf q s := by simp [reportsOf, h]

@[simp] theorem reportsOf_answer (p : Port) (tag : Byte) (st : Status) (d : List Byte) :
    reportsOf q (s.answer p tag st d) = reportsOf q s := by
  by_cases h : q = p
  · subst h; simp [reportsOf, State.answer]
  · simp [State.answer, h]

theorem reportsOf_congr {s t : State} (h : t.port q = s.port q) : reportsOf q t = reportsOf q s := by
  rw [reportsOf, reportsOf, h]

@[simp] theorem reportsOf_setClock (x) : reportsOf q (s.setClock x) = reportsOf q s := reportsOf_congr q (by simp)
@[simp] theorem reportsOf_setArbiter (x) : reportsOf q (s.setArbiter x) = reportsOf q s := reportsOf_congr q (by simp)
@[simp] theorem reportsOf_setPlanner (x) : reportsOf q (s.setPlanner x) = reportsOf q s := reportsOf_congr q (by simp)
@[simp] theorem reportsOf_setMap (x) : reportsOf q (s.setMap x) = reportsOf q s := reportsOf_congr q (by simp)
@[simp] theorem reportsOf_setZones (x) : reportsOf q (s.setZones x) = reportsOf q s := reportsOf_congr q (by simp)
@[simp] theorem reportsOf_setMonitor (x) : reportsOf q (s.setMonitor x) = reportsOf q s := reportsOf_congr q (by simp)
@[simp] theorem reportsOf_setOptics (x) : reportsOf q (s.setOptics x) = reportsOf q s := reportsOf_congr q (by simp)
@[simp] theorem reportsOf_setSled (x) : reportsOf q (s.setSled x) = reportsOf q s := reportsOf_congr q (by simp)
@[simp] theorem reportsOf_setSpindle (x) : reportsOf q (s.setSpindle x) = reportsOf q s := reportsOf_congr q (by simp)
@[simp] theorem reportsOf_setRecovery (x) : reportsOf q (s.setRecovery x) = reportsOf q s := reportsOf_congr q (by simp)
@[simp] theorem reportsOf_setSupervisor (x) : reportsOf q (s.setSupervisor x) = reportsOf q s :=
  reportsOf_congr q (by simp)

@[simp] theorem reportsOf_speedNotice (b : Spindle) : reportsOf q (speedNotice b s) = reportsOf q s := by
  unfold speedNotice
  split <;> simp

@[simp] theorem reportsOf_recomputeM : reportsOf q (recomputeM s) = reportsOf q s := by
  unfold recomputeM
  dsimp only
  split <;> simp

@[simp] theorem reportsOf_spindleCommand (md : DriveMode) (b : Option Nat) :
    reportsOf q (spindleCommand md b s) = reportsOf q s := by simp [spindleCommand]

@[simp] theorem reportsOf_setHeldSpeed (v : Multiple) : reportsOf q (setHeldSpeed v s) = reportsOf q s := by
  unfold setHeldSpeed
  split <;> simp

@[simp] theorem reportsOf_brakeSpindle : reportsOf q (brakeSpindle s) = reportsOf q s := by simp [brakeSpindle]

@[simp] theorem reportsOf_spindleOnFix (c : Nat) : reportsOf q (spindleOnFix c s) = reportsOf q s := by
  unfold spindleOnFix
  extract_lets
  split
  · rfl
  · simp

@[simp] theorem reportsOf_compareZone : reportsOf q (compareZone s) = reportsOf q s := by
  unfold compareZone
  split
  · rfl
  · split <;> simp

@[simp] theorem reportsOf_setDrive (d : DriveState) : reportsOf q (setDrive d s) = reportsOf q s := by
  unfold setDrive
  dsimp only
  split
  · rfl
  · split <;> split <;> simp

@[simp] theorem reportsOf_reportDrive (d : DriveState) : reportsOf q (reportDrive d s) = reportsOf q s := by
  unfold reportDrive
  split <;> simp

@[simp] theorem reportsOf_staleFix : reportsOf q (staleFix s) = reportsOf q s := by simp [staleFix]
@[simp] theorem reportsOf_brake : reportsOf q (brake s) = reportsOf q s := by simp [brake]
@[simp] theorem reportsOf_clearMap : reportsOf q (clearMap s) = reportsOf q s := by simp [clearMap]

@[simp] theorem reportsOf_setRough (on : Bool) : reportsOf q (setRough on s) = reportsOf q s := by simp [setRough]

@[simp] theorem reportsOf_recordDisturbance (k : Disturbance) (ph : RecoveryPhase) :
    reportsOf q (recordDisturbance k ph s) = reportsOf q s := by
  unfold recordDisturbance
  dsimp only
  split <;> simp

@[simp] theorem reportsOf_hold (a : Nat) : reportsOf q (hold a s) = reportsOf q s := reportsOf_congr q (by simp)
@[simp] theorem reportsOf_holdAt (a : Nat) : reportsOf q (holdAt a s) = reportsOf q s := by simp [holdAt]

@[simp] theorem reportsOf_holdHere : reportsOf q (holdHere s) = reportsOf q s := by
  unfold holdHere
  split <;> simp

@[simp] theorem reportsOf_focusOff : reportsOf q (focusOff s) = reportsOf q s := reportsOf_congr q (by simp)
@[simp] theorem reportsOf_lasersOff : reportsOf q (lasersOff s) = reportsOf q s := reportsOf_congr q (by simp)
@[simp] theorem reportsOf_sledStop : reportsOf q (sledStop s) = reportsOf q s := reportsOf_congr q (by simp)
@[simp] theorem reportsOf_endRecovery : reportsOf q (endRecovery s) = reportsOf q s := reportsOf_congr q (by simp)
@[simp] theorem reportsOf_endSagHold : reportsOf q (endSagHold s) = reportsOf q s := reportsOf_congr q (by simp)
@[simp] theorem reportsOf_abandonIdent : reportsOf q (abandonIdent s) = reportsOf q s := reportsOf_congr q (by simp)
@[simp] theorem reportsOf_endIdent : reportsOf q (endIdent s) = reportsOf q s := reportsOf_congr q (by simp)
@[simp] theorem reportsOf_disown : reportsOf q (disown s) = reportsOf q s := reportsOf_congr q (by simp)
@[simp] theorem reportsOf_stopSledLeg : reportsOf q (stopSledLeg s) = reportsOf q s := reportsOf_congr q (by simp)
@[simp] theorem reportsOf_withdraw : reportsOf q (withdraw s) = reportsOf q s := reportsOf_congr q (by simp)
@[simp] theorem reportsOf_forgetStart : reportsOf q (forgetStart s) = reportsOf q s := reportsOf_congr q (by simp)
@[simp] theorem reportsOf_setActive (m : Option Motion) : reportsOf q (setActive m s) = reportsOf q s :=
  reportsOf_congr q (by simp)
@[simp] theorem reportsOf_setAttached (m : Option Motion) : reportsOf q (setAttached m s) = reportsOf q s :=
  reportsOf_congr q (by simp)
@[simp] theorem reportsOf_setWaiting (m : List Motion) : reportsOf q (setWaiting m s) = reportsOf q s :=
  reportsOf_congr q (by simp)
@[simp] theorem reportsOf_setPhase (ph : Phase) : reportsOf q (setPhase ph s) = reportsOf q s :=
  reportsOf_congr q (by simp)
@[simp] theorem reportsOf_markRejoin (b : Bool) : reportsOf q (markRejoin b s) = reportsOf q s :=
  reportsOf_congr q (by simp)
@[simp] theorem reportsOf_openTracking : reportsOf q (openTracking s) = reportsOf q s := reportsOf_congr q (by simp)
@[simp] theorem reportsOf_endHold : reportsOf q (endHold s) = reportsOf q s := reportsOf_congr q (by simp)
@[simp] theorem reportsOf_releaseHold : reportsOf q (releaseHold s) = reportsOf q s := reportsOf_congr q (by simp)
@[simp] theorem reportsOf_park : reportsOf q (park s) = reportsOf q s := by simp [park]
@[simp] theorem reportsOf_discGone : reportsOf q (discGone s) = reportsOf q s := by simp [discGone]

@[simp] theorem reportsOf_takeTicket (m : Motion) : reportsOf q (takeTicket m s) = reportsOf q s := by
  by_cases h : q = m.port
  · subst h; simp [reportsOf, takeTicket]
  · simp [takeTicket, h]

/-! ### The ends of motions -/

@[simp] theorem endMotion_active (m : Motion) (r : Result) (f : Option Nat) :
    (endMotion m r f s).arbiter.active = s.arbiter.active := by rw [endMotion_arbiter]

@[simp] theorem endMotion_attached (m : Motion) (r : Result) (f : Option Nat) :
    (endMotion m r f s).arbiter.attached = s.arbiter.attached := by rw [endMotion_arbiter]

@[simp] theorem endMotion_waiting (m : Motion) (r : Result) (f : Option Nat) :
    (endMotion m r f s).arbiter.waiting = s.arbiter.waiting := by rw [endMotion_arbiter]

@[simp] theorem liveMotions_answer (p : Port) (tag : Byte) (st : Status) (d : List Byte) :
    liveMotions (s.answer p tag st d) = liveMotions s := by simp [liveMotions]


/-- The report of a motion joins the queue of its port (R144, R196). -/
theorem reportsOf_endMotion (m : Motion) (r : Result) (f : Option Nat) :
    reportsOf q (endMotion m r f s) = reportsOf q s ++ if m.port = q then [m.report r f] else [] := by
  unfold endMotion queueCompletion
  by_cases h : m.port = q
  · subst h; simp [reportsOf, PortState.joined]
  · simp [h, Ne.symm h]

@[simp] theorem reportsOf_endMotion_own (m : Motion) (r : Result) (f : Option Nat) :
    reportsOf m.port (endMotion m r f s) = reportsOf m.port s ++ [m.report r f] := by simp [reportsOf_endMotion]

/-- The reports of motions that end together join their ports' queues in the order of the motions (R128). -/
theorem reportsOf_endMotions (ms : List (Motion × Result)) (f : Option Nat) :
    reportsOf q (endMotions ms f s)
      = reportsOf q s ++ (ms.filter (fun e => e.1.port == q)).map (fun e => e.1.report e.2 f) := by
  induction ms generalizing s with
  | nil => simp [endMotions]
  | cons e ms ih =>
    have h := ih (endMotion e.1 e.2 f s)
    unfold endMotions at h ⊢
    rw [List.foldl_cons, h, reportsOf_endMotion]
    by_cases he : e.1.port = q <;> simp [he]

/-- A class 0 event adds one report for every motion that is not DONE (R128). -/
theorem reportsOf_endAll (r : Result) :
    reportsOf q (endAll r s)
      = reportsOf q s ++ ((liveMotions s).filter (fun m => m.port == q)).map (fun m => m.report r (lastGood s)) := by
  simp [endAll, reportsOf_endMotions, List.filter_map, Function.comp_def]

/-- After a class 0 event no motion is live (R128). -/
@[simp] theorem liveMotions_endAll (r : Result) : liveMotions (endAll r s) = [] := by
  simp [endAll, liveMotions, endMotions_active]

/-! ### A notice in a queue (R195, R197) -/

/-- A notice stands in the queue of a port, whatever its repeat count. -/
def Noticed (n : Notice) (q : Port) (s : State) : Prop := ∃ r, Report.notice n r ∈ (s.port q).queue

variable {s q}

theorem Noticed.congr {n : Notice} {t : State} (h : Noticed n q s) (ht : t.port q = s.port q) : Noticed n q t := by
  rw [Noticed, ht]; exact h

/-- Coalescing leaves a notice where one of its kind stood (R197). -/
theorem mem_coalesce (n : Notice) (l : List Report) (h : l.any (Report.isNotice n.code) = true) :
    ∃ r, Report.notice n r ∈ coalesce n l := by
  induction l with
  | nil => simp at h
  | cons a l ih =>
    cases a with
    | completion c =>
      obtain ⟨r, hr⟩ := ih (by simpa [Report.isNotice] using h)
      exact ⟨r, by simp [coalesce, hr]⟩
    | notice o k =>
      by_cases ho : o.code = n.code
      · exact ⟨bump 255 k, by simp [coalesce, ho]⟩
      · obtain ⟨r, hr⟩ := ih (by simpa [Report.isNotice, ho] using h)
        exact ⟨r, by simp [coalesce, ho, hr]⟩

/-- A notice that the mask admits stands in the queue after it is offered (R197). -/
theorem noticed_offer (n : Notice) (h : admits (s.port q).mask n.code = true) : Noticed n q (offer n s) := by
  have key (p : PortState) (h : admits p.mask n.code = true) : ∃ r, Report.notice n r ∈ (p.offered n).queue := by
    unfold PortState.offered
    rw [if_pos h]
    split
    · rename_i hc
      exact mem_coalesce n p.queue hc
    · exact ⟨0, by simp [PortState.joined]⟩
  cases q <;> exact key _ h

/-- A notice of another kind leaves it there (R197). -/
theorem Noticed.offer {n m : Notice} (h : Noticed n q s) (hc : m.code ≠ n.code) : Noticed n q (offer m s) := by
  have keep (l : List Report) (r : Nat) (hr : Report.notice n r ∈ l) : Report.notice n r ∈ coalesce m l := by
    induction l with
    | nil => simp at hr
    | cons a l ih =>
      rcases List.mem_cons.1 hr with rfl | hm
      · simp [coalesce, Ne.symm hc]
      · cases a with
        | completion c => simp [coalesce, ih hm]
        | notice o k =>
          simp only [coalesce]
          split
          · exact List.mem_cons_of_mem _ hm
          · exact List.mem_cons_of_mem _ (ih hm)
  have key (p : PortState) (r : Nat) (hr : Report.notice n r ∈ p.queue) :
      Report.notice n r ∈ (p.offered m).queue := by
    unfold PortState.offered
    split
    · split
      · exact keep _ _ hr
      · simp [PortState.joined, hr]
    · exact hr
  obtain ⟨r, hr⟩ := h
  refine ⟨r, ?_⟩
  cases q <;> exact key _ r hr

theorem Noticed.speedNotice {n : Notice} {b : Spindle} (h : Noticed n q s) (hc : n.code ≠ 3) :
    Noticed n q (speedNotice b s) := by
  unfold Machine.speedNotice
  split
  · exact h
  · exact h.offer (Ne.symm hc)

theorem Noticed.recomputeM {n : Notice} (h : Noticed n q s) (hc : n.code ≠ 3) : Noticed n q (recomputeM s) := by
  unfold Machine.recomputeM
  extract_lets
  split
  · exact h
  · exact (h.congr (by simp)).speedNotice hc

/-- A change of drive state offers DRIVE, ZONE and SPEED notices only (R32, R72, R146). -/
theorem Noticed.setDrive {n : Notice} {d : DriveState} (h : Noticed n q s) (h2 : n.code ≠ 2) (h3 : n.code ≠ 3)
    (h7 : n.code ≠ 7) : Noticed n q (setDrive d s) := by
  unfold Machine.setDrive
  split
  · exact h
  · have k1 : Noticed n q (Machine.offer (.drive d s.supervisor.drive s.supervisor.cls s.clock)
        (s.setSupervisor { s.supervisor with drive := d })) := Noticed.offer (h.congr (by simp)) (Ne.symm h2)
    dsimp only
    generalize Machine.offer _ _ = s1 at k1 ⊢
    have k2 : Noticed n q (if d = .onTrack then compareZone s1 else s1) := by
      split
      · unfold Machine.compareZone
        split
        · exact k1
        · split
          · exact Noticed.offer (k1.congr (by simp)) (Ne.symm h7)
          · exact k1
      · exact k1
    split
    · exact k2.recomputeM h3
    · exact k2

end Sys2Proof.Laws
end

