-- ==== Sys2Proof/Laws/SpindleFields.lean ====
section
/-! SUPPORT. The drive mode, the basis and the held speed of the spindle, operation by operation. -/

namespace Sys2Proof.Laws

set_option Elab.async false

open Sys2Proof.Machine Sys2Proof.Safety

variable (s : State)

@[simp] theorem recomputeM_mode : (recomputeM s).spindle.mode = s.spindle.mode := (recomputeM_spindle s).2.2.1
@[simp] theorem recomputeM_basis : (recomputeM s).spindle.basis = s.spindle.basis := (recomputeM_spindle s).2.2.2.1
@[simp] theorem recomputeM_held : (recomputeM s).spindle.held = s.spindle.held := (recomputeM_spindle s).2.1

@[simp] theorem setHeldSpeed_mode (v : Multiple) : (setHeldSpeed v s).spindle.mode = s.spindle.mode := by
  unfold setHeldSpeed
  split <;> simp

@[simp] theorem setHeldSpeed_basis (v : Multiple) : (setHeldSpeed v s).spindle.basis = s.spindle.basis := by
  unfold setHeldSpeed
  split <;> simp

/-- The held speed is the speed it is set to (R70). -/
@[simp] theorem setHeldSpeed_held (v : Multiple) : (setHeldSpeed v s).spindle.held = v := by
  unfold setHeldSpeed
  split
  · rename_i h; exact h.symm
  · simp

@[simp] theorem setDrive_mode (d : DriveState) : (setDrive d s).spindle.mode = s.spindle.mode := by
  unfold setDrive
  split
  · rfl
  · dsimp only; split <;> split <;> simp

@[simp] theorem setDrive_basis (d : DriveState) : (setDrive d s).spindle.basis = s.spindle.basis := by
  unfold setDrive
  split
  · rfl
  · dsimp only; split <;> split <;> simp

@[simp] theorem setDrive_held (d : DriveState) : (setDrive d s).spindle.held = s.spindle.held := by
  unfold setDrive
  split
  · rfl
  · dsimp only; split <;> split <;> simp

@[simp] theorem reportDrive_mode (d : DriveState) : (reportDrive d s).spindle.mode = s.spindle.mode := by
  unfold reportDrive; split <;> simp

@[simp] theorem reportDrive_basis (d : DriveState) : (reportDrive d s).spindle.basis = s.spindle.basis := by
  unfold reportDrive; split <;> simp

@[simp] theorem reportDrive_held (d : DriveState) : (reportDrive d s).spindle.held = s.spindle.held := by
  unfold reportDrive; split <;> simp

theorem setTarget_held (sp : Spindle) (now : Time) (x : Nat) (b : Bool) : (sp.setTarget now x b).held = sp.held := by
  unfold Spindle.setTarget Spindle.byBand
  split
  · rfl
  · split <;> rfl

theorem retarget_held (sp : Spindle) (now : Time) (k : Option DiscClass) : (sp.retarget now k).held = sp.held := by
  unfold Spindle.retarget
  split
  · exact setTarget_held ..
  · exact setTarget_held ..
  · rfl

/-- A command that sets the mode and the basis stores them and leaves the held speed (R68, R70). -/
@[simp] theorem spindleCommand_mode (md : DriveMode) (b : Option Nat) : (spindleCommand md b s).spindle.mode = md := by
  simp [spindleCommand, retarget_mode]

@[simp] theorem spindleCommand_basis (md : DriveMode) (b : Option Nat) : (spindleCommand md b s).spindle.basis = b := by
  simp [spindleCommand, retarget_mode]

@[simp] theorem spindleCommand_held (md : DriveMode) (b : Option Nat) :
    (spindleCommand md b s).spindle.held = s.spindle.held := by simp [spindleCommand, retarget_held]

end Sys2Proof.Laws
end

