-- ==== Sys2Proof/Tests/Slice0.lean ====
section
/-! SUPPORT. Small tests of one step each, and for every statement with hypotheses a witness that meets them. -/

namespace Sys2Proof.Tests

set_option Elab.async false

open Sys2Proof Sys2Proof.Machine Sys2Proof.Safety

/-! ### States -/

/-- The three select lines low: every port takes a request. -/
def listening (s : State) : State := { s with
  control := { s.control with decoder := .receiving }
  stream := { s.stream with decoder := .receiving }
  mechanism := { s.mechanism with decoder := .receiving } }

/-- After reset, every port listening. -/
def fresh : State := listening State.reset

/-- A class L disc held at address 150,000, the fix fresh and at that address. -/
def held : State := { fresh with
  clock := 100000
  map := PosMap.seeded .L
  zones := { ZoneTable.reset with announced := some .default }
  monitor := { Monitor.reset with
    fix := some ⟨150000, 11862, 99990, .default, true⟩, expectedBase := some 11862, started := true, elapsed := 10 }
  optics := { Optics.reset with
    profile := some .L, focus := .locked, tracking := .hold, holdAddress := some 150000 }
  sled := { Sled.reset false with position := some 949 }
  spindle := { Spindle.reset 0 with
    state := .locked, mode := .clv, basis := some 11862, target := 284, measured := 284 }
  recovery := { Recovery.reset with holdCopy := some 150000 }
  supervisor := { Supervisor.reset with drive := .onTrack, cls := some .L, clamp := .clamped } }

/-- The same drive with tracking CLOSED and nothing held. -/
def closed : State := { held with
  optics := { held.optics with tracking := .closed, holdAddress := none }
  sled := { held.sled with state := .creep }
  recovery := Recovery.reset }

/-- A motion of the control port with tag 7. -/
def motion (k : MotionKind) (ph : Option Phase) : Motion where
  port := .control
  tag := 7
  kind := k
  target := some 150000
  endAddr := some 200000
  speed := some .one
  status := .active
  phase := ph
  cancelPending := false
  lastOpen := some 150000
  rejoinEnded := false
  legs := 0
  bad := 0
  seq := 0
  result := none

/-- A state whose active motion is this one, its ticket held. -/
def withActive (m : Motion) (s : State) : State := { s with
  arbiter := { s.arbiter with active := some m, arrivals := 1 }
  control := { s.control with tickets := [m.tag] } }

/-- A FOLLOW of the control port plays at address 150,000. -/
def playing : State := withActive (motion .follow (some .following)) closed

/-- A leg in flight toward address 155,000, its stage and kind as given. -/
def inLeg (k : LegKind) (stage : LegStage) (count : Int) (s : State) : State := { s with
  planner := { s.planner with
    target := some 155000, targetCoord := some 12169, startCoord := some 11862, distance := some 307
    legKind := k, legCount := count, legStage := stage, sessionLegs := 1, settleSince := s.clock }
  supervisor := { s.supervisor with drive := .moving } }

/-- A recovery in a phase from ON_TRACK, its motion RECOVERING. -/
def inRecovery (ph : RecoveryPhase) (s : State) : State := { s with
  arbiter := { s.arbiter with active := s.arbiter.active.map (fun m => { m with phase := some .recovering }) }
  recovery := { s.recovery with
    phase := ph, refocusCount := 1, retrackCount := 1, refixCount := 1, respinCount := 1
    keptPhase := s.arbiter.active.bind Motion.phase, returnAddr := some 150000 }
  supervisor := { s.supervisor with drive := .recovering } }

/-- A SEEK toward 150,000 in a step of its ACQUIRE. -/
def acquiring (step : AcquireStep) : State := withActive (motion .seek (some .acquire)) { closed with
  planner := { closed.planner with owner := .active, target := some 150000, acquireStep := step }
  monitor := { closed.monitor with fix := some ⟨150000, 11862, 0, .default, false⟩ }
  optics := { Optics.reset with profile := some .L }
  sled := { closed.sled with state := .idle }
  supervisor := { closed.supervisor with drive := .moving } }

/-- A sag hold of a FOLLOW, focus kept. -/
def sagged : State := withActive (motion .follow (some .suspended)) { closed with
  optics := { closed.optics with tracking := .off }
  sled := { closed.sled with state := .idle }
  spindle := { closed.spindle with state := .coast }
  supervisor := { closed.supervisor with drive := .sagHold, supply := .sag, suspendedPhase := some .following } }

/-- A recovery of a FOLLOW at RETRACK, its close in progress. -/
def retracking : State := inRecovery .retrack { playing with
  optics := { playing.optics with tracking := .off, closers := [.recovery] }
  sled := { playing.sled with state := .idle } }

/-- A REJOIN of the stream port, attached. -/
def rejoin : Motion := { motion .rejoin none with
  port := .stream, tag := 8, target := some 150050, endAddr := none, speed := none, status := .attached, lastOpen := none }

/-- The FOLLOW carries the REJOIN, the planner's owner, in a phase. -/
def carrying (ph : Phase) (s : State) : State :=
  let s1 := withActive (motion .follow (some ph)) s
  { s1 with
    arbiter := { s1.arbiter with attached := some rejoin }
    planner := { s1.planner with owner := .attached, target := some 150050 } }

/-- An identification at a stage and step, with its window. -/
def identifying (stage : IdentStage) (step : Option ProfileStep) (cand : Option DiscClass) (w : Option Nat) : State :=
  { fresh with
    optics := { Optics.reset with profile := cand, focus := .locked, tracking := .closed }
    sled := { Sled.reset false with position := some 150, state := .creep }
    spindle := { Spindle.reset 500 with state := .locked, mode := .fixed, target := 500, stopLimit := none }
    supervisor := { Supervisor.reset with
      drive := .identifying, clamp := .clamped
      ident := some ⟨.clamp, stage, step, cand, w, false, false⟩ } }

/-! ### Well-formed commands -/

/-- An incomplete frame and a reading above 9,999 are refused; their neighbours are not. -/
theorem test_wellFormed :
    Instr.wellFormed (.unknownKind .control [0x01, 0x05]) = false ∧
    Instr.wellFormed (.unknownKind .control [0x01, 0x05, 0x01, 0xFA]) = false ∧
    Instr.wellFormed (.unknownKind .control [0x01, 0x05, 0x00, 0xFA]) = true ∧
    Instr.wellFormed (.tachometerReading 10000) = false ∧
    Instr.wellFormed (.tachometerReading 9999) = true := by decide

/-- The table gives no row any bits: no word spells a command, and the queue stays as it is. -/
theorem test_no_word_spells : decodeTableWord 0 0 = none ∧ State.withFetchWord State.reset 0 0 = State.reset := by decide

/-! ### Steps and frames -/

theorem witness_IdleStepPassesTimeOrFiresATimer :
    State.reset.pending = [] ∧ due State.reset = [] ∧
    due { held with spindle := { held.spindle with state := .coarse, lockTest := some 99900 } } = [.lockTestComplete] ∧
    due { held with
      spindle := { held.spindle with state := .coarse, lockTest := some 99900, lockLimit := some 98000 } }
      = [.lockTestComplete, .lockLimitExpiry] := by decide

theorem witness_FrameRoundTrip : requestPortTag (.follow .control 9 4194303 4 (some 0)) = some (.control, 9) := by decide

/-- A wrong sum; a length of 13; a length SEEK does not allow; an unknown kind; a mechanism request on the control
port; a control request on the stream port, and outside RECEIVING. -/
theorem witness_FrameChecksRefuseInOrder :
    (fresh.port .control).decoder = .receiving ∧
    sumBytes [0x01, 0x05, 0x00, 0xFB] ≠ 0 ∧
    (sumBytes ([0x10, 0x05, 0x0D] ++ List.replicate 13 0 ++ [0xDE]) = 0 ∧ 12 < (0x0D : Byte).toNat) ∧
    (sumBytes [0x10, 0x05, 0x00, 0xEB] = 0 ∧ allowedLengths 0x10 = some [4] ∧ (0x00 : Byte).toNat ∉ [4]) ∧
    (sumBytes [0x06, 0x05, 0x00, 0xF5] = 0 ∧ allowedLengths 0x06 = none) ∧
    (sumBytes [0x32, 0x05, 0x00, 0xC9] = 0 ∧ allowedLengths 0x32 = some [0] ∧ servedOn 0x32 .control = false) ∧
    (requestPortTag (.stop .stream 3) = some (.stream, 3) ∧ requestCode (.stop .stream 3) = some 0x12 ∧
      (fresh.port .stream).decoder = .receiving ∧ servedOn 0x12 .stream = false ∧
      (State.reset.port .stream).decoder ≠ .receiving) := by decide

theorem witness_SpelledFrameRunsItsRequest :
    (fresh.port .stream).decoder = .receiving ∧ frameComplete [0x22, 0x08, 0x03, 0xC2, 0x49, 0xF0, 0xD8] = true ∧
    decodeFrame .stream [0x22, 0x08, 0x03, 0xC2, 0x49, 0xF0, 0xD8] = .ok (.rejoin .stream 8 150000) := by
  refine ⟨by decide, by decide, by rfl⟩

theorem witness_EveryRequestTakenIsAnswered :
    requestPortTag (.cancel .stream 3 7) = some (.stream, 3) ∧ requestCode (.cancel .stream 3 7) = some 0x13 ∧
    Takes 0x13 .stream fresh := by decide

/-! ### Select lines and queues -/

/-- A port as the statements of this section meet it. -/
def reading (q : List Report) : State := { State.reset with
  control := { State.reset.control with decoder := .turnaround, reading := true, queue := q, tickets := [7] } }

theorem witness_SelectLineMovesTheDecoder :
    (State.reset.port .control).decoder = .idle ∧ (fresh.port .control).decoder ≠ .idle ∧
    (fresh.port .control).resetArmed = false ∧
    (let s := State.reset.setPort .control { State.reset.control with decoder := .replying }
     (s.port .control).decoder = .replying ∧ (s.port .control).resetArmed = false ∧
      (s.port .control).reading = false) ∧
    (fresh.port .control).decoder ≠ .turnaround ∧ (fresh.port .control).decoder ≠ .replying := by decide

/-- A completion report at the head; a notice there, as it was, and coalesced while it was being read. -/
theorem witness_ReportsLeaveAsTheyAreRead :
    let c : Completion := ⟨7, .seek, .reached, some 150000, 1, 0⟩
    let n : Report := .notice (.restarted .powerOn) 0
    let r := (reading [n]).setPort .control { (reading [n]).control with headRenewed := true }
    (∀ s ∈ [reading [.completion c], reading [n], r], (s.port .control).decoder = .turnaround ∧
      (s.port .control).resetArmed = false ∧ (s.port .control).reading = true) ∧
    ((reading [.completion c]).port .control).headRenewed = false ∧
    ((reading [.completion c]).port .control).queue = .completion c :: [] ∧
    ((reading [n]).port .control).queue = n :: [] ∧ ((reading [n]).port .control).headRenewed = false ∧
    (r.port .control).queue = n :: [] ∧ (r.port .control).headRenewed = true := by decide

theorem witness_HoldoffEnds :
    let s := State.reset.setPort .stream { State.reset.stream with attention := .holdoff, holdoffLeft := 5 }
    (s.port .stream).attention = .holdoff ∧ (State.reset.port .stream).attention ≠ .holdoff := by decide

theorem witness_SoftResetWaitsForItsReply :
    let s := fresh.setPort .control { fresh.control with resetArmed := true, decoder := .turnaround }
    Takes 0x1C .control fresh ∧ (s.port .control).resetArmed = true ∧ (s.port .control).decoder = .turnaround := by decide

/-! ### Requests that read and set -/

theorem witness_ReadStatusReportsTheState :
    Takes 0x01 .mechanism playing ∧ (∃ f, playing.monitor.fix = some f) ∧ fresh.monitor.fix = none ∧
    (∃ m, playing.arbiter.active = some m) ∧ fresh.arbiter.active = none ∧ playing.arbiter.attached = none ∧
    (∃ r, (playing.setArbiter { playing.arbiter with
      attached := some (motion .rejoin none) }).arbiter.attached = some r) ∧
    playing.sled.position = some 949 ∧ fresh.sled.position = none := by
  refine ⟨by decide, ⟨_, rfl⟩, rfl, ⟨_, rfl⟩, rfl, rfl, ⟨_, rfl⟩, rfl, rfl⟩

theorem witness_ReadReportDescribesTheHead :
    let e := fresh.setPort .stream { fresh.stream with queue := [] }
    let c := fresh.setPort .stream { fresh.stream with queue := [.completion ⟨7, .rejoin, .reached, none, 255, 65535⟩] }
    Takes 0x02 .stream e ∧ (e.port .stream).queue = [] ∧
    Takes 0x02 .stream c ∧ (c.port .stream).queue = .completion ⟨7, .rejoin, .reached, none, 255, 65535⟩ :: [] ∧
    Takes 0x02 .stream fresh ∧ (fresh.port .stream).queue = .notice (.restarted .powerOn) 0 :: [] := by decide

theorem witness_OtherReadsAnswerWhatTheyName :
    let s : State := { held with
      supervisor := { held.supervisor with fault := some ⟨.homeFailed, none, 5⟩ }
      planner := { held.planner with unreached := some ⟨.control, 7, some 1, none, 6, .legBudget⟩ } }
    Takes 0x05 .mechanism s ∧ Takes 0x1A .control s ∧ s.supervisor.fault = some ⟨.homeFailed, none, 5⟩ ∧
    held.supervisor.fault = none ∧ s.planner.unreached = some ⟨.control, 7, some 1, none, 6, .legBudget⟩ ∧
    held.planner.unreached = none ∧ Takes 0x15 .control s ∧ s.zones.entries[7]? = some ZoneEntry.reset ∧
    8 < (9 : Byte).toNat ∧ Takes 0x17 .control s ∧ s.map.records[4]? = some ⟨310270, 20625, .seed, 0⟩ ∧
    s.map.records.length ≤ (5 : Byte).toNat := by decide

theorem witness_SettingsAreStored :
    Takes 0x03 .stream fresh ∧ Takes 0x04 .mechanism fresh ∧ Takes 0x19 .control fresh ∧
    Takes 0x21 .stream fresh ∧ fresh.supervisor.cls = none ∧ Takes 0x21 .stream held ∧ held.supervisor.cls = some .L := by
  decide

/-- An ACQUIRE that spins up at 2x, its motor at this speed. -/
def slowing (rpm : Nat) : State := { acquiring .spin with
  spindle := { held.spindle with state := .spinup, held := .two, m := .two, target := 568, measured := rpm } }

theorem witness_ZoneRequestsRewriteTheTable :
    Takes 0x14 .control held ∧ (7 < (8 : Byte).toNat ∨ 1 < (0 : Byte).toNat) ∧
    (7 < (7 : Byte).toNat ∨ 1 < (2 : Byte).toNat) ∧ (7 : Byte).toNat ≤ 7 ∧ (1 : Byte) = Access.avoid.code ∧
    (0 : Byte) = Access.opened.code ∧ Takes 0x16 .control held ∧ Settled held ∧
    (∀ s ∈ [slowing 1, slowing 568], Takes 0x14 .control s ∧ Takes 0x16 .control s ∧ s.arbiter.waiting = [] ∧
      s.supervisor.ident = none ∧ s.planner.acquireStep = .spin ∧ s.optics.focus ≠ .locked ∧ s.optics.switch = none ∧
      s.optics.profile ≠ none) := by
  decide

/-- SET DEFAULT ZONE to 1x halves the target of an ACQUIRE that spins up at 2x: at the new target the focus search begins, and
far from it the ACQUIRE goes on waiting (R39, R67, R73, R78). -/
theorem test_zone_brings_acquire_to_its_search :
    (match exec (.setDefaultZone .control 9 1) (slowing 284) with
     | .next t => t.spindle.target == 282 && t.spindle.state == .coarse && t.planner.acquireStep == .search
     | _ => false) = true ∧
    (match exec (.setDefaultZone .control 9 1) (slowing 0) with
     | .next t => t.spindle.target == 282 && t.spindle.state == .spinup && t.planner.acquireStep == .spin
     | _ => false) = true := by decide

/-- Entry 1 matches address 5 and entry 0, disabled, does not; a table of disabled entries matches nothing. -/
theorem witness_ZoneDecodeIsTheLowestMatch :
    let z : ZoneTable := { ZoneTable.reset with entries := ZoneTable.reset.entries.set 1 ⟨true, 5, 0x3FFFFF, .two, .avoid⟩ }
    z.entries[1]? = some ⟨true, 5, 0x3FFFFF, .two, .avoid⟩ ∧ Matches ⟨true, 5, 0x3FFFFF, .two, .avoid⟩ 5 ∧
    (∀ j e', j < 1 → z.entries[j]? = some e' → ¬ Matches e' 5) ∧
    (∀ e ∈ ZoneTable.reset.entries, ¬ Matches e 5) := by
  refine ⟨by decide, ⟨rfl, by decide⟩, ?_, ?_⟩
  · intro j e' hj he
    have : j = 0 := by omega
    subst this
    have : e' = ZoneEntry.reset := by simpa [ZoneTable.reset] using he.symm
    simp [this, Matches, ZoneEntry.reset]
  · intro e he
    have : e = ZoneEntry.reset := by simpa [ZoneTable.reset] using he
    simp [this, Matches, ZoneEntry.reset]

theorem witness_MapImportChecksThenInserts :
    Takes 0x18 .control fresh ∧ fresh.supervisor.cls = none ∧
    Takes 0x18 .control held ∧ held.supervisor.cls ≠ none ∧ held.supervisor.drive ≠ .identifying ∧
    (held.setArbiter { held.arbiter with releaseLatch := true }).arbiter.releaseLatch = true ∧
    held.arbiter.releaseLatch = false ∧
    held.map.insert 310270 20624 .imported = none ∧ (held.map.insert 310269 20624 .imported).isSome = true := by decide

/-- FAULTED by HOME_FAILED with nothing clamped; clamped, in a sag and without; by a fault that keeps the disc; and by the failure
of a RELEASE, clamped and not. -/
theorem witness_ClearFaultClearsAndMovesOn :
    let f : State := { fresh with supervisor := { fresh.supervisor with
      drive := .faulted, fault := some ⟨.homeFailed, none, 5⟩ } }
    let c : State := { f with supervisor := { f.supervisor with clamp := .clamped } }
    let sag : State := { c with supervisor := { c.supervisor with supply := .sag } }
    let k : State := { held with supervisor := { held.supervisor with
      drive := .faulted, fault := some ⟨.spindleUnlocked, some 150000, 5⟩ } }
    let latched (c : ClampState) : State := { k with
      arbiter := { k.arbiter with releaseLatch := true }, spindle := Spindle.reset 0
      supervisor := { k.supervisor with clamp := c } }
    Takes 0x1B .control held ∧ held.supervisor.drive ≠ .faulted ∧
    Takes 0x1B .control f ∧ f.supervisor.drive = .faulted ∧ Settled f ∧ ClearFaultIdentifies f ∧
    f.supervisor.clamp ≠ .clamped ∧ ClearFaultIdentifies sag ∧ sag.supervisor.clamp = .clamped ∧
    sag.supervisor.supply = .sag ∧ Settled sag ∧ IdentOpen sag ∧ ClearFaultIdentifies c ∧
    c.supervisor.supply = .normal ∧ IdentOpen c ∧ Settled c ∧
    (k.supervisor.drive = .faulted ∧ Settled k ∧ k.arbiter.releaseLatch = false) ∧
    (∀ c ∈ [ClampState.clamped, .unclamped], Takes 0x1B .control (latched c) ∧ Settled (latched c) ∧
      (latched c).supervisor.drive = .faulted ∧ (latched c).arbiter.releaseLatch = true ∧ IdentOpen (latched c)) ∧
    ∀ s ∈ [k, latched .clamped, latched .unclamped], ¬ ClearFaultIdentifies s := by
  refine ⟨by decide, by decide, by decide, by decide, by decide, .inl rfl, by decide, .inl rfl, by decide, by decide,
    by decide, by decide, .inl rfl, by decide, by decide, by decide, by decide, by decide, fun s hs => ?_⟩
  obtain ⟨hc, hf⟩ : s.supervisor.cls = some .L ∧ s.supervisor.fault = some ⟨.spindleUnlocked, some 150000, 5⟩ := by
    revert s
    decide
  rintro (h | ⟨f, h, hk⟩)
  · exact absurd (hc ▸ h) (by decide)
  · obtain rfl := Option.some.inj (hf.symm.trans h)
    exact absurd hk (by decide)

/-- Every place the sled may start an identification from: unknown with the switch open and closed, known, and at step 150. -/
theorem witness_IdentBegun :
    let at_ (x : Option Nat) (closed : Bool) : State := { fresh with
      sled := { Sled.reset closed with position := x }, supervisor := { fresh.supervisor with clamp := .clamped } }
    ∀ s ∈ [at_ none false, at_ none true, at_ (some 949) false, at_ (some 150) false],
      IdentOpen s ∧ s.supervisor.supply = .normal := by decide

/-! ### Map and invariants -/

theorem held_mapOk : MapOk held.map := by
  show _ ∧ _
  refine ⟨by decide, by decide, by decide, by decide, by decide⟩

theorem witness_PredictionFollowsTheRecords :
    MapOk held.map ∧ held.map.cls = some .L ∧
    held.map.records = [⟨0, 0, .seed, 0⟩] ++ ⟨52561, 5000, .seed, 0⟩ :: ⟨119622, 10000, .seed, 0⟩ ::
      [⟨201183, 15000, .seed, 0⟩, ⟨310270, 20625, .seed, 0⟩] ∧
    held.map.predict 119622 = some 10000 ∧ held.map.predict 310270 = some 20625 :=
  ⟨held_mapOk, by decide, by decide, by decide, by decide⟩

theorem witness_InsertionKeepsOrder : MapOk held.map ∧ held.map.cls = some .L ∧ Origin.imported ≠ .seed :=
  ⟨held_mapOk, rfl, by decide⟩

theorem witness_MapStaysInOrder :
    let s : State := { held with pending := [.mapImport .control 9 150000 11867] }
    MapOk s.map ∧ ∃ t, step s = .next t := ⟨held_mapOk, _, rfl⟩

theorem witness_RangesAreKept :
    let s : State := { closed with pending := [.creepThreshold] }
    (∃ t, step s = .next t) ∧ TrimOk s ∧ SettingsOk s ∧ TargetOk s ∧ HistoryOk s ∧ ZonesOk s ∧ SpeedOk s ∧ GainOk s ∧
    RailOk s.sled ∧ ClassesAgree s ∧
    (let u : State := { carrying .following closed with pending := [.creepThreshold] }
     (∃ t, step u = .next t) ∧ u.arbiter.attached = some rejoin ∧ AttachedOk u) ∧
    (let i : Ident := ⟨.clamp, .profileL, none, none, none, false, true⟩
     let u : State := { fresh with
       supervisor := { Supervisor.reset with drive := .identifying, ident := some i }, pending := [.creepThreshold] }
     (∃ t, step u = .next t) ∧ i.restart = true ∧ RestartOk u) := by
  refine ⟨⟨_, rfl⟩, by decide, by decide, by decide, by decide, by decide, by decide, by decide, ?_, by decide,
    ⟨⟨_, rfl⟩, rfl, ?_⟩, ⟨_, rfl⟩, rfl, ?_⟩
  · intro x hx
    have : x = 949 := (Option.some.inj hx).symm
    subst this; decide
  · rintro _ ⟨⟩
    rfl
  · rintro _ ⟨⟩ _
    exact .inr rfl

theorem playing_ticketsOk : TicketsOk playing := by
  intro p
  cases p
  · refine ⟨by decide, by decide, fun tag => ?_, fun tag => ?_⟩
    · by_cases h : tag = 7
      · subst h; rfl
      · simp [motionCount, doneCount, playing, withActive, liveMotions, motion, closed, held, fresh, listening,
          State.reset, Arbiter.reset, State.port, Motion.named]
        exact (if_neg (Ne.symm h)).trans (if_neg h).symm
    · rfl
  all_goals
    refine ⟨by decide, by decide, fun tag => ?_, fun tag => rfl⟩
    simp [motionCount, doneCount, playing, withActive, liveMotions, motion, closed, held, fresh, listening,
      State.reset, Arbiter.reset, State.port, Motion.named, PortState.afterReset]

theorem playing_queuesOk : QueuesOk playing := by
  have h (p : Port) : QueueOk (playing.port p) := by
    refine ⟨fun code => ?_, by cases p <;> decide, fun h => ?_⟩
    · cases p <;> (simp [noticeCount, playing, withActive, closed, held, fresh, listening, State.reset,
        PortState.afterReset, State.port, Report.isNotice, List.countP_cons]; split <;> simp)
    · cases p <;> exact absurd h (by decide)
  exact ⟨h .control, h .stream, h .mechanism⟩

theorem witness_TicketsMotionsAndReportsAgree :
    let s : State := { playing with pending := [.cancel .control 9 7] }
    QueuesOk s ∧ TicketsOk s ∧ ∃ t, step s = .next t :=
  ⟨playing_queuesOk, playing_ticketsOk, _, rfl⟩

theorem held_loopsOk : LoopsOk held.optics :=
  ⟨by decide, by decide, by decide, by decide, by decide, by decide, by decide, by decide⟩

theorem witness_LoopsAndFixAgree :
    let s : State := { held with pending := [.offTrack 1001] }
    LoopsOk s.optics ∧ FreshOk s ∧ ∃ t, step s = .next t :=
  ⟨held_loopsOk, fun _ _ _ => by decide, _, rfl⟩

theorem witness_CompletionReportsKeepTheirPlaces :
    (∃ t, exec (.cancel .control 9 7) playing = .next t) ∧ (Instr.cancel .control 9 7) ≠ .powerOnReset ∧
    (Instr.cancel .control 9 7) ≠ .replyComplete .control ∧ ∀ q, (playing.port q).resetArmed = false :=
  ⟨⟨_, rfl⟩, by decide, by decide, fun q => by cases q <;> rfl⟩

/-! ### Motion requests -/

/-- A SEEK above the highest address; a FOLLOW that ends before its start; a STOP with a tag in use; a REJOIN without a
disc; a RELEASE beside two tickets. -/
theorem witness_MotionRequestsAreRefusedInOrder :
    let two : State := fresh.setPort .mechanism { fresh.mechanism with tickets := [1, 2] }
    (Takes 0x10 .control held ∧ motionRefusal .seek .control 9 (some (310271 : Addr).toNat) none held = some .outOfRange) ∧
    (Takes 0x11 .control held ∧
      motionRefusal .follow .control 9 (some (150000 : Addr).toNat) (endStored (some 149999) held) held = some .outOfRange) ∧
    (Takes 0x12 .control playing ∧ motionRefusal .stop .control 7 none none playing = some .tagInUse) ∧
    (Takes 0x22 .stream fresh ∧ motionRefusal .rejoin .stream 9 (some (1 : Addr).toNat) none fresh = some .noDisc) ∧
    (Takes 0x32 .mechanism two ∧ motionRefusal .release .mechanism 9 none none two = some .limit) := by decide

theorem witness_MotionRequestsTakeATicket :
    (Takes 0x10 .control held ∧ motionRefusal .seek .control 9 (some (310270 : Addr).toNat) none held = none) ∧
    (Takes 0x11 .control held ∧
      motionRefusal .follow .control 9 (some (150000 : Addr).toNat) (endStored (some 150000) held) held = none) ∧
    (Takes 0x12 .control held ∧ motionRefusal .stop .control 9 none none held = none) ∧
    (Takes 0x22 .stream playing ∧ motionRefusal .rejoin .stream 9 (some (0 : Addr).toNat) none playing = none) ∧
    (Takes 0x32 .mechanism playing ∧ motionRefusal .release .mechanism 9 none none playing = none) := by decide

/-- A SEEK over a SEEK in each phase: with a leg in flight by sled, settling and landed, in APPROACH, in ACQUIRE, in a recovery
and in a sag; over a FOLLOW that plays and over a STOP that brakes; a STOP over a SEEK and over a STOP; a REJOIN over a REJOIN
attached; a RELEASE over a RELEASE. -/
theorem witness_AcceptedMotionsTakeTheSlotOfTheMotionsTheyEnd :
    let moving (s : State) : State := { s with supervisor := { s.supervisor with drive := .moving } }
    let braking : State := { fresh with
      map := held.map
      spindle := { Spindle.reset 100 with state := .braking }
      supervisor := { Supervisor.reset with drive := .parking, cls := some .L } }
    let release : State := withActive { motion .release (some .homing) with port := .mechanism } { fresh with
      sled := { fresh.sled with state := .homing }, supervisor := { Supervisor.reset with drive := .releasing } }
    let seek (ph : Phase) (s : State) : State := withActive (motion .seek (some ph)) s
    (∀ s ∈ [seek .leg (inLeg .sled .running 9 closed), seek .settle (inLeg .fine .settling 9 closed),
        seek .verify (inLeg .fine .landing 9 closed), seek .approach (moving closed), playing,
        seek .acquire { acquiring .spin with spindle := { Spindle.reset 0 with state := .spinup } },
        seek .recovering (inRecovery .refix closed), seek .suspended sagged,
        withActive (motion .stop (some .braking)) braking],
      Accepted .control 9 s (.seek .control 9 150030 1) .seek (some (150030 : Addr).toNat) ∧ s.arbiter.waiting = [] ∧
      s.supervisor.ident = none ∧ s.arbiter.attached = none ∧
      ∀ old, s.arbiter.active = some old → endedWith .seek old ≠ none) ∧
    (CallsForLeg 150030 150000 ((11864 : Nat) - (11862 : Nat) : Int) ∧ playing.map.predict 150030 = some 11864 ∧
      playing.map.predict 150000 = some 11862 ∧ fixFresh playing = true) ∧
    (∀ s ∈ [seek .leg (inLeg .sled .running 9 closed), withActive (motion .stop (some .braking)) braking],
      Accepted .control 9 s (.stop .control 9) .stop none ∧ s.arbiter.waiting = [] ∧ s.supervisor.ident = none ∧
      s.arbiter.attached = none ∧ ∀ old, s.arbiter.active = some old → endedWith .stop old ≠ none) ∧
    (let s := carrying .leg (inLeg .fine .running 9 closed)
     Accepted .control 9 s (.stop .control 9) .stop none ∧ Driven s.spindle ∧ 30 ≤ s.spindle.measured ∧
      s.arbiter.attached = some rejoin ∧ AttachedOk s) ∧
    (let s := carrying .leg (inLeg .fine .running 9 closed)
     Accepted .stream 9 s (.rejoin .stream 9 150060) .rejoin (some (150060 : Addr).toNat) ∧
      s.arbiter.attached = some rejoin ∧ s.planner.legStage ≠ .idle ∧ s.supervisor.drive = .moving) ∧
    (∀ s ∈ [inRecovery .refix (carrying .leg closed), carrying .suspended sagged],
      Accepted .stream 9 s (.rejoin .stream 9 150060) .rejoin (some (150060 : Addr).toNat) ∧ s.arbiter.waiting = [] ∧
      s.supervisor.ident = none ∧ s.arbiter.attached = some rejoin ∧ s.planner.acquireStep ≠ .spin) ∧
    ((inRecovery .refix closed).supervisor.drive = .recovering ∧
      (inRecovery .refix (carrying .leg closed)).arbiter.active = some (motion .follow (some .recovering)) ∧
      (carrying .suspended sagged).arbiter.active = some (motion .follow (some .suspended))) ∧
    (Accepted .mechanism 9 release (.release .mechanism 9) .release none ∧ release.supervisor.drive ≠ .released) := by
  refine ⟨fun s h => ⟨.seek _ _ ?_ ?_, ?_⟩, by decide, fun s h => ⟨.stop ?_ ?_, ?_⟩,
    ⟨.stop (by decide) (by decide), by decide, by decide, rfl, ?_⟩,
    ⟨.rejoin _ (by decide) (by decide), by decide⟩, fun s h => ⟨.rejoin _ ?_ ?_, ?_⟩, by decide,
    .release (by decide) (by decide), by decide⟩
  all_goals first | (revert s; decide) | (rintro _ ⟨⟩; rfl)

/-- The reach window from both its ends: the fix at the target, and 16 above it. -/
theorem witness_SeekWithinReachCompletes :
    let f : Fix := ⟨150000, 11862, 99990, .default, true⟩
    Takes 0x10 .control held ∧ Holding held ∧ held.monitor.fix = some f ∧ f.fresh = true ∧
    (motionRefusal .seek .control 9 (some (150000 : Addr).toNat) none held = none ∧ (150000 : Addr).toNat ≤ f.address ∧
      f.address ≤ (150000 : Addr).toNat + 16 ∧ (held.map.predict (150000 : Addr).toNat).isSome = true) ∧
    (motionRefusal .seek .control 9 (some (149984 : Addr).toNat) none held = none ∧ (149984 : Addr).toNat ≤ f.address ∧
      f.address ≤ (149984 : Addr).toNat + 16 ∧ (held.map.predict (149984 : Addr).toNat).isSome = true) ∧
    (held.map.predict f.address).isSome = true := by decide

/-- The same drive with its fix at address 300,020, on a track whose addresses reach from below the window to above it. -/
def heldFar : State := { held with
  monitor := { held.monitor with fix := some ⟨300020, 20096, 99990, .default, true⟩, expectedBase := some 20096 }
  optics := { held.optics with holdAddress := some 300020 } }

/-- A fine leg of 64 tracks outward, of 1 track inward and of −1 on the target's own track, and a sled leg of 65 tracks; an
approach from one address below the target and from 10 below it, on the next track. -/
theorem witness_SeekBeginsItsFirstLeg :
    let f : Fix := ⟨150000, 11862, 99990, .default, true⟩
    Takes 0x10 .control held ∧ Holding held ∧ held.monitor.fix = some f ∧ f.fresh = true ∧ held.supervisor.cls = some .L ∧
    held.map.predict f.address = some 11862 ∧
    (motionRefusal .seek .control 9 (some (151040 : Addr).toNat) none held = none ∧
      held.map.predict (151040 : Addr).toNat = some 11926 ∧ f.address < (151040 : Addr).toNat) ∧
    (motionRefusal .seek .control 9 (some (149983 : Addr).toNat) none held = none ∧
      held.map.predict (149983 : Addr).toNat = some 11861 ∧ (149983 : Addr).toNat + 16 < f.address) ∧
    (motionRefusal .seek .control 9 (some (151056 : Addr).toNat) none held = none ∧
      held.map.predict (151056 : Addr).toNat = some 11927 ∧ held.sled.position = some 949 ∧ held.sled.state = .idle ∧
      railSteps .L 65 held.planner.trim 949 = 5) ∧
    (LoopsOk held.optics ∧ motionRefusal .seek .control 9 (some (150001 : Addr).toNat) none held = none ∧
      held.map.predict (150001 : Addr).toNat = some 11862 ∧
      CallsForApproach (150001 : Addr).toNat f.address ((11862 : Nat) - (11862 : Nat) : Int) ∧
      motionRefusal .seek .control 9 (some (150010 : Addr).toNat) none held = none ∧
      held.map.predict (150010 : Addr).toNat = some 11863 ∧
      CallsForApproach (150010 : Addr).toNat f.address ((11863 : Nat) - (11862 : Nat) : Int)) ∧
    (Takes 0x10 .control heldFar ∧ Holding heldFar ∧
      motionRefusal .seek .control 9 (some (300003 : Addr).toNat) none heldFar = none ∧
      heldFar.map.predict (300003 : Addr).toNat = some 20096 ∧ heldFar.map.predict 300020 = some 20096 ∧
      CallsForLeg (300003 : Addr).toNat 300020 ((20096 : Nat) - (20096 : Nat) : Int)) :=
  ⟨by decide, by decide, by decide, by decide, by decide, by decide, by decide, by decide, by decide,
    ⟨held_loopsOk, by decide⟩, by decide⟩

theorem witness_FollowWithinReachPlays :
    let f : Fix := ⟨150000, 11862, 99990, .default, true⟩
    Takes 0x11 .control held ∧ LoopsOk held.optics ∧ Holding held ∧ held.monitor.fix = some f ∧ f.fresh = true ∧
    motionRefusal .follow .control 9 (some (149984 : Addr).toNat) (endStored (some 150001) held) held = none ∧
    (149984 : Addr).toNat ≤ f.address ∧ f.address ≤ (149984 : Addr).toNat + 16 ∧
    (held.map.predict (149984 : Addr).toNat).isSome = true ∧ (held.map.predict f.address).isSome = true ∧
    endStored (some 150001) held = some 150001 ∧ f.address < 150001 ∧
    (held.zones.decode f.address).access = .opened := by
  refine ⟨by decide, held_loopsOk, by decide, by decide, by decide, by decide, by decide, by decide, by decide,
    by decide, by decide, by decide, by decide⟩

theorem witness_RejoinAttachesToThePlayingFollow :
    let f : Fix := ⟨150000, 11862, 99990, .default, true⟩
    Takes 0x22 .stream playing ∧ motionRefusal .rejoin .stream 8 (some (150030 : Addr).toNat) none playing = none ∧
    OnTrackAtRest playing ∧ playing.arbiter.active = some (motion .follow (some .following)) ∧
    playing.arbiter.attached = none ∧ playing.optics.tracking = .closed ∧ playing.monitor.fix = some f ∧ f.fresh = true ∧
    playing.supervisor.cls ≠ none ∧ playing.map.predict (150030 : Addr).toNat = some 11864 ∧
    playing.map.predict f.address = some 11862 ∧ f.address < (150030 : Addr).toNat := by decide

theorem witness_StopParksTheDrive :
    let turning : State := { held with spindle := { held.spindle with measured := 30 } }
    let stopped : State := { fresh with supervisor := { fresh.supervisor with drive := .stopped } }
    (Takes 0x12 .control turning ∧ motionRefusal .stop .control 9 none none turning = none ∧ Holding turning ∧
      30 ≤ turning.spindle.measured ∧ Driven turning.spindle) ∧
    (Takes 0x12 .control fresh ∧ motionRefusal .stop .control 9 none none fresh = none ∧
      fresh.supervisor.drive = .empty ∧ NoMotion fresh ∧ Settled fresh) ∧
    (Takes 0x12 .control stopped ∧ motionRefusal .stop .control 9 none none stopped = none ∧
      stopped.supervisor.drive = .stopped ∧ NoMotion stopped ∧ Settled stopped) := by decide

theorem witness_ReleaseEndsEverythingAndBrakes :
    Takes 0x32 .mechanism playing ∧ motionRefusal .release .mechanism 9 none none playing = none ∧
    playing.supervisor.drive ≠ .released ∧ (∀ m, playing.arbiter.active = some m → m.kind ≠ .release) ∧
    30 ≤ playing.spindle.measured ∧ Driven playing.spindle := by
  refine ⟨by decide, by decide, by decide, ?_, by decide, by decide⟩
  intro m hm
  have : m = motion .follow (some .following) := (Option.some.inj hm).symm
  subst this; decide

theorem witness_CancelEndsTheNamedMotion :
    let braking := withActive (motion .stop (some .braking)) closed
    let queued : State := { closed with arbiter := { closed.arbiter with
      waiting := [{ motion .seek none with status := .pending }] } }
    let near := withActive (motion .seek (some .approach)) { closed with
      supervisor := { closed.supervisor with drive := .moving } }
    Takes 0x13 .control playing ∧ (∀ m ∈ liveMotions playing, ¬ (m.port = .control ∧ m.tag = 8)) ∧
    (liveMotions braking).find? (Motion.named .control 7) = some (motion .stop (some .braking)) ∧
    Takes 0x13 .control braking ∧
    (Takes 0x13 .control queued ∧ queued.arbiter.active = none ∧ queued.arbiter.attached = none ∧
      queued.arbiter.waiting = [{ motion .seek none with status := .pending }] ∧ queued.supervisor.ident = none ∧
      queued.planner.acquireStep ≠ .spin) ∧
    (Takes 0x13 .control near ∧ near.arbiter.active = some (motion .seek (some .approach)) ∧
      near.arbiter.attached = none ∧ near.planner.legStage = .idle ∧ Settled near ∧ near.supervisor.drive = .moving ∧
      lastGood near = some 150000 ∧ near.optics.tracking = .closed) ∧
    (playing.arbiter.active = some (motion .follow (some .following)) ∧ playing.arbiter.attached = none ∧
      playing.planner.legStage = .idle ∧ Settled playing ∧ playing.supervisor.drive = .onTrack ∧
      lastGood playing = some 150000 ∧ playing.optics.tracking = .closed) := by decide

/-- A leg in flight, ACQUIRE, a recovery, a sag, a FOLLOW that carries a REJOIN; the REJOIN itself with a leg in flight, in
APPROACH, a recovery and a sag, and the FOLLOW that carries it there; and the landings that the CANCEL waited for, and a
TRACK_SLIP that takes one away. -/
theorem witness_CancelOfMotionsAtWork :
    let seek (ph : Phase) (s : State) : State := withActive (motion .seek (some ph)) s
    let moving : State := { closed with supervisor := { closed.supervisor with drive := .moving } }
    (∀ s ∈ [seek .leg (inLeg .sled .running 9 closed), seek .acquire (acquiring .wait), seek .recovering closed,
        seek .suspended sagged, carrying .approach moving, inRecovery .refix (carrying .following closed),
        carrying .suspended sagged],
      Takes 0x13 .control s ∧ s.arbiter.waiting = [] ∧ s.supervisor.ident = none ∧
      (liveMotions s).find? (Motion.named .control 7) = s.arbiter.active) ∧
    (Driven (acquiring .wait).spindle ∧ 30 ≤ (acquiring .wait).spindle.measured) ∧
    (∀ s ∈ [carrying .leg (inLeg .fine .running 9 closed), carrying .approach moving, carrying .recovering closed,
        carrying .suspended sagged],
      Takes 0x13 .stream s ∧ s.arbiter.waiting = [] ∧ s.supervisor.ident = none ∧ s.arbiter.attached = some rejoin ∧
      (liveMotions s).find? (Motion.named .stream 8) = some rejoin ∧ s.planner.owner = .attached ∧
      s.planner.acquireStep ≠ .spin) ∧
    (∀ s ∈ [carrying .approach moving, inRecovery .refix (carrying .following closed), carrying .suspended sagged],
      s.arbiter.attached = some rejoin ∧ s.planner.acquireStep ≠ .spin ∧ s.planner.owner = .attached) ∧
    ((inRecovery .refix (carrying .following closed)).supervisor.drive = .recovering ∧ sagged.supervisor.drive = .sagHold) ∧
    (let s := carrying .approach moving
     s.optics.tracking = .closed ∧ lastGood s = some 150000 ∧ s.supervisor.drive = .moving ∧
      (s.zones.decode 150000).access = .opened) ∧
    (let s := withActive { motion .seek (some .verify) with cancelPending := true } (inLeg .fine .landing 9 closed)
     FixComes .stream 150003 .L 11862 s ∧ s.supervisor.drive = .moving ∧ s.recovery.phase = .none ∧
      s.planner.owner = .none ∧ s.planner.acquireStep = .none ∧ s.planner.legStage = .landing ∧
      s.planner.legDisturbed = false) ∧
    (let s := carrying .verify (inLeg .fine .landing 9 closed)
     let s : State := { s with
       arbiter := { s.arbiter with attached := some { rejoin with cancelPending := true } }
       planner := { s.planner with owner := .none } }
     FixComes .stream 150003 .L 11862 s ∧ s.planner.owner = .none ∧ s.planner.legStage = .landing ∧
      s.arbiter.waiting = [] ∧ s.supervisor.ident = none ∧ s.supervisor.drive = .moving ∧ s.optics.focus = .locked ∧
      s.optics.tracking = .closed ∧ (if s.optics.robustGain then 3000 else 1000) < 1001 ∧ 1 ≤ s.recovery.retryCount ∧
      s.recovery.phase = .none) := by
  refine ⟨by decide, by decide, by decide, by decide, by decide, by decide, by decide, by decide⟩

/-- A SEEK that takes the slot in a recovery makes the drive MOVING, and the recovery goes on (R147, R183). -/
theorem test_takeover_in_recovery_moves :
    (match exec (.seek .control 9 150030 1) (inRecovery .refix playing) with
     | .next t => t.supervisor.drive == .moving && t.recovery.phase == .refix
     | _ => false) = true := by decide

/-- So does a REJOIN that takes the slot of its cancelled FOLLOW there (R138, R147). -/
theorem test_rejoin_takes_slot_in_recovery :
    (match exec (.cancel .control 3 7) (inRecovery .refix (carrying .following closed)) with
     | .next t => t.supervisor.drive == .moving && t.recovery.phase == .refix &&
         t.arbiter.active.map Motion.kind == some .rejoin
     | _ => false) = true := by decide

/-- The FOLLOW of a REJOIN cancelled in its recovery says REJOIN as the entry of its return, and once only (R134, R138). -/
theorem test_cancelled_rejoin_says_its_entry :
    let s := inRecovery .return (carrying .following closed)
    (match exec (.cancel .stream 3 8) s with
     | .next t =>
       let u := enterFollowing .return t
       t.arbiter.active.map Motion.rejoinEnded == some true && u.arbiter.active.map Motion.rejoinEnded == some false &&
         (u.port .control).queue.any (fun r => match r with
           | .notice (.following _ _ _ e) _ => e == .rejoin
           | _ => false)
     | _ => false) = true := by decide

/-! ### Addresses, clamp and supply -/

/-- Above the hold address, and at it; in CLV mode, with the basis 64 tracks away. -/
theorem witness_GoodAddressBecomesTheFix :
    held.spindle.mode = .clv ∧
    (64 ≤ ((11862 : Nat) - (11798 : Nat) : Int).natAbs ∧
      Holding { held with spindle := { held.spindle with basis := some 11798 } }) ∧
    Takes 0x20 .stream held ∧ held.supervisor.cls = some .L ∧ Holding held ∧ held.optics.focus = .locked ∧
    held.optics.tracking = .hold ∧ held.optics.holdAddress = some 150000 ∧ held.planner.acquireStep = .none ∧
    fixFresh held = true ∧ held.monitor.expectedBase = some 11862 ∧
    ((150001 : Addr).toNat ≤ DiscClass.L.maxAddress ∧ held.map.predict (150001 : Addr).toNat = some 11862 ∧
      ((11862 : Int) - ((11862 : Nat) + held.monitor.jumpSum)).natAbs ≤ 2 ∧ 150000 < (150001 : Addr).toNat) ∧
    (held.map.predict (150000 : Addr).toNat = some 11862 ∧ (150000 : Addr).toNat ≤ 150000) := by decide

/-- Below the end address, at it, and in a zone that is AVOID. -/
theorem witness_PlayingFollowEndsOrPlaysOn :
    let avoid : State := { playing with zones := { playing.zones with
      entries := playing.zones.entries.set 0 ⟨true, 150003, 0x3FFFFF, .four, .avoid⟩ } }
    (∀ s ∈ [playing, avoid], FixComes .stream 150003 .L 11862 s ∧ OnTrackAtRest s ∧ s.planner.acquireStep = .none ∧
      s.planner.owner = .none ∧ s.arbiter.active = some (motion .follow (some .following)) ∧ s.arbiter.attached = none ∧
      (motion .follow (some .following)).endAddr = some 200000 ∧ s.monitor.expectedBase = some 11862 ∧
      ((11862 : Int) - ((11862 : Nat) + s.monitor.jumpSum)).natAbs ≤ 2) ∧
    (playing.zones.decode 150003).access = .opened ∧ (avoid.zones.decode 150003).access = .avoid ∧
    (motion .follow (some .following)).lastOpen = some 150000 := by decide

theorem witness_OtherReportsAreNoFix :
    let attached : State := { playing with arbiter := { playing.arbiter with
      attached := some { motion .rejoin none with bad := 65535 } } }
    let running := inLeg .fine .running 3 closed
    Takes 0x20 .stream playing ∧ 1 < (2 : Byte).toNat ∧ (1 : Byte).toNat ≤ 1 ∧ fresh.supervisor.cls = none ∧
    Takes 0x20 .stream fresh ∧ Settled fresh ∧ fresh.supervisor.drive ≠ .identifying ∧
    Settled playing ∧ playing.supervisor.drive ≠ .identifying ∧ playing.supervisor.cls = some .L ∧
    DiscClass.L.maxAddress < (310271 : Addr).toNat ∧
    attached.arbiter.attached = some { motion .rejoin none with bad := 65535 } ∧
    playing.arbiter.attached = none ∧ playing.arbiter.active = some (motion .follow (some .following)) ∧
    held.arbiter.attached = none ∧ held.arbiter.active = none ∧
    (Takes 0x20 .stream running ∧ Settled running ∧ running.supervisor.drive ≠ .identifying ∧
      (310270 : Addr).toNat ≤ DiscClass.L.maxAddress ∧ running.planner.legStage = .running) ∧
    (let sag : State := { closed with supervisor := { closed.supervisor with drive := .sagHold, supply := .sag } }
     Takes 0x20 .stream sag ∧ Settled sag ∧ sag.supervisor.cls = some .L ∧ sag.supervisor.drive = .sagHold ∧
      sag.optics.tracking = .closed ∧ activePhase sag ≠ some .suspended) := by decide

/-- Among the emergencies: the sled held still, creeping, in a leg, and homing, paused or not. -/
theorem witness_ClampStateActsByDriveState :
    let released : State := { fresh with supervisor := { fresh.supervisor with drive := .released } }
    Takes 0x30 .mechanism fresh ∧ ((0 : Byte) ≠ 1 ∧ (0 : Byte) ≠ 2) ∧ ((3 : Byte) ≠ 1 ∧ (3 : Byte) ≠ 2) ∧
    (Takes 0x30 .mechanism held ∧ held.supervisor.drive ≠ .empty ∧ held.supervisor.drive ≠ .released ∧ Settled held) ∧
    (Driven held.spindle ∧ 30 ≤ held.spindle.measured ∧ held.sled.state = .idle ∧ closed.sled.state = .creep ∧
      (∀ paused ∈ [false, true], let s : State := { identifying .homing none none none with
          sled := { Sled.reset false with state := .homing, paused := paused } }
        Takes 0x30 .mechanism s ∧ s.supervisor.drive ≠ .empty ∧ s.supervisor.drive ≠ .released ∧ s.sled.state = .homing) ∧
      (let s : State := inLeg .sled .running 20 { playing with sled := { playing.sled with state := .leg } }
       Takes 0x30 .mechanism s ∧ s.supervisor.drive = .moving ∧ s.sled.state = .leg)) ∧
    (fresh.supervisor.drive = .empty ∧ Settled fresh ∧ IdentOpen fresh) ∧
    (Takes 0x30 .mechanism released ∧ released.supervisor.drive = .released ∧ Settled released) := by decide

/-- A sag while playing, in a sled leg, in a recovery and in a RETRACK that waits for its close; its end with focus kept, lost,
found again, and with tracking closed in the hold. -/
theorem witness_SupplyStateSagsAndReturns :
    let lost : State := { sagged with
      optics := { sagged.optics with focus := .lost }, supervisor := { sagged.supervisor with focusLostInSag := true } }
    let found : State := { sagged with supervisor := { sagged.supervisor with focusLostInSag := true } }
    let shut : State := { sagged with optics := { sagged.optics with tracking := .closed } }
    Takes 0x31 .mechanism playing ∧ 1 < (2 : Byte).toNat ∧ (0 : Byte) = playing.supervisor.supply.code ∧
    Settled playing ∧
    (∀ s ∈ [playing, inLeg .sled .running 20 playing, inRecovery .retrack playing, retracking],
      Takes 0x31 .mechanism s ∧ s.supervisor.supply = .normal ∧
      (s.supervisor.drive = .onTrack ∨ s.supervisor.drive = .moving ∨ s.supervisor.drive = .recovering) ∧
      s.arbiter.waiting = [] ∧ s.supervisor.ident = none ∧ ∀ m ∈ liveMotions s, m.cancelPending = false) ∧
    retracking.optics.tracking = .off ∧ retracking.optics.closers = [.recovery] ∧
    (∀ s ∈ [sagged, lost, found, shut], Takes 0x31 .mechanism s ∧ s.supervisor.supply = .sag ∧
      s.supervisor.drive = .sagHold ∧ Settled s ∧ 1 ≤ s.recovery.retryCount ∧ s.spindle.state = .coast ∧
      (s.optics.focus = .locked ∨
        (s.optics.focus ≠ .locked ∧ s.optics.profile ≠ none ∧ s.optics.switch = none))) ∧
    (sagged.optics.tracking = .off ∧ found.optics.tracking ≠ .jump ∧ shut.optics.tracking ≠ .off ∧
      shut.supervisor.focusLostInSag = false) := by decide

/-- In EMPTY; in RELEASING with and without a homing, in BRAKING and in HOMING; and in each stage of an identification, at SAG and at NORMAL: its homing
paused, and one that runs. -/
theorem witness_SupplyStatePausesAndResumes :
    let release : State := { fresh with
      sled := { fresh.sled with state := .homing }, supervisor := { Supervisor.reset with drive := .releasing } }
    let i (st : IdentStage) (sled : SledState) : State := let s := identifying st none none none
      { s with sled := { s.sled with state := sled } }
    let p (st : IdentStage) (sled : SledState) (paused : Bool) (rpm : Nat) : State := let s := i st sled
      { s with
        optics := { s.optics with tracking := .off, profile := some .H }
        sled := { s.sled with paused := paused, position := some 9 }
        spindle := { s.spindle with state := .coast, measured := rpm }
        supervisor := { s.supervisor with supply := .sag, ident := some ⟨.clamp, st, none, none, none, true, false⟩ } }
    let releasing (ph : Phase) : State := withActive (motion .release (some ph)) release
    activePhase (releasing .braking) ≠ some .homing ∧ activePhase (releasing .homing) = some .homing ∧
    (∀ s ∈ [fresh, release, { release with sled := fresh.sled }, releasing .braking, releasing .homing, i .homing .homing, i .positioning .leg,
        i .spinning .creep, i .profileH .creep],
      Takes 0x31 .mechanism s ∧ s.arbiter.waiting = [] ∧ s.planner.acquireStep ≠ .spin ∧
      (1 : Byte) ≠ s.supervisor.supply.code) ∧
    (∀ s ∈ [p .homing .homing true 500, p .homing .homing false 500, p .homing .creep true 500,
        p .positioning .creep false 500, p .spinning .idle false 449,
        p .profileL .idle false 449, p .profileL .idle false 450],
      Takes 0x31 .mechanism s ∧ s.arbiter.waiting = [] ∧ s.planner.acquireStep ≠ .spin ∧
      (0 : Byte) ≠ s.supervisor.supply.code ∧ s.spindle.state = .coast) ∧
    (p .homing .homing true 500).sled.paused = true ∧ (p .homing .homing false 500).sled.paused = false ∧
    (p .homing .creep true 500).sled.state ≠ .homing ∧ (p .homing .creep true 500).sled.homeClosed = false ∧
    (p .positioning .creep false 500).sled.position = some 9 ∧
    (∀ st ∈ [IdentStage.homing, .positioning], (p st .creep true 500).supervisor.ident.map Ident.restart = some false) ∧
    ¬ Within 10 (p .spinning .idle false 449).spindle.measured 500 ∧
    Within 10 (p .profileL .idle false 450).spindle.measured 500 ∧
    (let shut : State := { p .profileL .idle false 450 with optics := (i .profileL .creep).optics }
     Takes 0x31 .mechanism shut ∧ IdentStage.profileL.tries = some .L ∧ shut.optics.focus = .locked ∧
      shut.optics.tracking ≠ .off ∧ shut.supervisor.ident.map Ident.candidate ≠ some (some .L)) := by decide

/-! ### Spindle, faults, searches -/

/-- A state with the spindle in a state at a target of 500 rpm, otherwise as after reset. -/
def spinning (st : SpindleState) : State := { fresh with spindle := { Spindle.reset 500 with
  state := st, mode := .fixed, target := 500, stopLimit := none } }

/-- The bands at their ends: 490 and 510 lie within 2 % of 500, 489 does not; 450 and 550 within 10 %, 449 not; a STOP and a
RELEASE that brake, the home switch open, open in a sag, and closed. -/
theorem witness_ReadingsAndLockTestMoveTheSpindle :
    (∀ st ∈ [SpindleState.stopped, .coast, .spinup, .coarse, .locked, .braking],
      Settled (spinning st) ∧ (spinning st).spindle.state = st ∧
      (spinning st).supervisor.drive ≠ .onTrack ∧ (spinning st).supervisor.drive ≠ .moving ∧
      (spinning st).supervisor.drive ≠ .recovering ∧ (spinning st).supervisor.drive ≠ .parking ∧
      (spinning st).supervisor.drive ≠ .releasing) ∧
    Within 2 490 500 ∧ Within 2 510 500 ∧ ¬ Within 2 489 500 ∧ ¬ Within 2 511 500 ∧
    Within 10 450 500 ∧ Within 10 550 500 ∧ ¬ Within 10 449 500 ∧ ¬ Within 10 551 500 ∧
    30 ≤ min 30 9999 ∧ min 29 9999 < 30 ∧
    (let s := withActive (motion .stop (some .braking)) { spinning .braking with
       supervisor := { Supervisor.reset with drive := .parking } }
     Settled s ∧ s.spindle.state = .braking ∧ s.supervisor.drive = .parking ∧
       s.arbiter.active = some (motion .stop (some .braking)) ∧ (motion .stop (some .braking)).kind = .stop) ∧
    (let s (supply : SupplyState) (home : Bool) : State := withActive (motion .release (some .braking))
       { spinning .braking with
         sled := Sled.reset home, supervisor := { Supervisor.reset with drive := .releasing, supply := supply } }
     (∀ u ∈ [s .normal false, s .sag false, s .normal true],
       Settled u ∧ u.spindle.state = .braking ∧ u.supervisor.drive = .releasing ∧
       u.arbiter.active = some (motion .release (some .braking))) ∧
     (s .normal false).sled.homeClosed = false ∧ (s .sag false).supervisor.supply = .sag ∧
     (s .normal true).sled.homeClosed = true) ∧
    (let s : State := { held with spindle := { held.spindle with state := .coarse, lockTest := some 99900 } }
     let r : State := { s with recovery := { s.recovery with phase := .respin } }
     held.spindle.lockTest = none ∧ s.spindle.lockTest = some 99900 ∧ Settled s ∧ s.recovery.phase ≠ .respin ∧
      r.spindle.lockTest = some 99900 ∧ Settled r ∧ r.recovery.phase = .respin ∧ r.optics.focus = .locked ∧
      r.optics.tracking ≠ .off ∧ r.recovery.refixCount < r.recovery.retryLimit) := by decide

theorem witness_FailuresParkTheDrive :
    let limits : State := { held with spindle := { held.spindle with
      state := .braking, lockLimit := some 98000, stopLimit := some 97000 } }
    let faulted : State := { limits with supervisor := { limits.supervisor with drive := .faulted } }
    let search (r : Requester) : State := { held with
      optics := { held.optics with focus := .search, allowed := 3, attempt := 3, attemptTimer := some 99700, requester := some r }
      planner := { held.planner with acquireStep := .search }
      recovery := { held.recovery with phase := .refocus } }
    let homing : State := { fresh with sled := { fresh.sled with state := .homing, taken := 1999 } }
    limits.spindle.lockLimit = some 98000 ∧ limits.supervisor.drive ≠ .faulted ∧
    limits.spindle.stopLimit = some 97000 ∧ limits.spindle.state = .braking ∧
    faulted.spindle.stopLimit = some 97000 ∧ faulted.supervisor.drive = .faulted ∧ Settled faulted ∧
    ((search .planner).optics.attemptTimer = some 99700 ∧ (search .planner).optics.allowed ≤ (search .planner).optics.attempt ∧
      (search .planner).supervisor.drive ≠ .faulted ∧ (search .planner).optics.requester = some .planner ∧
      (search .planner).planner.acquireStep = .search) ∧
    ((search .recovery).optics.requester = some .recovery ∧ (search .recovery).recovery.phase = .refocus ∧
      (search .recovery).optics.attemptTimer = some 99700) ∧
    (homing.sled.state = .homing ∧ homing.sled.paused = false ∧ homing.sled.stopPending = false ∧
      1999 ≤ homing.sled.taken ∧ homing.supervisor.drive ≠ .faulted) ∧
    (let s := identifying .profileL (some .window) (some .L) (some 500)
     s.supervisor.ident = some ⟨.clamp, .profileL, some .window, some .L, some 500, false, false⟩ ∧
      s.supervisor.drive ≠ .faulted) := by decide

theorem witness_SearchesAndSwitchesComplete :
    let o (r : Option Requester) : Optics := { Optics.reset with
      profile := some .L, focus := .search, allowed := 3, attempt := 2, attemptTimer := some 99700, requester := r }
    let alone : State := { held with optics := o none }
    let acquire : State := { held with optics := o (some .planner), planner := { held.planner with acquireStep := .search } }
    let refocus : State := { held with optics := o (some .recovery), recovery := { held.recovery with phase := .refocus } }
    let switching (q : Option (Requester × Nat)) : State := { fresh with
      optics := { Optics.reset with switch := some (.H, 0), storedSearch := q } }
    held.optics.focus ≠ .search ∧
    (let late : State := { alone with optics := { alone.optics with attemptTimer := some alone.clock } }
     late.optics.focus = .search ∧ 1 < late.optics.attempt ∧ late.optics.attemptTimer = some late.clock) ∧
    (∀ s ∈ [alone, acquire, refocus], s.optics.attempt ≤ 1 ∨ s.optics.attemptTimer ≠ some s.clock) ∧
    (Settled alone ∧ alone.optics.focus = .search ∧ alone.optics.requester = none ∧
      alone.optics.attemptTimer = some 99700 ∧ alone.optics.attempt < alone.optics.allowed) ∧
    (Settled acquire ∧ acquire.optics.focus = .search ∧ acquire.optics.requester = some .planner ∧
      acquire.planner.acquireStep = .search ∧ acquire.optics.tracking = .off) ∧
    (Settled refocus ∧ refocus.optics.focus = .search ∧ refocus.optics.requester = some .recovery ∧
      refocus.recovery.phase = .refocus ∧ refocus.optics.tracking = .off ∧
      refocus.recovery.retrackCount < refocus.recovery.retryLimit) ∧
    ((switching none).optics.switch = some (.H, 0) ∧ Settled (switching none) ∧ (switching none).optics.focus ≠ .locked ∧
      (switching none).optics.storedSearch = none) ∧
    ((switching (some (.supervisor, 3))).optics.switch = some (.H, 0) ∧
      (switching (some (.supervisor, 3))).optics.focus ≠ .locked ∧
      (switching (some (.supervisor, 3))).optics.storedSearch = some (.supervisor, 3)) := by decide

/-! ### Disturbances, jumps, the sled -/

/-- The drive holds; then it moves: a fine leg in its jump, a settle, a landing, a sled leg and an approach. -/
theorem witness_DisturbancesBeginRecovery :
    let rough : State := { held with optics := { held.optics with robustGain := true } }
    (2000 ≤ (if held.optics.robustGain then 5000 else 2000) ∧ 5000 ≤ (if rough.optics.robustGain then 5000 else 2000) ∧
      1000 ≤ (if held.optics.robustGain then 3000 else 1000)) ∧
    (OnTrackAtRest held ∧ held.arbiter.attached = none ∧ held.arbiter.active = none ∧ 1 ≤ held.recovery.retryCount) ∧
    ((if held.optics.robustGain then 5000 else 2000) < 2001 ∧ held.optics.focus = .locked ∧
      held.optics.profile = some .L ∧ held.optics.switch = none) ∧
    ((if held.optics.robustGain then 3000 else 1000) < 1001 ∧ held.optics.tracking = .hold) ∧
    (held.monitor.started = true ∧ held.spindle.state = .locked) ∧
    ¬ Within 10 (min 200 9999) held.spindle.target ∧
    (Takes 0x20 .stream held ∧ held.supervisor.cls = some .L ∧ (150066 : Addr).toNat ≤ DiscClass.L.maxAddress ∧
      held.map.predict (150066 : Addr).toNat = some 11866 ∧ fixFresh held = true ∧
      held.monitor.expectedBase = some 11862 ∧
      2 < ((11866 : Int) - ((11862 : Nat) + held.monitor.jumpSum)).natAbs ∧ activePhase held ≠ some .suspended) ∧
    (let seek (ph : Phase) := withActive (motion .seek (some ph))
     let jump : State := seek .leg (inLeg .fine .running 9 { closed with
       optics := { closed.optics with tracking := .jump, jumpCount := 9 } })
     let sled : State := seek .leg (inLeg .sled .running 20 { closed with
       optics := { closed.optics with tracking := .off }
       sled := { closed.sled with state := .leg, legSteps := 20, requester := some .planner } })
     let settle := seek .settle (inLeg .fine .settling 9 closed)
     let landing := seek .verify (inLeg .fine .landing 9 closed)
     let near := seek .approach { closed with supervisor := { closed.supervisor with drive := .moving } }
     (∀ s ∈ [jump, sled, settle, landing, near], s.supervisor.drive = .moving ∧ s.arbiter.waiting = [] ∧
       s.supervisor.ident = none ∧ (∀ m ∈ liveMotions s, m.cancelPending = false) ∧ 1 ≤ s.recovery.retryCount ∧
       s.recovery.phase = .none ∧
       (if s.optics.robustGain then 5000 else 2000) < 2001 ∧ (if s.optics.robustGain then 3000 else 1000) < 1001 ∧
       s.optics.focus = .locked ∧ s.optics.profile = some .L ∧ s.optics.switch = none ∧ s.spindle.state = .locked ∧
       ¬ Within 10 (min 200 9999) s.spindle.target) ∧
     (∀ s ∈ [settle, landing, near], s.optics.tracking = .closed) ∧
     (monitorRunning landing = true ∧ monitorRunning near = true)) := by decide

theorem witness_JumpsAndClosesComplete :
    let leg := inLeg .fine .running 3 { closed with optics := { closed.optics with
      tracking := .jump, jumpCount := 3, crossings := 2, jumpOrigin := .leg } }
    let back : State := { held with optics := { held.optics with
      tracking := .jump, jumpCount := -1, crossings := 0, jumpOrigin := .hold } }
    let closing (r : Requester) : State := { closed with
      optics := { closed.optics with tracking := .off, closers := [r] }
      planner := { closed.planner with acquireStep := .close }
      recovery := { closed.recovery with phase := .retrack } }
    held.optics.tracking ≠ .jump ∧
    (let early : State := { leg with optics := { leg.optics with crossings := 1 } }
     early.optics.tracking = .jump ∧ Settled early ∧ early.optics.crossings + 1 < early.optics.jumpCount.natAbs) ∧
    (leg.optics.tracking = .jump ∧ Settled leg ∧ leg.optics.jumpCount.natAbs ≤ leg.optics.crossings + 1 ∧
      leg.optics.openPending = false ∧ leg.optics.jumpOrigin = .leg ∧ leg.optics.holdAddress = none ∧
      leg.planner.legStage = .running ∧ leg.planner.legKind = .fine) ∧
    (back.optics.tracking = .jump ∧ Settled back ∧ back.optics.jumpCount.natAbs ≤ back.optics.crossings + 1 ∧
      back.optics.openPending = false ∧ back.optics.jumpOrigin = .hold ∧ back.optics.storedJump = none) ∧
    held.optics.closers = [] ∧
    (∀ r ∈ [Requester.planner, .recovery], (closing r).optics.focus = .locked ∧ (closing r).optics.tracking = .off ∧
      Settled (closing r) ∧ (closing r).optics.closers = [r] ∧ (closing r).planner.acquireStep = .close ∧
      (closing r).recovery.phase = .retrack) ∧
    (let hold : State := { sagged with optics := { sagged.optics with closers := [.recovery] } }
     let pause : State := let s := identifying .profileH (some .closing) none none
       { s with
         optics := { s.optics with tracking := .off, closers := [.supervisor] }
         supervisor := { s.supervisor with ident := some ⟨.clamp, .profileH, some .closing, none, none, true, false⟩ } }
     ∀ s ∈ [hold, pause], s.optics.closers ≠ [] ∧ s.optics.focus = .locked ∧ s.optics.tracking = .off ∧
      s.arbiter.waiting = [] ∧ s.planner.acquireStep ≠ .spin ∧
      (∀ i ∈ s.supervisor.ident.toList, i.paused = true) ∧
      (Requester.planner ∈ s.optics.closers → s.planner.acquireStep ≠ .close) ∧
      (Requester.recovery ∈ s.optics.closers → s.recovery.phase ≠ .retrack)) := by decide

/-- Each disturbance with its count below the retry limit, and at it. -/
theorem witness_DisturbancesRestartRecovery :
    let worn (s : State) : State := { s with recovery := { s.recovery with
      refocusCount := 3, retrackCount := 3, refixCount := 3, respinCount := 3 } }
    let s := inRecovery .refix playing
    let taken : State := { s with supervisor := { s.supervisor with drive := .moving } }
    (taken.supervisor.drive = .moving ∧ s.supervisor.drive = .recovering) ∧
    (∀ r ∈ [s, worn s, taken], r.recovery.phase ≠ .none ∧ Settled r ∧
      (if r.optics.robustGain then 5000 else 2000) < 2001 ∧ (if r.optics.robustGain then 3000 else 1000) < 1001 ∧
      r.optics.focus = .locked ∧ r.optics.profile ≠ none ∧ r.optics.switch = none ∧ r.optics.tracking = .closed ∧
      monitorRunning r = true ∧ r.spindle.state = .locked ∧ ¬ Within 10 (min 0 9999) r.spindle.target) ∧
    s.recovery.refixCount < s.recovery.retryLimit ∧ (worn s).recovery.retryLimit ≤ (worn s).recovery.refixCount := by
  decide

/-- The FOLLOW that played, within reach of its return address and 4 tracks from its resume point; a SEEK within reach of its
target and 4 tracks away; no motion, at its hold copy and with neither address; an internal return that lands. -/
theorem witness_RefixEndsInReturn :
    let play := inRecovery .refix playing
    let resumed : State := { play with monitor := { play.monitor with resume := some 150066 } }
    let seek (g : Nat) : State := let s := inRecovery .refix (withActive (motion .seek (some .verify)) closed)
      { s with planner := { s.planner with target := some g } }
    let alone : State := let s := inRecovery .refix closed
      { s with recovery := { s.recovery with holdCopy := some 150000 } }
    let lost : State := { alone with recovery := { alone.recovery with holdCopy := none, returnAddr := none } }
    let back : State := let s := inRecovery .return (inLeg .fine .landing 2 closed)
      { s with planner := { s.planner with owner := .internal, target := some 150000, sessionLegs := 6 } }
    let taken : State := { seek 150000 with supervisor := { (seek 150000).supervisor with drive := .moving } }
    (taken.supervisor.drive = .moving ∧
      ∀ s ∈ [play, resumed, seek 150000, seek 150066, alone, lost], s.supervisor.drive = .recovering) ∧
    (∀ s ∈ [play, resumed, seek 150000, seek 150066, alone, lost, taken], FixComes .stream 150003 .L 11862 s ∧
      s.planner.acquireStep = .none ∧ s.recovery.phase = .refix ∧ s.planner.legStage = .idle ∧ s.arbiter.attached = none) ∧
    (InReach 150000 150003 ∧ play.recovery.keptPhase = some .following ∧
      (play.zones.decode 150003).access = .opened ∧ (seek 150000).recovery.keptPhase = some .verify) ∧
    (play.map.predict 150066 = some 11866 ∧ CallsForLeg 150066 150003 ((11866 : Nat) - (11862 : Nat) : Int) ∧
      (seek 150066).planner.sessionLegs < 6) ∧
    (alone.recovery.holdCopy = some 150000 ∧ lost.recovery.holdCopy = none ∧ lost.recovery.returnAddr = none) ∧
    (FixComes .stream 150003 .L 11862 back ∧ back.supervisor.drive = .recovering ∧ back.recovery.phase = .return ∧
      back.planner.owner = .internal ∧ back.arbiter.active = none ∧ back.arbiter.attached = none ∧
      back.planner.legDisturbed = false ∧ back.planner.target = some 150000 ∧
      (FixComes .stream 150066 .L 11866 back ∧ CallsForLeg 150000 150066 ((11862 : Nat) - (11866 : Nat) : Int) ∧
        FailsCheck .L ((11862 : Nat) - (11866 : Nat) : Int) back .legBudget)) := by
  refine ⟨by decide, by decide, by decide, by decide, by decide, by decide, by decide, by decide, by decide, by decide,
    by decide, by decide, by decide, by decide, by decide, ?_⟩
  show 6 ≤ 6
  decide

/-- The return target of a FOLLOW: its return address with no resume point, and its resume point. -/
theorem witness_ReturnTarget :
    ReturnTarget (inRecovery .refix playing) 150000 ∧
    ReturnTarget (let s := inRecovery .refix playing
      { s with monitor := { s.monitor with resume := some 150066 } }) 150066 :=
  ⟨.inr ⟨fun r hr => absurd hr (by simp [inRecovery, playing, withActive, closed, held, Monitor.reset]), rfl⟩,
    .inl ⟨rfl, by decide⟩⟩

/-- A leg in its course and at its last step, with focus kept and lost; one cut by a stop, by the switch and at the rail's
end; a homing in its course, home, stopped, and home for a RELEASE; the switch and the creep at rest and at the rail's end; a
step out of place, and in a homing that is paused. -/
theorem witness_SledStepsMoveTheSled :
    let leg (n : Int) (taken x : Nat) (stop : Bool) : State := inLeg .sled .running n { held with
      optics := { held.optics with tracking := .off, holdAddress := none }
      sled := { held.sled with
        state := .leg, legSteps := n, taken := taken, stopPending := stop, requester := some .planner, position := some x } }
    let lost : State := { leg 2 1 9 false with optics := { held.optics with focus := .lost, tracking := .off } }
    let homing (taken : Nat) (stop : Bool) : State := { fresh with
      sled := { fresh.sled with state := .homing, taken := taken, stopPending := stop } }
    let release := withActive (motion .release (some .homing)) { homing 5 false with
      supervisor := { Supervisor.reset with drive := .releasing } }
    (held.sled.state = .idle ∧ closed.sled.state = .creep ∧ fresh.sled.state = .idle ∧ fresh.sled.position = none ∧
      held.sled.position = some 949 ∧ 0 < 949 ∧ held.sled.homeClosed = false) ∧
    (let s : State := { fresh with sled := { fresh.sled with state := .homing, paused := true } }
     s.sled.state = .homing ∧ s.sled.paused = true) ∧
    ((leg (-3) 0 2 false).sled.state = .leg ∧ (leg (-3) 0 2 false).sled.position = some 2 ∧ Settled (leg (-3) 0 2 false) ∧
      (leg (-3) 0 2 false).sled.stopPending = false ∧ ¬ (0 : Int) ≤ -3 ∧ 2 - 1 ≠ 0) ∧
    (∀ s ∈ [leg 2 1 9 false, lost, leg 9 1 9 true, leg 9 1 1799 false, leg (-9) 1 1 false, leg (-9) 1 9 false],
      s.sled.state = .leg ∧ Settled s ∧ s.sled.requester = some .planner ∧ s.planner.legStage = .running ∧
      s.planner.legKind = .sled ∧ s.optics.tracking = .off) ∧
    ((leg 2 1 9 false).sled.legSteps.natAbs ≤ (leg 2 1 9 false).sled.taken + 1 ∧ lost.optics.focus ≠ .locked ∧
      (leg (-9) 1 9 false).sled.homeClosed = false ∧ (leg 9 1 9 true).sled.stopPending = true) ∧
    (∀ s ∈ [homing 1998 false, homing 5 true, release], s.sled.state = .homing ∧ s.sled.paused = false ∧ Settled s) ∧
    ((homing 1998 false).sled.taken + 1 < 2000 ∧ (homing 1998 false).sled.stopPending = false ∧
      (homing 1998 false).supervisor.drive ≠ .releasing ∧ (homing 5 true).sled.stopPending = true ∧
      release.sled.stopPending = false ∧ release.supervisor.drive = .releasing ∧
      release.arbiter.active = some (motion .release (some .homing)) ∧ (motion .release (some .homing)).phase = some .homing) ∧
    (fresh.sled.position = none ∧ held.sled.position = some 949 ∧ 0 < 949 ∧ Settled held) ∧
    (closed.sled.position = some 949 ∧ 949 < 1800 ∧
      (let s : State := { closed with sled := { closed.sled with position := some 1800 } }
       s.sled.state = .creep ∧ s.sled.position = some 1800)) ∧
    held.sled.state ≠ .creep := by decide

/-- The step in progress at a reset leaves the switch open behind it, and the homing that follows looks for the switch
(R98, R103). -/
theorem test_step_after_reset_opens_the_switch :
    let s : State := { held with sled := { Sled.reset true with state := .leg, legSteps := 9, position := some 0 } }
    (match exec (.sledStep false) (resetAll .softReset s) with
     | .next t => t.sled.homeClosed == false && t.sled.position == none && t.sled.state == .idle
     | _ => false) = true := by decide

/-! ### Timers, landings, confirmation -/

theorem witness_TimersRunOut :
    let settle := inLeg .fine .settling 3 closed
    let retrack : State := { closed with recovery := { closed.recovery with phase := .retrack, window := some 99990 } }
    let sag : State := { closed with
      optics := { closed.optics with tracking := .off }
      spindle := { closed.spindle with state := .coast }
      supervisor := { closed.supervisor with drive := .sagHold, supply := .sag, sagTimer := some 97000 } }
    let h := identifying .profileH (some .window) (some .H) (some 500)
    let i : Ident := ⟨.clamp, .profileH, some .window, some .H, some 500, false, false⟩
    let quiet : State := { closed with supervisor := { closed.supervisor with drive := .stopped } }
    let rough : State := { closed with recovery := { closed.recovery with rough := true, roughExit := some 100000 } }
    (settle.planner.legStage = .settling ∧ Settled settle) ∧
    (retrack.recovery.window = some 99990 ∧ retrack.recovery.phase = .retrack ∧ Settled retrack ∧
      retrack.recovery.refixCount < retrack.recovery.retryLimit) ∧
    (sag.supervisor.sagTimer = some 97000 ∧ sag.supervisor.drive = .sagHold ∧ sag.supervisor.ident = none ∧
      Driven sag.spindle ∧ 30 ≤ sag.spindle.measured) ∧
    (h.supervisor.ident = some i ∧ i.stage = .profileH ∧ i.window = some 500 ∧ i.paused = false ∧ i.restart = false ∧
      h.arbiter.waiting = [] ∧ h.planner.acquireStep ≠ .spin ∧ h.optics.profile ≠ some .L) ∧
    (monitorRunning quiet = true ∧ Settled quiet ∧ quiet.supervisor.drive ≠ .onTrack ∧
      quiet.supervisor.drive ≠ .moving ∧ quiet.supervisor.drive ≠ .recovering) ∧
    (rough.recovery.roughExit = some 100000 ∧ Settled rough) := by decide

/-- A fine leg of 5 tracks that lands 2 short of its map, and a full sled leg that lands 256 tracks on. -/
theorem witness_LandingTeachesMapAndTrim :
    let fine : State := let s := inLeg .fine .landing 5 closed
      { s with planner := { s.planner with legDone := true } }
    let sled : State := let s := inLeg .sled .landing 20 closed
      { s with planner := { s.planner with legDone := true } }
    (∀ s ∈ [fine, sled], Takes 0x20 .stream s ∧ s.supervisor.cls = some .L ∧ s.planner.startCoord = some 11862 ∧
      s.supervisor.drive = .moving ∧ Settled s ∧ s.optics.focus = .locked ∧ s.optics.tracking = .closed ∧
      activePhase s ≠ some .suspended ∧ activePhase s ≠ some .following ∧ s.recovery.phase = .none ∧
      s.planner.legStage = .landing ∧ s.planner.legDisturbed = false ∧ s.planner.legDone = true) ∧
    (fine.map.predict (150050 : Addr).toNat = some 11865 ∧ fine.planner.legKind = .fine ∧
      2 ≤ ((11862 : Int) + fine.planner.legCount - 11865).natAbs) ∧
    (fine.map.predict (150066 : Addr).toNat = some 11866 ∧ ((11862 : Int) + fine.planner.legCount - 11866).natAbs < 2) ∧
    (sled.map.predict (154168 : Addr).toNat = some 12118 ∧ sled.planner.legKind = .sled ∧
      256 ≤ ((12118 : Int) - 11862).natAbs ∧ (0 : Int) < 12118 - 11862 ∧ 0 < sled.planner.legCount) ∧
    (sled.map.predict (154160 : Addr).toNat = some 12117 ∧ ((12117 : Int) - 11862).natAbs < 256) := by decide

/-- A SEEK, a FOLLOW and a REJOIN from STOPPED; then the spindle COARSE with focus to find, with focus kept, and with no
profile; then an address while the spindle comes up, with a sled leg left over. -/
theorem witness_AcquireRunsItsSteps :
    let rest : State := { acquiring .none with
      arbiter := Arbiter.reset, control := fresh.control, planner := Planner.reset
      spindle := Spindle.reset 29, supervisor := { held.supervisor with drive := .stopped } }
    let spin (o : Optics) : State := { acquiring .spin with
      optics := o, spindle := { held.spindle with state := .spinup } }
    (rest.supervisor.drive = .stopped ∧ rest.supervisor.supply = .normal ∧ NoMotion rest ∧ Settled rest ∧
      fixFresh rest = false ∧ rest.optics.focus ≠ .locked ∧ rest.spindle.state = .stopped ∧ rest.spindle.target = 0 ∧
      rest.spindle.measured < 30 ∧ Takes 0x10 .control rest ∧ Takes 0x11 .control rest ∧ Takes 0x22 .stream rest ∧
      motionRefusal .seek .control 9 (some (1 : Addr).toNat) none rest = none ∧
      motionRefusal .follow .control 9 (some (1 : Addr).toNat) (endStored none rest) rest = none ∧
      motionRefusal .rejoin .stream 9 (some (1 : Addr).toNat) none rest = none) ∧
    (∀ o ∈ [{ Optics.reset with profile := some .L }, { held.optics with tracking := .off }, Optics.reset],
      (spin o).arbiter.waiting = [] ∧ (spin o).supervisor.ident = none ∧ (spin o).planner.acquireStep = .spin ∧
      (spin o).spindle.state = .spinup ∧ Within 10 (min 256 9999) (spin o).spindle.target ∧
      (spin o).optics.switch = none ∧ (spin o).supervisor.drive ≠ .faulted) ∧
    (let left : State := let s := spin closed.optics
      { s with planner := { s.planner with legKind := .sled, legStage := .landing, startCoord := some 11862 } }
    Takes 0x20 .stream left ∧ left.supervisor.cls = some .L ∧ (150003 : Addr).toNat ≤ DiscClass.L.maxAddress ∧
      left.map.predict (150003 : Addr).toNat = some 11862 ∧ left.arbiter.waiting = [] ∧ left.supervisor.ident = none ∧
      left.optics.focus = .locked ∧ left.optics.tracking = .closed ∧ left.optics.holdAddress = none ∧
      left.planner.legStage = .landing ∧ left.planner.legDisturbed = false ∧ left.planner.startCoord = some 11862 ∧
      (spin closed.optics).planner.legStage = .idle ∧ left.supervisor.drive = .moving ∧ left.recovery.phase = .none ∧
      activePhase left = some .acquire ∧ left.planner.acquireStep = .spin ∧ left.spindle.state = .spinup) := by decide

/-- An address before ACQUIRE's last step is the landing of a sled leg left over, and ACQUIRE waits on (R39, R52). -/
theorem test_leg_left_over_lands_in_acquire :
    let s : State := { acquiring .spin with
      optics := closed.optics, spindle := { held.spindle with state := .spinup }
      planner := { (acquiring .spin).planner with legKind := .sled, legStage := .landing, startCoord := some 11862 } }
    (match exec (.addressReport .stream 9 150003 0) s with
     | .next t => t.planner.legStage == .idle && t.planner.acquireStep == .spin && decide (t.spindle = s.spindle) &&
         lastGood t == some 150003
     | _ => false) = true := by decide

/-- The first address of ACQUIRE, a landing and an address in APPROACH, for a SEEK, a FOLLOW and an attached REJOIN: within
reach of the target; legs of 4 tracks, of −1 and by sled; an approach; and the three checks failed. -/
theorem witness_PlansReachOrEndMotions :
    let wait : State := let s := acquiring .wait
      { s with optics := closed.optics }
    let near (m : Motion) (legs : Nat) : State := withActive m { closed with
      planner := { closed.planner with owner := .active, target := some 150000, sessionLegs := legs }
      supervisor := { closed.supervisor with drive := .moving } }
    let landing : State := let s := withActive (motion .follow (some .verify)) (inLeg .fine .landing 2 closed)
      { s with planner := { s.planner with owner := .active, target := some 150000 } }
    let rejoining : State := carrying .approach { closed with supervisor := { closed.supervisor with drive := .moving } }
    let far : State := { near (motion .seek (some .approach)) 0 with sled := { closed.sled with position := none } }
    (∀ s ∈ [wait, near (motion .seek (some .approach)) 0, near (motion .seek (some .approach)) 6, landing, rejoining],
      FixComes .stream 150003 .L 11862 s ∧ s.supervisor.drive = .moving ∧ s.recovery.phase = .none) ∧
    (wait.planner.acquireStep = .wait ∧ wait.planner.legStage = .idle ∧ wait.planner.target = some 150000 ∧
      wait.planner.owner = .active ∧ wait.arbiter.attached = none) ∧
    (landing.planner.legStage = .landing ∧ landing.planner.legDisturbed = false ∧ landing.planner.acquireStep = .none) ∧
    (rejoining.planner.owner = .attached ∧ rejoining.arbiter.attached = some rejoin ∧ rejoining.planner.legStage = .idle ∧
      rejoining.planner.target = some 150050 ∧ FixComes .stream 150051 .L 11865 rejoining ∧ InReach 150050 150051) ∧
    (let s := near (motion .seek (some .approach)) 6
     FixComes .stream 150066 .L 11866 s ∧ s.map.predict 150000 = some 11862 ∧
      CallsForLeg 150000 150066 ((11862 : Nat) - (11866 : Nat) : Int) ∧ 6 ≤ s.planner.sessionLegs) ∧
    (FixComes .stream 160000 .L 12475 far ∧ CallsForLeg 150000 160000 ((11862 : Nat) - (12475 : Nat) : Int) ∧
      far.planner.sessionLegs < 6 ∧ 64 < ((11862 : Nat) - (12475 : Nat) : Int).natAbs ∧ far.sled.position = none) ∧
    (let s := near (motion .seek (some .approach)) 0
     FixComes .stream 160000 .L 12475 s ∧ s.planner.sessionSled < 3 ∧ s.sled.state = .creep ∧
      s.sled.position = some 949 ∧ railSteps .L ((11862 : Nat) - (12475 : Nat) : Int) s.planner.trim 949 = 49) ∧
    (let s := near (motion .seek (some .approach)) 0
     FixComes .stream 149990 .L 11862 s ∧ CallsForApproach 150000 149990 ((11862 : Nat) - (11862 : Nat) : Int)) ∧
    (let s := near (motion .seek (some .approach)) 5
     let s : State := { s with planner := { s.planner with target := some 300003 } }
     FixComes .stream 300020 .L 20096 s ∧ s.planner.sessionLegs < 6 ∧ s.map.predict 300003 = some 20096 ∧
      CallsForLeg 300003 300020 ((20096 : Nat) - (20096 : Nat) : Int)) ∧
    (FixComes .stream 150003 .L 11862 rejoining ∧ rejoining.map.predict 150050 = some 11865 ∧
      CallsForLeg 150050 150003 ((11865 : Nat) - (11862 : Nat) : Int) ∧ rejoining.planner.sessionLegs < 6 ∧
      FixComes .stream 150040 .L 11865 rejoining ∧
      CallsForApproach 150050 150040 ((11865 : Nat) - (11865 : Nat) : Int)) := by
  refine ⟨by decide, by decide, by decide, by decide, by decide, by decide, by decide, by decide, by decide, by decide⟩

/-- One state for each stage: homing; positioning, full and cut; spinning; the steps of a try of each profile. -/
theorem witness_IdentificationRunsItsStages :
    let i (st : IdentStage) (step : Option ProfileStep) : Ident := ⟨.clamp, st, step, none, none, false, false⟩
    let homing : State := let s := identifying .homing none none none
      { s with sled := { Sled.reset false with state := .homing } }
    let leg (n : Int) (taken : Nat) : State := let s := identifying .positioning none none none
      { s with
        sled := { s.sled with state := .leg, legSteps := n, taken := taken, requester := some .supervisor, position := some 149 }
        spindle := Spindle.reset 0 }
    let spin : State := let s := identifying .spinning none none none
      { s with spindle := { s.spindle with state := .spinup } }
    let step (st : IdentStage) (step : ProfileStep) (o : Optics) : State := let s := identifying st (some step) none none
      { s with optics := { o with profile := o.profile <|> if o.switch = none then some .H else none } }
    let search : Optics := { Optics.reset with
      focus := .search, attempt := 1, attemptTimer := some 0, requester := some .supervisor }
    let close : Optics := { Optics.reset with focus := .locked, closers := [.supervisor] }
    (Identifies (i .homing none) homing ∧ homing.sled.paused = false ∧ homing.sled.stopPending = false) ∧
    (∀ s ∈ [leg 1 0, leg (-9) 0], Identifies (i .positioning none) s ∧ s.sled.state = .leg ∧
      s.sled.position = some 149 ∧ s.sled.requester = some .supervisor) ∧
    ((leg 1 0).sled.legSteps.natAbs ≤ (leg 1 0).sled.taken + 1 ∧ (leg 1 0).spindle.state = .stopped ∧
      (leg 1 0).spindle.target = 0 ∧ ¬ Within 10 (leg 1 0).spindle.measured 500 ∧
      (leg (-9) 0).sled.homeClosed = false ∧ (leg (-9) 0).sled.taken + 1 < (leg (-9) 0).sled.legSteps.natAbs) ∧
    (Identifies (i .spinning none) spin ∧ spin.spindle.state = .spinup ∧ Within 10 (min 450 9999) spin.spindle.target ∧
      spin.optics.profile ≠ some .H) ∧
    (∀ st ∈ [IdentStage.profileH, .profileL],
      Identifies (i st (some .switching)) (step st .switching { Optics.reset with switch := some (.H, 0) }) ∧
      (step st .switching { Optics.reset with switch := some (.H, 0) }).optics.storedSearch = none ∧
      Identifies (i st (some .searching)) (step st .searching search) ∧
      (step st .searching search).optics.allowed ≤ (step st .searching search).optics.attempt ∧
      (step st .searching search).optics.profile = some .H ∧
      Identifies (i st (some .closing)) (step st .closing close) ∧
      (step st .closing close).optics.closers = [.supervisor] ∧ (step st .closing close).optics.tracking = .off ∧
      (if (step st .closing close).optics.robustGain then 5000 else 2000) < 2001) := by
  refine ⟨by decide, by decide, by decide, by decide, by decide⟩

/-- No map; a map of the class that has learned; and the map of the other class. -/
theorem witness_ConfirmingAddressIdentifiesTheDisc :
    let learned : PosMap := { PosMap.seeded .H with
      records := [⟨0, 0, .seed, 0⟩, ⟨500, 20, .learned, 1⟩, ⟨2293830, 45946, .seed, 0⟩], counter := 2 }
    let s := identifying .profileH (some .window) (some .H) (some 499)
    let i : Ident := ⟨.clamp, .profileH, some .window, some .H, some 499, false, false⟩
    Takes 0x20 .stream s ∧ s.supervisor.drive = .identifying ∧ s.supervisor.ident = some i ∧ i.paused = false ∧
    i.step = some .window ∧ i.candidate = some .H ∧ (2293830 : Addr).toNat ≤ DiscClass.H.maxAddress ∧
    s.map.records = [] ∧ (PosMap.seeded .H).predict (2293830 : Addr).toNat = some 45946 ∧ s.optics.focus = .locked ∧
    s.optics.tracking = .closed ∧ s.planner.legStage = .idle ∧ s.planner.acquireStep ≠ .spin ∧ NoMotion s ∧
    (learned.records ≠ [] ∧ learned.cls = some .H ∧ learned.predict (2293830 : Addr).toNat = some 45946) ∧
    ((PosMap.seeded .L).records ≠ [] ∧ (PosMap.seeded .L).cls ≠ some .H) := by decide

/-! ### One step each, the expected values from the worked sequences of the manual -/

/-- The state after a command. -/
def after (c : Instr) (s : State) : State :=
  match exec c s with
  | .next t => t
  | _ => s

/-- Section 1.4: three predictions. -/
theorem test_predictions :
    (PosMap.seeded .L).predict 119622 = some 10000 ∧ (PosMap.seeded .L).predict 150000 = some 11862 ∧
    (PosMap.seeded .H).predict 1000000 = some 24561 := by decide

/-- The map that the worked seek leaves (section 1.5). -/
def learnedMap : PosMap where
  records := [⟨0, 0, .seed, 0⟩, ⟨52561, 5000, .seed, 0⟩, ⟨119622, 10000, .seed, 0⟩, ⟨149952, 11862, .learned, 1⟩,
    ⟨201183, 15000, .seed, 0⟩, ⟨310270, 20625, .seed, 0⟩]
  cls := some .L
  counter := 2

/-- Section 1.5, displacement: the table after the import and its reply. -/
theorem test_mapImport_displaces :
    let t := after (.mapImport .control 4 160000 9500) { held with map := learnedMap }
    t.map.records = [⟨0, 0, .seed, 0⟩, ⟨52561, 5000, .seed, 0⟩, ⟨160000, 9500, .imported, 2⟩, ⟨201183, 15000, .seed, 0⟩,
      ⟨310270, 20625, .seed, 0⟩] ∧ t.map.counter = 3 ∧ t.map.predict 150000 = some 9081 ∧
    t.control.reply = some ⟨.accepted, 4, [0, 2, 0xFF, 0xFF, 0xFF, 0, 0, 0, 2, 5]⟩ := by decide

/-- The zone table of the decode example (section 2.2). -/
def zones : ZoneTable := { ZoneTable.reset with entries :=
  ⟨true, 245760, 4177920, .four, .avoid⟩ :: ⟨true, 131072, 4128768, .one, .opened⟩ ::
  ⟨true, 65536, 65536, .two, .opened⟩ :: List.replicate 5 ZoneEntry.reset }

/-- Section 2.2: addresses of the decode example. -/
theorem test_decode_example :
    zones.decode 40000 = ⟨.default, .four, .opened⟩ ∧ zones.decode 100000 = ⟨.entry 2, .two, .opened⟩ ∧
    zones.decode 150000 = ⟨.entry 1, .one, .opened⟩ ∧ zones.decode 200000 = ⟨.entry 2, .two, .opened⟩ ∧
    zones.decode 250000 = ⟨.entry 0, .four, .avoid⟩ := by decide

/-- Section 3.11, the start: holding at 52,561 at 2×, the sled at 550, the counter at 1. -/
def seekStart : State := { held with
  monitor := { held.monitor with fix := some ⟨52561, 5000, 0, .default, true⟩, expectedBase := some 5000 }
  optics := { held.optics with holdAddress := some 52561 }
  sled := { held.sled with position := some 550 }
  spindle := { held.spindle with basis := some 5000, held := .two, m := .two, target := 752, measured := 752 } }

/-- Section 3.11, first plan: a sled leg of 549 steps, D = 6,862, the target 565 rpm. -/
theorem test_seek_firstPlan :
    let t := after (.seek .control 17 150000 2) seekStart
    t.sled.legSteps = 549 ∧ t.planner.distance = some 6862 ∧ t.planner.targetCoord = some 11862 ∧
    t.spindle.target = 565 ∧ t.supervisor.drive = .moving := by decide

/-- Section 3.11 at a landing: the leg, its count, its start, the sled position, the trim and the legs so far. -/
def landing (k : LegKind) (count : Int) (start sled trim legs sledLegs : Nat) (map : PosMap) : State :=
  withActive { motion .seek (some .verify) with speed := some .two, legs := legs } { seekStart with
    map := map
    planner := { Planner.reset with
      owner := .active, target := some 150000, targetCoord := some 11862, startCoord := some start, distance := some 0
      legKind := k, legCount := count, legStage := .landing, legDone := true, sessionLegs := legs
      sessionSled := sledLegs, trim := trim }
    monitor := { seekStart.monitor with fix := some ⟨52561, 5000, 0, .default, false⟩ }
    optics := { closed.optics with tracking := .closed }
    sled := { seekStart.sled with position := some sled, state := .creep }
    spindle := { seekStart.spindle with basis := some 11862, target := 565, measured := 565 }
    supervisor := { seekStart.supervisor with drive := .moving } }

/-- Section 3.11, first and second landing: the trim 4,061 and a sled leg of 19 steps, then a fine leg of 36. -/
theorem test_addressReport_sledLandings :
    (let t := after (.addressReport .stream 0 146210 0) (landing .sled 549 5000 1099 4096 1 1 (PosMap.seeded .L))
     t.planner.trim = 4061 ∧ t.sled.legSteps = 19 ∧ t.planner.sessionLegs = 2) ∧
    (let t := after (.addressReport .stream 0 149400 0) (landing .sled 19 11630 1118 4061 2 2 (PosMap.seeded .L))
     t.planner.trim = 4061 ∧ t.planner.legKind = .fine ∧ t.optics.jumpCount = 36) := by decide

/-- Section 3.11, third landing: the map learns (149,952, 11,862), a fine leg of 3 begins, the target drops to 564 rpm. -/
theorem test_addressReport_fineLanding :
    let s := landing .fine 36 11826 1118 4061 3 2 { PosMap.seeded .L with counter := 1 }
    let t := after (.addressReport .stream 0 149952 0) s
    t.map = learnedMap ∧ t.optics.jumpCount = 3 ∧ t.spindle.target = 564 := by decide

/-- Section 3.12: the trim 4,095, and the second sled leg fails at the outer stop with SLED_LIMIT. -/
theorem test_outerStop :
    newTrim .H 4096 10 270 = 4095 ∧ sledSteps .H 4096 2000 = 74 ∧ shortened 1790 2000 74 = 10 ∧
    sledSteps .H 4095 1730 = 64 ∧ shortened 1800 1730 64 = 0 := by decide

/-- Section 4.8: the targets of 4×, 2× and 1× at coordinate 20,000 of class H. -/
theorem test_clv_targets :
    clvTarget .H .four 20000 = (3436, false) ∧ clvTarget .H .two 20000 = (1718, false) ∧
    clvTarget .H .one 20000 = (859, false) := by decide

/-- Section 4.8: 944 is within 10 % of 859 and not within 2 %; 876 is within both. -/
theorem test_tachometerReading_bands :
    let s (st : SpindleState) : State := { held with
      spindle := { held.spindle with state := st, target := 859 }, supervisor := { held.supervisor with drive := .stopped } }
    (after (.tachometerReading 944) (s .spinup)).spindle.state = .coarse ∧
    (after (.tachometerReading 944) (s .spinup)).spindle.lockTest = none ∧
    (after (.tachometerReading 945) (s .spinup)).spindle.state = .spinup ∧
    (after (.tachometerReading 876) (s .coarse)).spindle.lockTest = some 100000 := by decide

/-- Section 5.12: an address above the hold address starts a jump of −1, and its crossing ends it. -/
theorem test_hold_backJump :
    let t := after (.addressReport .stream 0 150001 0) held
    t.optics.tracking = .jump ∧ t.optics.jumpCount = -1 ∧ t.optics.holdAddress = some 150000 ∧
    (after .trackCrossing t).optics.tracking = .hold ∧ (after .trackCrossing t).monitor.jumpSum = -1 := by decide

/-- Section 5.12: the drop opens tracking and begins REFOCUS; the attempt timer begins attempt 2, and the capture of the
failed attempt is discarded; a capture of the new sweep begins RETRACK; the close puts the sled in CREEP. -/
theorem test_shock_while_holding :
    let a := after (.focusDrop 2001) held
    let b := after .attemptTimerExpiry a
    let c := after .focusCapture (passTime 1 b)
    let d := after .trackingClosed c
    after .focusCapture b = b ∧
    a.recovery.phase = .refocus ∧ a.optics.focus = .search ∧ a.optics.allowed = 3 ∧ a.optics.holdAddress = none ∧
    b.optics.attempt = 2 ∧ c.recovery.phase = .retrack ∧ c.optics.focus = .locked ∧
    d.optics.tracking = .closed ∧ d.sled.state = .creep := by decide

/-- R90, R91, R102: a sag finds tracking OFF in RETRACK, and its close goes on: CLOSED in SAG_HOLD, where an excursion opens
nothing, and the window of RETRACK runs at once when the supply is back. -/
theorem test_close_goes_on_in_sag :
    let a := after (.supplyState .mechanism 5 1) retracking
    let b := after .trackingClosed a
    let c := after (.supplyState .mechanism 6 0) (listening b)
    a.supervisor.drive = .sagHold ∧ a.optics = retracking.optics ∧ a.recovery.phase = .none ∧
    b.optics.tracking = .closed ∧ b.sled.state = .creep ∧ b.supervisor = a.supervisor ∧ b.recovery = a.recovery ∧
    after (.offTrack 1001) b = b ∧ c.recovery.phase = .retrack ∧ c.recovery.window = some c.clock := by decide

/-- R159: in SAG_HOLD a GOOD report is IGNORED (4), though tracking is CLOSED and no motion is active. -/
theorem test_goodReport_in_sagHold :
    let s : State := { closed with supervisor := { closed.supervisor with drive := .sagHold, supply := .sag } }
    (after (.addressReport .stream 9 150003 0) s).stream.reply = some ⟨.accepted, 9, [4]⟩ ∧
    (after (.addressReport .stream 9 150003 0) s).monitor = s.monitor := by decide

/-- Section 5.13: a threshold at 1,799 and at 1,800, and an excursion that ends the creep. -/
theorem test_creep_outerStop :
    let s (x : Nat) : State := { playing with sled := { playing.sled with position := some x } }
    (after .creepThreshold (s 1799)).sled.position = some 1800 ∧ (after .creepThreshold (s 1800)).sled = (s 1800).sled ∧
    (after (.offTrack 1001) (s 1800)).sled.state = .idle ∧ (after (.offTrack 1001) (s 1800)).optics.tracking = .off := by
  decide

/-- R98: 2,000 steps without the switch are HOME_FAILED; a step that closes it is home. -/
theorem test_homing :
    let s : State := { fresh with sled := { fresh.sled with state := .homing, taken := 1999 } }
    (after (.sledStep false) s).supervisor.drive = .faulted ∧ (after (.sledStep true) s).sled.position = some 0 := by decide

/-- R148, R151: CLAMPED in EMPTY starts an identification at HOMING. -/
theorem test_clampState_starts :
    let t := after (.clampState .mechanism 2 1) fresh
    t.supervisor.drive = .identifying ∧ t.sled.state = .homing ∧ t.mechanism.reply = some ⟨.accepted, 2, [1, 0, 1]⟩ := by
  decide

/-- R100, R151: at step 150 the leg of 0 steps is stored and full at once. -/
theorem test_leg_of_no_steps :
    let t := after (.clampState .mechanism 2 1)
      { fresh with sled := { fresh.sled with position := some 150, legSteps := 12, taken := 5 } }
    t.sled.legSteps = 0 ∧ t.sled.taken = 0 ∧ t.sled.state = .idle ∧
      t.supervisor.ident.map Ident.stage = some .spinning := by decide

/-- R128, R163: a RELEASE during play. -/
theorem test_release_preempts :
    let t := after (.release .mechanism 3) playing
    t.supervisor.drive = .releasing ∧ t.spindle.state = .braking ∧ t.arbiter.releaseLatch = true ∧
    completionsIn t.control.queue = [⟨7, .follow, .preempted .release, some 150000, 0, 0⟩] := by decide

/-- R200: the end of the reply that read the last entry starts the holdoff; its expiry makes the line QUIET. -/
theorem test_report_read :
    let t := after (.replyComplete .control) (after (.readReport .control 1) fresh)
    t.control.queue = [] ∧ t.control.attention = .holdoff ∧ t.control.holdoffLeft = 10 ∧
    (after (.holdoffExpiry .control) t).control.attention = .quiet := by decide

/-- R202: SOFT RESET acts at the end of its reply, and its port waits in BLOCKED for the select line. -/
theorem test_softReset :
    let t := after (.softReset .control 1) held
    t.supervisor.drive = .onTrack ∧ (after (.replyComplete .control) t).supervisor.drive = .empty ∧
    (after (.replyComplete .control) t).control.decoder = .blocked ∧
    (after (.selectRelease .control) t).control.decoder = .idle := by decide

/-- R186 to R188: STOP is answered behind a turnaround byte of 0xFF; its frame is clocked bit by bit, and a byte cut short
is discarded. -/
theorem test_turnaround :
    let t := after (.stop .control 3) fresh
    t.control.decoder = .turnaround ∧ dataOut t.control = [0xFF] ∧
    dataOut t.control.turnaroundEnds = [0x00, 3, 5, 3, 0xFF, 0xFF, 0xFF, 0xFF, 0xF9] ∧
    received (clocks 0x12 ++ clocks 0x03 ++ [true, false]) = [0x12, 0x03] := by decide

/-- R44: a SEEK one address past the reach of the fix approaches with tracking CLOSED, so that the address can rise. -/
theorem test_approach_ends_hold :
    let t := after (.seek .control 9 150005 2) held
    activePhase t = some .approach ∧ t.optics.tracking = .closed ∧ t.optics.holdAddress = none ∧
    (after (.addressReport .stream 0 150002 0) (listening t)).optics.tracking = .closed := by decide

/-- R50, R51, R59: a sled leg stopped in REFOCUS ends cut and settles, focus not LOCKED. -/
theorem test_cut_leg_settles :
    let s := inLeg .sled .running 9 { held with
      optics := { held.optics with focus := .search, tracking := .off, holdAddress := none }
      sled := { held.sled with state := .leg, legSteps := 9, stopPending := true, requester := some .planner } }
    let t := after (.sledStep false) s
    t.planner.legStage = .settling ∧ t.planner.legDone = false ∧ t.optics.closers = [] := by decide

/-- R156: a fault that parks the drive ends the profile switch that an identification commanded. -/
theorem test_fault_ends_switch :
    let s := identifying .profileL (some .switching) none none
    let t := after .lockLimitExpiry { s with
      optics := { Optics.reset with switch := some (.L, 0) }
      spindle := { s.spindle with state := .spinup, lockLimit := some 0 } }
    t.supervisor.drive = .faulted ∧ t.supervisor.ident = none ∧ t.optics.switch = none ∧ t.optics.profile = none := by decide

/-- R163, R164: below 30 rpm a RELEASE goes on to its homing, paused at once in a sag. -/
theorem test_release_homes_in_sag :
    let t := after (.tachometerReading 29) (withActive (motion .release (some .braking)) { spinning .braking with
      supervisor := { Supervisor.reset with drive := .releasing, supply := .sag } })
    t.arbiter.active = some (motion .release (some .homing)) ∧ t.sled.state = .homing ∧ t.sled.paused = true := by decide

/-- R99, R164: a sag during BRAKING leaves the stopped homing of an abandoned identification alone; its step ends and reads the
switch, and the homing command then finds the sled at home. -/
theorem test_sag_in_release_braking :
    let s : State := withActive (motion .release (some .braking)) { spinning .braking with
      sled := { (spinning .braking).sled with state := .homing, stopPending := true, requester := some .supervisor }
      supervisor := { Supervisor.reset with drive := .releasing } }
    let a := after (.supplyState .mechanism 5 1) s
    let b := after (.sledStep true) a
    let c := after (.tachometerReading 29) b
    a.sled = s.sled ∧ a.spindle = s.spindle ∧ b.sled.state = .idle ∧ b.sled.homeClosed = true ∧
    c.supervisor.drive = .released ∧ c.sled.position = some 0 := by decide

/-- R62: a STOP begins a session with both counters 0. -/
theorem test_stop_session :
    let t := after (.stop .control 3) { held with planner := { held.planner with sessionLegs := 4, sessionSled := 2 } }
    t.planner.sessionLegs = 0 ∧ t.planner.sessionSled = 0 := by decide

end Sys2Proof.Tests
end

section
/-! What every command keeps: the relation `Safe` of Sys2Proof/Laws/Safe.lean holds from a state to the one a command, and
a step, answers. -/

namespace Sys2Proof.Proofs

set_option Elab.async false

open Sys2Proof.Machine Sys2Proof.Safety Sys2Proof.Laws

variable {s t : State}

/-! ### Requests -/

theorem firstFailure_cons_none {x : Option Status} {rest : List (Option Status)} :
    firstFailure (x :: rest) = none ↔ x = none ∧ firstFailure rest = none := by
  cases x <;> simp [firstFailure]

/-- A motion request keeps every predicate, when its checks begin with the ticket check (R124, R125). -/
theorem requestMotion_safe {m : Motion} {rest : List (Option Status)} (s : State) :
    Safe s (requestMotion m (firstFailure (ticketCheck m.port m.tag s :: rest)) s).1 := by
  unfold requestMotion
  split
  · exact Safe.refl s
  · rename_i hnone
    exact (accept_safe (Safe.refl s) (firstFailure_cons_none.1 hnone).1).react

theorem cancel_safe (p : Port) (which : Byte) (s : State) : Safe s (requestCancel p which s).1 := by
  unfold requestCancel
  dsimp only
  split
  · exact ((Safe.refl s).keeps (Keeps.refl s).cancel).react
  · exact Safe.refl s

theorem readHead_safe (p : Port) (s : State) : Safe s (readHead p s).1 := by
  unfold readHead
  split
  · exact Safe.refl s
  · exact (Safe.refl s).setPort fun ⟨hkinds, hline, _⟩ => ⟨hkinds, hline, fun hrenewed => by cases hrenewed⟩

theorem writeZone_safe {i en : Byte} {b k : Addr} {c a : Byte} (s : State) : Safe s (writeZone i en b k c a s).1 := by
  unfold writeZone
  split
  · exact Safe.refl s
  · split
    · exact Safe.refl s
    · exact ((Safe.refl s).zoneRewritten (List.length_set ..)).react

theorem writeDefaultZone_safe (c : Byte) (s : State) : Safe s (writeDefaultZone c s).1 := by
  have hzones : Safe s (zoneRewritten (s.setZones { s.zones with defaultCap := clampSpeed c })) :=
    (Safe.refl s).zoneRewritten rfl
  exact hzones.react

theorem importRecord_safe (a : Addr) (c : BitVec 16) (s : State) : Safe s (importRecord a c s).1 := by
  unfold importRecord
  split
  · exact Safe.refl s
  · split
    · exact Safe.refl s
    · split
      · exact Safe.refl s
      · rename_i hi
        exact (Safe.refl s).keeps ((Keeps.refl s).inserted (by decide) hi)

theorem reportAddress_safe (a : Addr) (f : Byte) (s : State) : Safe s (reportAddress a f s).1 := by
  unfold reportAddress
  split
  · exact Safe.refl s
  · exact ((Safe.refl s).keeps (Keeps.refl s).judge).react

theorem resumeAt_safe (a : Option Addr) (s : State) : Safe s (resumeAt a s).1 := by
  unfold resumeAt
  split
  · exact Safe.refl s
  · exact (Safe.refl s).keeps (Keeps.refl s).monitor

theorem requestClamp_safe (v : Byte) (s : State) : Safe s (requestClamp v s).1 := by
  unfold requestClamp
  split
  · exact Safe.refl s
  · exact (Safe.refl s).clampReport.react

theorem requestSupply_safe (v : Byte) (s : State) : Safe s (requestSupply v s).1 := by
  unfold requestSupply
  split
  · exact Safe.refl s
  · exact (Safe.refl s).supplyReport.react

/-- What the owner of a request does to the state keeps every predicate. -/
theorem ownerOf_safe (i : Instr) (s : State) : Safe s (ownerOf i s).1 := by
  cases i with
  | readReport p tag => exact readHead_safe p s
  | setNoticeMask p tag m => exact (Safe.refl s).setPort id
  | setHoldoff p tag v => exact (Safe.refl s).setPort id
  | softReset p tag => exact (Safe.refl s).setPort id
  | seek p tag t v => exact requestMotion_safe s
  | follow p tag t v e => exact requestMotion_safe s
  | stop p tag => exact requestMotion_safe s
  | rejoin p tag t => exact requestMotion_safe s
  | release p tag => exact requestMotion_safe s
  | cancel p tag w => exact cancel_safe p w s
  | setZone p tag i en b m c a => exact writeZone_safe s
  | setDefaultZone p tag c => exact writeDefaultZone_safe c s
  | mapImport p tag a c => exact importRecord_safe a c s
  | recoverySettings p tag r t => exact (Safe.refl s).newSettings
  | clearFault p tag => exact (Safe.refl s).keeps (Keeps.refl s).clearFault
  | addressReport p tag a f => exact reportAddress_safe a f s
  | resumeAt p tag a => exact resumeAt_safe a s
  | clampState p tag v => exact requestClamp_safe v s
  | supplyState p tag v => exact requestSupply_safe v s
  | _ => exact Safe.refl s

theorem serve_safe {code : Byte} {p : Port} {tag : Byte} {owner : State → State × Status × List Byte}
    (howner : Safe s (owner s).1) (h : serve code p tag s owner = .next t) : Safe s t := by
  unfold serve at h
  split at h
  · cases h
    exact Safe.refl s
  · split at h
    · cases h
      exact (Safe.refl s).answer
    · cases h
      exact howner.answer

theorem exec_request_safe {i : Instr} {p : Port} {tag : Byte} (hi : requestPortTag i = some (p, tag))
    (h : exec i s = .next t) : Safe s t := by
  obtain ⟨k, hk⟩ := requestKind_of_port hi
  rw [exec_request hi hk] at h
  exact serve_safe (ownerOf_safe i s) h

/-! ### Events of the link -/

/-- A move of the frame decoder, with its reply, stands in no predicate. -/
theorem decoder_safe (p : Port) (d : Decoder) (r : Option Reply) (s : State) :
    Safe s (s.setPort p { s.port p with decoder := d, reply := r }) := (Safe.refl s).setPort id

/-- A raw frame is refused, or runs as the request it spells (R189; entry 8). -/
theorem execUnknownKind_safe {p : Port} {f : List Byte} (h : execUnknownKind p f s = .next t) : Safe s t := by
  unfold execUnknownKind at h
  split at h
  · cases h
    exact Safe.refl s
  · split at h
    · cases h
      exact (Safe.refl s).answer
    · rename_i i hi
      obtain ⟨_, tag, _, _, _, hport, _⟩ := decodeFrame_ok hi
      rw [execRequest_eq hport] at h
      exact exec_request_safe hport h

/-- A rise of the select line undoes an unfinished read, a renewed head with it (R188, R198). -/
theorem released_queue (p : PortState) (h : QueueOk p) : QueueOk p.released := by
  obtain ⟨hkinds, hline, _⟩ := h
  exact ⟨hkinds, hline, fun hrenewed => by cases hrenewed⟩

theorem execReplyComplete_safe {p : Port} (h : execReplyComplete p s = .next t) : Safe s t := by
  unfold execReplyComplete at h
  dsimp only at h
  split at h
  · cases h
    have hturn : Safe s (s.setPort p (s.port p).turnaroundEnds) := (Safe.refl s).setPort id
    exact (hturn.endReport.trans (decoder_safe p .finished none _)).softResetDue
  · cases h
    exact Safe.refl s

theorem execHoldoffExpiry_safe {p : Port} (h : execHoldoffExpiry p s = .next t) : Safe s t := by
  unfold execHoldoffExpiry at h
  split at h
  · cases h
    exact (Safe.refl s).passTime.holdoffEnds
  · cases h
    exact Safe.refl s

/-! ### Events of the optical loops -/

theorem execProfileSwitchComplete_safe (h : execProfileSwitchComplete s = .next t) : Safe s t := by
  unfold execProfileSwitchComplete at h
  split at h
  · cases h
    exact Safe.refl s
  · rename_i k since hs
    cases h
    have hends : Safe s (switchEnds k (runTo since 50 s)) :=
      (Safe.refl s).runTo.keeps ((Keeps.refl _).switchEnds (by simp [runTo, passTime, hs]))
    apply Safe.react
    split
    · exact hends.keeps (Keeps.trySearch Keeps.tryFails (Keeps.refl _))
    · exact hends

theorem execFocusCapture_safe (h : execFocusCapture s = .next t) : Safe s t := by
  unfold execFocusCapture at h
  split at h
  · rename_i hc
    cases h
    exact ((Safe.refl s).keeps ((Keeps.refl s).captured hc.1).reportLock).react
  · cases h
    exact Safe.refl s

theorem execAttemptTimerExpiry_safe (h : execAttemptTimerExpiry s = .next t) : Safe s t := by
  unfold execAttemptTimerExpiry at h
  split at h
  · cases h
    exact Safe.refl s
  · rename_i since hs
    cases h
    exact ((Safe.refl s).runTo.keeps ((Keeps.refl _).attemptFails (by simp [runTo, passTime, hs]))).react

theorem execFocusDrop_safe {n : Nat} (h : execFocusDrop n s = .next t) : Safe s t := by
  unfold execFocusDrop at h
  split at h
  · rename_i hc
    cases h
    exact ((Safe.refl s).keeps ((Keeps.refl s).focusLost (by simp [hc.1]))).react
  · cases h
    exact Safe.refl s

theorem execOffTrack_safe {n : Nat} (h : execOffTrack n s = .next t) : Safe s t := by
  unfold execOffTrack at h
  split at h
  · cases h
    exact ((Safe.refl s).keeps (Keeps.refl s).trackingOff.takeDisturbance).react
  · cases h
    exact Safe.refl s

theorem execTrackCrossing_safe (h : execTrackCrossing s = .next t) : Safe s t := by
  unfold execTrackCrossing at h
  split at h
  · rename_i hjump
    cases h
    have hcount : Keeps [] s (s.setOptics { s.optics with crossings := s.optics.crossings + 1 }) := (Keeps.refl s).optics
    apply Safe.react
    split
    · exact (Safe.refl s).keeps (hcount.jumpEnds hjump)
    · exact (Safe.refl s).keeps hcount
  · cases h
    exact Safe.refl s

theorem execTrackingClosed_safe (h : execTrackingClosed s = .next t) : Safe s t := by
  unfold execTrackingClosed at h
  split at h
  · rename_i hc
    cases h
    exact ((Safe.refl s).keeps ((Keeps.refl s).closed hc.2.1 hc.2.2).reportCloses).react
  · cases h
    exact Safe.refl s

/-! ### Events of the sled -/

/-- The last step that a reset found in progress leaves the sled on the rail (R101, R103). -/
theorem lastStep_rail (closed : Bool) {sl : Sled} (h : RailOk sl) (hleg : sl.state ≠ .leg ∨ sl.position = none) :
    RailOk (sl.lastStep closed) := by
  intro x hx
  cases hp : sl.position with
  | none => simp [Sled.lastStep, hp] at hx
  | some y =>
    have hstate : sl.state ≠ .leg := by simpa [hp] using hleg
    refine ⟨?_, fun hs => absurd hs hstate⟩
    simp only [Sled.lastStep, hp] at hx
    split at hx
    · obtain rfl := Option.some.inj hx
      exact Nat.zero_le _
    · obtain rfl := Option.some.inj hx
      exact (h y hp).1

theorem execSledStep_safe {c : Bool} (h : execSledStep c s = .next t) : Safe s t := by
  unfold execSledStep at h
  split at h
  · split at h <;> cases h
    · exact Safe.refl s
    · exact (Safe.refl s).homingStep.react
  · rename_i hs hp
    cases h
    exact ((Safe.refl s).legStep hp hs).react
  · rename_i hleg
    cases h
    refine (Safe.refl s).sled fun hrail => lastStep_rail c hrail ?_
    cases hp : s.sled.position with
    | none => exact .inr rfl
    | some x => exact .inl fun hs => hleg x hs hp

theorem execHomeSwitchClose_safe (h : execHomeSwitchClose s = .next t) : Safe s t := by
  have hclosed : Safe s (s.setSled { s.sled with homeClosed := true }) := (Safe.refl s).sled id
  unfold execHomeSwitchClose at h
  dsimp only at h
  split at h
  · cases h
    exact hclosed
  · cases h
    exact hclosed
  · split at h
    · cases h
      exact hclosed
    · cases h
      apply Safe.react
      split
      · refine hclosed.legReported (fun _ x hx => ?_)
        cases hx
        omega
      · rename_i hleg
        refine hclosed.sled fun _ x hx => ⟨?_, fun hs => absurd hs hleg⟩
        obtain rfl := Option.some.inj hx
        omega

theorem execCreepThreshold_safe (h : execCreepThreshold s = .next t) : Safe s t := by
  unfold execCreepThreshold at h
  split at h
  · rename_i x hs hp
    split at h
    · rename_i hlt
      cases h
      refine (Safe.refl s).sled fun _ y hy => ⟨?_, fun hleg => ?_⟩
      · obtain rfl := Option.some.inj hy
        exact hlt
      · cases hs.symm.trans hleg
    · cases h
      exact Safe.refl s
  · cases h
    exact Safe.refl s

/-! ### Events of the spindle, and timers -/

theorem execTachometerReading_safe {rpm : Nat} (h : execTachometerReading rpm s = .next t) : Safe s t := by
  cases h
  obtain ⟨hheld, hm, htarget⟩ := read_keeps s.spindle s.clock rpm
  exact (((Safe.refl s).spindle hheld hm htarget).keeps (Keeps.refl _).readingReports).react

theorem execLockTestComplete_safe (h : execLockTestComplete s = .next t) : Safe s t := by
  unfold execLockTestComplete at h
  split at h <;> cases h
  · exact Safe.refl s
  · exact ((Safe.refl s).runTo.keeps (Keeps.refl _).enterLocked).react

theorem execLockLimitExpiry_safe (h : execLockLimitExpiry s = .next t) : Safe s t := by
  unfold execLockLimitExpiry at h
  split at h <;> cases h
  · exact Safe.refl s
  · exact ((Safe.refl s).runTo.keeps (Keeps.refl _).lockFails).react

theorem execStopLimitExpiry_safe (h : execStopLimitExpiry s = .next t) : Safe s t := by
  unfold execStopLimitExpiry at h
  split at h <;> cases h
  · exact Safe.refl s
  · exact ((Safe.refl s).runTo.keeps (Keeps.refl _).stopFails).react

theorem execAddressMonitorTimerExpiry_safe (h : execAddressMonitorTimerExpiry s = .next t) : Safe s t := by
  unfold execAddressMonitorTimerExpiry at h
  split at h <;> cases h
  · have htime : Safe s (passTime (s.monitor.limit - s.monitor.elapsed) s) := (Safe.refl s).passTime
    refine (htime.keeps (Keeps.restartMonitor ?_)).react
    split
    · exact (Keeps.refl _).takeDisturbance
    · exact Keeps.refl _
  · exact Safe.refl s

theorem execSettleEnd_safe (h : execSettleEnd s = .next t) : Safe s t := by
  unfold execSettleEnd at h
  split at h <;> cases h
  · exact ((Safe.refl s).runTo.keeps (Keeps.refl _).settleEnds).react
  · exact Safe.refl s

theorem execCandidateWindowEnd_safe (h : execCandidateWindowEnd s = .next t) : Safe s t := by
  unfold execCandidateWindowEnd at h
  split at h <;> cases h
  · exact Safe.refl s
  · exact ((Safe.refl s).passTime.keeps (Keeps.refl _).tryFails).react

theorem execSagTimerExpiry_safe (h : execSagTimerExpiry s = .next t) : Safe s t := by
  unfold execSagTimerExpiry at h
  split at h <;> cases h
  · exact Safe.refl s
  · exact ((Safe.refl s).runTo.keeps (Keeps.refl _).sagPark).react

theorem execRetrackWindowEnd_safe (h : execRetrackWindowEnd s = .next t) : Safe s t := by
  unfold execRetrackWindowEnd at h
  split at h
  · cases h
    exact Safe.refl s
  · split at h <;> cases h
    · exact ((Safe.refl s).runTo.keeps (Keeps.refl _).beginRefix).react
    · exact Safe.refl s

theorem execRoughExit_safe (h : execRoughExit s = .next t) : Safe s t := by
  unfold execRoughExit at h
  split at h <;> cases h
  · exact Safe.refl s
  · exact ((Safe.refl s).passTime.keeps (Keeps.refl _).recovery.setRough).react

/-! ### Commands and steps -/

/-- Every command keeps every predicate of Sys2Proof/Safety.lean. -/
theorem exec_safe {i : Instr} (h : exec i s = .next t) : Safe s t := by
  cases i with
  | unknownKind p f => exact execUnknownKind_safe h
  | selectRelease p =>
    cases h
    exact ((Safe.refl s).setPort (released_queue _)).softResetDue
  | selectFall p =>
    simp only [exec, execSelectFall] at h
    split at h <;> cases h
    · exact (Safe.refl s).setPort id
    · exact Safe.refl s
  | replyComplete p => exact execReplyComplete_safe h
  | powerOnReset =>
    cases h
    exact (Safe.refl s).reset
  | holdoffExpiry p => exact execHoldoffExpiry_safe h
  | addressMonitorTimerExpiry => exact execAddressMonitorTimerExpiry_safe h
  | settleEnd => exact execSettleEnd_safe h
  | tachometerReading rpm => exact execTachometerReading_safe h
  | lockTestComplete => exact execLockTestComplete_safe h
  | lockLimitExpiry => exact execLockLimitExpiry_safe h
  | stopLimitExpiry => exact execStopLimitExpiry_safe h
  | profileSwitchComplete => exact execProfileSwitchComplete_safe h
  | focusCapture => exact execFocusCapture_safe h
  | attemptTimerExpiry => exact execAttemptTimerExpiry_safe h
  | focusDrop n => exact execFocusDrop_safe h
  | offTrack n => exact execOffTrack_safe h
  | trackCrossing => exact execTrackCrossing_safe h
  | sledStep c => exact execSledStep_safe h
  | homeSwitchClose => exact execHomeSwitchClose_safe h
  | creepThreshold => exact execCreepThreshold_safe h
  | candidateWindowEnd => exact execCandidateWindowEnd_safe h
  | sagTimerExpiry => exact execSagTimerExpiry_safe h
  | retrackWindowEnd => exact execRetrackWindowEnd_safe h
  | roughExit => exact execRoughExit_safe h
  | trackingClosed => exact execTrackingClosed_safe h
  | _ => exact exec_request_safe rfl h

/-- The commands that wait stand in no predicate. -/
theorem withPending_safe (s : State) (l : List Instr) : Safe s { s with pending := l } := by
  constructor <;> first | exact id | exact fun _ => id

/-- The index of the free choices stands in no predicate (entries 2 and 6). -/
theorem withPicks_safe (s : State) (n : Nat) : Safe s { s with picks := n } := by
  constructor <;> first | exact id | exact fun _ => id

theorem turnaroundMayEnd_eq (n : Nat) (q : Port) (p : PortState) :
    ∃ d, turnaroundMayEnd n q p = { p with decoder := d } := by
  unfold turnaroundMayEnd
  split
  · exact ⟨_, rfl⟩
  · exact ⟨p.decoder, rfl⟩

theorem turnaroundsMayEnd_safe (s : State) : Safe s (turnaroundsMayEnd s) := by
  obtain ⟨c, hc⟩ := turnaroundMayEnd_eq s.picks .control s.control
  obtain ⟨d, hd⟩ := turnaroundMayEnd_eq s.picks .stream s.stream
  obtain ⟨e, he⟩ := turnaroundMayEnd_eq s.picks .mechanism s.mechanism
  unfold turnaroundsMayEnd
  rw [hc, hd, he]
  have hports := ((decoder_safe .control c s.control.reply s).trans
    (decoder_safe .stream d s.stream.reply _)).trans (decoder_safe .mechanism e s.mechanism.reply _)
  exact hports.trans (withPicks_safe _ _)

theorem idle_safe (h : idle s = .next t) : Safe s t := by
  unfold idle at h
  split at h
  · cases h
    exact (turnaroundsMayEnd_safe s).passTime
  · exact exec_safe h
  · exact (withPicks_safe s _).trans (exec_safe h)

/-- Every step keeps every predicate of Sys2Proof/Safety.lean, from every state. -/
theorem step_safe (h : step s = .next t) : Safe s t := by
  unfold step at h
  split at h
  · exact idle_safe h
  · exact (withPending_safe s _).trans (exec_safe h)

/-- Settles O24: every step keeps every invariant, the order of the map among them. -/
theorem mapStaysInOrder : Obligations.MapStaysInOrder := by
  intro s t hmap hstep
  exact (step_safe hstep).map hmap

end Sys2Proof.Proofs
end

section
/-! The reset values, the requests that read, and MAP IMPORT: what the model answers, case by case. -/

namespace Sys2Proof.Proofs

set_option Elab.async false

open Sys2Proof.Machine Sys2Proof.Safety Sys2Proof.Laws

/-! ### Reset -/

/-- Settles O13: each value is the one State.reset writes. -/
theorem resetValues : Obligations.ResetValues := by
  refine ⟨fun p => ?_, rfl, rfl, rfl, rfl, rfl, ?_, rfl, rfl, ?_, rfl, rfl, rfl, ?_, rfl, rfl, rfl, rfl⟩
  · cases p <;> decide
  · decide
  · exact fun e he => List.eq_of_mem_replicate he
  · decide

/-! ### A request taken by its port -/

variable {p : Port} {tag : Byte} {s : State}

/-- A request whose port takes it is answered with its owner's state, status and data. -/
theorem exec_takes {i : Instr} {k : Kind} {u : State} {st : Status} {d : List Byte}
    (hport : requestPortTag i = some (p, tag)) (hkind : requestKind i = some k) (h : Takes k.code p s)
    (howner : ownerOf i s = (u, st, d)) : exec i s = .next (u.answer p tag st d) := by
  rw [exec_request hport hkind, serve_taken h.1 h.2, howner]

/-! ### READ FAULT, READ ZONE, READ MAP (R19, R29, R194) -/

theorem readZone_entry {index : Byte} {e : ZoneEntry} (hi : index.toNat < 8)
    (he : s.zones.entries[index.toNat]? = some e) : readZone index s = (.accepted, [index] ++ e.data) := by
  simp [readZone, hi, he]

theorem readZone_above {index : Byte} (hi : 8 < index.toNat) : readZone index s = (.outOfRange, []) := by
  have hne : index ≠ 8 := by
    rintro rfl
    exact absurd hi (by decide)
  rw [readZone, if_neg (by omega), if_neg hne]

theorem mapData_present {index : Byte} {r : MapRecord} (hr : s.map.records[index.toNat]? = some r) :
    mapData index s = [classCode s.map.cls, byte s.map.records.length] ++ bytes4 s.map.counter ++ [1] ++ bytes3 r.address
      ++ bytes2 r.coord ++ [r.origin.code] ++ bytes4 r.seq := by
  simp [mapData, PosMap.recordAt, hr, recordBytes]

theorem mapData_absent {index : Byte} (hi : s.map.records.length ≤ index.toNat) :
    mapData index s = [classCode s.map.cls, byte s.map.records.length] ++ bytes4 s.map.counter ++ [0]
      ++ List.replicate 10 0xFF := by
  simp [mapData, PosMap.recordAt, List.getElem?_eq_none hi, recordBytes, absent]

/-- Settles O16: each read is served with its own data. -/
theorem otherReadsAnswerWhatTheyName : Obligations.OtherReadsAnswerWhatTheyName := by
  intro p tag index s
  refine ⟨fun h => exec_takes rfl rfl h rfl, fun h => ?readFault,
    fun h => ⟨fun e hi he => ?entry, ?default, fun hi => ?above⟩, fun h => ⟨fun r hr => ?present, fun hi => ?absent⟩,
    rfl, rfl, rfl, rfl⟩
  case readFault =>
    refine ⟨faultBytes s.supervisor.fault, unreachedBytes s.planner.unreached, exec_takes rfl rfl h rfl,
      fun x hx => ?_, fun hx => ?_, fun x hx => ?_, fun hx => ?_⟩ <;> rw [hx] <;> rfl
  case entry => exact exec_takes rfl rfl h (congrArg (s, ·) (readZone_entry hi he))
  case default =>
    rintro rfl
    exact exec_takes rfl rfl h rfl
  case above => exact exec_takes rfl rfl h (congrArg (s, ·) (readZone_above hi))
  case present => exact exec_takes rfl rfl h (congrArg (s, Status.accepted, ·) (mapData_present hr))
  case absent => exact exec_takes rfl rfl h (congrArg (s, Status.accepted, ·) (mapData_absent hi))

/-! ### MAP IMPORT (R17, R18) -/

variable {a : Addr} {c : BitVec 16}

theorem importRecord_noDisc (h : s.supervisor.cls = none ∨ s.supervisor.drive = .identifying) :
    importRecord a c s = (s, .noDisc, []) := if_pos h

/-- With a class held and no identification in progress the checks of MAP IMPORT go on (R17). -/
theorem importRecord_releasing (h : ¬ (s.supervisor.cls = none ∨ s.supervisor.drive = .identifying))
    (hlatch : s.arbiter.releaseLatch = true) : importRecord a c s = (s, .releasing, []) := by
  rw [importRecord, if_neg h, if_pos hlatch]

theorem importRecord_refused (h : ¬ (s.supervisor.cls = none ∨ s.supervisor.drive = .identifying))
    (hlatch : s.arbiter.releaseLatch = false) (hi : s.map.insert a.toNat c.toNat .imported = none) :
    importRecord a c s = (s, .outOfRange, []) := by
  rw [importRecord, if_neg h, if_neg (by simp [hlatch]), hi]

theorem importRecord_inserted {i : Inserted} (h : ¬ (s.supervisor.cls = none ∨ s.supervisor.drive = .identifying))
    (hlatch : s.arbiter.releaseLatch = false) (hi : s.map.insert a.toNat c.toNat .imported = some i) :
    importRecord a c s = (s.setMap i.map, .accepted, i.data) := by
  rw [importRecord, if_neg h, if_neg (by simp [hlatch]), hi]

/-- Settles O20: the checks of MAP IMPORT in their order. -/
theorem mapImportChecksThenInserts : Obligations.MapImportChecksThenInserts := by
  intro p tag a c s htakes
  refine ⟨fun h => exec_takes rfl rfl htakes (importRecord_noDisc h), fun hcls hdrive => ?_⟩
  have hpass : ¬ (s.supervisor.cls = none ∨ s.supervisor.drive = .identifying) := not_or.2 ⟨hcls, hdrive⟩
  refine ⟨fun hlatch => exec_takes rfl rfl htakes (importRecord_releasing hpass hlatch),
    fun hlatch => ⟨fun hi => ?_, fun i hi => ?_⟩⟩
  · exact exec_takes rfl rfl htakes (importRecord_refused hpass hlatch hi)
  · exact exec_takes rfl rfl htakes (importRecord_inserted hpass hlatch hi)

end Sys2Proof.Proofs
end

section
/-! Predictions of a map in order (R8, R9): what `predictIn` answers at a record, between two neighbours and outside, and
that it rises with addresses. -/

namespace Sys2Proof.Proofs

set_option Elab.async false

open Sys2Proof.Machine Sys2Proof.Safety Sys2Proof.Laws

/-! ### The line between two records -/

/-- Less than a whole share of `y`, rounded, is at most `y`. -/
theorem rounded_share_le {x y n : Nat} (h : x < n) : rounded (x * y) n ≤ y := by
  have hprod : x * y ≤ n * y := Nat.mul_le_mul_right y (Nat.le_of_lt h)
  have hhalf : n / 2 < n := Nat.div_lt_self (by omega) (by omega)
  have hlt : x * y + n / 2 < n * (y + 1) := by
    rw [Nat.mul_succ]
    omega
  exact Nat.lt_succ_iff.1 (Nat.div_lt_of_lt_mul hlt)

theorem rounded_mono {x y n : Nat} (h : x ≤ y) : rounded x n ≤ rounded y n :=
  Nat.div_le_div_right (by omega)

variable {lo hi r q : MapRecord} {rest : List MapRecord} {a b c d : Nat}

theorem coord_le_interpolate : lo.coord ≤ interpolate lo hi a := Nat.le_add_right _ _

theorem interpolate_le_coord (h1 : lo.address < a) (h2 : a < hi.address) (hc : lo.coord ≤ hi.coord) :
    interpolate lo hi a ≤ hi.coord := by
  have hshare : rounded ((a - lo.address) * (hi.coord - lo.coord)) (hi.address - lo.address) ≤ hi.coord - lo.coord :=
    rounded_share_le (by omega)
  unfold interpolate
  omega

theorem interpolate_mono (h : a ≤ b) : interpolate lo hi a ≤ interpolate lo hi b :=
  Nat.add_le_add_left (rounded_mono (Nat.mul_le_mul_right _ (by omega))) _

/-! ### One record of the list at a time -/

@[simp] theorem predictIn_head : predictIn (r :: rest) r.address = some r.coord := by
  cases rest <;> simp [predictIn]

theorem predictIn_gap (h1 : r.address < a) (h2 : a < q.address) :
    predictIn (r :: q :: rest) a = some (interpolate r q a) := by
  rw [predictIn, if_neg (by omega), if_pos ⟨h1, h2⟩]

/-- The head of rising records says nothing of an address at or above a later one. -/
theorem predictIn_skip {l : List MapRecord} (h : StrictlyRising (r :: l)) (hq : q ∈ l) (ha : q.address ≤ a) :
    predictIn (r :: l) a = predictIn l a := by
  rw [StrictlyRising, List.pairwise_cons] at h
  cases l with
  | nil => simp at hq
  | cons x l =>
    have hrx := (h.1 x (by simp)).1
    have hxa : x.address ≤ a := by
      rcases List.mem_cons.1 hq with rfl | hq
      · exact ha
      · have := ((List.pairwise_cons.1 h.2).1 q hq).1
        omega
    rw [predictIn, if_neg (by omega), if_neg (by omega)]

/-- Where records predict: at the head, on the line to the next, or by the rest, from the next on. -/
theorem predictIn_cases (hp : predictIn (r :: q :: rest) a = some c) :
    (a = r.address ∧ c = r.coord) ∨ (r.address < a ∧ a < q.address ∧ c = interpolate r q a) ∨
    predictIn (q :: rest) a = some c := by
  rw [predictIn] at hp
  split at hp
  · rename_i ha
    exact .inl ⟨ha, (Option.some.inj hp).symm⟩
  · split at hp
    · rename_i hgap
      exact .inr (.inl ⟨hgap.1, hgap.2, (Option.some.inj hp).symm⟩)
    · exact .inr (.inr hp)

/-- Rising records predict nothing below the first, and no coordinate below its. -/
theorem head_le_of_predictIn (h : StrictlyRising (r :: rest)) (hp : predictIn (r :: rest) a = some c) :
    r.address ≤ a ∧ r.coord ≤ c := by
  induction rest generalizing r with
  | nil =>
    simp only [predictIn] at hp
    split at hp <;> cases hp
    omega
  | cons q rest ih =>
    rcases predictIn_cases hp with ⟨rfl, rfl⟩ | ⟨hlt, _, rfl⟩ | hrest
    · exact ⟨Nat.le_refl _, Nat.le_refl _⟩
    · exact ⟨Nat.le_of_lt hlt, coord_le_interpolate⟩
    · rw [StrictlyRising, List.pairwise_cons] at h
      have hrq := h.1 q (by simp)
      have := ih h.2 hrest
      omega

/-! ### The whole list -/

variable {l : List MapRecord}

/-- At a record the prediction is its coordinate (R8). -/
theorem predictIn_record (h : StrictlyRising l) (hr : r ∈ l) : predictIn l r.address = some r.coord := by
  induction l with
  | nil => simp at hr
  | cons x l ih =>
    rcases List.mem_cons.1 hr with rfl | hr
    · exact predictIn_head
    · rw [predictIn_skip h hr (Nat.le_refl _)]
      exact ih h.of_cons hr

/-- Between two neighbours the prediction is on the line between them (R8). -/
theorem predictIn_between {before : List MapRecord} (h : StrictlyRising (before ++ lo :: hi :: rest))
    (h1 : lo.address < a) (h2 : a < hi.address) :
    predictIn (before ++ lo :: hi :: rest) a = some (interpolate lo hi a) := by
  induction before with
  | nil => exact predictIn_gap h1 h2
  | cons x before ih =>
    rw [List.cons_append] at h ⊢
    rw [predictIn_skip (q := lo) h (by simp) (Nat.le_of_lt h1)]
    exact ih h.of_cons

/-- Predictions do not fall as addresses rise (R9). -/
theorem predictIn_mono (h : StrictlyRising l) (hab : a ≤ b) (ha : predictIn l a = some c) (hb : predictIn l b = some d) :
    c ≤ d := by
  induction l with
  | nil => simp [predictIn] at ha
  | cons r l ih =>
    cases l with
    | nil =>
      simp only [predictIn] at ha hb
      split at ha <;> cases ha
      split at hb <;> cases hb
      exact Nat.le_refl _
    | cons q rest =>
      have hrq := (List.pairwise_cons.1 h).1 q (by simp)
      rcases predictIn_cases ha with ⟨rfl, rfl⟩ | ⟨ha1, ha2, rfl⟩ | ha'
      · exact (head_le_of_predictIn h hb).2
      · rcases predictIn_cases hb with ⟨rfl, rfl⟩ | ⟨_, _, rfl⟩ | hb'
        · omega
        · exact interpolate_mono hab
        · exact Nat.le_trans (interpolate_le_coord ha1 ha2 (Nat.le_of_lt hrq.2)) (head_le_of_predictIn h.of_cons hb').2
      · have hqb : q.address ≤ b := Nat.le_trans (head_le_of_predictIn h.of_cons ha').1 hab
        rw [predictIn_skip h (List.mem_cons_self ..) hqb] at hb
        exact ih h.of_cons ha' hb

/-- Every address from the first record to a later one has a prediction. -/
theorem predictIn_reaches (hq : q ∈ r :: l) (h1 : r.address ≤ a) (h2 : a ≤ q.address) :
    ∃ c, predictIn (r :: l) a = some c := by
  induction l generalizing r with
  | nil =>
    obtain rfl := List.mem_singleton.1 hq
    exact ⟨_, by rw [Nat.le_antisymm h2 h1]; exact predictIn_head⟩
  | cons x l ih =>
    by_cases har : a = r.address
    · exact ⟨_, by rw [har]; exact predictIn_head⟩
    · by_cases hax : a < x.address
      · exact ⟨_, predictIn_gap (by omega) hax⟩
      · have hqx : q ∈ x :: l := by
          refine (List.mem_cons.1 hq).resolve_left ?_
          rintro rfl
          omega
        rw [predictIn, if_neg har, if_neg (by omega)]
        exact ih hqx (by omega)

/-- Rising records predict nothing above the last. -/
theorem le_last_of_predictIn (h : StrictlyRising l) (hlast : l.getLast? = some hi) (hp : predictIn l a = some c) :
    a ≤ hi.address := by
  induction l with
  | nil => simp [predictIn] at hp
  | cons r l ih =>
    cases l with
    | nil =>
      obtain rfl : r = hi := by simpa using hlast
      simp only [predictIn] at hp
      split at hp <;> cases hp
      omega
    | cons q rest =>
      rw [List.getLast?_cons_cons] at hlast
      have hqhi : q.address ≤ hi.address := by
        rcases List.mem_cons.1 (List.mem_of_mem_getLast? hlast) with rfl | hmem
        · exact Nat.le_refl _
        · exact Nat.le_of_lt ((List.pairwise_cons.1 h.of_cons).1 hi hmem).1
      have hrq := ((List.pairwise_cons.1 h).1 q (by simp)).1
      rcases predictIn_cases hp with ⟨rfl, _⟩ | ⟨_, hgap, _⟩ | hrest
      · omega
      · omega
      · exact ih h.of_cons hlast hrest

/-! ### The map -/

variable {m : PosMap} {k : DiscClass}

/-- What a map with a class holds (R4). -/
theorem mapOk_iff (hk : m.cls = some k) : MapOk m ↔
    m.records.length ≤ 32 ∧ StrictlyRising m.records ∧ m.records.head? = some ⟨0, 0, .seed, 0⟩ ∧
    m.records.getLast? = some ⟨k.maxAddress, k.maxCoord, .seed, 0⟩ ∧
    ∀ r ∈ m.records, r.origin = .seed → r ∈ seeds k := by
  simp [MapOk, hk]

/-- A map in order predicts nothing above its highest address (entry 29). -/
theorem predict_above (h : MapOk m) (hk : m.cls = some k) (ha : k.maxAddress < a) : m.predict a = none := by
  obtain ⟨-, hrise, -, hlast, -⟩ := (mapOk_iff hk).1 h
  cases hp : m.predict a with
  | none => rfl
  | some c =>
    have := le_last_of_predictIn hrise hlast hp
    dsimp only at this
    omega

/-- Settles O22, by the list of records in their order. -/
theorem predictionFollowsTheRecords : Obligations.PredictionFollowsTheRecords := by
  intro m k h hk
  obtain ⟨-, hrise, hhead, hlast, -⟩ := (mapOk_iff hk).1 h
  have hrecord : ∀ r ∈ m.records, m.predict r.address = some r.coord := fun r hr => predictIn_record hrise hr
  have hzero := hrecord _ (List.mem_of_mem_head? hhead)
  have htop := hrecord _ (List.mem_of_mem_getLast? hlast)
  have hmono : ∀ a b c d, a ≤ b → m.predict a = some c → m.predict b = some d → c ≤ d :=
    fun a b c d hab ha hb => predictIn_mono hrise hab ha hb
  refine ⟨hrecord, ?_, ?_, hmono, hzero, htop⟩
  · intro before lo hi after a hsplit h1 h2
    rw [PosMap.predict, hsplit]
    exact predictIn_between (hsplit ▸ hrise) h1 h2
  · intro a ha
    obtain ⟨rest, hrest⟩ : ∃ rest, m.records = ⟨0, 0, .seed, 0⟩ :: rest := List.head?_eq_some_iff.1 hhead
    have hmem := List.mem_of_mem_getLast? hlast
    rw [hrest] at hmem
    obtain ⟨c, hc⟩ := predictIn_reaches hmem (Nat.zero_le a) ha
    rw [← hrest] at hc
    exact ⟨c, hc, hmono a _ c _ ha hc htop⟩

end Sys2Proof.Proofs
end

section
/-! Insertion into a map in order (R10 to R15): what the range test admits, which records are left, and which one is
evicted. -/

namespace Sys2Proof.Proofs

set_option Elab.async false

open Sys2Proof.Machine Sys2Proof.Safety Sys2Proof.Laws

variable {m : PosMap} {k : DiscClass} {a c e : Nat} {o : Origin} {r : MapRecord} {l : List MapRecord} {b : Bool}

/-! ### The range test (R11) -/

/-- On a map in order the range test admits the open range between the end records. -/
theorem admitsRecord_iff (h : MapOk m) (hk : m.cls = some k) :
    m.admitsRecord a c = true ↔ 0 < a ∧ a < k.maxAddress ∧ 0 < c ∧ c < k.maxCoord := by
  obtain ⟨-, -, hhead, hlast, -⟩ := (mapOk_iff hk).1 h
  simp [PosMap.admitsRecord, hhead, hlast, and_assoc]

theorem holdsAddress_iff : holdsAddress l a = true ↔ ∃ r ∈ l, r.address = a := by
  simp [holdsAddress]

/-- Off the address itself, the records that fit are those that do not break order (R13). -/
theorem fits_iff (h : r.address ≠ a) :
    fits a c r ↔ ¬ (r.address < a ∧ c ≤ r.coord) ∧ ¬ (a < r.address ∧ r.coord ≤ c) := by
  unfold fits
  omega

/-! ### Eviction (R14) -/

theorem evictedRecord_some (h : evictedRecord l b = some r) :
    b = false ∧ 32 ≤ l.length ∧ oldestInserted l = some r := by
  unfold evictedRecord at h
  split at h
  · rename_i hfull
    exact ⟨hfull.1, hfull.2, h⟩
  · cases h

theorem mem_afterEviction {out : Option MapRecord} :
    r ∈ afterEviction l out ↔ r ∈ l ∧ out.map MapRecord.address ≠ some r.address := by
  cases out with
  | none => simp [afterEviction]
  | some x =>
    simp only [afterEviction, List.mem_filter, Bool.not_eq_true', beq_eq_false_iff_ne, Option.map_some, ne_eq,
      Option.some.injEq, eq_comm (a := x.address)]

/-- Of two inserted records the first was inserted before the second, or has the lower address on a tie (R14). -/
def Older (r q : MapRecord) : Prop := r.seq < q.seq ∨ (r.seq = q.seq ∧ r.address ≤ q.address)

/-- In rising records the one named is the oldest of those inserted (R14). -/
theorem oldestInserted_older (h : StrictlyRising l) (hr : oldestInserted l = some r) :
    ∀ q ∈ l, q.origin ≠ .seed → Older r q := by
  induction l generalizing r with
  | nil => simp
  | cons x rest ih =>
    have hrise := List.pairwise_cons.1 h
    intro q hq hseed
    simp only [oldestInserted] at hr
    split at hr
    case h_1 hx =>
      rcases List.mem_cons.1 hq with rfl | hq
      · exact absurd hx hseed
      · exact ih hrise.2 hr q hq hseed
    case h_2 hnone _ =>
      obtain rfl := Option.some.inj hr
      rcases List.mem_cons.1 hq with rfl | hq
      · exact .inr ⟨rfl, Nat.le_refl _⟩
      · exact absurd (oldestInserted_none hnone q hq) hseed
    case h_3 other hother _ =>
      have holder := ih hrise.2 hother
      have hrest := hrise.1 other (oldestInserted_mem hother).1
      split at hr <;> obtain rfl := Option.some.inj hr <;> rcases List.mem_cons.1 hq with rfl | hq
      · exact .inr ⟨rfl, Nat.le_refl _⟩
      · have := holder q hq hseed
        have := (hrise.1 q hq).1
        unfold Older at *
        omega
      · exact .inl (by omega)
      · exact holder q hq hseed

/-! ### What an insertion does (R10 to R15) -/

/-- An insertion that the range test admits, by its parts. -/
theorem insert_of_admits (h : m.admitsRecord a c = true) :
    ∃ i, m.insert a c o = some i ∧ i.seq = m.counter ∧ i.map.counter = bump 4294967295 m.counter ∧
      i.replaced = holdsAddress m.records a ∧
      i.displaced = m.records.length - (survivors m.records a c).length - (if i.replaced then 1 else 0) ∧
      i.evicted = (evictedRecord (survivors m.records a c) i.replaced).map MapRecord.address ∧
      i.map.records = placeRecord ⟨a, c, o, m.counter⟩
        (afterEviction (survivors m.records a c) (evictedRecord (survivors m.records a c) i.replaced)) := by
  rw [PosMap.insert, if_pos h]
  exact ⟨_, rfl, rfl, rfl, rfl, rfl, rfl, rfl⟩

/-- Off the address inserted, a record stays exactly when it breaks no order and is not evicted (R12 to R15). -/
theorem mem_inserted {new : MapRecord} {out : Option MapRecord} (hne : r ≠ new) (hr : r.address ≠ a) :
    r ∈ placeRecord new (afterEviction (survivors l a c) out) ↔
      r ∈ l ∧ ¬ (r.address < a ∧ c ≤ r.coord) ∧ ¬ (a < r.address ∧ r.coord ≤ c) ∧
        out.map MapRecord.address ≠ some r.address := by
  rw [placeRecord_mem, mem_afterEviction, mem_survivors, fits_iff hr]
  simp only [hne, false_or, and_assoc]

/-- An eviction happens only where nothing was displaced: every record of a full map survives (R14). -/
theorem survivors_of_full (h : m.records.length ≤ 32) (hfull : 32 ≤ (survivors m.records a c).length) :
    survivors m.records a c = m.records ∧ m.records.length = 32 := by
  have hsub : (survivors m.records a c).Sublist m.records := List.filter_sublist
  have hlen := hsub.length_le
  exact ⟨hsub.eq_of_length (by omega), by omega⟩

/-- Settles O23: the parts of an insertion, and `insert_ok` for the order it keeps. -/
theorem insertionKeepsOrder : Obligations.InsertionKeepsOrder := by
  intro m k a c o h hk ho
  have hadmits := admitsRecord_iff (a := a) (c := c) h hk
  refine ⟨fun x hx => predict_above h hk hx, fun hout => ?refused, fun ha0 ha1 hc0 hc1 => ?admitted⟩
  case refused => rw [PosMap.insert, if_neg (mt hadmits.1 hout)]
  case admitted =>
    obtain ⟨hlen, hrise, -, -, -⟩ := (mapOk_iff hk).1 h
    obtain ⟨i, hi, hseq, hcounter, hreplaced, hdisplaced, hevicted, hrecords⟩ :=
      insert_of_admits (o := o) (hadmits.2 ⟨ha0, ha1, hc0, hc1⟩)
    obtain ⟨hok, hcls⟩ := insert_ok h ho hi
    refine ⟨i, hi, hok, hcls, hseq, hcounter, ?_, ?_, fun r hr => ?_, fun e he => ?_⟩
    · rw [hrecords, placeRecord_mem]
      exact .inl rfl
    · rw [hreplaced, holdsAddress_iff]
    · rw [hrecords, hevicted]
      exact mem_inserted (fun heq => hr (congrArg MapRecord.address heq)) hr
    · rw [hevicted] at he
      obtain ⟨r, hr, rfl⟩ := Option.map_eq_some_iff.1 he
      obtain ⟨hnew, hfull, holdest⟩ := evictedRecord_some hr
      obtain ⟨hall, h32⟩ := survivors_of_full hlen hfull
      rw [hall] at holdest hdisplaced
      obtain ⟨hmem, hseed⟩ := oldestInserted_mem holdest
      refine ⟨hnew, h32, ?_, r, hmem, rfl, hseed, oldestInserted_older hrise holdest⟩
      rw [hdisplaced, Nat.sub_self, Nat.zero_sub]

end Sys2Proof.Proofs
end

section
/-! Confirmation of a disc (R6, R7, R67, R109, R155): what becomes of the map, the spindle, the loops and the supervisor. -/

namespace Sys2Proof.Proofs

set_option Elab.async false

open Sys2Proof.Machine Sys2Proof.Safety Sys2Proof.Laws

variable {s : State} {k : DiscClass} {a c : Nat}

/-! ### The CLV target (R67) -/

theorem clampTo_eq {lo hi v : Nat} (h : lo ≤ hi) : clampTo lo hi v = max lo (min hi v) := by
  unfold clampTo
  split
  · omega
  · split <;> omega

theorem setTarget_stores (sp : Spindle) (now : Time) (x : Nat) (b : Bool) :
    (sp.setTarget now x b).target = x ∧ (sp.setTarget now x b).clamped = b ∧ (sp.setTarget now x b).m = sp.m := by
  unfold Spindle.setTarget
  split
  · rename_i hx
    exact ⟨hx.symm, rfl, rfl⟩
  · split <;> exact ⟨rfl, rfl, rfl⟩

/-- A CLV command with a class held computes the target and its clamped flag, and leaves m (R67, R68). -/
theorem spindleCommand_clv (hk : s.supervisor.cls = some k) :
    (spindleCommand .clv (some c) s).spindle.target = (clvTarget k s.spindle.m c).1 ∧
    (spindleCommand .clv (some c) s).spindle.clamped = (clvTarget k s.spindle.m c).2 ∧
    (spindleCommand .clv (some c) s).spindle.m = s.spindle.m := by
  simp only [spindleCommand, speedNotice_spindle, State.setSpindle_spindle, Spindle.retarget, hk]
  exact setTarget_stores _ _ _ _

/-- The arithmetic of the model's target is that of R67. -/
theorem clvTarget_of_eq {b : Nat} (hk : s.supervisor.cls = some k) (hb : s.spindle.basis = some b)
    (ht : s.spindle.target = (clvTarget k s.spindle.m b).1) (hc : s.spindle.clamped = (clvTarget k s.spindle.m b).2) :
    ClvTarget s := by
  intro k' b' hk' hb'
  obtain rfl : k = k' := Option.some.inj (hk.symm.trans hk')
  obtain rfl : b = b' := Option.some.inj (hb.symm.trans hb')
  rw [ht, hc]
  have hflag : (clvTarget k s.spindle.m b).2 = true ↔ 4000 * radius k b < k.velocity * s.spindle.m.val * 9549 ∨
      k.velocity * s.spindle.m.val * 9549 < 150 * radius k b := by
    simp only [clvTarget, Bool.or_eq_true, decide_eq_true_eq]
  cases k <;> exact ⟨clampTo_eq (by decide), hflag⟩

/-! ### The effective multiple at held speed 1 (R70 to R72) -/

theorem one_least (x : Multiple) : Multiple.least .one x = .one := by cases x <;> rfl

theorem effectiveMultiple_one (h : s.spindle.held = .one) : effectiveMultiple s = .one := by
  rw [effectiveMultiple, h, one_least, one_least]

/-- A fix makes m the effective multiple while the drive is not MOVING (R72). -/
theorem spindleOnFix_m (h : s.supervisor.drive ≠ .moving) : (spindleOnFix c s).spindle.m = effectiveMultiple s := by
  unfold spindleOnFix
  simp only [if_neg h]
  split
  · rename_i hsame
    exact hsame.2.symm
  · rw [speedNotice_spindle, State.setSpindle_spindle]
    split
    · exact (retarget_keeps _ _ _).m
    · rfl

theorem spindleOnFix_held (c : Nat) (s : State) : (spindleOnFix c s).spindle.held = s.spindle.held := by
  unfold spindleOnFix
  dsimp only
  generalize (if s.supervisor.drive = .moving then s.spindle.m else effectiveMultiple s) = m
  split
  · rfl
  · rw [speedNotice_spindle, State.setSpindle_spindle]
    split
    · exact retarget_held _ _ _
    · rfl

/-- At held speed 1 the multiple is 1 (R71). -/
theorem setHeldSpeed_one_m (h : s.spindle.held = .one → s.spindle.m = .one) : (setHeldSpeed .one s).spindle.m = .one := by
  unfold setHeldSpeed
  split
  · rename_i hheld
    exact h hheld.symm
  · rw [(recomputeM_spindle _).1]
    exact effectiveMultiple_one rfl

/-! ### The map of the confirmed class (R6, R7, R21) -/

/-- The three cases of R7: an empty map, one of the class, one of the other class. -/
theorem seedOrKeep_empty (h : s.map.records = []) : seedOrKeep k s = s.setMap (PosMap.seeded k) := if_pos h

theorem seedOrKeep_kept (h : s.map.records ≠ []) (hk : s.map.cls = some k) : seedOrKeep k s = s := by
  rw [seedOrKeep, if_neg h, if_pos hk]

theorem seedOrKeep_other (h : s.map.records ≠ []) (hk : s.map.cls ≠ some k) :
    seedOrKeep k s = (clearMap s).setMap (PosMap.seeded k) := by
  rw [seedOrKeep, if_neg h, if_neg hk]

theorem seedOrKeep_map (k : DiscClass) (s : State) :
    (seedOrKeep k s).map = if s.map.records ≠ [] ∧ s.map.cls = some k then s.map else PosMap.seeded k := by
  by_cases h : s.map.records = []
  · simp [seedOrKeep_empty h, h]
  · by_cases hk : s.map.cls = some k
    · simp [seedOrKeep_kept h hk, h, hk]
    · simp [seedOrKeep_other h hk, hk]

/-- What the seeding leaves as it is. -/
theorem seedOrKeep_same (k : DiscClass) (s : State) :
    (seedOrKeep k s).clock = s.clock ∧ (seedOrKeep k s).arbiter = s.arbiter ∧ (seedOrKeep k s).planner = s.planner ∧
    (seedOrKeep k s).supervisor = s.supervisor ∧ (seedOrKeep k s).zones.entries = s.zones.entries ∧
    (seedOrKeep k s).zones.defaultCap = s.zones.defaultCap := by
  by_cases h : s.map.records = []
  · simp [seedOrKeep_empty h]
  · by_cases hk : s.map.cls = some k
    · simp [seedOrKeep_kept h hk]
    · simp [seedOrKeep_other h hk, clearMap_eq, cleared]

/-- A map of the other class takes the resume point and the return address with it (R21). -/
theorem seedOrKeep_clears (h : s.map.records ≠ []) (hk : s.map.cls ≠ some k) :
    (seedOrKeep k s).monitor.resume = none ∧ (seedOrKeep k s).recovery.returnAddr = none := by
  simp [seedOrKeep_other h hk, clearMap_eq, cleared]

/-! ### The fix, the hold and the class, once the map stands (R110, R155) -/

/-- What a confirmation does after the seeding, when no sled leg is left over. -/
def identified (k : DiscClass) (a c : Nat) (u : State) : State :=
  offer (.disc .identified k (some a)) (setDrive .onTrack (endIdent (hold a
    (spindleCommand .clv (some c) (setHeldSpeed .one (spindleOnFix c (storeFix a c u)))))))

theorem confirm_eq (hp : (seedOrKeep k (s.setSupervisor { s.supervisor with cls := some k })).map.predict a = some c)
    (hleg : s.planner.legStage = .idle) :
    confirm k a s = identified k a c (seedOrKeep k (s.setSupervisor { s.supervisor with cls := some k })) := by
  have hland : ∀ u : State, u.planner = s.planner → landLeft a u = u := fun u hu => by simp [landLeft, hu, hleg]
  have hplanner : (seedOrKeep k (s.setSupervisor { s.supervisor with cls := some k })).planner = s.planner :=
    (seedOrKeep_same _ _).2.2.1
  unfold confirm
  simp only [hp]
  rw [hland _ (by simp [storeFix, hplanner])]
  rfl

variable {u : State}

@[simp] theorem identified_map : (identified k a c u).map = u.map := by simp [identified, storeFix]
@[simp] theorem identified_arbiter : (identified k a c u).arbiter = u.arbiter := by simp [identified, storeFix]
@[simp] theorem identified_planner : (identified k a c u).planner = u.planner := by simp [identified, storeFix]
@[simp] theorem identified_supervisor : (identified k a c u).supervisor
    = { u.supervisor with drive := .onTrack, ident := none } := by simp [identified, storeFix, endIdent]
@[simp] theorem identified_fix : (identified k a c u).monitor.fix
    = some ⟨a, c, u.clock, (u.zones.decode a).zone, true⟩ := by simp [identified, storeFix, restartMonitor]
@[simp] theorem identified_resume : (identified k a c u).monitor.resume = u.monitor.resume := by
  simp [identified, storeFix, restartMonitor]

/-- With tracking CLOSED the hold is taken at once, and becomes the hold copy (R94, R173). -/
theorem hold_closed (h : u.optics.tracking = .closed) :
    (hold a u).optics = { u.optics with tracking := .hold, holdAddress := some a } ∧
    (hold a u).recovery = { u.recovery with holdCopy := some a } := by
  simp [hold, h, trackingHold]

theorem identified_holds (h : u.optics.tracking = .closed) :
    (identified k a c u).optics = { u.optics with tracking := .hold, holdAddress := some a } ∧
    (identified k a c u).recovery = { u.recovery with holdCopy := some a } := by
  have hheld := hold_closed (a := a)
    (u := spindleCommand .clv (some c) (setHeldSpeed .one (spindleOnFix c (storeFix a c u)))) (by simp [storeFix, h])
  simpa [identified, storeFix] using hheld

/-- A change of drive state that neither enters nor leaves MOVING leaves the spindle (R72). -/
theorem setDrive_spindle {d : DriveState} (hd : d ≠ .moving) (hs : s.supervisor.drive ≠ .moving) :
    (setDrive d s).spindle = s.spindle := by
  unfold setDrive
  split
  · rfl
  · simp only [hd, hs, or_self, if_false]
    split <;> simp

/-- The spindle after a confirmation: the CLV command at held speed 1 (R67, R68, R70, R155). -/
theorem identified_spindle (hcls : u.supervisor.cls = some k) (hdrive : u.supervisor.drive ≠ .moving) :
    (identified k a c u).spindle.held = .one ∧ (identified k a c u).spindle.mode = .clv ∧
    (identified k a c u).spindle.basis = some c ∧ (identified k a c u).spindle.m = .one ∧
    ClvTarget (identified k a c u) := by
  obtain ⟨v, hv⟩ : ∃ v, v = setHeldSpeed .one (spindleOnFix c (storeFix a c u)) := ⟨_, rfl⟩
  have hsup : v.supervisor = u.supervisor := by simp [hv, storeFix]
  have hm : v.spindle.m = .one := by
    rw [hv]
    refine setHeldSpeed_one_m fun hheld => ?_
    rw [spindleOnFix_m (by simpa [storeFix] using hdrive)]
    rw [spindleOnFix_held] at hheld
    exact effectiveMultiple_one hheld
  have hheld : v.spindle.held = .one := by simp [hv]
  have hspindle : (identified k a c u).spindle = (spindleCommand .clv (some c) v).spindle := by
    rw [identified, ← hv, offer_spindle, setDrive_spindle (by decide) (by simpa [endIdent, hsup] using hdrive)]
    simp
  obtain ⟨htarget, hclamped, hsame⟩ := spindleCommand_clv (c := c) (s := v) (by rw [hsup]; exact hcls)
  have hbasis : (identified k a c u).spindle.basis = some c := by simp [hspindle]
  refine ⟨by simp [hspindle, hheld], by simp [hspindle], hbasis, by rw [hspindle, hsame, hm], ?_⟩
  refine clvTarget_of_eq (k := k) (by simp [hcls]) hbasis ?_ ?_
  · rw [hspindle, hsame, htarget]
  · rw [hspindle, hsame, hclamped]

/-! ### The report that confirms (R109, R155) -/

/-- A good address of the candidate in the window of a try confirms it (R106 to R109, R153, R155). -/
theorem judge_confirms {i : Ident} (hdrive : s.supervisor.drive = .identifying) (hi : s.supervisor.ident = some i)
    (hpaused : i.paused = false) (hstep : i.step = some .window) (hk : i.candidate = some k) (ha : a ≤ k.maxAddress)
    (hfocus : s.optics.focus = .locked) (htrack : s.optics.tracking = .closed) (hleg : s.planner.legStage = .idle)
    (hphase : activePhase s = none) : judge a true s = (confirm k a s, .confirm) := by
  have hclass : reportClass s = some k := by simp [reportClass, hdrive, candidate, hi, hk]
  have haside : setsReportAside s = false := by simp [setsReportAside, hfocus, htrack, hleg, hphase, hdrive]
  have hwindow : confirming k a s = confirm k a s := by simp [confirming, hi, hpaused, hstep]
  simp [judge, hclass, haside, hdrive, hwindow, Nat.not_lt.2 ha]

theorem noMotion_iff : NoMotion s ↔
    s.arbiter.active = none ∧ s.arbiter.attached = none ∧ s.arbiter.waiting = [] := by
  simp [NoMotion, liveMotions]

/-- An answer leaves every queue (R188). -/
@[simp] theorem answer_queue (p q : Port) (tag : Byte) (st : Status) (d : List Byte) (s : State) :
    ((s.answer p tag st d).port q).queue = (s.port q).queue := by
  by_cases h : q = p
  · subst h
    simp
  · simp [h]

/-- An offered notice stands in a queue whose mask admits it after the offer, which leaves the mask (R197). -/
theorem noticed_of_offered {n : Notice} {q : Port} (h : admits ((offer n s).port q).mask n.code = true) :
    Laws.Noticed n q (offer n s) := by
  have hmask : ((offer n s).port q).mask = (s.port q).mask := ((Keeps.refl s).offer.port q).mask
  exact noticed_offer n (hmask ▸ h)

/-- Settles O60: the report confirms, the map is seeded or kept, and `identified` says the rest. -/
theorem confirmingAddressIdentifiesTheDisc : Obligations.ConfirmingAddressIdentifiesTheDisc := by
  unfold Obligations.ConfirmingAddressIdentifiesTheDisc
  intro seed seeded
  have hseeded : seeded = PosMap.seeded := by
    funext k
    cases k <;> rfl
  clear_value seeded
  subst hseeded
  intro p tag address k i c s htakes hdrive hi hpaused hstep hk ha hp hfocus htrack hleg hspin hnone
  obtain ⟨hactive, -, hwaiting⟩ := noMotion_iff.1 hnone
  obtain ⟨u, hu⟩ : ∃ u, u = seedOrKeep k (s.setSupervisor { s.supervisor with cls := some k }) := ⟨_, rfl⟩
  obtain ⟨hclock, harbiter, hplanner, hsup, hentries, hcap⟩ :=
    seedOrKeep_same k (s.setSupervisor { s.supervisor with cls := some k })
  rw [← hu] at hclock harbiter hplanner hsup hentries hcap
  have hmap : u.map = if s.map.records ≠ [] ∧ s.map.cls = some k then s.map else PosMap.seeded k := by
    rw [hu, seedOrKeep_map]
    rfl
  have htracku : u.optics.tracking = .closed := by rw [hu, seedOrKeep_optics]; exact htrack
  have hconfirm : confirm k address.toNat s = identified k address.toNat c u := by
    rw [hu]
    exact confirm_eq (by rw [← hu, hmap]; exact hp) hleg
  have hjudge : judge address.toNat true s = (identified k address.toNat c u, .confirm) := by
    rw [← hconfirm]
    exact judge_confirms hdrive hi hpaused hstep hk ha hfocus htrack hleg (by simp [activePhase, hactive])
  have hreact : react (identified k address.toNat c u) = identified k address.toNat c u := by
    apply react_settled
    refine ⟨?_, ?_, ?_⟩ <;> simp [harbiter, hplanner, hwaiting, hspin]
  have howner : reportAddress address 0 s = (identified k address.toNat c u, .accepted, [1]) := by
    simp only [reportAddress, goodFlag?, if_true, hjudge, hreact]
    rfl
  have hdecode : u.zones.decode address.toNat = s.zones.decode address.toNat := decode_congr hentries hcap _
  obtain ⟨hheld, hmode, hbasis, hm, htarget⟩ :=
    identified_spindle (k := k) (a := address.toNat) (c := c) (u := u) (by rw [hsup]; rfl)
      (by rw [hsup]; simp [hdrive])
  obtain ⟨hoptics, hrecovery⟩ := identified_holds (k := k) (a := address.toNat) (c := c) htracku
  refine ⟨_, exec_takes rfl rfl htakes howner, ?reply, ?supervisor, ?empty, ?kept, ?other, ?fix,
    ?held, ?mode, ?basis, ?m, ?target, ?tracking, ?address, ?copy, ?notice⟩
  case reply => simp
  case supervisor => simp [hsup]
  case empty =>
    intro h
    simp [hmap, h]
  case kept =>
    intro h hcls
    simp [hmap, h, hcls]
  case other =>
    intro h hcls
    obtain ⟨hresume, hreturn⟩ := seedOrKeep_clears (s := s.setSupervisor { s.supervisor with cls := some k }) h hcls
    rw [← hu] at hresume hreturn
    simp [hmap, hcls, hresume, hrecovery, hreturn]
  case fix => simp [hclock, hdecode]
  case held => simpa using hheld
  case mode => simpa using hmode
  case basis => simpa using hbasis
  case m => simpa using hm
  case target => simpa [ClvTarget] using htarget
  case tracking => simp [hoptics]
  case address => simp [hoptics]
  case copy => simp [hrecovery]
  case notice =>
    intro q hq
    have hkeeps : Keeps [] s (identified k address.toNat c u) := by
      rw [← hconfirm]
      exact (Keeps.refl s).confirm hfocus (by simp [htrack])
    rw [answer_queue]
    exact noticed_of_offered (n := .disc .identified k (some address.toNat)) ((hkeeps.port q).mask ▸ hq)

end Sys2Proof.Proofs
end

section
/-! The decode of the zone table (R25): when an entry matches, and which entry a decode finds; and what every step keeps
in range. -/

namespace Sys2Proof.Proofs

set_option Elab.async false

open Sys2Proof.Machine Sys2Proof.Safety Sys2Proof.Laws

variable {e : ZoneEntry} {z : ZoneTable} {a : Nat} {d : Decoded}

/-! ### One entry -/

/-- No bit that a mask selects differs exactly when the masked difference is zero. -/
theorem masked_diff_eq_zero_iff (x base mask : Addr) :
    (x ^^^ base) &&& mask = 0 ↔ ∀ i, i < 22 → mask.getLsbD i = true → x.getLsbD i = base.getLsbD i := by
  rw [BitVec.eq_of_getLsbD_eq_iff]
  refine forall₂_congr fun i _ => ?_
  cases hm : mask.getLsbD i <;> simp [hm]

/-- The match of the model is that of R25. -/
theorem hits_iff (e : ZoneEntry) (a : Nat) : e.hits a = true ↔ Matches e a := by
  have hbit (i : Nat) (hi : i < 22) : (BitVec.ofNat 22 a).getLsbD i = a.testBit i := by
    simp [BitVec.getLsbD_ofNat, hi, -BitVec.getLsbD_eq_getElem]
  unfold ZoneEntry.hits Matches
  rw [Bool.and_eq_true, beq_iff_eq, masked_diff_eq_zero_iff]
  refine and_congr_right fun _ => forall₂_congr fun i hi => ?_
  rw [hbit i hi]

/-! ### A list of entries -/

theorem firstHit_none {i : Nat} {l : List ZoneEntry} (h : ∀ e ∈ l, ¬ Matches e a) : firstHit a i l = none := by
  induction l generalizing i with
  | nil => rfl
  | cons x l ih =>
    obtain ⟨hx, hl⟩ := List.forall_mem_cons.1 h
    rw [firstHit, if_neg (mt (hits_iff x a).1 hx), ih hl]

/-- The search of a list whose first entry has index `i` finds its lowest match, wherever it stands. -/
theorem firstHit_lowest {i j : Nat} {l : List ZoneEntry} (he : l[j]? = some e) (hm : Matches e a)
    (hlow : ∀ n e', n < j → l[n]? = some e' → ¬ Matches e' a) :
    firstHit a i l = some ⟨.entry (i + j), e.cap, e.access⟩ := by
  induction l generalizing i j with
  | nil => simp at he
  | cons x l ih =>
    cases j with
    | zero =>
      obtain rfl : x = e := by simpa using he
      rw [firstHit, if_pos ((hits_iff x a).2 hm)]
      rfl
    | succ j =>
      have hx : ¬ Matches x a := hlow 0 x (Nat.succ_pos j) rfl
      have hrest : firstHit a (i + 1) l = some ⟨.entry (i + 1 + j), e.cap, e.access⟩ :=
        ih he fun n e' hn hn' => hlow (n + 1) e' (Nat.succ_lt_succ hn) hn'
      rw [firstHit, if_neg (mt (hits_iff x a).1 hx), hrest, Nat.add_right_comm, Nat.add_assoc]

theorem decode_found (h : firstHit a 0 z.entries = some d) : z.decode a = d := by rw [ZoneTable.decode, h]

theorem decode_default (h : firstHit a 0 z.entries = none) : z.decode a = ⟨.default, z.defaultCap, .opened⟩ := by
  rw [ZoneTable.decode, h]

/-- Settles O19: the search stops at the lowest match, and finds nothing where no entry matches. -/
theorem zoneDecodeIsTheLowestMatch : Obligations.ZoneDecodeIsTheLowestMatch := by
  intro z a
  refine ⟨fun i e he hm hlow => ?_, fun hnone => decode_default (firstHit_none hnone)⟩
  have hfound : firstHit a 0 z.entries = some ⟨.entry (0 + i), e.cap, e.access⟩ := firstHit_lowest he hm hlow
  rw [decode_found hfound, Nat.zero_add]

/-! ### Ranges -/

/-- Settles O25: every step is safe, and `Safe` has each of the ranges. -/
theorem rangesAreKept : Obligations.RangesAreKept := by
  intro s t hstep
  have hsafe : Safe s t := step_safe hstep
  exact ⟨hsafe.trim, hsafe.settings, hsafe.target, hsafe.history, hsafe.zones, hsafe.speed, hsafe.gain, hsafe.rail,
    hsafe.classes, hsafe.attached, hsafe.restart⟩

end Sys2Proof.Proofs
end

section
/-! The target and the state of the spindle when m or the basis moves (R67, R69, R72 to R74, R80): once, for every operation
that computes m again. -/

namespace Sys2Proof.Proofs

set_option Elab.async false

open Sys2Proof.Machine Sys2Proof.Safety Sys2Proof.Laws

variable {s t s' t' : State} {sp : Spindle} {now : Time} {b : Option Nat} {m : Multiple} {x : Nat} {f : Bool}

/-! ### Bands (R73, R74) -/

theorem rpmError_eq (measured target : Nat) : rpmError measured target = ((measured : Int) - (target : Int)).natAbs := by
  unfold rpmError
  split <;> omega

theorem within10_iff (measured target : Nat) : within10 measured target = true ↔ Within 10 measured target := by
  rw [within10, decide_eq_true_eq, rpmError_eq]
  omega

theorem within2_iff (measured target : Nat) : within2 measured target = true ↔ Within 2 measured target := by
  rw [within2, decide_eq_true_eq, rpmError_eq]
  omega

/-- A reading in the band of the lock test is in the band of COARSE. -/
theorem within10_of_within2 {measured target : Nat} (h : Within 2 measured target) : Within 10 measured target := by
  unfold Within at *
  omega

/-- The state and the lock test that the band of a target gives (R73, R74). -/
theorem byBand_eq (sp : Spindle) (now : Time) : sp.byBand now = { sp with
    state := if Within 10 sp.measured sp.target then .coarse else .spinup
    lockTest := if Within 2 sp.measured sp.target then some now else none } := by
  have htest : (within10 sp.measured sp.target && within2 sp.measured sp.target) = true ↔
      Within 2 sp.measured sp.target := by
    rw [Bool.and_eq_true, within10_iff, within2_iff]
    exact ⟨And.right, fun h => ⟨within10_of_within2 h, h⟩⟩
  unfold Spindle.byBand
  simp only [htest, within10_iff]

/-! ### A new target (R67, R68, R73, R77) -/

theorem setTarget_same (h : x = sp.target) : sp.setTarget now x f = { sp with clamped := f } := if_pos h

theorem setTarget_coasting (h : x ≠ sp.target) (hc : sp.state = .coast) :
    sp.setTarget now x f = { sp with target := x, clamped := f } := by rw [Spindle.setTarget, if_neg h, if_pos hc]

theorem setTarget_driven (h : x ≠ sp.target) (hc : sp.state ≠ .coast) : sp.setTarget now x f = { sp with
    target := x, clamped := f
    state := if Within 10 sp.measured x then .coarse else .spinup
    lockTest := if Within 2 sp.measured x then some now else none
    lockLimit := some now, stopLimit := none } := by
  rw [Spindle.setTarget, if_neg h, if_neg hc, byBand_eq]

/-- A target set on a spindle that differs in basis and multiple alone. -/
theorem stateFollowsTarget_of_setTarget (hsp : sp = { s.spindle with basis := b, m := m })
    (h : t.spindle = sp.setTarget s.clock x f) : StateFollowsTarget s t := by
  have htarget : sp.target = s.spindle.target := by rw [hsp]
  have hstate : sp.state = s.spindle.state := by rw [hsp]
  by_cases hx : x = sp.target
  · rw [setTarget_same hx] at h
    simp [StateFollowsTarget, h, hsp]
  · by_cases hc : sp.state = .coast
    · rw [setTarget_coasting hx hc] at h
      simp [StateFollowsTarget, h, hsp, hstate ▸ hc]
    · rw [setTarget_driven hx hc] at h
      simp [StateFollowsTarget, h, hsp, htarget ▸ hx, hstate ▸ hc]

/-! ### A new basis and a new multiple (R69, R72) -/

/-- The spindle with a basis and a multiple, and in CLV mode the target they give. -/
def turned (b : Option Nat) (m : Multiple) (s : State) : Spindle :=
  let sp : Spindle := { s.spindle with basis := b, m := m }
  if sp.mode = .clv then sp.retarget s.clock s.supervisor.cls else sp

/-- The spindle controller takes a basis and a multiple, and nothing happens where both stand already. -/
def respun (b : Option Nat) (m : Multiple) (s : State) : State :=
  if b = s.spindle.basis ∧ m = s.spindle.m then s else speedNotice s.spindle (s.setSpindle (turned b m s))

/-- m computed again is m taken with the basis as it stands (R72). -/
theorem recomputeM_eq (s : State) : recomputeM s = respun s.spindle.basis (effectiveMultiple s) s := by
  unfold recomputeM respun
  simp only [true_and]
  rfl

/-- A fix brings its basis, and m but while MOVING (R69, R72). -/
theorem spindleOnFix_eq (c : Nat) (s : State) : spindleOnFix c s
    = respun (basisAfterFix s c) (if s.supervisor.drive = .moving then s.spindle.m else effectiveMultiple s) s := rfl

/-- In CLV mode with a class and a basis the target is that of R67; otherwise it stays. -/
theorem turned_cases (b : Option Nat) (m : Multiple) (s : State) :
    (∃ k c, s.spindle.mode = .clv ∧ s.supervisor.cls = some k ∧ b = some c ∧
      turned b m s = ({ s.spindle with basis := b, m := m } : Spindle).setTarget s.clock (clvTarget k m c).1
        (clvTarget k m c).2) ∨
    (s.spindle.mode = .clv → s.supervisor.cls = none ∨ b = none) ∧
      turned b m s = { s.spindle with basis := b, m := m } := by
  by_cases hmode : s.spindle.mode = .clv
  · cases hk : s.supervisor.cls with
    | none => exact .inr ⟨fun _ => .inl rfl, by simp [turned, Spindle.retarget, hmode, hk]⟩
    | some k =>
      cases b with
      | none => exact .inr ⟨fun _ => .inr rfl, by simp [turned, Spindle.retarget, hmode, hk]⟩
      | some c => exact .inl ⟨k, c, hmode, rfl, rfl, by simp [turned, Spindle.retarget, hmode, hk]⟩
  · exact .inr ⟨fun h => absurd h hmode, by simp [turned, hmode]⟩

/-- The basis and the multiple are taken; the mode, the held speed and the reading stay. -/
theorem turned_fields (b : Option Nat) (m : Multiple) (s : State) :
    (turned b m s).basis = b ∧ (turned b m s).m = m ∧ (turned b m s).mode = s.spindle.mode ∧
    (turned b m s).held = s.spindle.held ∧ (turned b m s).measured = s.spindle.measured := by
  unfold turned
  dsimp only
  split
  · obtain ⟨hmode, hbasis⟩ := retarget_mode { s.spindle with basis := b, m := m } s.clock s.supervisor.cls
    have hkeeps := retarget_keeps { s.spindle with basis := b, m := m } s.clock s.supervisor.cls
    exact ⟨hbasis, hkeeps.m, hmode, hkeeps.held, hkeeps.measured⟩
  · exact ⟨rfl, rfl, rfl, rfl, rfl⟩

theorem respun_same (hb : b = s.spindle.basis) (hm : m = s.spindle.m) : respun b m s = s := if_pos ⟨hb, hm⟩

theorem respun_moved (h : ¬ (b = s.spindle.basis ∧ m = s.spindle.m)) :
    respun b m s = speedNotice s.spindle (s.setSpindle (turned b m s)) := if_neg h

theorem respun_spindle_moved (h : ¬ (b = s.spindle.basis ∧ m = s.spindle.m)) :
    (respun b m s).spindle = turned b m s := by rw [respun_moved h, speedNotice_spindle, State.setSpindle_spindle]

@[simp] theorem respun_supervisor (b : Option Nat) (m : Multiple) (s : State) :
    (respun b m s).supervisor = s.supervisor := by
  unfold respun
  split <;> simp

theorem respun_fields (b : Option Nat) (m : Multiple) (s : State) :
    (respun b m s).spindle.basis = b ∧ (respun b m s).spindle.m = m ∧ (respun b m s).spindle.mode = s.spindle.mode ∧
    (respun b m s).spindle.held = s.spindle.held ∧ (respun b m s).spindle.measured = s.spindle.measured := by
  by_cases h : b = s.spindle.basis ∧ m = s.spindle.m
  · rw [respun_same h.1 h.2]
    exact ⟨h.1.symm, h.2.symm, rfl, rfl, rfl⟩
  · rw [respun_spindle_moved h]
    exact turned_fields b m s

/-- The target follows the multiple and the basis (R67, R69, R72). -/
theorem respun_retargeted (b : Option Nat) (m : Multiple) (s : State) : Retargeted s (respun b m s) := by
  by_cases h : b = s.spindle.basis ∧ m = s.spindle.m
  · rw [respun_same h.1 h.2]
    simp [Retargeted]
  · obtain ⟨hbasis, hm, hmode, -, -⟩ := respun_fields b m s
    have hmoved : (respun b m s).spindle.m ≠ s.spindle.m ∨ (respun b m s).spindle.basis ≠ s.spindle.basis := by
      rw [hbasis, hm]
      tauto
    unfold Retargeted
    rcases turned_cases b m s with ⟨k, c, hclv, hk, hc, hset⟩ | ⟨hnone, hset⟩
    · obtain ⟨htarget, hclamped, -⟩ := setTarget_stores { s.spindle with basis := b, m := m } s.clock
        (clvTarget k m c).1 (clvTarget k m c).2
      rw [if_pos ⟨hmode.trans hclv, hmoved⟩]
      refine clvTarget_of_eq (k := k) (b := c) (by rw [respun_supervisor, hk]) (hbasis.trans hc) ?_ ?_
      · rw [hm, respun_spindle_moved h, hset, htarget]
      · rw [hm, respun_spindle_moved h, hset, hclamped]
    · split
      · rename_i hclv
        intro k c hk hc
        rcases hnone (hmode.symm.trans hclv.1) with hcls | hb
        · simp [hcls] at hk
        · cases hb.symm.trans (hbasis.symm.trans hc)
      · rw [respun_spindle_moved h, hset]
        exact ⟨rfl, rfl⟩

/-- The state of the spindle follows its target (R73, R74, R77). -/
theorem respun_state (b : Option Nat) (m : Multiple) (s : State) : StateFollowsTarget s (respun b m s) := by
  by_cases h : b = s.spindle.basis ∧ m = s.spindle.m
  · rw [respun_same h.1 h.2]
    simp [StateFollowsTarget]
  · rcases turned_cases b m s with ⟨k, c, -, -, -, hset⟩ | ⟨-, hset⟩
    · exact stateFollowsTarget_of_setTarget rfl ((respun_spindle_moved h).trans hset)
    · simp [StateFollowsTarget, respun_spindle_moved h, hset]

/-- A change of the multiple or of the target is told by a SPEED notice (R80). -/
theorem speedNotice_noticed {before : Spindle} {q : Port}
    (h : s.spindle.m ≠ before.m ∨ s.spindle.target ≠ before.target) (hq : admits (s.port q).mask 3 = true) :
    Laws.Noticed (.speed s.spindle.m s.spindle.target s.spindle.clamped s.spindle.measured) q (speedNotice before s) := by
  have hchanged : ¬ (before.m = s.spindle.m ∧ before.target = s.spindle.target) := by
    rintro ⟨hm, htarget⟩
    exact h.elim (absurd hm.symm) (absurd htarget.symm)
  rw [speedNotice, if_neg hchanged]
  exact noticed_offer _ hq

/-- A SPEED notice tells what changed (R80). -/
theorem respun_speedNoticed (b : Option Nat) (m : Multiple) (s : State) : SpeedNoticed s (respun b m s) := by
  by_cases h : b = s.spindle.basis ∧ m = s.spindle.m
  · rw [respun_same h.1 h.2]
    simp [SpeedNoticed]
  · intro hchange q hq
    rw [respun_spindle_moved h] at hchange ⊢
    rw [respun_moved h]
    exact speedNotice_noticed (s := s.setSpindle (turned b m s)) hchange (by rw [State.setSpindle_port]; exact hq)

/-- What stood in a queue, but a SPEED notice, stands there still. -/
theorem respun_noticed {n : Notice} {q : Port} (h : Laws.Noticed n q s) (hn : n.code ≠ 3) :
    Laws.Noticed n q (respun b m s) := by
  unfold respun
  split
  · exact h
  · exact (h.congr (by simp)).speedNotice hn

/-! ### The multiple (R71) -/

/-- The terms of m are the held speed, the cap of the zone and the road term. -/
theorem effectiveMultiple_val (s : State) : (effectiveMultiple s).val
    = min s.spindle.held.val (min (zoneCap s) (if s.recovery.rough = true then 1 else 4)) := by
  have hroad : (roadTerm s).val = if s.recovery.rough = true then 1 else 4 := by
    unfold roadTerm
    split <;> rfl
  have hzone : (zoneTerm s).val = zoneCap s := by
    have haddress : zoneAddress s = if s.supervisor.drive = .moving then s.planner.target else lastGood s := rfl
    unfold zoneTerm zoneCap
    rw [haddress]
    generalize (if s.supervisor.drive = .moving then s.planner.target else lastGood s) = address
    cases address <;> rfl
  rw [effectiveMultiple, least_val, least_val, hroad, hzone, min_assoc]

theorem leastMultiple_of_effective (h : s.spindle.m = effectiveMultiple s) : LeastMultiple s := by
  rw [LeastMultiple, h, effectiveMultiple_val]

/-! ### States that agree on what these statements speak of -/

theorem retargeted_congr (h : Retargeted s t) (hs : s'.spindle = s.spindle) (ht : t'.spindle = t.spindle)
    (hc : t'.supervisor.cls = t.supervisor.cls) : Retargeted s' t' := by
  unfold Retargeted ClvTarget at *
  rw [hs, ht, hc]
  exact h

theorem stateFollowsTarget_congr (h : StateFollowsTarget s t) (hs : s'.spindle = s.spindle) (hc : s'.clock = s.clock)
    (ht : t'.spindle = t.spindle) : StateFollowsTarget s' t' := by
  unfold StateFollowsTarget at *
  rw [hs, hc, ht]
  exact h

theorem speedNoticed_congr (h : SpeedNoticed s t) (hs : s'.spindle = s.spindle) (ht : t'.spindle = t.spindle)
    (hmask : ∀ q, (s'.port q).mask = (s.port q).mask) (hqueue : ∀ q, (t'.port q).queue = (t.port q).queue) :
    SpeedNoticed s' t' := by
  unfold SpeedNoticed Safety.Noticed at *
  simp only [hs, ht, hmask, hqueue]
  exact h

end Sys2Proof.Proofs
end

section
/-! SET ZONE and SET DEFAULT ZONE (R27, R28): the announced zone, what a rewrite of the zone table moves, and the search of
an ACQUIRE that waited for the spindle. -/

namespace Sys2Proof.Proofs

set_option Elab.async false

open Sys2Proof.Machine Sys2Proof.Safety Sys2Proof.Laws

variable {s t s' t' : State} {p : Port} {tag : Byte} {z : ZoneTable}

/-! ### The announced zone (R31 to R33) -/

/-- The comparison announces the zone of the fix on track, and leaves the announced zone otherwise. -/
theorem compareZone_announces (s : State) : ZoneAnnounced s (compareZone s) where
  onTrack f hf hdrive := by
    rw [compareZone_monitor] at hf
    rw [compareZone_supervisor] at hdrive
    by_cases ha : s.zones.announced = some f.zone
    · simp [compareZone, hf, ha]
    · have hcompare : compareZone s = offer (.zone f.zone s.zones.announced f.address (s.zones.decode f.address).cap
          (s.zones.decode f.address).access) (s.setZones { s.zones with announced := some f.zone }) := by
        simp [compareZone, hf, hdrive, ha]
      rw [hcompare]
      refine ⟨rfl, fun _ q hq => noticed_offer _ ?_⟩
      rw [State.setZones_port]
      exact hq
  otherwise h := by
    rw [compareZone_monitor, compareZone_supervisor] at h
    unfold compareZone
    rcases h with hnone | hdrive
    · rw [hnone]
    · split
      · rfl
      · rw [if_neg (fun h => hdrive h.1)]

/-- A comparison that leaves the announced zone has announced nothing. -/
theorem compareZone_quiet (h : (compareZone s).zones.announced = s.zones.announced) : compareZone s = s := by
  unfold compareZone at h ⊢
  split at h
  · rfl
  · rename_i f _
    split at h
    · rename_i hnew
      exact absurd h.symm hnew.2
    · rename_i hold
      rw [if_neg hold]

/-- The announced zone is told between states that agree on it, with every ZONE notice still in its queue. -/
theorem zoneAnnounced_congr (h : ZoneAnnounced s t) (ha : s'.zones.announced = s.zones.announced)
    (hmask : ∀ q, (s'.port q).mask = (s.port q).mask) (hz : t'.zones = t.zones) (hf : t'.monitor.fix = t.monitor.fix)
    (hd : t'.supervisor.drive = t.supervisor.drive)
    (hn : ∀ n q, n.code = 7 → Laws.Noticed n q t → Laws.Noticed n q t') : ZoneAnnounced s' t' where
  onTrack f hfix hdrive := by
    rw [hf] at hfix
    rw [hd] at hdrive
    obtain ⟨hannounced, hnotice⟩ := h.onTrack f hfix hdrive
    rw [hz, ha]
    exact ⟨hannounced, fun hnew q hq => hn _ q rfl (hnotice hnew q (hmask q ▸ hq))⟩
  otherwise hout := by
    rw [hf, hd] at hout
    rw [hz, ha, h.otherwise hout]

/-! ### A rewrite of the table (R31, R34) -/

/-- The fix decoded again. -/
def redecoded (s : State) : State := s.setMonitor { s.monitor with
  fix := s.monitor.fix.map (fun f => { f with zone := (s.zones.decode f.address).zone }) }

/-- The comparison of zones, and m computed again, on the fix decoded again. -/
theorem zoneRewritten_eq (s : State) : zoneRewritten s
    = respun s.spindle.basis (effectiveMultiple (compareZone (redecoded s))) (compareZone (redecoded s)) := by
  have hbasis : (compareZone (redecoded s)).spindle.basis = s.spindle.basis := by simp [redecoded]
  rw [← hbasis]
  exact recomputeM_eq _

theorem zoneRewritten_zones (s : State) : (zoneRewritten s).zones = (compareZone (redecoded s)).zones := recomputeM_zones _

@[simp] theorem zoneRewritten_entries (s : State) : (zoneRewritten s).zones.entries = s.zones.entries :=
  (Keeps.refl s).zoneRewritten.entries

@[simp] theorem zoneRewritten_defaultCap (s : State) : (zoneRewritten s).zones.defaultCap = s.zones.defaultCap :=
  (Keeps.refl s).zoneRewritten.defaultCap

@[simp] theorem zoneRewritten_decode (s : State) (a : Nat) : (zoneRewritten s).zones.decode a = s.zones.decode a :=
  decode_congr (zoneRewritten_entries s) (zoneRewritten_defaultCap s) a

@[simp] theorem zoneRewritten_monitor (s : State) : (zoneRewritten s).monitor = (redecoded s).monitor := by
  simp [zoneRewritten, redecoded]

@[simp] theorem zoneRewritten_clock (s : State) : (zoneRewritten s).clock = s.clock := by simp [zoneRewritten]
@[simp] theorem zoneRewritten_arbiter (s : State) : (zoneRewritten s).arbiter = s.arbiter := by simp [zoneRewritten]
@[simp] theorem zoneRewritten_planner (s : State) : (zoneRewritten s).planner = s.planner := by simp [zoneRewritten]
@[simp] theorem zoneRewritten_map (s : State) : (zoneRewritten s).map = s.map := by simp [zoneRewritten]
@[simp] theorem zoneRewritten_optics (s : State) : (zoneRewritten s).optics = s.optics := by simp [zoneRewritten]
@[simp] theorem zoneRewritten_sled (s : State) : (zoneRewritten s).sled = s.sled := by simp [zoneRewritten]
@[simp] theorem zoneRewritten_recovery (s : State) : (zoneRewritten s).recovery = s.recovery := by simp [zoneRewritten]
@[simp] theorem zoneRewritten_supervisor (s : State) : (zoneRewritten s).supervisor = s.supervisor := by
  simp [zoneRewritten]

/-- The effective multiple after a rewrite is the one it was computed as. -/
theorem zoneRewritten_m (s : State) : (zoneRewritten s).spindle.m = effectiveMultiple (zoneRewritten s) := by
  have hm : (zoneRewritten s).spindle.m = effectiveMultiple (compareZone (redecoded s)) := (recomputeM_spindle _).1
  rw [hm]
  apply effectiveMultiple_congr <;> simp [zoneRewritten, redecoded]

/-- A rewrite that leaves m and the announced zone leaves the spindle and the ports. -/
theorem zoneRewritten_quiet (hm : (zoneRewritten s).spindle.m = s.spindle.m)
    (ha : (zoneRewritten s).zones.announced = s.zones.announced) :
    (zoneRewritten s).spindle = s.spindle ∧ ∀ q, (zoneRewritten s).port q = s.port q := by
  have hcompare : compareZone (redecoded s) = redecoded s := compareZone_quiet (by rw [← zoneRewritten_zones, ha]; rfl)
  have hsame : zoneRewritten s = redecoded s := by
    rw [zoneRewritten_eq, hcompare]
    refine respun_same rfl ?_
    rw [zoneRewritten_eq, hcompare, (respun_fields _ _ _).2.1] at hm
    exact hm
  rw [hsame]
  exact ⟨rfl, fun q => State.setMonitor_port _ _ q⟩

/-- What follows when a table with the same announced zone takes the place of the table (R31, R32, R34, R67, R73, R80). -/
theorem zonesRewritten (s : State) (z : ZoneTable) (ha : z.announced = s.zones.announced) :
    ZonesRewritten s (zoneRewritten (s.setZones z)) := by
  obtain ⟨v, hv⟩ : ∃ v, v = compareZone (redecoded (s.setZones z)) := ⟨_, rfl⟩
  have hrespun : zoneRewritten (s.setZones z) = respun s.spindle.basis (effectiveMultiple v) v := by
    rw [zoneRewritten_eq, ← hv]
    rfl
  have hspindle : v.spindle = s.spindle := by simp [hv, redecoded]
  have hclock : v.clock = s.clock := by simp [hv, redecoded]
  have hcompared : Keeps [] (redecoded (s.setZones z)) v := hv ▸ (Keeps.refl _).compareZone
  have hports (q : Port) : (redecoded (s.setZones z)).port q = s.port q := by simp [redecoded]
  have hmask (q : Port) : (s.port q).mask = (v.port q).mask := by rw [(hcompared.port q).mask, hports]
  obtain ⟨hbasis, -, hmode, hheld, -⟩ := respun_fields s.spindle.basis (effectiveMultiple v) v
  refine { fix := by simp [redecoded], multiple := leastMultiple_of_effective (zoneRewritten_m _), held := ?held,
           target := ?target, state := ?state, speed := ?speed, announced := ?announced, quiet := ?quiet,
           clock := by simp, arbiter := by simp, planner := by simp, map := by simp, optics := by simp,
           sled := by simp, recovery := by simp, supervisor := by simp }
  case held =>
    rw [hrespun, hheld, hmode, hbasis, hspindle]
    exact ⟨rfl, rfl, rfl⟩
  case target =>
    rw [hrespun]
    exact retargeted_congr (respun_retargeted _ _ _) hspindle.symm rfl rfl
  case state =>
    rw [hrespun]
    exact stateFollowsTarget_congr (respun_state _ _ _) hspindle.symm hclock.symm rfl
  case speed =>
    rw [hrespun]
    exact speedNoticed_congr (respun_speedNoticed _ _ _) hspindle.symm rfl hmask fun _ => rfl
  case announced =>
    have hcompare : ZoneAnnounced (redecoded (s.setZones z)) v := hv ▸ compareZone_announces _
    refine zoneAnnounced_congr hcompare ha.symm (fun q => by rw [hports]) (hv ▸ zoneRewritten_zones _) ?_ ?_
      fun n q hn h => ?_
    · simp [hv]
    · simp [hv, redecoded]
    · rw [hrespun]
      exact respun_noticed h (by rw [hn]; decide)
  case quiet =>
    intro hm hannounced
    obtain ⟨hsame, hsameports⟩ := zoneRewritten_quiet (s := s.setZones z) hm (hannounced.trans ha.symm)
    exact ⟨hsame, fun q => (hsameports q).trans (State.setZones_port _ _ q)⟩

/-! ### An ACQUIRE that waited for the spindle (R39, R78) -/

/-- The search of ACQUIRE begins, when focus can search at once (R39, R86). -/
theorem acquireSearch_begins (hfocus : s.optics.focus ≠ .locked) (hswitch : s.optics.switch = none)
    (hprofile : s.optics.profile ≠ none) : acquireSearch s
      = beginSearch .planner s.recovery.retryCount (s.setPlanner { s.planner with acquireStep := .search }) := by
  simp [acquireSearch, focusSearch, hfocus, hswitch, hprofile]

theorem onSpindleReady_waiting (hident : s.supervisor.ident = none) (hstep : s.planner.acquireStep = .spin) :
    onSpindleReady s = if s.spindle.state.ready then acquireSearch s else s := by
  simp [onSpindleReady, identIn, hident, hstep]

/-- An ACQUIRE that waits for the spindle, with nothing else to follow, searches once the spindle is COARSE or LOCKED. -/
theorem react_acquire (hwaiting : s.arbiter.waiting = []) (hident : s.supervisor.ident = none)
    (hstep : s.planner.acquireStep = .spin) (hfocus : s.optics.focus ≠ .locked) (hswitch : s.optics.switch = none)
    (hprofile : s.optics.profile ≠ none) : react s = if s.spindle.state.ready then
      beginSearch .planner s.recovery.retryCount (s.setPlanner { s.planner with acquireStep := .search }) else s := by
  have htest : ∀ v : State, v.arbiter.waiting = [] → testHeads 3 v = v := fun v hv => by simp [testHeads, testHead, hv]
  have hready := onSpindleReady_waiting hident hstep
  by_cases hspindle : s.spindle.state.ready = true
  · rw [if_pos hspindle, acquireSearch_begins hfocus hswitch hprofile] at hready
    rw [react, hready, htest _ (by simpa using hwaiting), if_pos hspindle]
    simp [onSpindleReady, identIn, hident]
  · rw [if_neg hspindle] at hready
    rw [react, hready, htest s hwaiting, hready, if_neg hspindle]

/-- A search that begins with focus not LOCKED leaves the fix as it is (R86, R111). -/
theorem beginSearch_unlocked {r : Requester} {n : Nat} (h : s.optics.focus ≠ .locked) :
    (beginSearch r n s).monitor = s.monitor ∧ SearchBegun r n s (beginSearch r n s) := by
  simp [beginSearch, setFocus, SearchBegun, h]

theorem ready_iff (x : SpindleState) : x.ready = true ↔ x = .coarse ∨ x = .locked := by
  cases x <;> simp [SpindleState.ready]

/-! ### The reply (R27, R28) -/

/-- What no operation of the blocks changes. -/
theorem settingsSame_of_keeps {L : List Motion} (h : Keeps L s t) : SettingsSame s t where
  clock := h.clock
  entries := h.entries
  defaultCap := h.defaultCap
  retryCount := h.retryCount
  amTime := h.amTime
  clamp := h.clamp
  supply := h.supply
  mask q := (h.port q).mask
  holdoff q := ⟨(h.port q).holdoff, (h.port q).holdoffLeft⟩

/-- Nor does the reply to a request. -/
theorem settingsSame_answer {st : Status} {d : List Byte} (h : SettingsSame s t) : SettingsSame s (t.answer p tag st d) where
  clock := by rw [answer_clock, h.clock]
  entries := by rw [answer_zones, h.entries]
  defaultCap := by rw [answer_zones, h.defaultCap]
  retryCount := by rw [answer_recovery, h.retryCount]
  amTime := by rw [answer_recovery, h.amTime]
  clamp := by rw [answer_supervisor, h.clamp]
  supply := by rw [answer_supervisor, h.supply]
  mask q := by
    rw [← h.mask q, answer_port]
    split <;> simp [*]
  holdoff q := by
    rw [← (h.holdoff q).1, ← (h.holdoff q).2, answer_port]
    split <;> simp [*]

theorem answer_reply (p : Port) (tag : Byte) (st : Status) (d : List Byte) (s : State) :
    ((s.answer p tag st d).port p).reply = some ⟨st, tag, d⟩ := by simp

/-- The reply to a rewrite, after what follows it. -/
theorem tableGoverns (p : Port) (tag : Byte) (data : List Byte) (s : State) (z : ZoneTable)
    (ha : z.announced = s.zones.announced) :
    TableGoverns p tag z.entries z.defaultCap data s ((react (zoneRewritten (s.setZones z))).answer p tag .accepted
      (data ++ [fixZoneField (zoneRewritten (s.setZones z))])) := by
  obtain ⟨u, hu⟩ : ∃ u, u = zoneRewritten (s.setZones z) := ⟨_, rfl⟩
  have hrewritten : ZonesRewritten s u := hu ▸ zonesRewritten s z ha
  rw [← hu]
  refine ⟨u, by simp [hu], by simp [hu], hrewritten, answer_reply ..,
    settingsSame_answer (settingsSame_of_keeps (Keeps.refl u).react), fun hsettled => ?settled,
    fun hwaiting hident hstep hfocus hswitch hprofile => ?acquire⟩
  case settled =>
    have hquiet : Settled u := by
      rw [Settled, hrewritten.arbiter, hrewritten.supervisor, hrewritten.planner]
      exact hsettled
    rw [react_settled hquiet]
    rfl
  case acquire =>
    rw [← hrewritten.arbiter] at hwaiting
    rw [← hrewritten.supervisor] at hident
    rw [← hrewritten.planner] at hstep
    rw [← hrewritten.optics] at hfocus hswitch hprofile
    rw [react_acquire hwaiting hident hstep hfocus hswitch hprofile]
    simp only [answer_spindle, answer_zones, answer_monitor, answer_arbiter, answer_planner, answer_optics]
    by_cases hready : u.spindle.state.ready = true
    · obtain ⟨hmonitor, hsearch⟩ := beginSearch_unlocked (r := .planner) (n := u.recovery.retryCount)
        (s := u.setPlanner { u.planner with acquireStep := .search }) hfocus
      rw [if_pos hready]
      refine ⟨by simp, by simp, hmonitor, by simpa using hrewritten.arbiter, ?_⟩
      rw [if_pos (by simpa [ready_iff] using hready)]
      obtain ⟨hsearching, hrequester, hallowed, hattempt, htimer⟩ := hsearch
      refine ⟨by simp [hrewritten.planner], hsearching, hrequester, ?_, hattempt, ?_⟩
      · rw [hallowed, hrewritten.recovery]
      · rw [htimer, State.setPlanner_clock, hrewritten.clock]
    · rw [if_neg hready]
      refine ⟨rfl, rfl, rfl, hrewritten.arbiter, ?_⟩
      rw [if_neg (by simpa [ready_iff] using hready)]
      exact ⟨hrewritten.planner, hrewritten.optics⟩

/-! ### SET ZONE and SET DEFAULT ZONE (R27, R28) -/

/-- A cap or speed byte brought into the set 1, 2, 4 (R27, R119). -/
theorem clampSpeed_val (v : Byte) :
    (clampSpeed v).val = if v.toNat = 0 then 1 else if v.toNat = 3 then 2 else min v.toNat 4 := by
  unfold clampSpeed
  split_ifs <;> simp only [Multiple.val] <;> omega

theorem access?_code (acc : Access) : access? acc.code = some acc := by cases acc <;> rfl

theorem access?_above {v : Byte} (h : 1 < v.toNat) : access? v = none := by
  have hne : ∀ w : Byte, w.toNat ≤ 1 → v ≠ w := by
    rintro w hw rfl
    omega
  rw [access?, if_neg (hne 0 (by decide)), if_neg (hne 1 (by decide))]

variable {index enabled cap access : Byte} {base mask : Addr} {acc : Access}

theorem writeZone_refused (h : 7 < index.toNat ∨ 1 < access.toNat) :
    writeZone index enabled base mask cap access s = (s, .outOfRange, []) := by
  unfold writeZone
  split
  · rfl
  · rename_i hacc
    have hindex : 7 < index.toNat := h.resolve_right fun habove => by simp [access?_above habove] at hacc
    rw [if_pos hindex]

/-- The rewrite of one entry. -/
theorem writeZone_stores (hindex : index.toNat ≤ 7) : writeZone index enabled base mask cap acc.code s =
    (react (zoneRewritten (s.setZones { s.zones with
        entries := s.zones.entries.set index.toNat ⟨enabled != 0, base, mask, clampSpeed cap, acc⟩ })), .accepted,
      ([index, flagByte (enabled != 0)] ++ bytes3 base.toNat ++ bytes3 mask.toNat ++ [(clampSpeed cap).code, acc.code])
        ++ [fixZoneField (zoneRewritten (s.setZones { s.zones with
          entries := s.zones.entries.set index.toNat ⟨enabled != 0, base, mask, clampSpeed cap, acc⟩ }))]) := by
  simp only [writeZone, access?_code, if_neg (Nat.not_lt.2 hindex)]
  rfl

/-- Settles O18: the two requests rewrite the table, and `tableGoverns` says what follows. -/
theorem zoneRequestsRewriteTheTable : Obligations.ZoneRequestsRewriteTheTable := by
  refine ⟨clampSpeed_val, fun p tag index enabled base mask cap access s => ⟨fun htakes hbad => ?refused,
    fun acc htakes hindex haccess => ?entry⟩, fun p tag cap s htakes => ?default⟩
  case refused => exact exec_takes rfl rfl htakes (writeZone_refused hbad)
  case entry =>
    subst haccess
    exact ⟨_, exec_takes rfl rfl htakes (writeZone_stores hindex), tableGoverns p tag _ s { s.zones with
      entries := s.zones.entries.set index.toNat ⟨enabled != 0, base, mask, clampSpeed cap, acc⟩ } rfl⟩
  case default =>
    exact ⟨_, exec_takes rfl rfl htakes rfl,
      tableGoverns p tag [(clampSpeed cap).code] s { s.zones with defaultCap := clampSpeed cap } rfl⟩

end Sys2Proof.Proofs
end

section
/-! A good address in a hold (R94, R105 to R110): the report that becomes the fix, and the back-jump that keeps the hold. -/

namespace Sys2Proof.Proofs

set_option Elab.async false

open Sys2Proof.Machine Sys2Proof.Safety Sys2Proof.Laws

variable {s : State} {k : DiscClass} {a c h : Nat}

/-! ### The report is taken (R106 to R109, R112) -/

/-- The expected-coordinate check passes for a coordinate within 2 tracks of the expected course (R112). -/
theorem jumps_eq_false (hp : s.map.predict a = some c)
    (hcourse : fixFresh s = true → ∀ b, s.monitor.expectedBase = some b →
      ((c : Int) - ((b : Int) + s.monitor.jumpSum)).natAbs ≤ 2) : jumps a s = false := by
  cases hfresh : fixFresh s with
  | false => simp [jumps, hfresh]
  | true =>
    have hon : offCourse c s = false := by
      unfold offCourse
      split
      · rename_i b hb
        exact decide_eq_false (Nat.not_lt.2 (hcourse hfresh b hb))
      · rfl
    simp [jumps, hp, hon]

/-- A good address of the class on a quiet track is taken as a fix. -/
theorem judge_takes (hdrive : s.supervisor.drive = .onTrack) (hk : s.supervisor.cls = some k) (ha : a ≤ k.maxAddress)
    (hfocus : s.optics.focus = .locked) (htrack : s.optics.tracking = .closed ∨ s.optics.tracking = .hold)
    (hleg : s.planner.legStage = .idle) (hphase : activePhase s ≠ some .suspended) (hjump : jumps a s = false) :
    judge a true s = (takeFix a s, .fix) := by
  have hclass : reportClass s = some k := by simp [reportClass, hdrive, hk]
  have haside : setsReportAside s = false := by
    rcases htrack with htrack | htrack <;> simp [setsReportAside, hfocus, htrack, hleg, hphase, hdrive]
  simp [judge, hclass, haside, hdrive, hjump, Nat.not_lt.2 ha]

/-! ### The fix is taken (R32, R69, R72, R110) -/

/-- What the address monitor, the zone table and the spindle do with a new fix. -/
def fixTaken (a c : Nat) (s : State) : State := spindleOnFix c (compareZone (storeFix a c s))

/-- While the drive holds, of the blocks that receive the fix only the loops may act (R94, R110). -/
theorem takeFix_holding (hp : s.map.predict a = some c) (hstep : s.planner.acquireStep = .none)
    (hleg : s.planner.legStage = .idle) (hactive : s.arbiter.active = none) (hphase : s.recovery.phase = .none) :
    takeFix a s = holdOnFix a s (fixTaken a c s) := by
  have hplanner (v : State) : plannerOnFix a s v = v := by
    simp [plannerOnFix, hstep, hleg, activePhase, hactive, hphase]
  have harbiter (v : State) : arbiterOnFix a s v = v := by simp [arbiterOnFix, hactive]
  have hrecovery (v : State) : recoveryOnFix s v = v := by simp [recoveryOnFix, hphase]
  simp only [takeFix, hp, hplanner, harbiter, hrecovery]
  rfl

theorem storeFix_monitor (a c : Nat) (s : State) : (storeFix a c s).monitor = { s.monitor with
    fix := some ⟨a, c, s.clock, (s.zones.decode a).zone, true⟩
    expectedBase := some c, jumpSum := 0, started := true, elapsed := 0, limit := s.recovery.amTime } := rfl

theorem storeFix_port (a c : Nat) (s : State) (q : Port) : (storeFix a c s).port q = s.port q := by simp [storeFix]

@[simp] theorem fixTaken_monitor (a c : Nat) (s : State) : (fixTaken a c s).monitor = (storeFix a c s).monitor := by
  simp [fixTaken]
@[simp] theorem fixTaken_clock (a c : Nat) (s : State) : (fixTaken a c s).clock = s.clock := by simp [fixTaken, storeFix]
@[simp] theorem fixTaken_arbiter (a c : Nat) (s : State) : (fixTaken a c s).arbiter = s.arbiter := by
  simp [fixTaken, storeFix]
@[simp] theorem fixTaken_planner (a c : Nat) (s : State) : (fixTaken a c s).planner = s.planner := by
  simp [fixTaken, storeFix]
@[simp] theorem fixTaken_map (a c : Nat) (s : State) : (fixTaken a c s).map = s.map := by simp [fixTaken, storeFix]
@[simp] theorem fixTaken_optics (a c : Nat) (s : State) : (fixTaken a c s).optics = s.optics := by
  simp [fixTaken, storeFix]
@[simp] theorem fixTaken_recovery (a c : Nat) (s : State) : (fixTaken a c s).recovery = s.recovery := by
  simp [fixTaken, storeFix]
@[simp] theorem fixTaken_supervisor (a c : Nat) (s : State) : (fixTaken a c s).supervisor = s.supervisor := by
  simp [fixTaken, storeFix]

theorem fixTaken_keeps (a c : Nat) (s : State) : Keeps [] (storeFix a c s) (fixTaken a c s) :=
  (Keeps.refl _).compareZone.spindleOnFix

theorem fixTaken_entries (a c : Nat) (s : State) : (fixTaken a c s).zones.entries = s.zones.entries :=
  (fixTaken_keeps a c s).entries

/-- The basis moves to a coordinate 64 tracks or more away while the drive is ON_TRACK (R69). -/
theorem basisAfterFix_onTrack (hdrive : s.supervisor.drive = .onTrack) (c : Nat) : basisAfterFix s c
    = s.spindle.basis.map (fun b : Nat => if 64 ≤ ((c : Int) - (b : Int)).natAbs then c else b) := by
  unfold basisAfterFix
  cases s.spindle.basis with
  | none => rfl
  | some b =>
    have hfar : (b + 64 ≤ c ∨ c + 64 ≤ b) ↔ 64 ≤ ((c : Int) - (b : Int)).natAbs := by omega
    simp only [hdrive, true_and, hfar, Option.map_some]
    split <;> rfl

/-- What the fix on track does to the announced zone and to the spindle (R32, R33, R67, R69, R71, R72, R80). -/
structure FixGoverns (c : Nat) (s t : State) : Prop where
  announced : ZoneAnnounced s t
  basis : t.spindle.basis = s.spindle.basis.map (fun b : Nat => if 64 ≤ ((c : Int) - (b : Int)).natAbs then c else b)
  held : t.spindle.held = s.spindle.held
  mode : t.spindle.mode = s.spindle.mode
  multiple : LeastMultiple t
  target : Retargeted s t
  speed : SpeedNoticed s t

theorem fixTaken_governs (hdrive : s.supervisor.drive = .onTrack) (a c : Nat) : FixGoverns c s (fixTaken a c s) := by
  obtain ⟨v, hv⟩ : ∃ v, v = compareZone (storeFix a c s) := ⟨_, rfl⟩
  have hspindle : v.spindle = s.spindle := by simp [hv, storeFix]
  have hmoving : v.supervisor.drive ≠ .moving := by simp [hv, storeFix, hdrive]
  have hmask (q : Port) : (s.port q).mask = (v.port q).mask := by
    rw [hv, ((Keeps.refl _).compareZone.port q).mask, storeFix_port]
  have hrespun : fixTaken a c s = respun (basisAfterFix v c) (effectiveMultiple v) v := by
    rw [fixTaken, ← hv, spindleOnFix_eq, if_neg hmoving]
  have hbasisAfter : basisAfterFix v c = s.spindle.basis.map
      (fun b : Nat => if 64 ≤ ((c : Int) - (b : Int)).natAbs then c else b) := by
    rw [basisAfterFix_onTrack (by simp [hv, storeFix, hdrive]), hspindle]
  obtain ⟨hbasis, hm, hmode, hheld, -⟩ := respun_fields (basisAfterFix v c) (effectiveMultiple v) v
  refine { announced := ?announced, basis := ?basis, held := ?held, mode := ?mode, multiple := ?multiple,
           target := ?target, speed := ?speed }
  case announced =>
    have hcompare : ZoneAnnounced (storeFix a c s) v := hv ▸ compareZone_announces _
    refine zoneAnnounced_congr hcompare rfl (fun q => by rw [storeFix_port]) ?_ ?_ ?_ fun n q hn hnoticed => ?_
    · simp [fixTaken, hv]
    · simp [hv]
    · simp [hv, storeFix]
    · rw [hrespun]
      exact respun_noticed hnoticed (by rw [hn]; decide)
  case basis => rw [hrespun, hbasis, hbasisAfter]
  case held => rw [hrespun, hheld, hspindle]
  case mode => rw [hrespun, hmode, hspindle]
  case multiple =>
    apply leastMultiple_of_effective
    have hheldSame : v.spindle.held = (fixTaken a c s).spindle.held := by rw [hrespun, hheld]
    rw [hrespun, hm, ← hrespun]
    apply effectiveMultiple_congr hheldSame <;> simp [fixTaken, hv]
  case target =>
    rw [hrespun]
    exact retargeted_congr (respun_retargeted _ _ _) hspindle.symm rfl rfl
  case speed =>
    rw [hrespun]
    exact speedNoticed_congr (respun_speedNoticed _ _ _) hspindle.symm rfl hmask fun _ => rfl

/-- A state that differs from it in the loops, the sled and the replies alone is governed so too. -/
theorem fixGoverns_congr {t t' : State} (hg : FixGoverns c s t) (hz : t'.zones = t.zones) (hf : t'.monitor = t.monitor)
    (hs : t'.supervisor = t.supervisor) (hsp : t'.spindle = t.spindle) (hp : t'.planner = t.planner)
    (hr : t'.recovery = t.recovery) (hq : ∀ q, (t'.port q).queue = (t.port q).queue) : FixGoverns c s t' where
  announced := zoneAnnounced_congr hg.announced rfl (fun _ => rfl) hz (by rw [hf]) (by rw [hs])
    fun n q _ hn => by rw [Laws.Noticed, hq]; exact hn
  basis := by rw [hsp, hg.basis]
  held := by rw [hsp, hg.held]
  mode := by rw [hsp, hg.mode]
  multiple := by
    have hleast := hg.multiple
    unfold LeastMultiple zoneCap lastGood at hleast ⊢
    rw [hsp, hs, hp, hf, hz, hr]
    exact hleast
  target := retargeted_congr hg.target rfl hsp (by rw [hs])
  speed := speedNoticed_congr hg.speed rfl hsp (fun _ => rfl) hq

/-! ### The hold (R94) -/

/-- Above the hold address a fix starts a back-jump of one track; at or below it nothing (R94). -/
theorem holdOnFix_above {v : State} (hhold : s.optics.tracking = .hold) (ha : s.optics.holdAddress = some h)
    (hv : v.optics = s.optics) (hlt : h < a) : holdOnFix a s v = beginJump (-1) .hold v := by
  simp [holdOnFix, ha, hhold, hv, hlt]

theorem holdOnFix_within {v : State} (ha : s.optics.holdAddress = some h) (hle : a ≤ h) : holdOnFix a s v = v := by
  simp [holdOnFix, ha, Nat.not_lt.2 hle]

/-- The loops and the sled are all that a back-jump changes. -/
theorem holdOnFix_cases (a : Nat) (s v : State) : holdOnFix a s v = v ∨ holdOnFix a s v = beginJump (-1) .hold v := by
  unfold holdOnFix
  split
  · split
    · exact .inr rfl
    · exact .inl rfl
  · exact .inl rfl

/-- Settles O41: `fixTaken` says what the fix moves, `holdOnFix` what the hold does. -/
theorem goodAddressBecomesTheFix : Obligations.GoodAddressBecomesTheFix := by
  intro p tag address k c h s htakes hk hmax hp hholding hfocus htrack haddress hstep hcourse
  obtain ⟨⟨hdrive, hleg, hphase, hwaiting, hident, -⟩, hactive, -, -⟩ := hholding
  obtain ⟨a, ha⟩ : ∃ a, a = address.toNat := ⟨_, rfl⟩
  rw [← ha] at hmax hp ⊢
  obtain ⟨w, hw⟩ : ∃ w, w = holdOnFix a s (fixTaken a c s) := ⟨_, rfl⟩
  have hjudge : judge a true s = (w, .fix) := by
    rw [judge_takes hdrive hk hmax hfocus (.inr htrack) hleg (by simp [activePhase, hactive]) (jumps_eq_false hp hcourse),
      takeFix_holding hp hstep hleg hactive hphase, hw]
  have hkept : w.monitor = (storeFix a c s).monitor ∧ w.supervisor = s.supervisor ∧ w.arbiter = s.arbiter ∧
      w.map = s.map ∧ w.planner = s.planner ∧ w.zones.entries = s.zones.entries ∧ FixGoverns c s w := by
    have hgoverns := fixTaken_governs hdrive a c
    rcases holdOnFix_cases a s (fixTaken a c s) with hstill | hjump
    · rw [hw, hstill]
      simp [hgoverns, fixTaken_entries]
    · rw [hw, hjump]
      refine ⟨by simp, by simp, by simp, by simp, by simp, fixTaken_entries a c s, ?_⟩
      exact fixGoverns_congr hgoverns (beginJump_zones ..) (beginJump_monitor ..) (beginJump_supervisor ..)
        (beginJump_spindle ..) (beginJump_planner ..) (beginJump_recovery ..) fun q => by rw [beginJump_port]
  obtain ⟨hmonitor, hsupervisor, harbiter, hmap, hplanner, hentries, hgoverns⟩ := hkept
  have hsettled : Settled w := by simp [Settled, hsupervisor, harbiter, hplanner, hwaiting, hident, hstep]
  have howner : reportAddress address 0 s = (w, .accepted, [0]) := by
    simp only [reportAddress, goodFlag?, if_true, ← ha, hjudge, react_settled hsettled]
    rfl
  have hanswered : FixGoverns c s (w.answer p tag .accepted [0]) :=
    fixGoverns_congr hgoverns (answer_zones ..) (answer_monitor ..) (answer_supervisor ..) (answer_spindle ..)
      (answer_planner ..) (answer_recovery ..) fun q => answer_queue p q tag _ _ w
  refine ⟨_, exec_takes rfl rfl htakes howner, answer_reply .., ?monitor, ?supervisor, ?arbiter, ?map, ?entries,
    hanswered.announced, hanswered.basis, hanswered.held, hanswered.mode, hanswered.multiple, hanswered.target,
    hanswered.speed, fun habove => ?above, fun hwithin => ?within⟩
  case monitor => rw [answer_monitor, hmonitor, storeFix_monitor]
  case supervisor => rw [answer_supervisor, hsupervisor]
  case arbiter => rw [answer_arbiter, harbiter]
  case map => rw [answer_map, hmap]
  case entries => rw [answer_zones, hentries]
  case above =>
    rw [answer_optics, hw, holdOnFix_above htrack haddress (fixTaken_optics a c s) habove]
    simp [beginJump]
  case within => rw [answer_optics, hw, holdOnFix_within haddress hwithin, fixTaken_optics]

end Sys2Proof.Proofs
end

section
/-! Track crossings and tracking closes (R90, R92, R94, R112, R113): the end of a jump, and whom a close is reported to. -/

namespace Sys2Proof.Proofs

set_option Elab.async false

open Sys2Proof.Machine Sys2Proof.Safety Sys2Proof.Laws

variable {s t : State}

/-! ### The end of a jump (R92, R94, R112) -/

/-- `Settled` speaks of three blocks alone. -/
theorem settled_congr (h : Settled s) (ha : t.arbiter.waiting = s.arbiter.waiting)
    (hi : t.supervisor.ident = s.supervisor.ident) (hp : t.planner.acquireStep = s.planner.acquireStep) : Settled t :=
  ⟨ha.trans h.1, hi.trans h.2.1, hp ▸ h.2.2⟩

/-- Nothing follows a command that leaves what `Settled` speaks of. -/
theorem react_unmoved (h : Settled s) (ha : t.arbiter.waiting = s.arbiter.waiting)
    (hi : t.supervisor.ident = s.supervisor.ident) (hp : t.planner.acquireStep = s.planner.acquireStep) : react t = t :=
  react_settled (settled_congr h ha hi hp)

/-- A jump with no open pending and nothing held ends in CLOSED. -/
theorem completeJump_closed (htrack : s.optics.tracking = .jump) (hopen : s.optics.openPending = false)
    (horigin : s.optics.jumpOrigin = .leg) (hheld : s.optics.holdAddress = none) :
    completeJump s = ((s.setMonitor { s.monitor with jumpSum := s.monitor.jumpSum + s.optics.jumpCount }).setOptics
      { s.optics with tracking := .closed }).setSled (s.sled.follows .closed) := by
  simp [completeJump, trackingOn, htrack, hopen, horigin, hheld]

/-- A back-jump with no open pending ends in HOLD. -/
theorem completeJump_hold (hopen : s.optics.openPending = false) (horigin : s.optics.jumpOrigin = .hold) :
    completeJump s = ((s.setMonitor { s.monitor with jumpSum := s.monitor.jumpSum + s.optics.jumpCount }).setOptics
      { s.optics with tracking := .hold }).setSled (s.sled.follows .hold) := by
  simp [completeJump, trackingHold, hopen, horigin]

@[simp] theorem setLegPhase_waiting (ph : Phase) (s : State) :
    (setLegPhase ph s).arbiter.waiting = s.arbiter.waiting := by
  unfold setLegPhase
  split <;> simp [setPhase]

/-- The phase of a leg in flight shows in the motion that has it (R47, R50, R51). -/
theorem setLegPhase_active {m : Motion} {ph old : Phase} (h : s.arbiter.active = some m) (hm : m.phase = some old)
    (hleg : old.ofLeg = true) : (setLegPhase ph s).arbiter.active = some { m with phase := some ph } := by
  simp [setLegPhase, activePhase, h, hm, hleg, setPhase]

/-- The settle of a fine leg has begun, complete, with tracking not OFF (R47, R51). -/
theorem fineLegEnds_settles (hstage : s.planner.legStage = .running) (hkind : s.planner.legKind = .fine)
    (htrack : s.optics.tracking ≠ .off) : fineLegEnds s = setLegPhase .settle (s.setPlanner { s.planner with
      legStage := .settling, legDone := true, settleSince := s.clock }) := by
  simp [fineLegEnds, hstage, hkind, htrack]

/-- A track crossed is the last one of its jump. -/
theorem exec_lastCrossing (htrack : s.optics.tracking = .jump) (hlast : s.optics.jumpCount.natAbs ≤ s.optics.crossings + 1) :
    exec .trackCrossing s
      = .next (react (jumpEnds (s.setOptics { s.optics with crossings := s.optics.crossings + 1 }))) := by
  change execTrackCrossing s = _
  simp [execTrackCrossing, htrack, hlast]

/-- A track crossed is not the last one of its jump. -/
theorem exec_crossing (htrack : s.optics.tracking = .jump) (hmore : s.optics.crossings + 1 < s.optics.jumpCount.natAbs) :
    exec .trackCrossing s = .next (react (s.setOptics { s.optics with crossings := s.optics.crossings + 1 })) := by
  change execTrackCrossing s = _
  simp [execTrackCrossing, htrack, Nat.not_le.2 hmore]

/-! ### The report of a close (R39, R90, R176) -/

/-- The loop is CLOSED from OFF: its senders are told, and the address-monitor timer restarts (R90, R113). -/
def closedLoop (s : State) : State := trackingOn (s.setOptics { s.optics with closers := [] })

theorem exec_closed (hclosers : s.optics.closers ≠ []) (hfocus : s.optics.focus = .locked)
    (htrack : s.optics.tracking = .off) :
    exec .trackingClosed s = .next (react (s.optics.closers.foldl reportClose (closedLoop s))) := by
  change execTrackingClosed s = _
  simp [execTrackingClosed, hclosers, hfocus, htrack, closedLoop]

@[simp] theorem closedLoop_optics (s : State) :
    (closedLoop s).optics = { s.optics with tracking := .closed, closers := [] } := by
  unfold closedLoop trackingOn
  dsimp only
  split <;> simp

theorem closedLoop_monitor (htrack : s.optics.tracking = .off) :
    (closedLoop s).monitor = { s.monitor with started := true, elapsed := 0, limit := s.recovery.amTime } := by
  simp [closedLoop, trackingOn, htrack, restartMonitor]

@[simp] theorem closedLoop_sled (s : State) : (closedLoop s).sled = s.sled.follows .closed := by
  unfold closedLoop trackingOn
  dsimp only
  split <;> simp

@[simp] theorem closedLoop_clock (s : State) : (closedLoop s).clock = s.clock := by simp [closedLoop]
@[simp] theorem closedLoop_arbiter (s : State) : (closedLoop s).arbiter = s.arbiter := by simp [closedLoop]
@[simp] theorem closedLoop_planner (s : State) : (closedLoop s).planner = s.planner := by simp [closedLoop]
@[simp] theorem closedLoop_recovery (s : State) : (closedLoop s).recovery = s.recovery := by simp [closedLoop]
@[simp] theorem closedLoop_supervisor (s : State) : (closedLoop s).supervisor = s.supervisor := by simp [closedLoop]
@[simp] theorem closedLoop_spindle (s : State) : (closedLoop s).spindle = s.spindle := by simp [closedLoop]

/-- A sender that waits for the close no longer sets its report aside (R183). -/
theorem reportClose_setAside {r : Requester} (hplanner : r = .planner → s.planner.acquireStep ≠ .close)
    (hrecovery : r = .recovery → s.recovery.phase ≠ .retrack)
    (hident : ∀ i, s.supervisor.ident = some i → i.paused = true) : reportClose s r = s := by
  cases r with
  | planner => simp [reportClose, hplanner rfl]
  | recovery => simp [reportClose, hrecovery rfl]
  | supervisor =>
    cases h : s.supervisor.ident with
    | none => simp [reportClose, tryStands, h]
    | some i => simp [reportClose, tryStands, h, hident i h]

/-- A close that no sender waits for any longer is reported to nobody. -/
theorem reportCloses_setAside {l : List Requester} (hplanner : .planner ∈ l → s.planner.acquireStep ≠ .close)
    (hrecovery : .recovery ∈ l → s.recovery.phase ≠ .retrack)
    (hident : ∀ i, s.supervisor.ident = some i → i.paused = true) : l.foldl reportClose s = s := by
  induction l with
  | nil => rfl
  | cons r l ih =>
    have hfirst : reportClose s r = s :=
      reportClose_setAside (fun h => hplanner (h ▸ List.mem_cons_self)) (fun h => hrecovery (h ▸ List.mem_cons_self)) hident
    rw [List.foldl_cons, hfirst]
    exact ih (fun h => hplanner (List.mem_cons_of_mem _ h)) fun h => hrecovery (List.mem_cons_of_mem _ h)

/-- The sled rests in CREEP once tracking is CLOSED, where its position is known (R102). -/
theorem follows_closed (sl : Sled) : sl.follows .closed =
    { sl with state := if sl.state = .idle ∧ sl.position ≠ none then .creep else sl.state } := by
  obtain ⟨state, position, legSteps, taken, stopPending, paused, requester, homeClosed⟩ := sl
  cases state <;> cases position <;> simp [Sled.follows]

/-- Settles O53: a jump by its count and its origin, a close by the senders that wait for it. -/
theorem jumpsAndClosesComplete : Obligations.JumpsAndClosesComplete := by
  intro s
  refine ⟨fun hno => ?outside, fun htrack hsettled => ⟨fun hmore => ?crossing, fun hlast hopen => ⟨?leg, ?back⟩⟩,
    fun hno => ?idle, fun hfocus htrack hsettled => ⟨fun hclosers hstep => ?acquire, fun hclosers hphase => ?retrack⟩,
    fun hclosers hfocus htrack hwaiting hspin hident hplanner hrecovery => ?aside⟩
  case outside =>
    change execTrackCrossing s = _
    simp [execTrackCrossing, hno]
  case crossing =>
    rw [exec_crossing htrack hmore, react_unmoved hsettled (by simp) (by simp) (by simp)]
  case leg =>
    intro horigin hheld hstage hkind
    rw [exec_lastCrossing htrack hlast, jumpEnds, if_pos (by exact horigin),
      completeJump_closed (by exact htrack) (by exact hopen) (by exact horigin) (by exact hheld),
      fineLegEnds_settles (by exact hstage) (by exact hkind) (by simp),
      react_unmoved hsettled (by simp) (by simp) (by simp)]
    exact ⟨_, rfl, by simp, by simp, by simp,
      fun m hm hphase => setLegPhase_active (old := .leg) (by simpa using hm) hphase rfl, by simp, by simp, by simp⟩
  case back =>
    intro horigin hstored
    rw [exec_lastCrossing htrack hlast, jumpEnds, if_neg (by simp [horigin]),
      completeJump_hold (by exact hopen) (by exact horigin), backJumpEnds]
    simp only [State.setSled_optics, State.setOptics_optics, hstored]
    rw [react_unmoved hsettled (by simp) (by simp) (by simp)]
    exact ⟨_, rfl, by simp⟩
  case idle =>
    change execTrackingClosed s = _
    rw [execTrackingClosed, if_neg (by tauto)]
  case acquire =>
    rw [exec_closed (by simp [hclosers]) hfocus htrack, hclosers]
    have hreport : [Requester.planner].foldl reportClose (closedLoop s)
        = (closedLoop s).setPlanner { s.planner with acquireStep := .wait } := by simp [reportClose, hstep]
    rw [hreport, react_settled ⟨by simpa using hsettled.1, by simpa using hsettled.2.1, by simp⟩]
    exact ⟨_, rfl, by simp [closedLoop_monitor htrack]⟩
  case retrack =>
    rw [exec_closed (by simp [hclosers]) hfocus htrack, hclosers]
    have hreport : [Requester.recovery].foldl reportClose (closedLoop s)
        = (closedLoop s).setRecovery { s.recovery with window := some s.clock } := by simp [reportClose, hphase]
    rw [hreport, react_unmoved hsettled (by simp) (by simp) (by simp)]
    exact ⟨_, rfl, by simp [closedLoop_monitor htrack]⟩
  case aside =>
    rw [exec_closed hclosers hfocus htrack,
      reportCloses_setAside (by simpa using hplanner) (by simpa using hrecovery) (by simpa using hident),
      react_paused (by simpa using hwaiting) (by simpa using hspin) (by simpa using hident)]
    exact ⟨_, rfl, by simp [closedLoop_monitor htrack, follows_closed]⟩

end Sys2Proof.Proofs
end

section
/-! Sled steps, the home switch and the creep threshold (R97 to R103): what a step does to the sled, and what the end of a leg
or of a homing leads to. -/

namespace Sys2Proof.Proofs

set_option Elab.async false

open Sys2Proof.Machine Sys2Proof.Safety Sys2Proof.Laws

variable {s t : State}

/-! ### Notices of the drive state (R146) -/

/-- A completion report that joins a queue leaves the notices in it. -/
theorem noticed_endMotion {n : Notice} {q : Port} {m : Motion} {r : Result} {f : Option Nat}
    (h : Laws.Noticed n q s) : Laws.Noticed n q (endMotion m r f s) := by
  obtain ⟨k, hk⟩ := h
  refine ⟨k, ?_⟩
  rw [endMotion_port]
  split
  · rename_i hq
    subst hq
    simp [PortState.joined, hk]
  · exact hk

/-- A comparison of zones offers ZONE notices only (R32). -/
theorem noticed_compareZone {n : Notice} {q : Port} (h : Laws.Noticed n q s) (h7 : n.code ≠ 7) :
    Laws.Noticed n q (compareZone s) := by
  unfold compareZone
  split
  · exact h
  · split
    · exact Noticed.offer (h.congr (by simp)) (Ne.symm h7)
    · exact h

/-- A change of drive state is told to every port whose mask admits it (R146). -/
theorem setDrive_noticed {d : DriveState} {q : Port} (hd : d ≠ s.supervisor.drive)
    (hq : admits (s.port q).mask 2 = true) :
    Laws.Noticed (.drive d s.supervisor.drive s.supervisor.cls s.clock) q (setDrive d s) := by
  have hoffer : Laws.Noticed (.drive d s.supervisor.drive s.supervisor.cls s.clock) q
      (offer (.drive d s.supervisor.drive s.supervisor.cls s.clock)
        (s.setSupervisor { s.supervisor with drive := d })) := noticed_offer _ (by rw [State.setSupervisor_port]; exact hq)
  have hcompare : Laws.Noticed (.drive d s.supervisor.drive s.supervisor.cls s.clock) q
      (if d = .onTrack then compareZone (offer (.drive d s.supervisor.drive s.supervisor.cls s.clock)
        (s.setSupervisor { s.supervisor with drive := d }))
       else offer (.drive d s.supervisor.drive s.supervisor.cls s.clock)
        (s.setSupervisor { s.supervisor with drive := d })) := by
    split
    · exact noticed_compareZone hoffer (by simp [Notice.code])
    · exact hoffer
  unfold setDrive
  rw [if_neg hd]
  dsimp only
  generalize (if d = .onTrack then _ else _) = u at hcompare ⊢
  split
  · exact hcompare.recomputeM (by simp [Notice.code])
  · exact hcompare

/-! ### Legs (R50, R51, R100, R101) -/

/-- With nothing to follow, the end of a leg is told to the planner that commanded it. -/
theorem legReported_planner (full : Bool) (hident : s.supervisor.ident = none)
    (hrequester : s.sled.requester = some .planner) :
    legReported full s = sledLegEnds full (s.setSled (s.sled.legOver s.optics.tracking)) := by
  have hident' : (sledLegEnds full (s.setSled (s.sled.legOver s.optics.tracking))).supervisor.ident = none := by
    unfold sledLegEnds
    dsimp only
    split <;> simp [hident]
  simp [legReported, hrequester, identIn, hident']

/-- The settle of a sled leg has begun, and the loop is closed where focus is LOCKED (R50, R51, R90). -/
theorem sledLegEnds_settles (full : Bool) (hstage : s.planner.legStage = .running) (hkind : s.planner.legKind = .sled) :
    sledLegEnds full s = setLegPhase .settle ((closeTracking .planner s).1.setPlanner { s.planner with
      legStage := .settling, legDone := full, settleSince := s.clock }) := by
  simp [sledLegEnds, hstage, hkind]

/-- The close command with tracking OFF: one more sender, or a failure that changes nothing (R90). -/
theorem closeTracking_off (r : Requester) (htrack : s.optics.tracking = .off) : (closeTracking r s).1.optics
    = if s.optics.focus = .locked then { s.optics with closers := s.optics.closers.erase r ++ [r] } else s.optics := by
  unfold closeTracking
  split_ifs <;> simp_all

/-- The end of a planner's sled leg with tracking OFF: the sled rests, the settle begins, the close is commanded. -/
structure SledLegSettles (full : Bool) (s t : State) : Prop where
  sled : t.sled = { s.sled with state := .idle, stopPending := false, requester := none }
  planner : t.planner = { s.planner with legStage := .settling, legDone := full, settleSince := s.clock }
  optics : t.optics = if s.optics.focus = .locked then
    { s.optics with closers := s.optics.closers.erase .planner ++ [.planner] } else s.optics
  waiting : t.arbiter.waiting = s.arbiter.waiting
  active : ∀ m, s.arbiter.active = some m → m.phase = some .leg →
    t.arbiter.active = some { m with phase := some .settle }
  supervisor : t.supervisor = s.supervisor
  monitor : t.monitor = s.monitor

theorem legReported_settles (full : Bool) (hident : s.supervisor.ident = none)
    (hrequester : s.sled.requester = some .planner) (hstage : s.planner.legStage = .running)
    (hkind : s.planner.legKind = .sled) (htrack : s.optics.tracking = .off) :
    SledLegSettles full s (legReported full s) := by
  rw [legReported_planner full hident hrequester, sledLegEnds_settles full (by simpa using hstage) (by simpa using hkind)]
  constructor
  · simp [Sled.legOver, restState, htrack]
  · simp
  · simp [closeTracking_off, htrack]
  · simp
  · intro m hm hphase
    exact setLegPhase_active (old := .leg) (by simpa using hm) hphase rfl
  · simp
  · simp

/-- Nothing follows the settle of a leg. -/
theorem react_settles {full : Bool} (h : SledLegSettles full s t) (hsettled : Settled s) : react t = t :=
  react_unmoved hsettled h.waiting (by rw [h.supervisor]) (by rw [h.planner])

/-! ### Steps out of a leg (R97, R102, R103) -/

theorem exec_sledStep (closed : Bool) (s : State) : exec (.sledStep closed) s = execSledStep closed s := rfl
theorem exec_homeSwitch (s : State) : exec .homeSwitchClose s = execHomeSwitchClose s := rfl
theorem exec_creep (s : State) : exec .creepThreshold s = execCreepThreshold s := rfl

theorem exec_sledStep_resting (closed : Bool) (h : s.sled.state = .idle ∨ s.sled.state = .creep) :
    exec (.sledStep closed) s = .next (s.setSled (s.sled.lastStep closed)) := by
  rw [exec_sledStep, execSledStep]
  rcases h with h | h <;> rw [h]

theorem exec_sledStep_leg {x : Nat} (closed : Bool) (h : s.sled.state = .leg) (hx : s.sled.position = some x) :
    exec (.sledStep closed) s = .next (react (legStep x closed s)) := by
  rw [exec_sledStep, execSledStep, h, hx]

theorem exec_sledStep_homing (closed : Bool) (h : s.sled.state = .homing) (hrun : s.sled.paused = false) :
    exec (.sledStep closed) s = .next (react (homingStep closed s)) := by
  rw [exec_sledStep, execSledStep, h]
  simp [hrun]

/-- The switch that closes in a leg or at rest corrects a position above 0 (R101). -/
theorem exec_homeSwitch_corrects {x : Nat} (hstate : s.sled.state ≠ .homing) (hx : s.sled.position = some x)
    (hpos : 0 < x) : exec .homeSwitchClose s = .next (react
      (if s.sled.state = .leg then legReported false (s.setSled { s.sled with homeClosed := true, position := some 0 })
       else s.setSled { s.sled with homeClosed := true, position := some 0 })) := by
  rw [exec_homeSwitch, execHomeSwitchClose]
  simp only [State.setSled_sled, hx]
  cases h : s.sled.state <;> simp_all [Nat.ne_of_gt hpos]

/-! ### A leg's step (R100, R101) -/

/-- The sled after a step of a leg, the end of the leg aside. -/
def stepped (x : Nat) (closed : Bool) (s : State) : State :=
  s.setSled { s.sled with position := some x, taken := s.sled.taken + 1, homeClosed := closed }

theorem legStep_eq (x : Nat) (closed : Bool) (s : State) :
    let moved := if 0 ≤ s.sled.legSteps then x + 1 else x - 1
    let corrected : Prop := closed = true ∧ s.sled.homeClosed = false ∧ 0 < moved
    let at_ := if corrected then 0 else moved
    legStep x closed s =
      if s.sled.legSteps.natAbs ≤ s.sled.taken + 1 then legReported true (stepped at_ closed s)
      else if corrected ∨ s.sled.stopPending = true ∨ (if 0 ≤ s.sled.legSteps then 1800 ≤ at_ else at_ = 0)
        then legReported false (stepped at_ closed s)
      else stepped at_ closed s := by
  intro moved corrected at_
  have hcorrected : (closed && !s.sled.homeClosed && decide (0 < moved)) = decide corrected := by
    simp [corrected, Bool.decide_and, Bool.and_assoc]
  have hrail : beyondRail s.sled.legSteps at_ = true ↔ (if 0 ≤ s.sled.legSteps then 1800 ≤ at_ else at_ = 0) := by
    unfold beyondRail
    split <;> simp
  have hat : (if corrected then 0 else if 0 ≤ s.sled.legSteps then x + 1 else x - 1) = at_ := rfl
  unfold legStep
  simp only [moved] at hcorrected
  simp only [hcorrected, decide_eq_true_eq, hat, Bool.or_eq_true, or_assoc, hrail, stepped]

/-! ### A homing (R98, R99) -/

/-- A step that finds the switch closed, with no stop pending, is the last one of its homing. -/
theorem homingStep_home (hstop : s.sled.stopPending = false) : homingStep true s = homingComplete (s.setSled
    { s.sled with state := .idle, position := some 0, taken := s.sled.taken + 1, homeClosed := true, stopPending := false
                  paused := false, requester := none }) := by
  simp [homingStep, hstop, Sled.homed]

/-- A homing complete in no identification and no RELEASE leads to nothing. -/
theorem homingComplete_idle (hdrive : s.supervisor.drive ≠ .releasing) (hident : s.supervisor.ident = none) :
    homingComplete s = s := by simp [homingComplete, hdrive, identIn, hident]

/-- What is gone with the disc (R37, R150). -/
theorem discGone_blocks (s : State) : (discGone s).supervisor = { s.supervisor with cls := none } ∧
    (discGone s).map = PosMap.empty ∧ (discGone s).optics.profile = none ∧ lastGood (discGone s) = none ∧
    (discGone s).planner.acquireStep = .none ∧ (discGone s).sled = s.sled.follows .off := by
  obtain ⟨v, hv⟩ : ∃ v, v = clearMap ((forgetStart (disown s)).setSupervisor
      { (forgetStart (disown s)).supervisor with cls := none }) := ⟨_, rfl⟩
  have hgone : discGone s = lasersOff v := by rw [hv]; rfl
  have hfix : v.monitor.fix = none := by simp [hv, clearMap_eq, cleared]
  rw [hgone]
  refine ⟨by simp [hv], by simp [hv, clearMap_map], rfl, ?_, by simp [hv, forgetStart, disown], ?_⟩
  · rw [lastGood_lasersOff, lastGood_eq_none, hfix]
  · have hsled : v.sled = s.sled := by simp [hv]
    simp [lasersOff, focusOff, loopsOpen, trackingOff, staleFix, hsled]

/-- The drive is RELEASED, its active motion DONE (R143, R150, R163). -/
theorem enterReleased_eq {m : Motion} (h : s.arbiter.active = some m) :
    enterReleased s = endMotion m .done (lastGood s) (setActive none (setDrive .released (discGone s))) := by
  simp [enterReleased, h]

/-- The sled comes to rest where it is idle. -/
theorem follows_off_idle {sl : Sled} (h : sl.state = .idle) : sl.follows .off = sl := by simp [Sled.follows, h]

/-- What a homing completed under a RELEASE comes to. -/
structure Released (m : Motion) (s t : State) : Prop where
  sled : t.sled = s.sled
  drive : t.supervisor.drive = .released ∧ t.supervisor.cls = none
  ident : t.supervisor.ident = s.supervisor.ident
  map : t.map = PosMap.empty
  fix : lastGood t = none
  arbiter : t.arbiter.active = none ∧ t.arbiter.waiting = s.arbiter.waiting
  step : t.planner.acquireStep = .none
  profile : t.optics.profile = none
  notice : DriveNoticed s t
  report : completionsIn (t.port m.port).queue = completionsIn (s.port m.port).queue ++ [m.report .done (lastGood s)]

theorem enterReleased_released {m : Motion} (h : s.arbiter.active = some m) (hidle : s.sled.state = .idle)
    (hdrive : s.supervisor.drive ≠ .released) : Released m s (enterReleased s) := by
  obtain ⟨hsupervisor, hmap, hprofile, hfix, hstep, hsled⟩ := discGone_blocks s
  rw [enterReleased_eq h]
  constructor
  · simp [hsled, follows_off_idle hidle]
  · simp [hsupervisor]
  · simp [hsupervisor]
  · simp [hmap]
  · rw [lastGood_eq_none]
    simpa [lastGood_eq_none] using hfix
  · simp
  · simp [hstep]
  · simp [hprofile]
  · intro q hq
    have hkeeps : Keeps [] s (discGone s) := (Keeps.refl s).discGone
    have hnotice := setDrive_noticed (s := discGone s) (d := .released) (q := q) (by simpa [hsupervisor] using hdrive.symm)
      (by rw [(hkeeps.port q).mask]; exact hq)
    refine noticed_endMotion ((Laws.Noticed.congr ?_ (setActive_port ..)))
    simpa [hsupervisor] using hnotice
  · exact (reportsOf_endMotion_own _ m .done (lastGood s)).trans (by simp; rfl)

/-- Settles O54: a step in a leg, in a homing and out of place, the switch and the creep, each with what follows it. -/
theorem sledStepsMoveTheSled : Obligations.SledStepsMoveTheSled := by
  intro closed s
  refine ⟨fun hhoming hpaused => ?paused, fun hrest => ⟨fun hlevel => ?level, fun x hx hpos hclosed hopen => ?corrects⟩,
    fun x hleg hx hsettled => ?leg, fun hhoming hrun hsettled => ⟨fun hstop => ?stop, fun hstop hopen hmore => ?homing,
      fun hstop hclosed => ⟨fun hdrive => ?home, fun m hdrive hm hphase => ?released⟩⟩,
    fun hplace => ?switch, fun x hx hpos hsettled => ⟨fun hrest => ?switchRest, fun hleg hreq hstage hkind htrack => ?switchLeg⟩,
    fun x hcreep hx => ⟨fun hlt => ?creep, fun hle => ?rail⟩, fun hno => ?still⟩
  case paused => rw [exec_sledStep, execSledStep, hhoming, hpaused]; rfl
  case level =>
    rw [exec_sledStep_resting closed hrest, Sled.lastStep]
    rcases hlevel with h | h | h | h <;> simp [h]
  case corrects =>
    rw [exec_sledStep_resting closed hrest, Sled.lastStep]
    simp [hx, hclosed, hopen]
  case leg =>
    rw [exec_sledStep_leg closed hleg hx]
    intro moved corrected at_ full cut
    have hstep := legStep_eq x closed s
    change legStep x closed s = if s.sled.legSteps.natAbs ≤ s.sled.taken + 1 then legReported true (stepped at_ closed s)
      else if cut then legReported false (stepped at_ closed s) else stepped at_ closed s at hstep
    refine ⟨fun hfull hcut => ?_, fun hends hreq hstage hkind htrack => ?_⟩
    · have hat : at_ = moved := if_neg fun h => hcut (.inl h)
      rw [hstep, if_neg (of_decide_eq_false hfull), if_neg hcut, hat, stepped,
        react_unmoved hsettled (by simp) (by simp) (by simp)]
    · have hreported : legStep x closed s = legReported full (stepped at_ closed s) := by
        rw [hstep]
        by_cases hfull : s.sled.legSteps.natAbs ≤ s.sled.taken + 1
        · rw [if_pos hfull, show full = true from decide_eq_true hfull]
        · have hnot : full = false := decide_eq_false hfull
          rw [if_neg hfull, if_pos (hends.resolve_left (by simp [hnot])), hnot]
      have hsettles : SledLegSettles full (stepped at_ closed s) (legReported full (stepped at_ closed s)) :=
        legReported_settles full hsettled.2.1 hreq hstage hkind htrack
      rw [hreported, react_settles hsettles hsettled]
      exact ⟨_, rfl, hsettles.sled, hsettles.planner,
        fun hfocus => hsettles.optics.trans (if_pos hfocus), fun hfocus => hsettles.optics.trans (if_neg hfocus),
        hsettles.active, hsettles.supervisor, hsettles.monitor⟩
  case stop =>
    rw [exec_sledStep_homing closed hhoming hrun, homingStep]
    simp only [hstop, if_true]
    rw [react_unmoved hsettled (by simp) (by simp) (by simp)]
  case homing =>
    rw [exec_sledStep_homing closed hhoming hrun, homingStep]
    simp only [hstop, hopen, if_neg (Nat.not_le.2 hmore), Bool.false_eq_true, if_false]
    rw [react_unmoved hsettled (by simp) (by simp) (by simp)]
  case home =>
    subst hclosed
    rw [exec_sledStep_homing true hhoming hrun, homingStep_home hstop,
      homingComplete_idle (by simpa using hdrive) (by simpa using hsettled.2.1),
      react_unmoved hsettled (by simp) (by simp) (by simp)]
    simp [hstop, hrun]
  case released =>
    subst hclosed
    rw [exec_sledStep_homing true hhoming hrun, homingStep_home hstop, homingComplete,
      if_pos (by simp [hdrive, activePhase, hm, hphase])]
    obtain ⟨v, hv⟩ : ∃ v, v = s.setSled { s.sled with
      state := .idle, position := some 0, taken := s.sled.taken + 1, homeClosed := true, stopPending := false
      paused := false, requester := none } := ⟨_, rfl⟩
    have hreleased : Released m v (enterReleased v) :=
      enterReleased_released (by simpa [hv] using hm) (by simp [hv]) (by simp [hv, hdrive])
    have hsettled' : Settled v := settled_congr hsettled (by simp [hv]) (by simp [hv]) (by simp [hv])
    rw [← hv, react_settled ⟨hreleased.arbiter.2.trans hsettled'.1, hreleased.ident.trans hsettled'.2.1,
      by simp [hreleased.step]⟩]
    refine ⟨_, rfl, by rw [hreleased.sled, hv]; rfl, by rw [hreleased.sled, hv]; rfl, hreleased.drive.1, hreleased.drive.2,
      hreleased.map, hreleased.fix, hreleased.arbiter.1, hreleased.profile, ?_, ?_⟩
    · intro q hq
      simpa [hv] using hreleased.notice q (by simpa [hv] using hq)
    · simpa [hv, lastGood] using hreleased.report
  case switch =>
    rw [exec_homeSwitch, execHomeSwitchClose]
    rcases hplace with h | h | h
    · simp [h]
    · cases hstate : s.sled.state <;> simp [h, hstate]
    · cases hstate : s.sled.state <;> simp [h, hstate]
  case switchRest =>
    have hstate : s.sled.state ≠ .homing ∧ s.sled.state ≠ .leg := by rcases hrest with h | h <;> simp [h]
    rw [exec_homeSwitch_corrects hstate.1 hx hpos, if_neg hstate.2, react_unmoved hsettled (by simp) (by simp) (by simp)]
  case switchLeg =>
    rw [exec_homeSwitch_corrects (by simp [hleg]) hx hpos, if_pos hleg]
    have hsettles : SledLegSettles false _
        (legReported false (s.setSled { s.sled with homeClosed := true, position := some 0 })) :=
      legReported_settles false hsettled.2.1 hreq hstage hkind htrack
    rw [react_settles hsettles hsettled]
    exact ⟨_, rfl, hsettles.sled, hsettles.planner⟩
  case creep => rw [exec_creep, execCreepThreshold, hcreep, hx]; simp [hlt]
  case rail => rw [exec_creep, execCreepThreshold, hcreep, hx]; simp [Nat.not_lt.2 hle]
  case still =>
    rw [exec_creep, execCreepThreshold]
    cases h : s.sled.state <;> simp_all

end Sys2Proof.Proofs
end

section
/-! Focus searches and profile switches (R84, R86, R87): what a capture, a failed attempt and the end of a switch go on to. -/

namespace Sys2Proof.Proofs

set_option Elab.async false

open Sys2Proof.Machine Sys2Proof.Safety Sys2Proof.Laws

variable {s : State}

/-! ### A capture (R87) -/

/-- The lens has locked: the search is over. -/
def focusCaptured (s : State) : State := s.setOptics { s.optics with
  focus := .locked, attempt := 0, attemptTimer := none, requester := none }

/-- A capture in SEARCH is taken, unless it belongs to an attempt that has failed (entry 32). -/
theorem exec_capture (hfocus : s.optics.focus = .search)
    (htime : s.optics.attempt ≤ 1 ∨ s.optics.attemptTimer ≠ some s.clock) :
    exec .focusCapture s = .next (react (reportLock s.optics.requester (focusCaptured s))) := by
  have hlate : captureLate s = false := by
    rcases htime with h | h
    · simp [captureLate, Nat.not_lt.2 h]
    · simp [captureLate, h]
  change execFocusCapture s = _
  simp [execFocusCapture, hfocus, hlate, setFocus, focusCaptured]

/-- A tracking close commanded with focus LOCKED and tracking OFF begins (R90). -/
theorem closeTracking_begins (r : Requester) (hfocus : s.optics.focus = .locked) (htrack : s.optics.tracking = .off) :
    closeTracking r s = (s.setOptics { s.optics with closers := s.optics.closers.erase r ++ [r] }, .begun) := by
  simp [closeTracking, hfocus, htrack]

/-- ACQUIRE goes on to its close (R39). -/
theorem acquireClose_begins (hfocus : s.optics.focus = .locked) (htrack : s.optics.tracking = .off) :
    acquireClose s = (s.setOptics { s.optics with closers := s.optics.closers.erase .planner ++ [.planner] }).setPlanner
      { s.planner with acquireStep := .close } := by
  simp [acquireClose, closeTracking_begins _ hfocus htrack]

/-- RETRACK begins below its retry limit (R174, R176). -/
theorem beginRetrack_begins (hcount : s.recovery.retrackCount < s.recovery.retryLimit) : beginRetrack s
    = retrackClose (s.setRecovery { s.recovery with
        phase := .retrack, retrackCount := s.recovery.retrackCount + 1, window := none }) := by
  simp [beginRetrack, enterPhase, Nat.not_le.2 hcount]

/-- The close of RETRACK is commanded (R176). -/
theorem retrackClose_begins (hfocus : s.optics.focus = .locked) (htrack : s.optics.tracking = .off) : retrackClose s
    = s.setOptics { s.optics with closers := s.optics.closers.erase .recovery ++ [.recovery] } := by
  simp [retrackClose, closeTracking_begins _ hfocus htrack]

/-! ### Attempts and switches (R84, R86, R87) -/

theorem exec_attempt {since : Time} (h : s.optics.attemptTimer = some since) :
    exec .attemptTimerExpiry s = .next (react (attemptFails (runTo since 300 s))) := by
  change execAttemptTimerExpiry s = _
  rw [execAttemptTimerExpiry, h]

/-- The end of a switch with no identification in progress lights its laser, and a search that waited begins. -/
theorem exec_switch {k : DiscClass} {since : Time} (h : s.optics.switch = some (k, since)) (hsettled : Settled s) :
    exec .profileSwitchComplete s = .next (switchEnds k (runTo since 50 s)) := by
  have hends (u : State) : (switchEnds k u).supervisor = u.supervisor ∧ (switchEnds k u).arbiter = u.arbiter ∧
      (switchEnds k u).planner = u.planner := by
    unfold switchEnds
    dsimp only
    split <;> simp
  obtain ⟨hsupervisor, harbiter, hplanner⟩ := hends (runTo since 50 s)
  have hnone : (switchEnds k (runTo since 50 s)).supervisor.ident = none := by simp [hsupervisor, hsettled.2.1]
  change execProfileSwitchComplete s = _
  rw [execProfileSwitchComplete, h]
  simp only [tryStands, hnone, Option.any_none, Bool.false_eq_true, if_false]
  rw [react_unmoved hsettled (by simp [harbiter]) (by rw [hnone, hsettled.2.1]) (by simp [hplanner])]

/-- Settles O49: a capture by the requester of its search, an attempt by its count, a switch by the search that waits. -/
theorem searchesAndSwitchesComplete : Obligations.SearchesAndSwitchesComplete := by
  intro s
  refine ⟨fun hno => ?other, fun hfocus hattempt htimer => ?late,
    fun hsettled hfocus htime => ⟨fun hreq => ?nobody, fun hreq hstep htrack => ?acquire,
      fun hreq hphase htrack hcount => ?refocus⟩,
    fun since htimer hmore hsettled => ?attempt, fun k since hswitch hsettled hfocus => ⟨fun hstored => ?dark,
      fun r n hstored => ?search⟩⟩
  case other =>
    change execFocusCapture s = _
    simp [execFocusCapture, hno]
  case late =>
    change execFocusCapture s = _
    simp [execFocusCapture, captureLate, hattempt, htimer]
  case nobody =>
    rw [exec_capture hfocus htime, hreq, reportLock, react_unmoved hsettled (by rfl) (by rfl) (by rfl)]
    rfl
  case acquire =>
    have hreport : reportLock (some .planner) (focusCaptured s) = acquireClose (focusCaptured s) := if_pos hstep
    rw [exec_capture hfocus htime, hreq, hreport, acquireClose_begins (s := focusCaptured s) rfl htrack,
      react_settled ⟨by exact hsettled.1, by exact hsettled.2.1, by simp⟩]
    rfl
  case refocus =>
    have hreport : reportLock (some .recovery) (focusCaptured s) = beginRetrack (focusCaptured s) := if_pos hphase
    rw [exec_capture hfocus htime, hreq, hreport, beginRetrack_begins (s := focusCaptured s) hcount,
      retrackClose_begins (by rfl) (by exact htrack),
      react_unmoved hsettled (by rfl) (by rfl) (by rfl)]
    rfl
  case attempt =>
    have hfails : attemptFails (runTo since 300 s) = (runTo since 300 s).setOptics { s.optics with
        attempt := s.optics.attempt + 1, attemptTimer := some (runTo since 300 s).clock } := if_pos hmore
    rw [exec_attempt htimer, hfails, react_unmoved hsettled (by simp) (by simp [hsettled.2.1]) (by simp)]
  case dark =>
    rw [exec_switch hswitch hsettled, switchEnds]
    simp [hstored]
  case search =>
    rw [exec_switch hswitch hsettled, switchEnds]
    simp [hstored, beginSearch, setFocus, hfocus]

end Sys2Proof.Proofs
end

section
/-! Parks and faults (R76, R89, R128, R160, R165, R166): what a park leaves, and what a fault raised outside FAULTED comes to. -/

namespace Sys2Proof.Proofs

set_option Elab.async false

open Sys2Proof.Machine Sys2Proof.Safety Sys2Proof.Laws

variable {s t u : State}

/-! ### The brake (R76) -/

/-- The brake command leaves no mode, no basis, no lock limit and no lock test, whatever the spindle does. -/
theorem brake_stops (sp : Spindle) (now : Time) : (sp.brake now).mode = .stop ∧ (sp.brake now).basis = none ∧
    (sp.brake now).lockLimit = none ∧ (sp.brake now).lockTest = none := by
  unfold Spindle.brake
  split <;> exact ⟨rfl, rfl, rfl, rfl⟩

/-- A spindle that brakes already goes on braking, its stop limit as it stands. -/
theorem brake_braking {sp : Spindle} {now : Time} (h : sp.state = .braking) :
    (sp.brake now).state = .braking ∧ (sp.brake now).stopLimit = sp.stopLimit := by
  simp [Spindle.brake, h]

/-- A driven or coasting spindle at 30 rpm or more brakes, its stop limit armed. -/
theorem brake_driven {sp : Spindle} {now : Time} (h : Driven sp) (hturns : 30 ≤ sp.measured) :
    (sp.brake now).state = .braking ∧ (sp.brake now).target = 0 ∧ (sp.brake now).stopLimit = some now := by
  unfold Spindle.brake
  split
  · exact absurd ‹_› h.2
  · exact absurd ‹_› h.1
  · simp [Nat.not_lt.2 hturns]

/-- Out of CLV mode m alone moves when it is computed again (R72). -/
theorem recomputeM_spindle_stop (h : s.spindle.mode ≠ .clv) :
    ∃ m, (recomputeM s).spindle = { s.spindle with m := m } := by
  rw [recomputeM_eq]
  unfold respun
  split
  · exact ⟨_, rfl⟩
  · exact ⟨effectiveMultiple s, by simp [turned, h]⟩

/-- Out of CLV mode a change of drive state moves m alone (R72). -/
theorem setDrive_spindle_stop (d : DriveState) (h : s.spindle.mode ≠ .clv) :
    ∃ m, (setDrive d s).spindle = { s.spindle with m := m } := by
  unfold setDrive
  split
  · exact ⟨_, rfl⟩
  · dsimp only
    generalize hv : (if d = .onTrack then _ else _) = v
    have hspindle : v.spindle = s.spindle := by rw [← hv]; split <;> simp
    split
    · obtain ⟨m, hm⟩ := recomputeM_spindle_stop (s := v) (by rw [hspindle]; exact h)
      exact ⟨m, by rw [hm, hspindle]⟩
    · exact ⟨s.spindle.m, hspindle⟩

/-! ### Loops that open (R88, R89) -/

theorem loopsOpen_optics (f : FocusState) (s : State) : (loopsOpen f s).optics = { s.optics with
    focus := f, tracking := .off, holdAddress := none, openPending := false
    closers := [], storedJump := none, attemptTimer := none, attempt := 0 } := by
  unfold loopsOpen setFocus trackingOff
  dsimp only
  split <;> rfl

theorem loopsOpen_sled (f : FocusState) (s : State) : (loopsOpen f s).sled = s.sled.follows .off := by
  unfold loopsOpen trackingOff
  simp

theorem focusOff_optics (s : State) : (focusOff s).optics = { s.optics with
    focus := .off, tracking := .off, holdAddress := none, openPending := false, requester := none
    closers := [], storedSearch := none, storedJump := none, attemptTimer := none, attempt := 0 } := by
  simp [focusOff, loopsOpen_optics]

theorem focusOff_sled (s : State) : (focusOff s).sled = s.sled.follows .off := by simp [focusOff, loopsOpen_sled]

/-! ### A park (R160, R162, R165) -/

@[simp] theorem park_supervisor (s : State) : (park s).supervisor
    = { s.supervisor with sagTimer := none, focusLostInSag := false, suspendedPhase := none } := by
  simp [park, endSagHold]

@[simp] theorem park_recovery (s : State) : (park s).recovery
    = { s.recovery with phase := .none, window := none, fixReported := false, keptPhase := none } := by
  simp [park, endRecovery]

@[simp] theorem park_spindle (s : State) : (park s).spindle = s.spindle.brake s.clock := by
  simp [park, brake, brakeSpindle]

theorem park_optics (s : State) : (park s).optics = { s.optics with
    focus := .off, tracking := .off, holdAddress := none, openPending := false, requester := none
    closers := [], storedSearch := none, storedJump := none, attemptTimer := none, attempt := 0 } := by
  simp [park, focusOff_optics]

theorem park_sled (s : State) : (park s).sled = (s.sled.follows .off).stop := by simp [park, sledStop, focusOff_sled]

/-! ### States that agree in the arbiter or the monitor -/

theorem liveMotions_congr (h : t.arbiter = s.arbiter) : liveMotions t = liveMotions s := by simp [liveMotions, h]

theorem lastGood_congr (h : t.monitor = s.monitor) : lastGood t = lastGood s := by rw [lastGood, h, lastGood]

theorem fixFresh_congr (h : t.monitor = s.monitor) : fixFresh t = fixFresh s := by rw [fixFresh, h, fixFresh]

/-! ### The end of every motion (R128) -/

@[simp] theorem endAll_step (r : Result) (s : State) : (endAll r s).planner.acquireStep = .none := by
  simp [endAll, disown]

@[simp] theorem endAll_owner (r : Result) (s : State) : (endAll r s).planner.owner = .none := by
  simp [endAll, disown]

/-- With no motion, no identification and no step of ACQUIRE nothing follows. -/
theorem react_quiet (hmotions : NoMotion s) (hident : s.supervisor.ident = none)
    (hstep : s.planner.acquireStep = .none) : react s = s :=
  react_settled ⟨(noMotion_iff.1 hmotions).2.2, hident, by simp [hstep]⟩

/-! ### Faults (R165, R166) -/

theorem raiseFault_again {k : FaultKind} (h : s.supervisor.drive = .faulted) :
    raiseFault k s = offer (.fault k (lastGood s) s.clock false) s := if_pos h

theorem raiseFault_first {k : FaultKind} (h : s.supervisor.drive ≠ .faulted) :
    raiseFault k s = offer (.fault k (lastGood s) s.clock true)
      (setDrive .faulted (endAll .faulted (abandonIdent (park (recordFault k s))))) := if_neg h

theorem raiseFault_step {k : FaultKind} (h : s.supervisor.drive ≠ .faulted) :
    (raiseFault k s).planner.acquireStep = .none := by simp [raiseFault_first h]

/-- Out of CLV mode, where the brake has brought the spindle, a fault leaves the braked spindle but for m. -/
theorem raiseFault_spindle {k : FaultKind} (h : s.supervisor.drive ≠ .faulted) :
    ∃ m, (raiseFault k s).spindle = { s.spindle.brake s.clock with m := m } := by
  obtain ⟨m, hm⟩ := setDrive_spindle_stop (s := endAll .faulted (abandonIdent (park (recordFault k s)))) .faulted
    (by simp [(brake_stops _ _).1])
  exact ⟨m, by rw [raiseFault_first h, offer_spindle, hm]; simp [recordFault]⟩

theorem raiseFault_sled {k : FaultKind} (h : s.supervisor.drive ≠ .faulted) :
    (raiseFault k s).sled = (s.sled.follows .off).stop := by
  simp [raiseFault_first h, park_sled]

/-- A fault raised outside FAULTED parks the drive (R128, R156, R165). -/
theorem raiseFault_parks (k : FaultKind) (h : s.supervisor.drive ≠ .faulted) : FaultParked k s (raiseFault k s) := by
  obtain ⟨m, hspindle⟩ := raiseFault_spindle (k := k) h
  have hstops := brake_stops s.spindle s.clock
  have hlive : liveMotions (raiseFault k s) = [] := by
    rw [raiseFault_first h, ← liveMotions_endAll (abandonIdent (park (recordFault k s))) .faulted]
    exact liveMotions_congr (by simp)
  constructor
  · simp [raiseFault_first h, abandonIdent, endSwitch, endIdent, recordFault]
  · simp [raiseFault_first h, abandonIdent, endSwitch, endIdent, recordFault]
  · exact ⟨hlive, by simp [raiseFault_first h]⟩
  · intro q
    have hpark : lastGood (abandonIdent (park (recordFault k s))) = lastGood s := by
      rw [lastGood_congr (abandonIdent_monitor _), lastGood_park, lastGood_congr (recordFault_monitor ..)]
    have hmotions : liveMotions (abandonIdent (park (recordFault k s))) = liveMotions s := liveMotions_congr (by simp)
    have hreports : reportsOf q (raiseFault k s) = reportsOf q (abandonIdent (park (recordFault k s)))
        ++ ((liveMotions s).filter (fun m => m.port == q)).map (fun m => m.report .faulted (lastGood s)) := by
      rw [raiseFault_first h, reportsOf_offer, reportsOf_setDrive, reportsOf_endAll, hmotions, hpark]
    have hsame : reportsOf q (abandonIdent (park (recordFault k s))) = reportsOf q s := by simp [recordFault]
    rw [hsame] at hreports
    exact hreports
  · simp [raiseFault_first h, abandonIdent, endSwitch, endIdent, park_optics]
  · have hmonitor : (raiseFault k s).monitor = (park (recordFault k s)).monitor := by simp [raiseFault_first h]
    rw [fixFresh_congr hmonitor, lastGood_congr hmonitor, fixFresh_park, lastGood_park]
    exact ⟨rfl, rfl⟩
  · simp [hspindle, hstops]
  · simp [raiseFault_first h, abandonIdent, endSwitch, endIdent]
  · intro q hq
    have hkeeps : Keeps [] s (raiseFault k s) := (Keeps.refl s).raiseFault
    rw [raiseFault_first h] at hkeeps ⊢
    exact noticed_of_offered (by rw [(hkeeps.port q).mask]; exact hq)

/-- Nothing follows a fault that parks the drive. -/
theorem react_raiseFault {k : FaultKind} (h : s.supervisor.drive ≠ .faulted) :
    react (raiseFault k s) = raiseFault k s :=
  have hparks := raiseFault_parks k h
  react_quiet hparks.motions.1 hparks.ended.1 (raiseFault_step h)

/-- What a fault is told by speaks of the class, the motions, the fix, the clock and the queues. -/
theorem faultParked_congr {k : FaultKind} (h : FaultParked k s t) (hclass : u.supervisor.cls = s.supervisor.cls)
    (hlast : lastGood u = lastGood s) (hclock : u.clock = s.clock) (hlive : liveMotions u = liveMotions s)
    (hport : ∀ q, u.port q = s.port q) : FaultParked k u t where
  drive := by rw [hclass]; exact h.drive
  record := by rw [hlast, hclock]; exact h.record
  motions := h.motions
  reports q := by rw [hlive, hlast, hport]; exact h.reports q
  loops := h.loops
  fix := by rw [hlast]; exact h.fix
  spindle := h.spindle
  ended := h.ended
  notice q hq := by
    rw [hlast, hclock]
    exact h.notice q (by rwa [hport] at hq)

/-! ### The failures that a command finds -/

theorem exec_stopLimit {since : Time} (h : s.spindle.stopLimit = some since) :
    exec .stopLimitExpiry s = .next (react (stopFails (runTo since 3000 s))) := by
  change execStopLimitExpiry s = _
  rw [execStopLimitExpiry, h]

theorem exec_lockLimit {since : Time} (h : s.spindle.lockLimit = some since) :
    exec .lockLimitExpiry s = .next (react (lockFails (runTo since 2000 s))) := by
  change execLockLimitExpiry s = _
  rw [execLockLimitExpiry, h]

/-- The last attempt of a search that ACQUIRE or REFOCUS waits for fails it (R40, R87, R175). -/
theorem attemptFails_last (hlast : s.optics.allowed ≤ s.optics.attempt)
    (hwaits : s.optics.requester = some .planner ∧ s.planner.acquireStep = .search ∨
      s.optics.requester = some .recovery ∧ s.recovery.phase = .refocus) :
    attemptFails s = raiseFault .focusUnrecoverable (setFocus .off (s.setOptics { s.optics with
      attempt := 0, attemptTimer := none, requester := none })) := by
  rw [attemptFails, if_neg (Nat.not_lt.2 hlast)]
  rcases hwaits with ⟨hreq, hstep⟩ | ⟨hreq, hphase⟩
  · simp [hreq, reportNoLock, hstep]
  · simp [hreq, reportNoLock, hphase]

/-- A homing fails at its 2,000th open step (R98). -/
theorem homingStep_fails (hstop : s.sled.stopPending = false) (hlast : 1999 ≤ s.sled.taken) : homingStep false s
    = raiseFault .homeFailed (s.setSled { s.sled with
        state := .idle, position := none, taken := s.sled.taken + 1, homeClosed := false, requester := none }) := by
  simp [homingStep, hstop, hlast]

/-- The window of a try that neither a pause nor a restart holds runs out (R153). -/
theorem exec_windowEnd {i : Ident} {w : Nat} (hi : s.supervisor.ident = some i) (hw : i.window = some w)
    (hpaused : i.paused = false) (hrestart : i.restart = false) :
    exec .candidateWindowEnd s = .next (react (tryFails (passTime (500 - w) s))) := by
  have hrun : windowRun s = some w := by simp [windowRun, hi, hpaused, hrestart, hw]
  change execCandidateWindowEnd s = _
  rw [execCandidateWindowEnd, hrun]

theorem run_stage (dt : Nat) (i : Ident) : (i.run dt).stage = i.stage := by
  unfold Ident.run
  split <;> rfl

/-- Settles O48: each failure raises its fault, and `raiseFault_parks` says what that comes to. -/
theorem failuresParkTheDrive : Obligations.FailuresParkTheDrive := by
  intro s
  refine ⟨fun since hlimit hdrive => ?lock, fun since hlimit => ⟨fun hdrive => ?stop, fun hdrive hsettled => ?again⟩,
    fun since htimer hlast hdrive hwaits => ?attempt, fun hhoming hrun hstop hlast hdrive => ?homing,
    fun i w hi hstage hw hpaused hrestart hdrive => ?window⟩
  case lock =>
    rw [exec_lockLimit hlimit, lockFails, react_raiseFault (by simpa using hdrive)]
    exact ⟨_, rfl, faultParked_congr (raiseFault_parks _ (by simpa using hdrive)) (by simp) rfl rfl rfl (by simp)⟩
  case stop =>
    rw [exec_stopLimit hlimit, stopFails, react_raiseFault (by simpa using hdrive)]
    refine ⟨_, rfl, faultParked_congr (raiseFault_parks _ (by simpa using hdrive)) (by simp) rfl rfl rfl (by simp), ?_⟩
    intro hbraking
    obtain ⟨m, hm⟩ := raiseFault_spindle (k := .spindleStopFail)
      (s := (runTo since 3000 s).setSpindle { s.spindle with stopLimit := none }) (by simpa using hdrive)
    have hgoes := brake_braking (sp := { s.spindle with stopLimit := none })
      (now := (runTo since 3000 s).clock) hbraking
    simp only [runTo_spindle]
    rw [hm]
    exact hgoes
  case again =>
    rw [exec_stopLimit hlimit, stopFails, raiseFault_again (by simpa using hdrive),
      react_unmoved hsettled (by simp) (by simp [hsettled.2.1]) (by simp)]
    rfl
  case attempt =>
    rw [exec_attempt htimer, attemptFails_last (by exact hlast) (by exact hwaits), react_raiseFault (by simpa using hdrive)]
    refine ⟨_, rfl, faultParked_congr (raiseFault_parks _ (by simpa using hdrive)) (by simp) ?_ (by simp) ?_ (by simp)⟩
    · rw [lastGood_setFocus]; rfl
    · exact (liveMotions_congr (by simp)).symm
  case homing =>
    rw [exec_sledStep_homing false hhoming hrun, homingStep_fails hstop hlast, react_raiseFault (by simpa using hdrive)]
    refine ⟨_, rfl, faultParked_congr (raiseFault_parks _ (by simpa using hdrive)) (by simp) rfl rfl rfl (by simp), ?_⟩
    rw [raiseFault_sled (by simpa using hdrive)]
    simp [Sled.follows, Sled.stop]
  case window =>
    have hfails : tryFails (passTime (500 - w) s) = failL (passTime (500 - w) s) := by
      simp [tryFails, hi, run_stage, hstage]
    rw [exec_windowEnd hi hw hpaused hrestart, hfails, failL, react_raiseFault (by simpa [changeIdent] using hdrive)]
    exact ⟨_, rfl, faultParked_congr (raiseFault_parks _ (by simpa [changeIdent] using hdrive)) (by simp [changeIdent]) rfl rfl
      rfl (by simp)⟩

end Sys2Proof.Proofs
end

section
/-! Timers that run out (R51, R114, R153, R154, R160, R172, R176): settle, sag hold, candidate window, address monitor and
ROUGH. -/

namespace Sys2Proof.Proofs

set_option Elab.async false

open Sys2Proof.Machine Sys2Proof.Safety Sys2Proof.Laws

variable {s t u : State}

/-! ### The passing of time -/

/-- With no identification the passing of time leaves the supervisor. -/
theorem runTo_supervisor_same {since : Time} {limit : Nat} (h : s.supervisor.ident = none) :
    (runTo since limit s).supervisor = s.supervisor := by
  rw [runTo_supervisor, h, Option.map_none, ← h]

theorem passTime_supervisor_same {dt : Nat} (h : s.supervisor.ident = none) :
    (passTime dt s).supervisor = s.supervisor := by
  rw [passTime_supervisor, h, Option.map_none, ← h]

/-- Nothing follows the expiry of a timer that leaves what `Settled` speaks of. -/
theorem react_afterTime {since : Time} {limit : Nat} (h : Settled s) (ha : t.arbiter.waiting = s.arbiter.waiting)
    (hi : t.supervisor.ident = (runTo since limit s).supervisor.ident)
    (hp : t.planner.acquireStep = s.planner.acquireStep) : react t = t :=
  react_unmoved h ha (by rw [hi, runTo_supervisor_same h.2.1]) hp

/-! ### Settle, sag, address monitor -/

theorem exec_settleEnd (h : s.planner.legStage = .settling) : exec .settleEnd s
    = .next (react (settleEnds (runTo s.planner.settleSince (if s.planner.legKind = .sled then 20 else 2) s))) := by
  change execSettleEnd s = _
  rw [execSettleEnd, if_pos h]
  rfl

theorem exec_sagTimer {since : Time} (h : s.supervisor.sagTimer = some since) :
    exec .sagTimerExpiry s = .next (react (sagPark (runTo since 3000 s))) := by
  change execSagTimerExpiry s = _
  rw [execSagTimerExpiry, h]

/-- The reports of a motion's end join by the port of the motion, with the last good address. -/
theorem reportsOf_parkAll (q : Port) (r : Result) (s : State) : reportsOf q (endAll r (park s)) = reportsOf q s
    ++ ((liveMotions s).filter (fun m => m.port == q)).map (fun m => m.report r (lastGood s)) := by
  rw [reportsOf_endAll, reportsOf_park, lastGood_park, liveMotions_congr (park_arbiter s)]

/-- A spindle that turns is braked, and the drive goes on to PARKING (R160). -/
theorem sagPark_parks (hdriven : Driven s.spindle) (hturns : 30 ≤ s.spindle.measured) :
    sagPark s = setDrive .parking (endAll (.preempted .supply) (park s)) := by
  have hbraking := (brake_driven (now := s.clock) hdriven hturns).1
  rw [sagPark, parkOrStop, if_neg (by simp [spindleStopped, hbraking])]

/-- The spindle of a park braked from a driven one (R76). -/
theorem braked_of_spindle {m : Multiple} (hdriven : Driven s.spindle) (hturns : 30 ≤ s.spindle.measured)
    (h : t.spindle = { s.spindle.brake s.clock with m := m }) : Braked s t := by
  obtain ⟨hstate, htarget, hlimit⟩ := brake_driven (now := s.clock) hdriven hturns
  obtain ⟨hmode, hbasis, hlock, htest⟩ := brake_stops s.spindle s.clock
  simp only [Braked, h]
  exact ⟨hstate, hmode, hbasis, htarget, hlock, htest, hlimit⟩

/-- An identification that tries a profile, with nothing pending and no ACQUIRE waiting, waits for events (R153). -/
theorem react_trying {i : Ident} (hw : s.arbiter.waiting = []) (ha : s.planner.acquireStep ≠ .spin)
    (hi : s.supervisor.ident = some i) (hstage : i.stage ≠ .spinning) (hrestart : i.restart = false) : react s = s := by
  have hready : onSpindleReady s = s := by simp [onSpindleReady, identIn, hi, hstage, hrestart, ha]
  have hheads : testHeads 3 s = s := by simp [testHeads, testHead, hw]
  rw [react, hready, hheads, hready]

/-! ### The try of profile L (R84, R152, R154) -/

/-- The profile-select command for a profile that is not active begins a switch (R84). -/
theorem profileSelect_begins {k : DiscClass} (h : s.optics.profile ≠ some k) : profileSelect k s
    = ((focusOff s).setOptics { (focusOff s).optics with profile := none, switch := some (k, s.clock) }, .begun) := by
  simp [profileSelect, h]

/-- What the try of profile L leaves of the rest of the part. -/
theorem failH_tries {i : Ident} (hi : s.supervisor.ident = some i) (hprofile : s.optics.profile ≠ some .L) :
    (failH s).supervisor = { s.supervisor with ident := some { i with
      stage := .profileL, step := some .switching, candidate := none, window := none, restart := false } } ∧
    (failH s).optics.profile = none ∧ (failH s).optics.switch = some (.L, s.clock) ∧ (failH s).optics.focus = .off ∧
    (failH s).optics.tracking = .off ∧ (failH s).spindle.mode = .fixed ∧ (failH s).spindle.basis = none ∧
    (failH s).arbiter = s.arbiter ∧ (failH s).planner.acquireStep = s.planner.acquireStep := by
  have hbegins := profileSelect_begins (k := .L) (s := changeIdent (fun i => { i with
    stage := .profileL, step := some .switching, candidate := none, window := none, restart := false })
      (spindleCommand .fixed none s)) (by simpa using hprofile)
  unfold failH tryProfile
  dsimp only
  rw [hbegins]
  simp [changeIdent, hi, focusOff_optics]

theorem run_ident {i : Ident} (dt : Nat) (hpaused : i.paused = false) (hrestart : i.restart = false) :
    i.run dt = { i with window := i.window.map (fun w => min 500 (w + dt)) } := by
  simp [Ident.run, hpaused, hrestart]

/-! ### ROUGH (R95, R172) -/

theorem exec_roughExit {x : Time} (h : s.recovery.roughExit = some x) : exec .roughExit s = .next (react (setRough false
    ((passTime (untilTime x s.clock) s).setRecovery { s.recovery with roughExit := none }))) := by
  change execRoughExit s = _
  rw [execRoughExit, h]
  rfl

theorem setRough_recovery (on : Bool) (s : State) : (setRough on s).recovery = { s.recovery with rough := on } := by
  simp [setRough]

theorem setRough_optics (on : Bool) (s : State) : (setRough on s).optics = { s.optics with robustGain := on } := by
  simp [setRough]

/-- m follows the road (R71, R172). -/
theorem recomputeM_least (s : State) : LeastMultiple (recomputeM s) := by
  apply leastMultiple_of_effective
  rw [(recomputeM_spindle s).1]
  apply effectiveMultiple_congr <;> simp

/-- The ROUGH notice stands in every queue whose mask admits it (R172). -/
theorem setRough_noticed {on : Bool} {q : Port} (hq : admits (s.port q).mask 5 = true) :
    Laws.Noticed (.rough on s.clock (recentCount s.recovery.history s.clock)) q (setRough on s) := by
  unfold setRough
  refine Noticed.recomputeM (noticed_offer _ ?_) (by simp [Notice.code])
  rw [State.setOptics_port, State.setRecovery_port]
  exact hq

/-- Settles O55: each timer by what its expiry does, with nothing to follow. -/
theorem timersRunOut : Obligations.TimersRunOut := by
  intro s
  refine ⟨fun hstage hsettled => ?settle, fun since hwindow hphase hsettled hcount => ?retrack,
    fun since htimer hdrive hident hdriven hturns => ?sag,
    fun i w hi hstage hw hpaused hrestart hwaiting hspin hprofile => ?window,
    fun hrunning hsettled hdrive1 hdrive2 hdrive3 => ?monitor, fun x hx hsettled => ?rough⟩
  case settle =>
    intro u
    have hu : u.supervisor = s.supervisor := runTo_supervisor_same hsettled.2.1
    rw [exec_settleEnd hstage]
    change ∃ t, Host.Outcome.next (react (settleEnds u)) = _ ∧ _
    rw [react_unmoved (t := settleEnds u) hsettled (by simp [settleEnds, u]) (by simp [settleEnds, hu])
      (by simp [settleEnds, u])]
    refine ⟨_, rfl, by simp [settleEnds, u], by simp [settleEnds, restartMonitor, u], fun m hm hphase => ?_,
      by simp [settleEnds, u], by simp [settleEnds, hu], by simp [settleEnds]⟩
    rw [settleEnds, restartMonitor_arbiter]
    exact setLegPhase_active (old := .settle) (by simpa [u] using hm) hphase rfl
  case retrack =>
    have hbegins : beginRefix (runTo since 50 s) = (runTo since 50 s).setRecovery { s.recovery with
        phase := .refix, refixCount := s.recovery.refixCount + 1, window := none } := by
      simp [beginRefix, enterPhase, Nat.not_le.2 hcount]
    change execRetrackWindowEnd s = _
    simp only [execRetrackWindowEnd, hwindow, hphase, if_true]
    rw [hbegins, react_afterTime (since := since) (limit := 50) hsettled (by simp) (by simp) (by simp)]
  case sag =>
    obtain ⟨u, hu⟩ : ∃ u, u = runTo since 3000 s := ⟨_, rfl⟩
    have hspindle : u.spindle = s.spindle := by simp [hu]
    have hsupervisor : u.supervisor = s.supervisor := by rw [hu, runTo_supervisor_same hident]
    have hpark := sagPark_parks (s := u) (by rw [hspindle]; exact hdriven) (by rw [hspindle]; exact hturns)
    obtain ⟨m, hm⟩ := setDrive_spindle_stop (s := endAll (.preempted .supply) (park u)) .parking
      (by simp [(brake_stops _ _).1])
    have hnone : NoMotion (sagPark u) := by
      rw [hpark, NoMotion, liveMotions_congr (setDrive_arbiter ..), liveMotions_endAll]
    have hmonitor : (sagPark u).monitor = (park u).monitor := by simp [hpark]
    rw [exec_sagTimer htimer, ← hu, react_quiet hnone (by simp [hpark, hsupervisor, hident]) (by simp [hpark])]
    refine ⟨_, rfl, by simp [hpark], by simp [hpark, hsupervisor], by simp [hpark],
      braked_of_spindle (m := m) (by rw [hspindle]; exact hdriven) (by rw [hspindle]; exact hturns) ?_, hnone, ?_,
      by simp [hpark, park_optics], by simp [hpark, park_optics], ?_⟩
    · rw [hpark, hm]
      simp
    · intro q
      have hreports : reportsOf q (sagPark u) = reportsOf q u
          ++ ((liveMotions u).filter (fun m => m.port == q)).map (fun m => m.report (.preempted .supply) (lastGood u)) := by
        rw [hpark, reportsOf_setDrive, reportsOf_parkAll]
      have hsame : reportsOf q u = completionsIn (s.port q).queue := by rw [reportsOf, hu, runTo_port]; rfl
      rw [hsame, hu] at hreports
      rw [hu]
      exact hreports
    · rw [lastGood_congr hmonitor, lastGood_park, hu, lastGood_runTo]
  case window =>
    obtain ⟨u, hu⟩ : ∃ u, u = passTime (500 - w) s := ⟨_, rfl⟩
    obtain ⟨j, hj⟩ : ∃ j, j = i.run (500 - w) := ⟨_, rfl⟩
    have hident : u.supervisor.ident = some j := by simp [hu, hj, hi]
    have hfails : tryFails u = failH u := by simp [tryFails, hident, hj, run_stage, hstage]
    obtain ⟨hsupervisor, hdark, hswitch, hfocus, htrack, hmode, hbasis, harbiter, hstep⟩ :=
      failH_tries hident (by simpa [hu] using hprofile)
    rw [exec_windowEnd hi hw hpaused hrestart, ← hu, hfails, react_trying (by rw [harbiter, hu]; exact hwaiting)
      (by rw [hstep, hu]; exact hspin) (by rw [hsupervisor]) (by simp) rfl]
    refine ⟨_, rfl, ⟨?_, ⟨hdark, hswitch, hfocus, htrack⟩, ⟨hmode, hbasis⟩⟩⟩
    rw [hsupervisor, hj, run_ident _ hpaused hrestart, hrestart]
  case monitor =>
    intro u
    have hstarted : s.monitor.started = true := by
      simp only [monitorRunning, Bool.and_eq_true] at hrunning
      exact hrunning.1.1.1
    have hraises : raises u = false := by
      have hdrive : u.supervisor.drive = s.supervisor.drive := rfl
      unfold raises
      rw [hdrive]
      cases h : s.supervisor.drive <;> simp_all
    change execAddressMonitorTimerExpiry s = _
    rw [execAddressMonitorTimerExpiry, if_pos hrunning]
    change Host.Outcome.next (react (restartMonitor (if raises u then takeDisturbance .addressStarved u else u))) = _
    rw [hraises, if_neg Bool.false_ne_true, react_unmoved hsettled (by simp [u]) (by simp [u, hsettled.2.1]) (by simp [u])]
    simp [restartMonitor, u, passTime, hstarted, State.setMonitor]
  case rough =>
    intro u
    rw [exec_roughExit hx]
    change ∃ t, Host.Outcome.next (react (setRough false (u.setRecovery { s.recovery with roughExit := none }))) = _ ∧ _
    have hu : u.supervisor = s.supervisor := passTime_supervisor_same hsettled.2.1
    rw [react_unmoved hsettled (by simp [u]) (by simp [hu]) (by simp [u])]
    refine ⟨_, rfl, by simp [setRough_recovery], by simp [setRough_optics, u], recomputeM_least _, by simp,
      by simp [hu], by simp [u], fun q hq => ?_⟩
    exact setRough_noticed (s := u.setRecovery { s.recovery with roughExit := none })
      (by rw [State.setRecovery_port, passTime_port]; exact hq)

end Sys2Proof.Proofs
end

section
/-! Plans (R41 to R50, R62, R63, R133 to R138): which plan the landing test and the checks call for, what each leaves, and what
becomes of the owner. -/

namespace Sys2Proof.Proofs

set_option Elab.async false

open Sys2Proof.Machine Sys2Proof.Safety Sys2Proof.Laws

variable {s t u v w : State} {k : DiscClass} {g a pg pa : Nat} {d : Int} {m : Motion}

/-! ### What every plan leaves as it is -/

/-- What plans and the ends of targets never change: the map, the trim, the last good address, the pending list, the
identification; and ACQUIRE's step, but that it can end. -/
structure PlanLeaves (s t : State) : Prop where
  map : t.map = s.map
  trim : t.planner.trim = s.planner.trim
  last : lastGood t = lastGood s
  waiting : t.arbiter.waiting = s.arbiter.waiting
  ident : t.supervisor.ident = s.supervisor.ident
  step : t.planner.acquireStep = s.planner.acquireStep ∨ t.planner.acquireStep = .none

theorem PlanLeaves.refl (s : State) : PlanLeaves s s := ⟨rfl, rfl, rfl, rfl, rfl, .inl rfl⟩

theorem PlanLeaves.trans (h : PlanLeaves s t) (h' : PlanLeaves t u) : PlanLeaves s u where
  map := h'.map.trans h.map
  trim := h'.trim.trans h.trim
  last := h'.last.trans h.last
  waiting := h'.waiting.trans h.waiting
  ident := h'.ident.trans h.ident
  step := h'.step.elim (fun he => he ▸ h.step) .inr

theorem planLeaves_hold (x : Nat) (s : State) : PlanLeaves s (hold x s) :=
  ⟨by simp, by simp, lastGood_congr (by simp), by simp, by simp, .inl (by simp)⟩

theorem planLeaves_reportDrive (x : DriveState) (s : State) : PlanLeaves s (reportDrive x s) :=
  ⟨by simp, by simp, lastGood_congr (by simp), by simp, by simp, .inl (by simp)⟩

theorem planLeaves_holdAt (x : Nat) (s : State) : PlanLeaves s (holdAt x s) :=
  (planLeaves_hold x s).trans (planLeaves_reportDrive .onTrack _)

theorem planLeaves_holdHere (s : State) : PlanLeaves s (holdHere s) := by
  unfold holdHere
  split
  · exact planLeaves_holdAt _ s
  · exact planLeaves_reportDrive .onTrack s

theorem planLeaves_endMotion (m : Motion) (r : Result) (f : Option Nat) (s : State) : PlanLeaves s (endMotion m r f s) :=
  ⟨by simp, by simp, lastGood_congr (by simp), by simp, by simp, .inl (by simp)⟩

theorem planLeaves_setActive (x : Option Motion) (s : State) : PlanLeaves s (setActive x s) :=
  ⟨by simp, by simp, lastGood_congr (by simp), by simp, by simp, .inl (by simp)⟩

theorem planLeaves_setPhase (ph : Phase) (s : State) : PlanLeaves s (setPhase ph s) := planLeaves_setActive _ s

theorem planLeaves_markRejoin (b : Bool) (s : State) : PlanLeaves s (markRejoin b s) := planLeaves_setActive _ s

theorem planLeaves_setAttached (x : Option Motion) (s : State) : PlanLeaves s (setAttached x s) :=
  ⟨by simp, by simp, lastGood_congr (by simp), by simp, by simp, .inl (by simp)⟩

theorem planLeaves_disown (s : State) : PlanLeaves s (disown s) := ⟨rfl, rfl, rfl, rfl, rfl, .inr rfl⟩

theorem planLeaves_endRecovery (s : State) : PlanLeaves s (endRecovery s) := ⟨rfl, rfl, rfl, rfl, rfl, .inl rfl⟩

theorem planLeaves_offer (n : Notice) (s : State) : PlanLeaves s (offer n s) := ⟨rfl, rfl, rfl, rfl, rfl, .inl rfl⟩

theorem planLeaves_legOver (s : State) : PlanLeaves s (s.setPlanner s.planner.legOver) :=
  ⟨rfl, rfl, rfl, rfl, rfl, .inl rfl⟩

theorem planLeaves_unreachedBy (m : Motion) (c : Cause) (s : State) : PlanLeaves s (unreachedBy m c s) :=
  ⟨rfl, rfl, rfl, rfl, rfl, .inl rfl⟩

theorem planLeaves_endHold (s : State) : PlanLeaves s (endHold s) := by
  have hlast : lastGood (endHold s) = lastGood s := by
    unfold endHold
    split
    · rw [lastGood_trackingOn]; rfl
    · rfl
  exact ⟨by simp, by simp, hlast, by simp, by simp, .inl (by simp)⟩

theorem planLeaves_releaseHold (s : State) : PlanLeaves s (releaseHold s) := by
  have hcopy : PlanLeaves s (s.setRecovery { s.recovery with holdCopy := none }) :=
    ⟨rfl, rfl, rfl, rfl, rfl, .inl rfl⟩
  exact hcopy.trans (planLeaves_endHold _)

theorem planLeaves_followTest (x : Nat) (s : State) : PlanLeaves s (followTest x s) := by
  have hends (m : Motion) (r : Result) (y : Nat) :
      PlanLeaves s (holdAt y (endMotion m r (some x) (setActive none s))) :=
    ((planLeaves_setActive none s).trans (planLeaves_endMotion m r _ _)).trans (planLeaves_holdAt y _)
  unfold followTest
  split
  · split
    · split
      · exact hends _ _ _
      · dsimp only
        split
        · exact hends _ _ _
        · exact planLeaves_setActive _ s
    · exact PlanLeaves.refl s
  · exact PlanLeaves.refl s

theorem planLeaves_enterFollowing (e : FollowEntry) (s : State) : PlanLeaves s (enterFollowing e s) := by
  unfold enterFollowing
  split
  · exact ((((((planLeaves_setPhase .following s).trans (planLeaves_markRejoin false _)).trans
      (planLeaves_disown _)).trans (planLeaves_reportDrive .onTrack _)).trans (planLeaves_releaseHold _)).trans
      (planLeaves_offer _ _)).trans (planLeaves_followTest _ _)
  · exact PlanLeaves.refl s

theorem planLeaves_endAttached (r : Result) (s : State) : PlanLeaves s (endAttached r s) := by
  unfold endAttached
  split
  · exact ((planLeaves_setAttached none s).trans (planLeaves_endMotion _ r _ _)).trans (planLeaves_enterFollowing .rejoin _)
  · exact PlanLeaves.refl s

theorem planLeaves_endInternal (x : Nat) (s : State) : PlanLeaves s (endInternal x s) :=
  (((planLeaves_hold x s).trans (planLeaves_disown _)).trans (planLeaves_endRecovery _)).trans
    (planLeaves_reportDrive .onTrack _)

theorem planLeaves_targetReached (x : Nat) (s : State) : PlanLeaves s (targetReached x s) := by
  unfold targetReached
  split
  · exact PlanLeaves.refl s
  · exact planLeaves_endInternal _ s
  · exact planLeaves_endAttached _ s
  · split
    · split
      · exact planLeaves_enterFollowing _ s
      · exact (((planLeaves_setActive none s).trans (planLeaves_disown _)).trans (planLeaves_endMotion _ _ _ _)).trans
          (planLeaves_holdAt _ _)
    · exact PlanLeaves.refl s

theorem planLeaves_targetUnreached (c : Cause) (s : State) : PlanLeaves s (targetUnreached c s) := by
  unfold targetUnreached
  split
  · exact PlanLeaves.refl s
  · exact planLeaves_endInternal _ s
  · split
    · exact (planLeaves_unreachedBy _ c s).trans (planLeaves_endAttached _ _)
    · exact PlanLeaves.refl s
  · split
    · exact ((((planLeaves_unreachedBy _ c s).trans (planLeaves_setActive none _)).trans (planLeaves_disown _)).trans
        (planLeaves_endMotion _ _ _ _)).trans (planLeaves_holdHere _)
    · exact PlanLeaves.refl s

/-! ### Legs (R46, R50) -/

theorem countLeg_waiting (s : State) : (countLeg s).arbiter.waiting = s.arbiter.waiting := by
  unfold countLeg
  dsimp only
  split <;> simp

/-- The planner once a leg begins (R46, R50). -/
theorem legBegins_planner (kind : LegKind) (n : Int) (s : State) : (legBegins kind n s).planner = { s.planner with
    legKind := kind, legCount := n, legStage := .running, legDisturbed := false, legDone := false
    sessionLegs := s.planner.sessionLegs + 1
    sessionSled := if kind = .sled then s.planner.sessionSled + 1 else s.planner.sessionSled } := by
  unfold legBegins
  dsimp only
  split <;> simp

@[simp] theorem lastGood_legBegins (kind : LegKind) (n : Int) (s : State) :
    lastGood (legBegins kind n s) = lastGood s := by
  unfold legBegins
  dsimp only
  rw [lastGood_staleFix]
  split <;> exact lastGood_congr (by simp)

@[simp] theorem fixFresh_legBegins (kind : LegKind) (n : Int) (s : State) : fixFresh (legBegins kind n s) = false :=
  fixFresh_staleFix _

@[simp] theorem legBegins_waiting (kind : LegKind) (n : Int) (s : State) :
    (legBegins kind n s).arbiter.waiting = s.arbiter.waiting := by
  unfold legBegins
  dsimp only
  split <;> simp [setPhase, countLeg_waiting]

theorem planLeaves_legBegins (kind : LegKind) (n : Int) (s : State) : PlanLeaves s (legBegins kind n s) :=
  ⟨by simp, by simp [legBegins_planner], by simp, by simp, by simp, .inl (by simp [legBegins_planner])⟩

theorem planLeaves_setLegPhase (ph : Phase) (s : State) : PlanLeaves s (setLegPhase ph s) := by
  unfold setLegPhase
  split
  · exact planLeaves_setPhase ph s
  · exact PlanLeaves.refl s

theorem planLeaves_fineLegEnds (s : State) : PlanLeaves s (fineLegEnds s) := by
  unfold fineLegEnds
  split
  · split
    · exact planLeaves_legOver s
    · refine PlanLeaves.trans ?_ (planLeaves_setLegPhase .settle _)
      exact ⟨rfl, rfl, rfl, rfl, rfl, .inl rfl⟩
  · exact PlanLeaves.refl s

theorem planLeaves_lapseLeg (s : State) : PlanLeaves s (lapseLeg s) :=
  ⟨by simp, by simp, lastGood_congr (by simp), by simp, by simp, .inl (by simp)⟩

theorem planLeaves_beginFine (n : Int) (s : State) : PlanLeaves s (beginFine n s) := by
  have hbegins := planLeaves_legBegins .fine n s
  unfold beginFine
  dsimp only
  split
  · exact hbegins.trans (planLeaves_fineLegEnds _)
  · split
    · exact hbegins.trans ⟨by simp, by simp, lastGood_congr (by simp), by simp, by simp, .inl (by simp)⟩
    · exact hbegins.trans ⟨by simp, by simp, lastGood_congr (by simp), by simp, by simp, .inl (by simp)⟩
    · exact hbegins.trans ⟨rfl, rfl, rfl, rfl, rfl, .inl rfl⟩
    · exact hbegins.trans (planLeaves_lapseLeg _)

theorem sledLeg_planner (r : Requester) (n : Int) (s : State) : (sledLeg r n s).1.planner = s.planner := by
  unfold sledLeg
  split
  · dsimp only
    split
    · rfl
    · split <;> rfl
  · dsimp only
    split
    · rfl
    · split <;> rfl
  · rfl

theorem sledLeg_arbiter (r : Requester) (n : Int) (s : State) : (sledLeg r n s).1.arbiter = s.arbiter := by
  unfold sledLeg
  split
  · dsimp only
    split
    · rfl
    · split <;> rfl
  · dsimp only
    split
    · rfl
    · split <;> rfl
  · rfl

theorem planLeaves_sledLegEnds (b : Bool) (s : State) : PlanLeaves s (sledLegEnds b s) := by
  unfold sledLegEnds
  split
  · refine PlanLeaves.trans ?_ (planLeaves_setLegPhase .settle _)
    exact ⟨by simp, by simp, lastGood_congr (by simp), by simp, by simp, .inl (by simp)⟩
  · exact PlanLeaves.refl s

theorem planLeaves_beginSled (n : Int) (s : State) : PlanLeaves s (beginSled n s) := by
  have hopen (v : State) : PlanLeaves v (openTracking v) :=
    ⟨by simp, by simp, by simp, by simp, by simp, .inl (by simp)⟩
  have hleg (v : State) : PlanLeaves v (sledLeg .planner n v).1 :=
    ⟨by simp, by rw [sledLeg_planner], lastGood_congr (by simp), by rw [sledLeg_arbiter], by simp,
      .inl (by rw [sledLeg_planner])⟩
  have hbegins := ((planLeaves_legBegins .sled n s).trans (hopen _)).trans (hleg _)
  unfold beginSled
  dsimp only
  split
  · exact hbegins
  · exact hbegins.trans (planLeaves_sledLegEnds true _)
  · exact hbegins.trans (planLeaves_sledLegEnds false _)

theorem planLeaves_makePlan (s : State) : PlanLeaves s (makePlan s).1 := by
  have haimed (md : DriveMode) (b : Option Nat) (p : Planner) (htrim : p.trim = s.planner.trim)
      (hstep : p.acquireStep = s.planner.acquireStep) : PlanLeaves s (spindleCommand md b (s.setPlanner p)) :=
    ⟨by simp, by simp [htrim], lastGood_congr (by simp), by simp, by simp, .inl (by simp [hstep])⟩
  have hleg (k : DiscClass) (d : Int) (v : State) : PlanLeaves v (planLeg k d v).1 := by
    unfold planLeg
    dsimp only
    split
    · exact PlanLeaves.refl v
    · split
      · exact planLeaves_beginFine _ v
      · exact planLeaves_beginSled _ v
  unfold makePlan
  split
  · split
    · dsimp only
      split
      · exact haimed _ _ _ rfl rfl
      · exact haimed _ _ _ rfl rfl
      · refine PlanLeaves.trans (haimed _ _ _ ?_ ?_) (hleg _ _ _) <;> rfl
    · exact PlanLeaves.refl s
  · exact PlanLeaves.refl s

theorem planLeaves_plan (s : State) : PlanLeaves s (plan s) := by
  have hmade := (planLeaves_legOver s).trans (planLeaves_makePlan (s.setPlanner s.planner.legOver))
  unfold plan
  split
  · exact PlanLeaves.refl s
  · dsimp only
    split
    · exact hmade
    · exact hmade
    · refine PlanLeaves.trans ?_ (planLeaves_endHold _)
      split
      · exact hmade
      · exact hmade.trans (planLeaves_setPhase .approach _)
    · exact hmade.trans (planLeaves_targetReached _ _)
    · exact hmade.trans (planLeaves_targetUnreached _ _)

/-! ### Which plan is made (R41 to R45) -/

/-- There is something to plan: an owner with its target, a fix, a class, and a map that places both. -/
structure CanPlan (k : DiscClass) (g a pg pa : Nat) (s : State) : Prop where
  owner : s.planner.owner ≠ .none
  target : s.planner.target = some g
  last : lastGood s = some a
  cls : s.supervisor.cls = some k
  there : s.map.predict g = some pg
  here : s.map.predict a = some pa

/-- The plan is stored and the spindle is given the target coordinate; no leg is left (R41). -/
def aimed (pg pa : Nat) (s : State) : State :=
  spindleCommand .clv (some pg) (s.setPlanner { s.planner with
    targetCoord := some pg, startCoord := some pa, distance := some ((pg : Int) - (pa : Int))
    legStage := .idle, legKind := .none, legDone := false })

@[simp] theorem aimed_planner (pg pa : Nat) (s : State) : (aimed pg pa s).planner = { s.planner with
    targetCoord := some pg, startCoord := some pa, distance := some ((pg : Int) - (pa : Int))
    legStage := .idle, legKind := .none, legDone := false } := by simp [aimed]
@[simp] theorem aimed_clock (pg pa : Nat) (s : State) : (aimed pg pa s).clock = s.clock := by simp [aimed]
@[simp] theorem aimed_arbiter (pg pa : Nat) (s : State) : (aimed pg pa s).arbiter = s.arbiter := by simp [aimed]
@[simp] theorem aimed_map (pg pa : Nat) (s : State) : (aimed pg pa s).map = s.map := by simp [aimed]
@[simp] theorem aimed_zones (pg pa : Nat) (s : State) : (aimed pg pa s).zones = s.zones := by simp [aimed]
@[simp] theorem aimed_monitor (pg pa : Nat) (s : State) : (aimed pg pa s).monitor = s.monitor := by simp [aimed]
@[simp] theorem aimed_optics (pg pa : Nat) (s : State) : (aimed pg pa s).optics = s.optics := by simp [aimed]
@[simp] theorem aimed_sled (pg pa : Nat) (s : State) : (aimed pg pa s).sled = s.sled := by simp [aimed]
@[simp] theorem aimed_recovery (pg pa : Nat) (s : State) : (aimed pg pa s).recovery = s.recovery := by simp [aimed]
@[simp] theorem aimed_supervisor (pg pa : Nat) (s : State) : (aimed pg pa s).supervisor = s.supervisor := by simp [aimed]
@[simp] theorem aimed_reports (q : Port) (pg pa : Nat) (s : State) : reportsOf q (aimed pg pa s) = reportsOf q s := by
  simp [aimed]
@[simp] theorem aimed_last (pg pa : Nat) (s : State) : lastGood (aimed pg pa s) = lastGood s := lastGood_congr (by simp)
@[simp] theorem aimed_fresh (pg pa : Nat) (s : State) : fixFresh (aimed pg pa s) = fixFresh s := fixFresh_congr (by simp)

/-- The spindle is driven for the target coordinate (R41, R67). -/
theorem aimed_spindle (hk : s.supervisor.cls = some k) (pg pa : Nat) : (aimed pg pa s).spindle.mode = .clv ∧
    (aimed pg pa s).spindle.basis = some pg ∧ (aimed pg pa s).spindle.held = s.spindle.held ∧
    ClvTarget (aimed pg pa s) := by
  have hmode : (aimed pg pa s).spindle.basis = some pg := by simp [aimed]
  obtain ⟨htarget, hclamped, hm⟩ := spindleCommand_clv (c := pg) (k := k) (s := s.setPlanner { s.planner with
    targetCoord := some pg, startCoord := some pa, distance := some ((pg : Int) - (pa : Int))
    legStage := .idle, legKind := .none, legDone := false }) hk
  refine ⟨by simp [aimed], hmode, by simp [aimed], clvTarget_of_eq (k := k) (b := pg) (by simpa using hk) hmode ?_ ?_⟩
  · rw [aimed, htarget, hm]
  · rw [aimed, hclamped, hm]

theorem makePlan_eq (h : CanPlan k g a pg pa s) : makePlan (s.setPlanner s.planner.legOver) =
    match landingTest g a ((pg : Int) - (pa : Int)) with
    | .reached => (aimed pg pa s, .reached a)
    | .approach => (aimed pg pa s, .approach)
    | .leg d => planLeg k d (aimed pg pa s) := by
  have hlast : lastGood (s.setPlanner s.planner.legOver) = some a := h.last
  have htarget : (s.setPlanner s.planner.legOver).planner.target = some g := h.target
  unfold makePlan
  rw [htarget, hlast]
  simp only [State.setPlanner_supervisor, State.setPlanner_map, h.cls, h.there, h.here]
  rfl

theorem landingTest_reached (h : InReach g a) (d : Int) : landingTest g a d = .reached := if_pos h

theorem landingTest_approach (h : CallsForApproach g a d) : landingTest g a d = .approach := by
  rw [landingTest, if_neg (by omega), if_pos h]

theorem landingTest_leg (h : CallsForLeg g a d) : landingTest g a d = .leg (legOf d) := by
  have hout : ¬ InReach g a := by unfold CallsForLeg at h; omega
  have hfar : ¬ CallsForApproach g a d := by unfold CallsForLeg at h; omega
  rw [landingTest, if_neg hout, if_neg hfar]
  by_cases hd : d = 0
  · rw [if_pos ⟨by unfold CallsForLeg at h; omega, hd⟩, legOf, if_pos hd]
  · rw [if_neg (fun hand => hd hand.2), legOf, if_neg hd]

/-- The plan within reach of its target (R43). -/
theorem plan_reached (h : CanPlan k g a pg pa s) (hreach : InReach g a) :
    plan s = targetReached a (aimed pg pa s) := by
  unfold plan
  rw [if_neg h.owner, makePlan_eq h, landingTest_reached hreach]

/-- The plan just below its target (R44; that a hold ends there is entry 31). -/
theorem plan_approach (h : CanPlan k g a pg pa s) (hbelow : CallsForApproach g a ((pg : Int) - (pa : Int))) :
    plan s = endHold (if s.planner.owner = .internal then aimed pg pa s else setPhase .approach (aimed pg pa s)) := by
  unfold plan
  rw [if_neg h.owner, makePlan_eq h, landingTest_approach hbelow]
  simp

theorem legOf_natAbs_le {n : Nat} (hn : 1 ≤ n) : (legOf d).natAbs ≤ n ↔ d.natAbs ≤ n := by
  unfold legOf
  split <;> omega

/-- What is done with a plan once it is made (R43 to R45). -/
def actOnPlan (r : State × Plan) : State :=
  match r.2 with
  | .none | .leg => r.1
  | .approach => endHold (if r.1.planner.owner = .internal then r.1 else setPhase .approach r.1)
  | .reached a => targetReached a r.1
  | .unreached c => targetUnreached c r.1

theorem plan_eq (howner : s.planner.owner ≠ .none) : plan s = actOnPlan (makePlan (s.setPlanner s.planner.legOver)) :=
  if_neg howner

/-- The plan that calls for a leg makes the checks of R45 for it. -/
theorem plan_leg (h : CanPlan k g a pg pa s) (hfar : CallsForLeg g a ((pg : Int) - (pa : Int))) :
    plan s = actOnPlan (planLeg k (legOf ((pg : Int) - (pa : Int))) (aimed pg pa s)) := by
  rw [plan_eq h.owner, makePlan_eq h, landingTest_leg hfar]

theorem plan_fine (h : CanPlan k g a pg pa s) (hfar : CallsForLeg g a ((pg : Int) - (pa : Int)))
    (hnear : ((pg : Int) - (pa : Int)).natAbs ≤ 64) (hlegs : s.planner.sessionLegs < 6) :
    plan s = beginFine (legOf ((pg : Int) - (pa : Int))) (aimed pg pa s) := by
  have hshort := (legOf_natAbs_le (d := (pg : Int) - (pa : Int)) (n := 64) (by decide)).2 hnear
  have hcheck (n : Nat) : legCheck (aimed pg pa s) (legOf ((pg : Int) - (pa : Int))) n = none := by
    simp [legCheck, Nat.not_le.2 hlegs, hshort]
  rw [plan_leg h hfar]
  simp only [actOnPlan, planLeg, hcheck, hshort, if_true]

/-- For a leg beyond 64 tracks the distance is the leg. -/
theorem legOf_far (h : 64 < d.natAbs) : legOf d = d := if_neg (by rintro rfl; simp at h)

/-- The rail steps are those of R48 and R49. -/
theorem shortened_eq (k : DiscClass) (d : Int) (trim x : Nat) :
    shortened x d (sledSteps k trim d) = railSteps k d trim x := by
  unfold shortened railSteps sledSteps
  split <;> rfl

theorem plan_sled {x : Nat} (h : CanPlan k g a pg pa s) (hfar : CallsForLeg g a ((pg : Int) - (pa : Int)))
    (hlong : 64 < ((pg : Int) - (pa : Int)).natAbs) (hlegs : s.planner.sessionLegs < 6)
    (hsled : s.planner.sessionSled < 3) (hx : s.sled.position = some x)
    (hn : railSteps k ((pg : Int) - (pa : Int)) s.planner.trim x ≠ 0) :
    plan s = beginSled (signed ((pg : Int) - (pa : Int)) (railSteps k ((pg : Int) - (pa : Int)) s.planner.trim x))
      (aimed pg pa s) := by
  have hcheck : legCheck (aimed pg pa s) ((pg : Int) - (pa : Int))
      (sledSteps k s.planner.trim ((pg : Int) - (pa : Int))) = none := by
    simp only [legCheck, aimed_planner, aimed_sled, hx, if_neg (Nat.not_le.2 hlegs), if_neg (Nat.not_le.2 hlong),
      if_neg (Nat.not_le.2 hsled), shortened_eq, if_neg hn]
  rw [plan_leg h hfar, legOf_far hlong]
  simp only [actOnPlan, planLeg, aimed_planner, hcheck, if_neg (Nat.not_le.2 hlong), aimed_sled, hx, Option.getD_some, shortened_eq]

/-- The check of R45 that fails is the one the model finds. -/
theorem legCheck_fails {e : Cause} (h : FailsCheck k d s e) :
    legCheck s (legOf d) (sledSteps k s.planner.trim (legOf d)) = some e := by
  cases e with
  | legBudget => exact if_pos h
  | sledBudget =>
    obtain ⟨hlegs, hlong, hsled⟩ := h
    rw [legOf_far hlong, legCheck, if_neg (Nat.not_le.2 hlegs), if_neg (Nat.not_le.2 hlong), if_pos hsled]
  | sledLimit =>
    obtain ⟨hlegs, hlong, hsled, hrail⟩ := h
    rw [legOf_far hlong, legCheck, if_neg (Nat.not_le.2 hlegs), if_neg (Nat.not_le.2 hlong), if_neg (Nat.not_le.2 hsled)]
    cases hx : s.sled.position with
    | none => rfl
    | some x =>
      have hzero : shortened x d (sledSteps k s.planner.trim d) = 0 := (shortened_eq ..).trans (hrail x hx)
      simp [hzero]

theorem plan_unreached {e : Cause} (h : CanPlan k g a pg pa s) (hfar : CallsForLeg g a ((pg : Int) - (pa : Int)))
    (he : FailsCheck k ((pg : Int) - (pa : Int)) s e) : plan s = targetUnreached e (aimed pg pa s) := by
  have hsame : FailsCheck k ((pg : Int) - (pa : Int)) (aimed pg pa s) e := by
    cases e <;> simpa [FailsCheck] using he
  have hcheck := legCheck_fails hsame
  rw [plan_leg h hfar]
  simp only [actOnPlan, planLeg, hcheck]

end Sys2Proof.Proofs
end

section
/-! A good address in motion (R53 to R57, R105 to R110): the report that becomes the fix, and what a landing teaches. -/

namespace Sys2Proof.Proofs

set_option Elab.async false

open Sys2Proof.Machine Sys2Proof.Safety Sys2Proof.Laws

variable {s t u v w : State} {k : DiscClass} {a c c0 : Nat} {p : Port} {tag : Byte} {address : Addr}

/-! ### The report is taken (R105 to R110) -/

/-- The expected-coordinate check is made on a quiet track alone (R112). -/
theorem jumps_offTrack (h : s.supervisor.drive ≠ .onTrack) : jumps a s = false := by simp [jumps, h]

/-- A good address of the class is taken as a fix, where nothing of R108 sets it aside. -/
theorem judge_fixes (hident : s.supervisor.drive ≠ .identifying) (hsag : s.supervisor.drive ≠ .sagHold)
    (hk : s.supervisor.cls = some k) (ha : a ≤ k.maxAddress) (hfocus : s.optics.focus = .locked)
    (htrack : s.optics.tracking = .closed ∨ s.optics.tracking = .hold) (hrun : s.planner.legStage ≠ .running)
    (hsettle : s.planner.legStage ≠ .settling) (hphase : activePhase s ≠ some .suspended) (hjump : jumps a s = false) :
    judge a true s = (takeFix a s, .fix) := by
  have hclass : reportClass s = some k := by simp [reportClass, hident, hk]
  have haside : setsReportAside s = false := by
    rcases htrack with htrack | htrack <;> simp [setsReportAside, hfocus, htrack, hrun, hsettle, hphase, hsag]
  simp [judge, hclass, haside, hident, hjump, Nat.not_lt.2 ha]

/-- A report that is taken as a fix, and that nothing follows, is answered FIX. -/
theorem exec_fixReport (htakes : Takes 0x20 p s) (hjudge : judge address.toNat true s = (w, .fix)) (hreact : react w = w) :
    exec (.addressReport p tag address 0) s = .next (w.answer p tag .accepted [0]) := by
  refine exec_takes (k := .addressReport) rfl rfl htakes ?_
  change reportAddress address 0 s = _
  simp only [reportAddress, goodFlag?, if_true, hjudge, hreact]
  rfl

/-- The blocks receive the fix in the order of entry 20. -/
theorem takeFix_eq (hp : s.map.predict a = some c) : takeFix a s
    = recoveryOnFix s (arbiterOnFix a s (holdOnFix a s (plannerOnFix a s (fixTaken a c s)))) := by
  rw [takeFix, hp]
  rfl

theorem recoveryOnFix_idle (h : s.recovery.phase ≠ .refix) : recoveryOnFix s v = v := if_neg h

theorem arbiterOnFix_idle (h : activePhase s ≠ some .following) : arbiterOnFix a s v = v := by
  unfold arbiterOnFix
  cases hm : s.arbiter.active with
  | none => rfl
  | some m =>
    have hphase : m.phase ≠ some .following := by simpa [activePhase, hm] using h
    simp [hphase]

@[simp] theorem fixTaken_sled (a c : Nat) (s : State) : (fixTaken a c s).sled = s.sled := by simp [fixTaken, storeFix]
@[simp] theorem fixTaken_last (a c : Nat) (s : State) : lastGood (fixTaken a c s) = some a := by
  rw [lastGood, fixTaken_monitor]
  rfl
@[simp] theorem fixTaken_fresh (a c : Nat) (s : State) : fixFresh (fixTaken a c s) = true := by
  rw [fixFresh, fixTaken_monitor]
  rfl
@[simp] theorem fixTaken_reports (q : Port) (a c : Nat) (s : State) : reportsOf q (fixTaken a c s) = reportsOf q s := by
  rw [fixTaken, reportsOf_spindleOnFix, reportsOf_compareZone]
  exact reportsOf_congr q (storeFix_port ..)
theorem fixTaken_mask (a c : Nat) (s : State) (q : Port) : ((fixTaken a c s).port q).mask = (s.port q).mask := by
  rw [((fixTaken_keeps a c s).port q).mask, storeFix_port]
theorem fixTaken_decode (a c : Nat) (s : State) (x : Nat) : (fixTaken a c s).zones.decode x = s.zones.decode x :=
  decode_congr (fixTaken_keeps a c s).entries (fixTaken_keeps a c s).defaultCap x

/-! ### A landing teaches (R53 to R57) -/

/-- What a landing can teach, and what it leaves: the map and the trim are all that it may change. -/
structure Taught (s t : State) : Prop where
  planner : t.planner = { s.planner with trim := t.planner.trim }
  clock : t.clock = s.clock
  arbiter : t.arbiter = s.arbiter
  zones : t.zones = s.zones
  monitor : t.monitor = s.monitor
  optics : t.optics = s.optics
  sled : t.sled = s.sled
  spindle : t.spindle = s.spindle
  recovery : t.recovery = s.recovery
  supervisor : t.supervisor = s.supervisor
  port : ∀ q, t.port q = s.port q

theorem Taught.refl (s : State) : Taught s s := ⟨rfl, rfl, rfl, rfl, rfl, rfl, rfl, rfl, rfl, rfl, fun _ => rfl⟩

theorem learn_taught (a : Nat) (s : State) : Taught s (learn a s) := by
  unfold learn
  split
  · dsimp only
    split
    · split
      · exact ⟨rfl, rfl, rfl, rfl, rfl, rfl, rfl, rfl, rfl, rfl, fun _ => by simp⟩
      · exact Taught.refl s
    · exact Taught.refl s
  · exact Taught.refl s

theorem updateTrim_taught (a : Nat) (s : State) : Taught s (updateTrim a s) := by
  unfold updateTrim
  split
  · exact ⟨rfl, rfl, rfl, rfl, rfl, rfl, rfl, rfl, rfl, rfl, fun _ => by simp⟩
  · exact Taught.refl s

theorem landingTeaches_taught (a : Nat) (s : State) : Taught s (landingTeaches a s) := by
  unfold landingTeaches
  split
  · split
    · exact learn_taught a s
    · exact updateTrim_taught a s
    · exact Taught.refl s
  · exact Taught.refl s

theorem landingTeaches_incomplete (h : s.planner.legDone = false) : landingTeaches a s = s := by
  simp [landingTeaches, h]

theorem landingTeaches_fine (hkind : s.planner.legKind = .fine) (hdone : s.planner.legDone = true) :
    landingTeaches a s = learn a s := by simp [landingTeaches, hkind, hdone]

theorem landingTeaches_sled (hkind : s.planner.legKind = .sled) (hdone : s.planner.legDone = true) :
    landingTeaches a s = updateTrim a s := by simp [landingTeaches, hkind, hdone]

theorem landingTeaches_none (hkind : s.planner.legKind = .none) : landingTeaches a s = s := by
  simp [landingTeaches, hkind]

theorem updateTrim_map (a : Nat) (s : State) : (updateTrim a s).map = s.map := by
  unfold updateTrim
  split <;> rfl

theorem learn_planner (a : Nat) (s : State) : (learn a s).planner = s.planner := by
  unfold learn
  split
  · dsimp only
    split
    · split <;> rfl
    · rfl
  · rfl

/-- A landing within 2 tracks of the map asks for no record (R54). -/
theorem learn_near (hc0 : s.planner.startCoord = some c0) (hp : s.map.predict a = some c)
    (hnear : ((c0 : Int) + s.planner.legCount - (c : Int)).natAbs < 2) : learn a s = s := by
  simp [learn, hc0, hp, Nat.not_le.2 hnear]

/-- One further off asks for a LEARNED record at the coordinate the leg has shown (R54, R55). -/
theorem learn_far (hc0 : s.planner.startCoord = some c0) (hp : s.map.predict a = some c)
    (hfar : 2 ≤ ((c0 : Int) + s.planner.legCount - (c : Int)).natAbs) : (learn a s).map
      = match s.map.insert a ((c0 : Int) + s.planner.legCount).toNat .learned with
        | some i => i.map
        | none => s.map := by
  simp only [learn, hc0, hp, hfar, if_true]
  cases s.map.insert a ((c0 : Int) + s.planner.legCount).toNat .learned <;> rfl

/-- The trim a sled leg leaves is that of R56 and R57. -/
theorem updateTrim_trim (hc0 : s.planner.startCoord = some c0) (hp : s.map.predict a = some c)
    (hk : s.supervisor.cls = some k) : (updateTrim a s).planner.trim
      = newTrim k s.planner.trim s.planner.legCount ((c : Int) - (c0 : Int)) := by
  simp [updateTrim, hc0, hp, hk, trackDistance]

theorem newTrim_moves {trim : Nat} {steps o : Int} (hlong : 256 ≤ o.natAbs)
    (hsame : 0 < o ∧ 0 < steps ∨ o < 0 ∧ steps < 0) : newTrim k trim steps o
      = max 3686 (min 4506 (rounded (3 * trim + rounded (o.natAbs * 4096 * k.pitch) (steps.natAbs * 20000)) 4)) := by
  rw [newTrim, if_pos ⟨hlong, hsame⟩, clampTo_eq (by decide)]

theorem newTrim_stays {trim : Nat} {steps o : Int}
    (h : ¬ (256 ≤ o.natAbs ∧ (0 < o ∧ 0 < steps ∨ o < 0 ∧ steps < 0))) : newTrim k trim steps o = trim := if_neg h

/-- The map after a landing: only a complete fine leg off its map by 2 tracks or more asks for a record. -/
theorem landingTeaches_map_same (hc0 : s.planner.startCoord = some c0) (hp : s.map.predict a = some c)
    (h : s.planner.legKind ≠ .fine ∨ s.planner.legDone = false ∨
      ((c0 : Int) + s.planner.legCount - (c : Int)).natAbs < 2) : (landingTeaches a s).map = s.map := by
  cases hdone : s.planner.legDone with
  | false => rw [landingTeaches_incomplete hdone]
  | true =>
    cases hkind : s.planner.legKind with
    | none => rw [landingTeaches_none hkind]
    | sled => rw [landingTeaches_sled hkind hdone, updateTrim_map]
    | fine => rw [landingTeaches_fine hkind hdone, learn_near hc0 hp (by simpa [hkind, hdone] using h)]

/-- The trim after a landing: only a complete sled leg can move it. -/
theorem landingTeaches_trim_same (h : s.planner.legKind ≠ .sled ∨ s.planner.legDone = false) :
    (landingTeaches a s).planner.trim = s.planner.trim := by
  cases hdone : s.planner.legDone with
  | false => rw [landingTeaches_incomplete hdone]
  | true =>
    cases hkind : s.planner.legKind with
    | none => rw [landingTeaches_none hkind]
    | fine => rw [landingTeaches_fine hkind hdone, learn_planner]
    | sled => simp [hkind, hdone] at h

/-- The trim after a landing is the one that TrimAfter writes out (R56, R57). -/
theorem landingTeaches_trimAfter (hkind : s.planner.legKind = .sled) (hc0 : s.planner.startCoord = some c0)
    (hp : s.map.predict a = some c) (hk : s.supervisor.cls = some k) :
    (landingTeaches a s).planner.trim = TrimAfter k c c0 s := by
  unfold TrimAfter
  cases hdone : s.planner.legDone with
  | false => simp [landingTeaches_incomplete hdone]
  | true =>
    rw [landingTeaches_sled hkind hdone, updateTrim_trim hc0 hp hk]
    simp only [true_and]
    split
    · rename_i h
      exact newTrim_moves h.1 h.2
    · rename_i h
      exact newTrim_stays h

/-! ### The landing in a plan (R53) -/

theorem planLeaves_landUnowned (x : Nat) (s : State) : PlanLeaves s (landUnowned x s) := by
  unfold landUnowned
  dsimp only
  split
  · split
    · exact (planLeaves_legOver s).trans (planLeaves_endAttached _ _)
    · exact planLeaves_legOver s
  · split
    · exact (((planLeaves_legOver s).trans (planLeaves_setActive none _)).trans (planLeaves_endMotion _ _ _ _)).trans
        (planLeaves_holdAt _ _)
    · exact planLeaves_legOver s
  · exact (planLeaves_legOver s).trans (planLeaves_holdAt _ _)

theorem landLeft_landing (hstage : s.planner.legStage = .landing) (hclean : s.planner.legDisturbed = false) :
    landLeft a s = (landingTeaches a s).setPlanner (landingTeaches a s).planner.legOver := by
  simp [landLeft, hstage, hclean]

theorem land_clean (hclean : s.planner.legDisturbed = false) : land a s
    = if s.planner.owner = .none then landUnowned a (landingTeaches a s) else plan (landingTeaches a s) := by
  have howner : (landingTeaches a s).planner.owner = s.planner.owner := by rw [(landingTeaches_taught a s).planner]
  simp [land, hclean, howner]

/-- The end of ACQUIRE's step. -/
theorem planLeaves_stepEnds (s : State) : PlanLeaves s (s.setPlanner { s.planner with acquireStep := .none }) :=
  ⟨rfl, rfl, rfl, rfl, rfl, .inr rfl⟩

/-- Whatever the planner does with the landing of an undisturbed leg, it begins with what the landing teaches. -/
theorem plannerOnFix_landing (hstage : s.planner.legStage = .landing) (hclean : s.planner.legDisturbed = false)
    (hu : u.planner = s.planner) : PlanLeaves (landingTeaches a u) (plannerOnFix a s u) := by
  have hleft : landLeft a u = (landingTeaches a u).setPlanner (landingTeaches a u).planner.legOver :=
    landLeft_landing (by rw [hu, hstage]) (by rw [hu, hclean])
  unfold plannerOnFix
  split
  · unfold acquireEnds
    dsimp only
    rw [hleft]
    exact ((planLeaves_legOver _).trans (planLeaves_stepEnds _)).trans (planLeaves_plan _)
  · split
    · rw [hleft]
      exact planLeaves_legOver _
    · rw [land_clean (by rw [hu, hclean])]
      split
      · exact planLeaves_landUnowned a _
      · exact planLeaves_plan _

theorem planLeaves_holdOnFix (x : Nat) (b s : State) : PlanLeaves s (holdOnFix x b s) := by
  rcases holdOnFix_cases x b s with h | h
  · rw [h]
    exact PlanLeaves.refl s
  · rw [h]
    exact ⟨by simp, by simp, lastGood_congr (by simp), by simp, by simp, .inl (by simp)⟩

/-- Nothing follows a plan made where nothing waits. -/
theorem react_planned (h : PlanLeaves s t) (hsettled : Settled s) : react t = t :=
  react_settled ⟨h.waiting.trans hsettled.1, h.ident.trans hsettled.2.1,
    h.step.elim (fun he => he ▸ hsettled.2.2) fun he => by simp [he]⟩

/-- Settles O57: whatever the plan that follows does, it leaves the map and the trim as the landing has taught them. -/
theorem landingTeachesMapAndTrim : Obligations.LandingTeachesMapAndTrim := by
  intro p tag address k c c0 s htakes hk hmax hp hc0 hdrive hsettled hfocus htrack hsuspended hfollowing hphase hstage
    hclean o e
  obtain ⟨a, ha⟩ : ∃ a, a = address.toNat := ⟨_, rfl⟩
  rw [← ha] at hmax hp ⊢
  obtain ⟨u, hu⟩ : ∃ u, u = fixTaken a c s := ⟨_, rfl⟩
  have huplanner : u.planner = s.planner := by simp [hu]
  have humap : u.map = s.map := by simp [hu]
  obtain ⟨w, hw⟩ : ∃ w, w = takeFix a s := ⟨_, rfl⟩
  have hleaves : PlanLeaves (landingTeaches a u) w := by
    rw [hw, takeFix_eq hp, recoveryOnFix_idle (by simp [hphase]), arbiterOnFix_idle hfollowing, ← hu]
    exact (plannerOnFix_landing hstage hclean huplanner).trans (planLeaves_holdOnFix a s _)
  have htaught : Taught u (landingTeaches a u) := landingTeaches_taught a u
  have hsettled' : Settled (landingTeaches a u) := settled_congr hsettled (by rw [htaught.arbiter]; simp [hu])
    (by rw [htaught.supervisor]; simp [hu]) (by rw [htaught.planner]; simp [hu])
  have hjudge : judge address.toNat true s = (w, .fix) := by
    rw [← ha, hw]
    exact judge_fixes (by simp [hdrive]) (by simp [hdrive]) hk hmax hfocus htrack (by simp [hstage]) (by simp [hstage])
      hsuspended (jumps_offTrack (by simp [hdrive]))
  have hc0' : u.planner.startCoord = some c0 := by rw [huplanner, hc0]
  have hp' : u.map.predict a = some c := by rw [humap, hp]
  refine ⟨_, exec_fixReport htakes hjudge (react_planned hleaves hsettled'), answer_reply .., ?last,
    fun h => ?mapSame, fun hkind hdone hfar => ?mapLearned, fun h => ?trimSame, fun hkind hdone hlong hsame => ?trimMoved⟩
  case last =>
    rw [lastGood_congr (answer_monitor ..), hleaves.last, lastGood_congr htaught.monitor, hu, fixTaken_last]
  case mapSame =>
    rw [answer_map, hleaves.map, landingTeaches_map_same hc0' hp' (by rw [huplanner]; exact h), humap]
  case mapLearned =>
    have hlearn := learn_far hc0' hp' (by rw [huplanner]; exact hfar)
    rw [humap, huplanner] at hlearn
    rw [answer_map, hleaves.map, landingTeaches_fine (by rw [huplanner, hkind]) (by rw [huplanner, hdone])]
    exact hlearn
  case trimSame =>
    rw [answer_planner, hleaves.trim]
    by_cases hother : s.planner.legKind ≠ .sled ∨ s.planner.legDone = false
    · rw [landingTeaches_trim_same (by rw [huplanner]; exact hother), huplanner]
    · push Not at hother
      obtain ⟨hkind, hdone⟩ := hother
      rw [landingTeaches_sled (by rw [huplanner, hkind]) (by rw [huplanner]; simpa using hdone),
        updateTrim_trim hc0' hp' (by simpa [hu] using hk), huplanner]
      refine newTrim_stays fun ⟨hlong, hdir⟩ => ?_
      rcases h with h | h | h | h
      · exact h hkind
      · exact hdone h
      · omega
      · exact h (by omega)
  case trimMoved =>
    rw [answer_planner, hleaves.trim, landingTeaches_sled (by rw [huplanner, hkind]) (by rw [huplanner, hdone]),
      updateTrim_trim hc0' hp' (by simpa [hu] using hk), huplanner, newTrim_moves hlong hsame]

end Sys2Proof.Proofs
end

section
/-! What becomes of a plan (R42 to R50, R62 to R64, R133 to R138): a fine leg, a sled leg, an approach, the end of a motion, a
FOLLOW that plays. -/

namespace Sys2Proof.Proofs

set_option Elab.async false

open Sys2Proof.Machine Sys2Proof.Safety Sys2Proof.Laws

variable {s t u v w : State} {k : DiscClass} {a x g pg pa : Nat} {d : Int} {m r : Motion} {n : Int}

/-- Tracking is CLOSED, or holds. -/
abbrev OnATrack (s : State) : Prop := s.optics.tracking = .closed ∨ s.optics.tracking = .hold

/-! ### Who counts a leg (R37, R46) -/

theorem bump_legs (m : Motion) : { m with legs := bump 255 m.legs } = withLeg m := rfl

/-- A leg of the active motion is counted by it and shows in its phase. -/
theorem legBegins_arbiter_active {kind : LegKind} (h : s.planner.owner = .active) (hm : s.arbiter.active = some m) :
    (legBegins kind n s).arbiter = { s.arbiter with active := some { withLeg m with phase := some .leg } } := by
  simp [legBegins, countLeg, h, setPhase, hm, bump_legs]

/-- A leg of the attached REJOIN is counted by it and shows in the phase of its FOLLOW. -/
theorem legBegins_arbiter_attached {kind : LegKind} (h : s.planner.owner = .attached) (hm : s.arbiter.active = some m)
    (hr : s.arbiter.attached = some r) : (legBegins kind n s).arbiter = { s.arbiter with
      active := some { m with phase := some .leg }, attached := some (withLeg r) } := by
  simp [legBegins, countLeg, h, setPhase, hm, hr, bump_legs]

/-- A leg of an internal return is counted by no motion. -/
theorem legBegins_arbiter_internal {kind : LegKind} (h : s.planner.owner = .internal) :
    (legBegins kind n s).arbiter = s.arbiter := by
  simp [legBegins, countLeg, h]

@[simp] theorem legBegins_reports (q : Port) (kind : LegKind) (n : Int) (s : State) :
    reportsOf q (legBegins kind n s) = reportsOf q s := reportsOf_congr q (by simp)

/-! ### A fine leg (R46, R92) -/

/-- A fine leg of n tracks, n not 0, has begun from the state `s`, with its jump. -/
structure FineStarts (n : Int) (s t : State) : Prop where
  planner : t.planner = { s.planner with
    legKind := .fine, legCount := n, legStage := .running, legDisturbed := false, legDone := false
    sessionLegs := s.planner.sessionLegs + 1 }
  optics : t.optics = { s.optics with
    tracking := .jump, jumpCount := n, crossings := 0, jumpOrigin := .leg, holdAddress := none }
  arbiter : t.arbiter = (legBegins .fine n s).arbiter
  supervisor : t.supervisor = s.supervisor
  spindle : t.spindle = s.spindle
  recovery : t.recovery = s.recovery
  map : t.map = s.map
  fresh : fixFresh t = false
  reports : ∀ q, reportsOf q t = reportsOf q s

theorem beginFine_starts (hn : n ≠ 0) (htrack : OnATrack s) : FineStarts n s (beginFine n s) := by
  have hjump : beginFine n s = beginJump n .leg (legBegins .fine n s) := by
    rcases htrack with h | h <;> simp [beginFine, hn, h]
  rw [hjump]
  constructor
  · simp [legBegins_planner]
  · simp [beginJump]
  · simp
  · simp
  · simp
  · simp
  · simp
  · rw [fixFresh_congr (beginJump_monitor ..), fixFresh_legBegins]
  · intro q
    rw [reportsOf_congr q (beginJump_port ..), legBegins_reports]

/-- The leg that a distance calls for is never 0. -/
theorem legOf_ne_zero (d : Int) : legOf d ≠ 0 := by
  unfold legOf
  split
  · decide
  · assumption

/-- The plan of a fine leg: the plan is stored, and the leg begins from it. -/
theorem plan_fineStarts (h : CanPlan k g a pg pa s) (htrack : OnATrack s)
    (hfar : CallsForLeg g a ((pg : Int) - (pa : Int))) (hnear : ((pg : Int) - (pa : Int)).natAbs ≤ 64)
    (hlegs : s.planner.sessionLegs < 6) : FineStarts (legOf ((pg : Int) - (pa : Int))) (aimed pg pa s) (plan s) := by
  rw [plan_fine h hfar hnear hlegs]
  exact beginFine_starts (legOf_ne_zero _) (by simpa [OnATrack] using htrack)

theorem FineStarts.begun (h : FineStarts (legOf ((pg : Int) - (pa : Int))) (aimed pg pa v) t)
    (htarget : v.planner.target = some g) (hcls : v.supervisor.cls = s.supervisor.cls) :
    FineLegBegun g ((pg : Int) - (pa : Int)) s t where
  plan := by rw [h.planner]; simp [htarget]
  leg := by rw [h.planner]; simp
  jump := by rw [h.optics]; simp
  fix := ⟨h.fresh, by rw [h.supervisor]; simpa using hcls⟩

/-! ### A sled leg (R48 to R50, R100) -/

/-- A sled leg of n steps has begun from the state `s`, tracking open and the sled on its way. -/
structure SledStarts (n : Int) (s t : State) : Prop where
  planner : t.planner = { s.planner with
    legKind := .sled, legCount := n, legStage := .running, legDisturbed := false, legDone := false
    sessionLegs := s.planner.sessionLegs + 1, sessionSled := s.planner.sessionSled + 1 }
  optics : t.optics.tracking = .off ∧ t.optics.focus = s.optics.focus
  sled : t.sled.state = .leg ∧ t.sled.legSteps = n ∧ t.sled.taken = 0 ∧ t.sled.requester = some .planner ∧
    t.sled.position = s.sled.position
  arbiter : t.arbiter = (legBegins .sled n s).arbiter
  supervisor : t.supervisor = s.supervisor
  spindle : t.spindle = s.spindle
  recovery : t.recovery = s.recovery
  map : t.map = s.map
  last : lastGood t = lastGood s
  fresh : fixFresh t = false
  reports : ∀ q, reportsOf q t = reportsOf q s

theorem openTracking_onTrack (h : OnATrack s) : openTracking s = trackingOff s := by
  rcases h with h | h <;> simp [openTracking, h]

theorem trackingOff_sled (s : State) : (trackingOff s).sled = s.sled.follows .off := by simp [trackingOff]

theorem trackingOff_optics (s : State) : (trackingOff s).optics
    = { s.optics with tracking := .off, holdAddress := none, openPending := false } := by simp [trackingOff]

/-- A resting sled comes to IDLE where tracking opens (R102). -/
theorem follows_off_rest {sl : Sled} (h : sl.state = .idle ∨ sl.state = .creep) :
    sl.follows .off = { sl with state := .idle } := by
  obtain ⟨state, position, legSteps, taken, stopPending, paused, requester, homeClosed⟩ := sl
  rcases h with h | h <;> simp only at h <;> subst h <;> simp [Sled.follows]

/-- A leg command with a first step on the rail begins, from an idle sled whose position is known (R100). -/
theorem sledLeg_begins {q : Requester} (hidle : s.sled.state = .idle) (hx : s.sled.position = some x) (hn : n ≠ 0)
    (hrail : beyondRail n x = false) :
    sledLeg q n s = (s.setSled { s.sled.takesLeg n with state := .leg, requester := some q }, .begun) := by
  simp [sledLeg, hidle, hx, hn, hrail]

/-- Steps that the rail leaves have a first step on it (R49, R100). -/
theorem signed_onRail {trim : Nat} (h : railSteps k d trim x ≠ 0) :
    signed d (railSteps k d trim x) ≠ 0 ∧ beyondRail (signed d (railSteps k d trim x)) x = false := by
  unfold railSteps at h ⊢
  unfold signed beyondRail
  by_cases hd : 0 ≤ d
  · simp only [hd, if_true] at h ⊢
    exact ⟨by omega, by rw [if_pos (by omega)]; exact decide_eq_false (by omega)⟩
  · simp only [hd, if_false] at h ⊢
    refine ⟨by omega, ?_⟩
    rw [if_neg (by omega)]
    exact beq_eq_false_iff_ne.2 (by omega)

theorem beginSled_starts (hrest : s.sled.state = .idle ∨ s.sled.state = .creep) (hx : s.sled.position = some x)
    (hn : n ≠ 0) (hrail : beyondRail n x = false) (htrack : OnATrack s) : SledStarts n s (beginSled n s) := by
  obtain ⟨u, hu⟩ : ∃ u, u = trackingOff (legBegins .sled n s) := ⟨_, rfl⟩
  have husled : u.sled = { s.sled with state := .idle } := by
    rw [hu, trackingOff_sled, legBegins_sled, follows_off_rest hrest]
  have hbegins : beginSled n s = u.setSled { u.sled.takesLeg n with state := .leg, requester := some .planner } := by
    rw [beginSled, openTracking_onTrack (by simpa [OnATrack] using htrack), ← hu,
      sledLeg_begins (by rw [husled]) (by rw [husled]; exact hx) hn hrail]
  rw [hbegins]
  constructor
  · simp [hu, legBegins_planner]
  · simp [hu, trackingOff_optics]
  · simp [husled, Sled.takesLeg]
  · simp [hu]
  · simp [hu]
  · simp [hu]
  · simp [hu]
  · simp [hu]
  · rw [lastGood_congr (State.setSled_monitor ..), hu, lastGood_trackingOff, lastGood_legBegins]
  · rw [fixFresh_congr (State.setSled_monitor ..), hu, fixFresh_trackingOff]
  · intro q
    rw [reportsOf_setSled, hu, reportsOf_congr q (trackingOff_port ..), legBegins_reports]

/-- The plan of a sled leg. -/
theorem plan_sledStarts (h : CanPlan k g a pg pa s) (htrack : OnATrack s)
    (hfar : CallsForLeg g a ((pg : Int) - (pa : Int))) (hlong : 64 < ((pg : Int) - (pa : Int)).natAbs)
    (hlegs : s.planner.sessionLegs < 6) (hsled : s.planner.sessionSled < 3)
    (hrest : s.sled.state = .idle ∨ s.sled.state = .creep) (hx : s.sled.position = some x)
    (hn : railSteps k ((pg : Int) - (pa : Int)) s.planner.trim x ≠ 0) :
    SledStarts (signed ((pg : Int) - (pa : Int)) (railSteps k ((pg : Int) - (pa : Int)) s.planner.trim x))
      (aimed pg pa s) (plan s) := by
  obtain ⟨hne, hrail⟩ := signed_onRail hn
  rw [plan_sled h hfar hlong hlegs hsled hx hn]
  exact beginSled_starts (x := x) (by simpa using hrest) (by simpa using hx) hne hrail (by simpa [OnATrack] using htrack)

/-! ### An approach (R44) -/

/-- An end of the hold leaves tracking CLOSED with nothing held, where nothing is held in CLOSED (R94). -/
theorem endHold_optics (h : s.optics.tracking = .closed ∧ s.optics.holdAddress = none ∨ s.optics.tracking = .hold) :
    (endHold s).optics = { s.optics with tracking := .closed, holdAddress := none } := by
  unfold endHold trackingOn
  rcases h with ⟨htrack, hheld⟩ | htrack
  · simp only [htrack, reduceCtorEq, if_false]
    conv_lhs => rw [show s.optics = { s.optics with tracking := s.optics.tracking, holdAddress := s.optics.holdAddress } from rfl]
    rw [htrack, hheld]
  · simp [htrack]

theorem endHold_monitor (s : State) : (endHold s).monitor = s.monitor := by
  unfold endHold
  split
  · rename_i h
    simp [trackingOn, h]
  · rfl

/-! ### The drive holds (R94, R133) -/

/-- The drive has come to hold at x, from a state that neither sets the report aside nor opens the loop. -/
structure ComesToHold (x : Nat) (s t : State) : Prop where
  drive : t.supervisor = { s.supervisor with drive := .onTrack }
  optics : t.optics = { s.optics with tracking := .hold, holdAddress := some x }
  recovery : t.recovery = { s.recovery with holdCopy := some x }
  arbiter : t.arbiter = s.arbiter
  planner : t.planner = s.planner
  map : t.map = s.map
  monitor : t.monitor = s.monitor
  reports : ∀ q, reportsOf q t = reportsOf q s

/-- A hold command in CLOSED or HOLD is taken at once (R94, R173). -/
theorem hold_taken (htrack : OnATrack s) :
    (hold x s).optics = { s.optics with tracking := .hold, holdAddress := some x } ∧
    (hold x s).recovery = { s.recovery with holdCopy := some x } := by
  rcases htrack with h | h
  · exact hold_closed h
  · have heq : hold x s = (s.setOptics { s.optics with holdAddress := some x }).setRecovery
        { s.recovery with holdCopy := some x } := by simp [hold, h]
    rw [heq]
    simp [h]

theorem holdAt_holds (htrack : OnATrack s) (hdrive : s.supervisor.drive.setsAside = false) :
    ComesToHold x s (holdAt x s) := by
  obtain ⟨hoptics, hrecovery⟩ := hold_taken (x := x) htrack
  constructor
  · simp [holdAt, hdrive]
  · simp [holdAt, hoptics]
  · simp [holdAt, hrecovery]
  · simp [holdAt]
  · simp [holdAt]
  · simp [holdAt]
  · simp [holdAt]
  · simp

/-- A motion taken from the active slot ends, and the drive holds. -/
theorem endedHolding {res : Result} (htrack : OnATrack s) (hdrive : s.supervisor.drive.setsAside = false)
    (hslot : s.arbiter.active = none) (howner : s.planner.owner = .none) :
    EndedHolding m res a x s (holdAt x (endMotion m res (some a) s)) := by
  have hholds : ComesToHold x (endMotion m res (some a) s) (holdAt x (endMotion m res (some a) s)) :=
    holdAt_holds (by simpa [OnATrack] using htrack) (by simpa using hdrive)
  refine ⟨by rw [hholds.arbiter]; simp [hslot], fun q => ?_, by rw [hholds.planner]; simp [howner],
    by rw [hholds.drive], by rw [hholds.optics, hholds.recovery]; simp⟩
  have hreports := (hholds.reports q).trans (reportsOf_endMotion s q m res (some a))
  simpa [reportsOf, eq_comm, Motion.report] using hreports

/-- It ends so from every state with the same reports. -/
theorem endedHolding_congr {res : Result} (h : EndedHolding m res a x s t) (hs : ∀ q, reportsOf q u = reportsOf q s) :
    EndedHolding m res a x u t :=
  ⟨h.slot, fun q => (h.reports q).trans (by rw [show completionsIn (s.port q).queue = completionsIn (u.port q).queue from
    (hs q).symm]), h.owner, h.drive, h.hold⟩

/-! ### A FOLLOW plays (R134, R135) -/

/-- A release of the hold leaves nothing held and no hold copy (R94, R173). -/
theorem releaseHold_blocks
    (h : s.optics.tracking = .closed ∧ s.optics.holdAddress = none ∨ s.optics.tracking = .hold) :
    (releaseHold s).optics = { s.optics with tracking := .closed, holdAddress := none } ∧
    (releaseHold s).recovery = { s.recovery with holdCopy := none } ∧ (releaseHold s).monitor = s.monitor := by
  have hoptics := endHold_optics (s := s.setRecovery { s.recovery with holdCopy := none }) h
  exact ⟨hoptics, by simp [releaseHold], endHold_monitor _⟩

/-- The FOLLOW, in its FOLLOWING phase at address a. -/
def playingAt (a : Nat) (m : Motion) : Motion :=
  { m with phase := some .following, lastOpen := some a, rejoinEnded := false }

/-- The first test of a FOLLOW at an OPEN address before its end lets it play on (R135). -/
theorem followTest_plays {z : Nat} (hm : s.arbiter.active = some m) (hkind : m.kind = .follow)
    (hphase : m.phase = some .following) (hopen : (s.zones.decode a).access = .opened) (hend : m.endAddr = some z)
    (hbefore : a < z) : followTest a s = setActive (some { m with lastOpen := some a }) s := by
  simp [followTest, hm, hkind, hphase, hopen, hend, Nat.not_le.2 hbefore]

/-- What the entry to FOLLOWING leaves beside what PlaysFrom says. -/
structure EntersFollowing (entry : FollowEntry) (m : Motion) (a z : Nat) (s t : State) : Prop where
  plays : PlaysFrom m entry a z s t
  arbiter : t.arbiter = { s.arbiter with active := some (playingAt a m) }
  map : t.map = s.map
  recovery : t.recovery = { s.recovery with holdCopy := none }
  planner : t.planner = { s.planner with owner := .none, acquireStep := .none, returning := false }
  reports : ∀ q, reportsOf q t = reportsOf q s

theorem enterFollowing_plays {e : FollowEntry} {z : Nat} (hm : s.arbiter.active = some m) (hkind : m.kind = .follow)
    (hlast : lastGood s = some a) (hend : m.endAddr = some z) (hopen : (s.zones.decode a).access = .opened)
    (hbefore : a < z) (hdrive : s.supervisor.drive.setsAside = false)
    (htrack : s.optics.tracking = .closed ∧ s.optics.holdAddress = none ∨ s.optics.tracking = .hold) :
    EntersFollowing (if m.rejoinEnded then .rejoin else e) m a z s (enterFollowing e s) := by
  obtain ⟨u, hu⟩ : ∃ u, u = reportDrive .onTrack (disown (markRejoin false (setPhase .following s))) := ⟨_, rfl⟩
  obtain ⟨hoptics, hrecovery, hmonitor⟩ := releaseHold_blocks (s := u) (by simpa [hu] using htrack)
  have hkeeps : Keeps [] s (releaseHold u) :=
    hu ▸ ((((Keeps.refl s).setPhase.markRejoin).disown).reportDrive (d := .onTrack)).releaseHold
  obtain ⟨v, hv⟩ : ∃ v, v = offer (.following m.tag a z (if m.rejoinEnded then .rejoin else e)) (releaseHold u) := ⟨_, rfl⟩
  have hactive : v.arbiter.active = some { m with phase := some .following, rejoinEnded := false } := by
    simp [hv, hu, markRejoin, setPhase, hm]
  have heq : enterFollowing e s = setActive (some (playingAt a m)) v := by
    have htest : followTest a v = setActive (some (playingAt a m)) v := by
      refine followTest_plays hactive hkind rfl ?_ hend hbefore
      rw [hv, offer_zones, decode_congr hkeeps.entries hkeeps.defaultCap]
      exact hopen
    rw [← htest, hv, hu, enterFollowing, hm, hlast]
    simp only [hend, Option.getD_some]
  rw [heq]
  have hplanner : v.planner = { s.planner with owner := .none, acquireStep := .none, returning := false } := by
    simp [hv, hu, disown]
  have hrelease : v.recovery = { s.recovery with holdCopy := none } := by
    rw [hv, offer_recovery, hrecovery]
    simp [hu]
  refine ⟨⟨by simp [playingAt], by simp [hplanner], by simp [hv, hu, hdrive],
    by simp [hv, hoptics, hrecovery], fun q hq => ?_⟩, ?_, by simp [hv, hu], by simp [hrelease],
    by simp [hplanner], fun q => ?_⟩
  · refine Laws.Noticed.congr ?_ (setActive_port ..)
    rw [hv]
    exact noticed_offer _ (by rw [(hkeeps.port q).mask]; exact hq)
  · simp [hv, hu, markRejoin, setPhase]
  · simp [hv, hu]

/-- It plays so from every state whose ports have the same masks. -/
theorem playsFrom_congr {e : FollowEntry} {z : Nat} (h : PlaysFrom m e a z s t)
    (hs : ∀ q, (u.port q).mask = (s.port q).mask) : PlaysFrom m e a z u t :=
  ⟨h.slot, h.owner, h.drive, h.loops, fun q hq => h.notice q (hs q ▸ hq)⟩

end Sys2Proof.Proofs
end

section
/-! What a plan does with the motion it is made for (R42 to R50, R62 to R64, R133 to R138), and the plans that a good address
makes (R39, R44, R53). -/

namespace Sys2Proof.Proofs

set_option Elab.async false

open Sys2Proof.Machine Sys2Proof.Safety Sys2Proof.Laws

variable {s t u v w : State} {k : DiscClass} {a c g x z pg pa : Nat} {d : Int} {m r : Motion} {n : Int}

/-- Tracking is CLOSED with nothing held, or holds. -/
abbrev FreeOrHolding (s : State) : Prop :=
  s.optics.tracking = .closed ∧ s.optics.holdAddress = none ∨ s.optics.tracking = .hold

theorem FreeOrHolding.onATrack (h : FreeOrHolding s) : OnATrack s := h.imp And.left id

/-! ### The active motion (R133, R134) -/

/-- A SEEK or REJOIN within reach of its target ends there. -/
theorem plan_holdsAtTarget (h : CanPlan k g a pg pa v) (howner : v.planner.owner = .active)
    (hm : v.arbiter.active = some m) (hreach : InReach g a) (hkind : m.kind ≠ .follow) (htarget : m.target = some g) :
    plan v = holdAt g (endMotion m .reached (some a) (disown (setActive none (aimed pg pa v)))) := by
  simp [plan_reached h hreach, targetReached, howner, hm, hkind, htarget]

/-- It ends REACHED, and the drive holds there. -/
theorem plan_endsReached (h : CanPlan k g a pg pa v) (howner : v.planner.owner = .active) (hm : v.arbiter.active = some m)
    (hreach : InReach g a) (hkind : m.kind ≠ .follow) (htarget : m.target = some g) (htrack : OnATrack v)
    (hdrive : v.supervisor.drive.setsAside = false) : EndedHolding m .reached a g v (plan v) := by
  rw [plan_holdsAtTarget h howner hm hreach hkind htarget]
  refine endedHolding_congr (s := disown (setActive none (aimed pg pa v))) (endedHolding ?_ ?_ rfl rfl) fun q => ?_
  · simpa [OnATrack] using htrack
  · simpa using hdrive
  · simp

theorem aimed_keeps (pg pa : Nat) (s : State) : Keeps [] s (aimed pg pa s) := by
  have hstored : Keeps [] s (s.setPlanner { s.planner with
      targetCoord := some pg, startCoord := some pa, distance := some ((pg : Int) - (pa : Int))
      legStage := .idle, legKind := .none, legDone := false }) := (Keeps.refl s).planner rfl
  exact hstored.spindleCommand

/-- A FOLLOW within reach of its target plays from there. -/
theorem plan_plays (h : CanPlan k g a pg pa v) (howner : v.planner.owner = .active) (hm : v.arbiter.active = some m)
    (hreach : InReach g a) (hkind : m.kind = .follow) (hend : m.endAddr = some z)
    (hopen : (v.zones.decode a).access = .opened) (hbefore : a < z) (htrack : FreeOrHolding v)
    (hdrive : v.supervisor.drive.setsAside = false) :
    PlaysFrom m (if m.rejoinEnded then .rejoin else if v.planner.returning then .return else .start) a z v (plan v) ∧
      ReportsStay v (plan v) := by
  have heq : plan v = enterFollowing (if v.planner.returning then .return else .start) (aimed pg pa v) := by
    simp [plan_reached h hreach, targetReached, howner, hm, hkind]
  have henters := enterFollowing_plays (e := if v.planner.returning then .return else .start) (s := aimed pg pa v)
    (by simpa using hm) hkind (by simpa using h.last) hend (by simpa using hopen) hbefore (by simpa using hdrive)
    (by simpa using htrack)
  rw [heq]
  exact ⟨playsFrom_congr henters.plays fun q => ((aimed_keeps pg pa v).port q).mask.symm,
    fun q => (henters.reports q).trans (aimed_reports q pg pa v)⟩

/-- A leg that a check refuses ends the motion UNREACHED at the fix, with its record (R63, R64). -/
theorem plan_endsUnreached {e : Cause} (h : CanPlan k g a pg pa v) (howner : v.planner.owner = .active)
    (hm : v.arbiter.active = some m) (hfar : CallsForLeg g a ((pg : Int) - (pa : Int)))
    (he : FailsCheck k ((pg : Int) - (pa : Int)) v e) (htrack : OnATrack v)
    (hdrive : v.supervisor.drive.setsAside = false) : EndedHolding m .unreached a a v (plan v) ∧
      (plan v).planner.unreached = some ⟨m.port, m.tag, m.target, some a, m.legs, e⟩ := by
  obtain ⟨u, hu⟩ : ∃ u, u = disown (setActive none (unreachedBy m e (aimed pg pa v))) := ⟨_, rfl⟩
  have hlast : lastGood u = some a := by
    rw [hu, lastGood_congr (disown_monitor ..), lastGood_congr (setActive_monitor ..),
      (planLeaves_unreachedBy m e _).last, aimed_last, h.last]
  have hlast' : lastGood (endMotion m .unreached (some a) u) = some a := by
    rw [lastGood_congr (endMotion_monitor ..), hlast]
  have heq : plan v = holdAt a (endMotion m .unreached (some a) u) := by
    rw [plan_unreached h hfar he]
    simp only [targetUnreached, aimed_planner, howner, aimed_arbiter, hm]
    rw [← hu, aimed_last, h.last, holdHere, hlast']
  rw [heq]
  refine ⟨endedHolding_congr (s := u) (endedHolding ?_ ?_ (by simp [hu]) (by rw [hu]; rfl)) fun q => ?_, ?_⟩
  · simpa [hu, OnATrack, unreachedBy] using htrack
  · simpa [hu, unreachedBy] using hdrive
  · simp [hu, unreachedBy]
  · have hrecord : lastGood (aimed pg pa v) = some a := by rw [aimed_last, h.last]
    simp [hu, unreachedBy, holdAt, disown, hrecord]

/-- Just below its target the motion that the planner works for approaches (R44; that a hold ends there is entry 31). -/
theorem plan_approaches (h : CanPlan k g a pg pa v) (howner : v.planner.owner ≠ .internal)
    (hm : v.arbiter.active = some m) (hbelow : CallsForApproach g a ((pg : Int) - (pa : Int))) (htrack : FreeOrHolding v)
    (hfresh : fixFresh v = true) (hdrive : v.supervisor.drive = .moving) :
    Approaches g ((pg : Int) - (pa : Int)) v (plan v) ∧
      (plan v).arbiter = { v.arbiter with active := some { m with phase := some .approach } } ∧
      (plan v).planner.owner = v.planner.owner ∧ ReportsStay v (plan v) := by
  have heq : plan v = endHold (setPhase .approach (aimed pg pa v)) := by rw [plan_approach h hbelow, if_neg howner]
  have hoptics := endHold_optics (s := setPhase .approach (aimed pg pa v)) (by simpa using htrack)
  rw [heq]
  refine ⟨⟨by simp [h.target], by simp, by simp, by rw [hoptics]; simp, ?_, by simp [hdrive]⟩, ?_, by simp, fun q => ?_⟩
  · rw [fixFresh_congr (endHold_monitor _), fixFresh_congr (setPhase_monitor ..), aimed_fresh, hfresh]
  · simp [setPhase, hm]
  · have hreports : reportsOf q (endHold (setPhase .approach (aimed pg pa v))) = reportsOf q v := by simp
    exact hreports

theorem FineStarts.reportsStay (h : FineStarts n (aimed pg pa v) t) : ReportsStay v t :=
  fun q => (h.reports q).trans (aimed_reports q pg pa v)

theorem SledStarts.reportsStay (h : SledStarts n (aimed pg pa v) t) : ReportsStay v t :=
  fun q => (h.reports q).trans (aimed_reports q pg pa v)

theorem SledStarts.begun {j : Nat} (h : SledStarts (signed d j) (aimed pg pa v) t) (hd : d = (pg : Int) - (pa : Int))
    (htarget : v.planner.target = some g) : SledLegBegun g d j v t where
  plan := by rw [h.planner]; simp [htarget, hd]
  leg := by rw [h.planner]; simp [signed]
  session := by rw [h.planner]; simp
  sled := by
    obtain ⟨hstate, hsteps, htaken, hrequester, hposition⟩ := h.sled
    exact ⟨hstate, by rw [hsteps, h.planner], htaken, hrequester, by rw [hposition]; simp⟩
  loops := ⟨h.optics.1, by rw [h.optics.2]; simp⟩
  fix := ⟨h.fresh, by rw [h.supervisor]; simp⟩

/-! ### The attached REJOIN (R137, R138) -/

/-- The attached REJOIN ends at the fix, and its FOLLOW plays on from there. -/
theorem endAttached_plays {res : Result} (hr : s.arbiter.attached = some r) (hm : s.arbiter.active = some m)
    (hkind : m.kind = .follow) (hlast : lastGood s = some a) (hend : m.endAddr = some z)
    (hopen : (s.zones.decode a).access = .opened) (hbefore : a < z) (hdrive : s.supervisor.drive.setsAside = false)
    (htrack : FreeOrHolding s) :
    PlaysFrom m .rejoin a z s (endAttached res s) ∧ (endAttached res s).arbiter.attached = none ∧
      OneMoreReport r.port ⟨r.tag, r.kind, res, some a, r.legs, r.bad⟩ s (endAttached res s) ∧
      (endAttached res s).planner = { s.planner with owner := .none, acquireStep := .none, returning := false } := by
  obtain ⟨u, hu⟩ : ∃ u, u = endMotion r res (some a) (setAttached none s) := ⟨_, rfl⟩
  have heq : endAttached res s = enterFollowing .rejoin u := by rw [endAttached, hr, hlast, hu]
  have hkeeps : Keeps [] s u := hu ▸ ((Keeps.refl s).takeAttached hr).endMotion
  have henters : EntersFollowing (if m.rejoinEnded then .rejoin else .rejoin) m a z u (enterFollowing .rejoin u) := by
    refine enterFollowing_plays (by simpa [hu] using hm) hkind ?_ hend ?_ hbefore (by simpa [hu] using hdrive)
      (by simpa [hu] using htrack)
    · rw [hu, lastGood_congr (endMotion_monitor ..), lastGood_congr (setAttached_monitor ..), hlast]
    · rw [decode_congr hkeeps.entries hkeeps.defaultCap, hopen]
  rw [ite_self] at henters
  rw [heq]
  refine ⟨playsFrom_congr henters.plays fun q => (hkeeps.port q).mask.symm, by rw [henters.arbiter]; simp [hu], fun q => ?_,
    by rw [henters.planner]; simp [hu]⟩
  have hreports := (henters.reports q).trans (hu ▸ reportsOf_endMotion (setAttached none s) q r res (some a))
  simpa [reportsOf, eq_comm, Motion.report] using hreports

/-- An attached REJOIN within reach of its target ends REACHED, and its FOLLOW plays on. -/
theorem plan_attachedReached (h : CanPlan k g a pg pa v) (howner : v.planner.owner = .attached)
    (hr : v.arbiter.attached = some r) (hm : v.arbiter.active = some m) (hreach : InReach g a) (hkind : m.kind = .follow)
    (hend : m.endAddr = some z) (hopen : (v.zones.decode a).access = .opened) (hbefore : a < z)
    (hdrive : v.supervisor.drive.setsAside = false) (htrack : FreeOrHolding v) :
    PlaysFrom m .rejoin a z v (plan v) ∧ (plan v).arbiter.attached = none ∧
      OneMoreReport r.port ⟨r.tag, r.kind, .reached, some a, r.legs, r.bad⟩ v (plan v) := by
  have heq : plan v = endAttached .reached (aimed pg pa v) := by simp [plan_reached h hreach, targetReached, howner]
  obtain ⟨hplays, hattached, hreport, -⟩ := endAttached_plays (res := .reached) (s := aimed pg pa v) (by simpa using hr)
    (by simpa using hm) hkind (by simpa using h.last) hend (by simpa using hopen) hbefore (by simpa using hdrive)
    (by simpa [FreeOrHolding] using htrack)
  rw [heq]
  exact ⟨playsFrom_congr hplays fun q => ((aimed_keeps pg pa v).port q).mask.symm, hattached, fun q =>
    (hreport q).trans (congrArg (· ++ _) (aimed_reports q pg pa v))⟩

/-- A leg of an attached REJOIN that a check refuses ends it UNREACHED, with its record, and its FOLLOW plays on. -/
theorem plan_attachedUnreached {e : Cause} (h : CanPlan k g a pg pa v) (howner : v.planner.owner = .attached)
    (hr : v.arbiter.attached = some r) (hm : v.arbiter.active = some m)
    (hfar : CallsForLeg g a ((pg : Int) - (pa : Int))) (he : FailsCheck k ((pg : Int) - (pa : Int)) v e)
    (hkind : m.kind = .follow) (hend : m.endAddr = some z) (hopen : (v.zones.decode a).access = .opened) (hbefore : a < z)
    (hdrive : v.supervisor.drive.setsAside = false) (htrack : FreeOrHolding v) :
    PlaysFrom m .rejoin a z v (plan v) ∧ (plan v).arbiter.attached = none ∧
      OneMoreReport r.port ⟨r.tag, r.kind, .unreached, some a, r.legs, r.bad⟩ v (plan v) ∧
      (plan v).planner.unreached = some ⟨r.port, r.tag, r.target, some a, r.legs, e⟩ := by
  have hlast : lastGood (aimed pg pa v) = some a := (aimed_last pg pa v).trans h.last
  obtain ⟨u, hu⟩ : ∃ u, u = unreachedBy r e (aimed pg pa v) := ⟨_, rfl⟩
  have huport (q : Port) : u.port q = (aimed pg pa v).port q := hu ▸ State.setPlanner_port ..
  have heq : plan v = endAttached .unreached u := by
    simp [plan_unreached h hfar he, targetUnreached, howner, hr, hu]
  obtain ⟨hplays, hattached, hreport, hplanner⟩ := endAttached_plays (res := .unreached) (s := u)
    (by simpa [hu, unreachedBy] using hr) (by simpa [hu, unreachedBy] using hm) hkind
    (by rw [hu, (planLeaves_unreachedBy r e _).last, hlast]) hend (by simpa [hu, unreachedBy] using hopen) hbefore
    (by simpa [hu, unreachedBy] using hdrive) (by simpa [hu, unreachedBy, FreeOrHolding] using htrack)
  rw [heq]
  refine ⟨playsFrom_congr hplays fun q => ?_, hattached, fun q => (hreport q).trans (congrArg (· ++ _) ?_), ?_⟩
  · rw [huport, ((aimed_keeps pg pa v).port q).mask]
  · rw [huport]
    exact aimed_reports q pg pa v
  · have hlast' : lastGood v = some a := h.last
    rw [hplanner]
    simp [hu, unreachedBy, hlast']

/-! ### A good address makes a plan (R39, R44, R53) -/

/-- The state that a plan is made in once a good address a has been taken in the state `s`: the fix is new, what a landing
teaches and the end of ACQUIRE's step aside the planner is as it was, and so is the rest. -/
structure PlanFrom (a : Nat) (s v : State) : Prop where
  owner : v.planner.owner = s.planner.owner
  target : v.planner.target = s.planner.target
  returning : v.planner.returning = s.planner.returning
  legs : v.planner.sessionLegs = s.planner.sessionLegs
  sledLegs : v.planner.sessionSled = s.planner.sessionSled
  step : v.planner.acquireStep = .none
  arbiter : v.arbiter = s.arbiter
  optics : v.optics = s.optics
  sled : v.sled = s.sled
  recovery : v.recovery = s.recovery
  supervisor : v.supervisor = s.supervisor
  last : lastGood v = some a
  fresh : fixFresh v = true
  reports : ∀ q, reportsOf q v = reportsOf q s
  mask : ∀ q, (v.port q).mask = (s.port q).mask
  decode : ∀ x, v.zones.decode x = s.zones.decode x

theorem PlanFrom.fixTaken (hstep : s.planner.acquireStep = .none) : PlanFrom a s (fixTaken a c s) where
  owner := by simp
  target := by simp
  returning := by simp
  legs := by simp
  sledLegs := by simp
  step := by simp [hstep]
  arbiter := by simp
  optics := by simp
  sled := by simp
  recovery := by simp
  supervisor := by simp
  last := by simp
  fresh := by simp
  reports := fun q => fixTaken_reports q a c s
  mask := fixTaken_mask a c s
  decode := fixTaken_decode a c s

/-- It stays so when only ACQUIRE's step and what a landing teaches differ. -/
theorem PlanFrom.congr (h : PlanFrom a s u) (hplanner : v.planner = { u.planner with
      acquireStep := .none, trim := v.planner.trim }) (harbiter : v.arbiter = u.arbiter) (hoptics : v.optics = u.optics)
    (hsled : v.sled = u.sled) (hrecovery : v.recovery = u.recovery) (hsupervisor : v.supervisor = u.supervisor)
    (hmonitor : v.monitor = u.monitor) (hport : ∀ q, v.port q = u.port q) (hzones : v.zones = u.zones) :
    PlanFrom a s v where
  owner := by rw [hplanner]; exact h.owner
  target := by rw [hplanner]; exact h.target
  returning := by rw [hplanner]; exact h.returning
  legs := by rw [hplanner]; exact h.legs
  sledLegs := by rw [hplanner]; exact h.sledLegs
  step := by rw [hplanner]
  arbiter := harbiter.trans h.arbiter
  optics := hoptics.trans h.optics
  sled := hsled.trans h.sled
  recovery := hrecovery.trans h.recovery
  supervisor := hsupervisor.trans h.supervisor
  last := (lastGood_congr hmonitor).trans h.last
  fresh := (fixFresh_congr hmonitor).trans h.fresh
  reports := fun q => (reportsOf_congr q (hport q)).trans (h.reports q)
  mask := fun q => by rw [hport q, h.mask q]
  decode := fun x => by rw [hzones, h.decode x]

/-- The landing of a leg has taught what it can. -/
theorem planFrom_taught (hstep : s.planner.acquireStep = .none) : PlanFrom a s (landingTeaches a (fixTaken a c s)) := by
  have htaught := landingTeaches_taught a (fixTaken a c s)
  refine (PlanFrom.fixTaken hstep).congr ?_ htaught.arbiter htaught.optics htaught.sled htaught.recovery
    htaught.supervisor htaught.monitor htaught.port htaught.zones
  conv_lhs => rw [htaught.planner]
  simp [hstep]

/-- Which addresses make a plan: the one that ends ACQUIRE, that of a clean landing, one in APPROACH (R39, R44, R53). -/
abbrev MakesPlan (s : State) : Prop :=
  s.planner.acquireStep = .wait ∧ s.planner.legStage = .idle ∨
  s.planner.acquireStep = .none ∧ s.planner.legStage = .landing ∧ s.planner.legDisturbed = false ∨
  s.planner.acquireStep = .none ∧ s.planner.legStage = .idle ∧ activePhase s = some .approach

/-- The planner makes its plan from such a state, when it works for anyone; else it makes none. -/
theorem plannerOnFix_plans (h : MakesPlan s) : ∃ v, PlanFrom a s v ∧ PlanLeaves v (plannerOnFix a s (fixTaken a c s)) ∧
    (s.planner.owner ≠ .none → plannerOnFix a s (fixTaken a c s) = plan v) := by
  obtain ⟨u, hu⟩ : ∃ u, u = fixTaken a c s := ⟨_, rfl⟩
  have huplanner : u.planner = s.planner := by simp [hu]
  rw [← hu]
  rcases h with ⟨hstep, hidle⟩ | ⟨hstep, hlanding, hclean⟩ | ⟨hstep, hidle, hphase⟩
  · have heq : plannerOnFix a s u = plan (u.setPlanner { u.planner with acquireStep := .none }) := by
      simp [plannerOnFix, hstep, acquireEnds, landLeft, huplanner, hidle]
    rw [heq]
    refine ⟨_, ?_, planLeaves_plan _, fun _ => rfl⟩
    exact ⟨by simp [hu], by simp [hu], by simp [hu], by simp [hu], by simp [hu], by simp, by simp [hu], by simp [hu],
      by simp [hu], by simp [hu], by simp [hu], by rw [lastGood_congr (State.setPlanner_monitor ..), hu, fixTaken_last],
      by rw [fixFresh_congr (State.setPlanner_monitor ..), hu, fixTaken_fresh], fun q => by simp [hu],
      fun q => by simp [hu, fixTaken_mask], fun x => by simp [hu, fixTaken_decode]⟩
  · have htaught := landingTeaches_taught a u
    have hland : plannerOnFix a s u = land a u := by simp [plannerOnFix, hstep, hlanding]
    refine ⟨landingTeaches a u, hu ▸ planFrom_taught hstep, ?_, fun howner => ?_⟩
    · exact plannerOnFix_landing hlanding hclean huplanner
    · rw [hland, land_clean (by rw [huplanner, hclean]), if_neg (by rw [huplanner]; exact howner)]
  · have heq : plannerOnFix a s u = plan u := by simp [plannerOnFix, hstep, hidle, hphase]
    rw [heq]
    exact ⟨u, hu ▸ PlanFrom.fixTaken hstep, planLeaves_plan u, fun _ => rfl⟩

end Sys2Proof.Proofs
end

section
/-! The plans of landings, approaches and the end of ACQUIRE, and what they do with their motions (R39, R42 to R50, R53, R62 to
R64, R133 to R135, R138). -/

namespace Sys2Proof.Proofs

set_option Elab.async false

open Sys2Proof.Machine Sys2Proof.Safety Sys2Proof.Laws

variable {s t u v w : State} {k : DiscClass} {a c g x z pg pa : Nat} {d : Int} {m r : Motion} {n : Int}
  {p : Port} {tag : Byte} {st : Status} {data : List Byte}

/-! ### A reply changes nothing of an outcome -/

theorem endedHolding_answer {res : Result} (h : EndedHolding m res a x s t) :
    EndedHolding m res a x s (t.answer p tag st data) :=
  ⟨by simpa using h.slot, fun q => by rw [answer_queue]; exact h.reports q, by simpa using h.owner, by simpa using h.drive,
    by simpa using h.hold⟩

theorem noticed_answer {b : Notice} (h : Safety.Noticed b s t) : Safety.Noticed b s (t.answer p tag st data) :=
  fun q hq => by rw [answer_queue]; exact h q hq

theorem playsFrom_answer {e : FollowEntry} (h : PlaysFrom m e a z s t) : PlaysFrom m e a z s (t.answer p tag st data) :=
  ⟨by simpa using h.slot, by simpa using h.owner, by simpa using h.drive, by simpa using h.loops, noticed_answer h.notice⟩

theorem reportsStay_answer (h : ReportsStay s t) : ReportsStay s (t.answer p tag st data) :=
  fun q => by rw [answer_queue]; exact h q

theorem oneMoreReport_answer {q : Port} {b : Completion} (h : OneMoreReport q b s t) :
    OneMoreReport q b s (t.answer p tag st data) := fun q' => by rw [answer_queue]; exact h q'

theorem fineLegBegun_answer (h : FineLegBegun g d s t) : FineLegBegun g d s (t.answer p tag st data) :=
  ⟨by simpa using h.plan, by simpa using h.leg, by simpa using h.jump,
    (fixFresh_congr (answer_monitor ..)).trans h.fix.1, by simpa using h.fix.2⟩

theorem sledLegBegun_answer {j : Nat} (h : SledLegBegun g d j s t) : SledLegBegun g d j s (t.answer p tag st data) :=
  ⟨by simpa using h.plan, by simpa using h.leg, by simpa using h.session, by simpa using h.sled, by simpa using h.loops,
    (fixFresh_congr (answer_monitor ..)).trans h.fix.1, by simpa using h.fix.2⟩

theorem approaches_answer (h : Approaches g d s t) : Approaches g d s (t.answer p tag st data) :=
  ⟨by simpa using h.plan, by simpa using h.leg, by simpa using h.session, by simpa using h.loops,
    (fixFresh_congr (answer_monitor ..)).trans h.fix, by simpa using h.drive⟩

/-! ### An outcome counted from the state that the address found -/

theorem PlanFrom.reportsStay (hfrom : PlanFrom a s v) (h : ReportsStay v t) : ReportsStay s t :=
  fun q => (h q).trans (hfrom.reports q)

theorem PlanFrom.oneMore {q : Port} {b : Completion} (hfrom : PlanFrom a s v) (h : OneMoreReport q b v t) :
    OneMoreReport q b s t := fun q' => by
  rw [h q', show completionsIn (v.port q').queue = completionsIn (s.port q').queue from hfrom.reports q']

theorem PlanFrom.ended {res : Result} {f : Nat} (hfrom : PlanFrom a s v) (h : EndedHolding m res f x v t) :
    EndedHolding m res f x s t :=
  endedHolding_congr h fun q => (hfrom.reports q).symm

theorem PlanFrom.plays {e : FollowEntry} {f : Nat} (hfrom : PlanFrom a s v) (h : PlaysFrom m e f z v t) :
    PlaysFrom m e f z s t :=
  playsFrom_congr h fun q => (hfrom.mask q).symm

theorem PlanFrom.sledBegun {j : Nat} (hfrom : PlanFrom a s v) (h : SledLegBegun g d j v t) : SledLegBegun g d j s t :=
  ⟨h.plan, h.leg, by rw [← hfrom.legs, ← hfrom.sledLegs]; exact h.session, by rw [← hfrom.sled]; exact h.sled,
    by rw [← hfrom.optics]; exact h.loops, by rw [← hfrom.supervisor]; exact h.fix⟩

theorem PlanFrom.approaches (hfrom : PlanFrom a s v) (h : Approaches g d v t) : Approaches g d s t :=
  ⟨h.plan, h.leg, by rw [← hfrom.legs, ← hfrom.sledLegs]; exact h.session, h.loops, h.fix, h.drive⟩

theorem PlanFrom.fails {e : Cause} (hfrom : PlanFrom a s v)
    (h : FailsCheck k d (s.setPlanner { s.planner with trim := v.planner.trim }) e) : FailsCheck k d v e := by
  cases e <;> simpa [FailsCheck, hfrom.legs, hfrom.sledLegs, hfrom.sled] using h

/-! ### The address that makes a plan -/

/-- A hold at the address or above it starts no back-jump (R94). -/
theorem holdOnFix_below (hhold : s.optics.tracking = .closed ∧ s.optics.holdAddress = none ∨
    s.optics.tracking = .hold ∧ s.optics.holdAddress.all (fun h => decide (a ≤ h)) = true) : holdOnFix a s u = u := by
  cases hheld : s.optics.holdAddress with
  | none => simp [holdOnFix, hheld]
  | some h =>
    have hbelow : s.optics.holdAddress.all (fun h => decide (a ≤ h)) = true :=
      (hhold.resolve_left (by simp [hheld])).2
    exact holdOnFix_within hheld (of_decide_eq_true (by simpa [hheld] using hbelow))

/-- A good address that makes a plan, and that no hold is below, leaves the planner's work alone behind it. -/
theorem takeFix_plans (hp : s.map.predict a = some c) (hplans : MakesPlan s) (hphase : s.recovery.phase ≠ .refix)
    (hnot : activePhase s ≠ some .following)
    (hhold : s.optics.tracking = .closed ∧ s.optics.holdAddress = none ∨
      s.optics.tracking = .hold ∧ s.optics.holdAddress.all (fun h => decide (a ≤ h)) = true) :
    ∃ v, PlanFrom a s v ∧ PlanLeaves v (takeFix a s) ∧ (s.planner.owner ≠ .none → takeFix a s = plan v) := by
  rw [takeFix_eq hp, recoveryOnFix_idle hphase, arbiterOnFix_idle hnot, holdOnFix_below hhold]
  exact plannerOnFix_plans hplans

/-- Settles O58: the address makes its plan in a state that differs from the one it found by the fix and by what a landing
teaches, and the plan ends the motion, plays it, approaches or begins a leg. -/
theorem plansReachOrEndMotions : Obligations.PlansReachOrEndMotions := by
  intro p tag address k c g m s hcomes hdrive hphase hm hnot htarget hplans a
  obtain ⟨htakes, hk, hmax, hp, hsettled, hfocus, htrack, hrun, hsettle, hsuspended⟩ := hcomes
  have hactive : activePhase s = m.phase := by simp [activePhase, hm]
  have hfree : FreeOrHolding s := htrack.imp id And.left
  obtain ⟨v, hfrom, hleaves, hplan⟩ := takeFix_plans hp (by rw [MakesPlan, hactive]; exact hplans) (by simp [hphase])
    (by rw [hactive]; exact hnot) htrack
  obtain ⟨w, hw⟩ : ∃ w, w = takeFix a s := ⟨_, rfl⟩
  rw [← hw] at hleaves hplan
  have hjudge : judge address.toNat true s = (w, .fix) := hw ▸ judge_fixes (by simp [hdrive]) (by simp [hdrive]) hk hmax
    hfocus (hfree.imp And.left id) hrun hsettle hsuspended (jumps_offTrack (by simp [hdrive]))
  have hsettledv : Settled v := ⟨by rw [hfrom.arbiter]; exact hsettled.1, by rw [hfrom.supervisor]; exact hsettled.2.1,
    by simp [hfrom.step]⟩
  refine ⟨_, exec_fixReport htakes hjudge (react_planned hleaves hsettledv), answer_reply .., ?step, ?last,
    fun pg pa hpg hpa => ?outcomes⟩
  case step =>
    rw [answer_planner]
    exact hleaves.step.elim (fun he => he.trans hfrom.step) id
  case last => rw [lastGood_congr (answer_monitor ..), hleaves.last, hfrom.last]
  case outcomes =>
    have hcan (howner : s.planner.owner ≠ .none) : CanPlan k g a pg pa v :=
      ⟨by rw [hfrom.owner]; exact howner, by rw [hfrom.target, htarget], hfrom.last, by rw [hfrom.supervisor, hk],
        by rw [← hleaves.map]; simpa using hpg, by rw [← hleaves.map]; simpa using hpa⟩
    have hmv : v.arbiter.active = some m := by rw [hfrom.arbiter, hm]
    have hfreev : FreeOrHolding v := by rw [FreeOrHolding, hfrom.optics]; exact hfree
    have hdrivev : v.supervisor.drive = .moving := by rw [hfrom.supervisor, hdrive]
    have hfails {d : Int} {e : Cause}
        (h : FailsCheck k d (s.setPlanner { s.planner with trim := (w.answer p tag .accepted [0]).planner.trim }) e) :
        FailsCheck k d v e := by
      rw [answer_planner, hleaves.trim] at h
      exact hfrom.fails h
    have hopenv (h : (s.zones.decode a).access = .opened) : (v.zones.decode a).access = .opened := by
      rw [hfrom.decode, h]
    refine ⟨fun howner hattached => ?active, fun r howner hr => ?attached,
      fun r z howner hr hkind hend hopen hbefore => ?attachedEnds⟩
    case active =>
      have hv := hcan (by simp [howner])
      have hownerv : v.planner.owner = .active := by rw [hfrom.owner, howner]
      rw [hplan (by simp [howner])]
      refine ⟨fun hreach hkind hmg => ?_, fun z hreach hkind hend hopen hbefore => ?_, fun e hfar he => ?_,
        fun hfar hnear hlegs => ?_, fun hbelow => ?_, fun x n hfar hlong hlegs hsled hrest hx hn hne => ?_⟩
      · exact endedHolding_answer (hfrom.ended
          (plan_endsReached hv hownerv hmv hreach hkind hmg hfreev.onATrack (by simp [hdrivev, DriveState.setsAside])))
      · obtain ⟨hplays, hreports⟩ := plan_plays hv hownerv hmv hreach hkind hend (hopenv hopen) hbefore hfreev
          (by simp [hdrivev, DriveState.setsAside])
        rw [hfrom.returning] at hplays
        exact ⟨playsFrom_answer (hfrom.plays hplays), reportsStay_answer (hfrom.reportsStay hreports)⟩
      · have ⟨hended, hrecord⟩ := plan_endsUnreached hv hownerv hmv hfar (hfails (hplan (by simp [howner]) ▸ he))
          hfreev.onATrack (by simp [hdrivev, DriveState.setsAside])
        exact ⟨endedHolding_answer (hfrom.ended hended), by simpa using hrecord⟩
      · have hstarts := plan_fineStarts hv hfreev.onATrack hfar hnear (by rw [hfrom.legs]; exact hlegs)
        refine ⟨fineLegBegun_answer (hstarts.begun hv.target (by rw [hfrom.supervisor])), ?_, ?_,
          reportsStay_answer (hfrom.reportsStay hstarts.reportsStay)⟩
        · simp [hstarts.planner, hfrom.legs]
        · rw [answer_arbiter, hstarts.arbiter, legBegins_arbiter_active (by simpa using hownerv) (by simpa using hmv)]
      · obtain ⟨happroach, harbiter, hownert, hreports⟩ := plan_approaches hv (by simp [hownerv]) hmv hbelow hfreev
          hfrom.fresh hdrivev
        exact ⟨approaches_answer (hfrom.approaches happroach), by rw [answer_arbiter, harbiter],
          by rw [answer_planner, hownert, hownerv], reportsStay_answer (hfrom.reportsStay hreports)⟩
      · rw [answer_planner, ← hplan (by simp [howner]), hleaves.trim] at hn
        rw [← hfrom.sled] at hrest hx
        have hstarts := plan_sledStarts hv hfreev.onATrack hfar hlong (by rw [hfrom.legs]; exact hlegs)
          (by rw [hfrom.sledLegs]; exact hsled) hrest hx (hn ▸ hne)
        rw [← hn] at hstarts
        refine ⟨sledLegBegun_answer (hfrom.sledBegun (hstarts.begun rfl hv.target)), ?_,
          reportsStay_answer (hfrom.reportsStay hstarts.reportsStay)⟩
        rw [answer_arbiter, hstarts.arbiter, legBegins_arbiter_active (by simpa using hownerv) (by simpa using hmv)]
    case attached =>
      have hv := hcan (by simp [howner])
      have hownerv : v.planner.owner = .attached := by rw [hfrom.owner, howner]
      have hrv : v.arbiter.attached = some r := by rw [hfrom.arbiter, hr]
      rw [hplan (by simp [howner])]
      refine ⟨fun hfar hnear hlegs => ?_, fun hbelow => ?_⟩
      · have hstarts := plan_fineStarts hv hfreev.onATrack hfar hnear (by rw [hfrom.legs]; exact hlegs)
        have harbiter := hstarts.arbiter.trans
          (legBegins_arbiter_attached (m := m) (r := r) (by simpa using hownerv) (by simpa using hmv) (by simpa using hrv))
        refine ⟨fineLegBegun_answer (hstarts.begun hv.target (by rw [hfrom.supervisor])), ?_, ?_, ?_, ?_,
          reportsStay_answer (hfrom.reportsStay hstarts.reportsStay)⟩
        · simp [hstarts.planner, hownerv]
        · simp [hstarts.planner, hfrom.legs]
        · rw [answer_arbiter, harbiter]
        · rw [answer_arbiter, harbiter]
      · obtain ⟨happroach, harbiter, hownert, hreports⟩ := plan_approaches hv (by simp [hownerv]) hmv hbelow hfreev
          hfrom.fresh hdrivev
        exact ⟨approaches_answer (hfrom.approaches happroach), by rw [answer_planner, hownert, hownerv],
          by rw [answer_arbiter, harbiter], by rw [answer_arbiter, harbiter]; exact hrv,
          reportsStay_answer (hfrom.reportsStay hreports)⟩
    case attachedEnds =>
      have hv := hcan (by simp [howner])
      have hownerv : v.planner.owner = .attached := by rw [hfrom.owner, howner]
      have hrv : v.arbiter.attached = some r := by rw [hfrom.arbiter, hr]
      rw [hplan (by simp [howner])]
      have haside : v.supervisor.drive.setsAside = false := by simp [hdrivev, DriveState.setsAside]
      refine ⟨fun hreach => ?_, fun e hfar he => ?_⟩
      · obtain ⟨hplays, hattached, hreport⟩ := plan_attachedReached hv hownerv hrv hmv hreach hkind hend (hopenv hopen)
          hbefore haside hfreev
        exact ⟨playsFrom_answer (hfrom.plays hplays), by rw [answer_arbiter, hattached],
          oneMoreReport_answer (hfrom.oneMore hreport)⟩
      · obtain ⟨hplays, hattached, hreport, hrecord⟩ := plan_attachedUnreached hv hownerv hrv hmv hfar
          (hfails (hplan (by simp [howner]) ▸ he)) hkind hend (hopenv hopen) hbefore haside hfreev
        exact ⟨playsFrom_answer (hfrom.plays hplays), by rw [answer_arbiter, hattached],
          oneMoreReport_answer (hfrom.oneMore hreport), by rw [answer_planner, hrecord]⟩

end Sys2Proof.Proofs
end

section
/-! An accepted motion (R119, R123 to R131): its checks and its reply, its place, and the start test that it passes. -/

namespace Sys2Proof.Proofs

set_option Elab.async false

open Sys2Proof.Machine Sys2Proof.Safety Sys2Proof.Laws

variable {s t u v w : State} {p : Port} {tag : Byte} {kind : MotionKind} {target : Option Nat} {m : Motion} {c : Instr}

/-! ### The checks and the reply (R119, R124, R125) -/

/-- The checks of a motion with a target are those that motionRefusal states. -/
theorem moveChecks_eq {g : Addr} {endOk : DiscClass → Bool} {endAddr : Option Nat} (hkind : kind ≠ .release)
    (hend : ∀ k, s.supervisor.cls = some k →
      (endOk k = false ↔ endAddr.any (fun e => decide (e < g.toNat)) = true)) :
    moveChecks p tag kind g endOk s = motionRefusal kind p tag (some g.toNat) endAddr s := by
  unfold moveChecks ticketCheck driveCheck targetCheck motionRefusal
  by_cases hlimit : 2 ≤ (s.port p).tickets.length
  · simp [Config.ticketLimit, hlimit, firstFailure]
  by_cases htag : tag ∈ (s.port p).tickets
  · simp [Config.ticketLimit, hlimit, htag, firstFailure]
  by_cases hfault : s.supervisor.drive = .faulted
  · simp [Config.ticketLimit, hlimit, htag, hkind, hfault, firstFailure]
  cases hlatch : s.arbiter.releaseLatch with
  | true => simp [Config.ticketLimit, hlimit, htag, hkind, hfault, firstFailure]
  | false =>
    cases hk : s.supervisor.cls with
    | none => simp [Config.ticketLimit, hlimit, htag, hkind, hfault, firstFailure]
    | some k =>
      have hends := hend k hk
      by_cases hmax : k.maxAddress < g.toNat
      · simp [Config.ticketLimit, hlimit, htag, hkind, hfault, firstFailure, hmax]
      by_cases hok : endOk k = false
      · simp [Config.ticketLimit, hlimit, htag, hkind, hfault, firstFailure, hmax, hok, hends.1 hok]
      · have hany : ¬ endAddr.any (fun e => decide (e < g.toNat)) = true := fun h => hok (hends.2 h)
        by_cases havoid : (s.zones.decode g.toNat).access = .avoid <;>
          simp [Config.ticketLimit, hlimit, htag, hkind, hfault, firstFailure, hmax, hok, hany, havoid]

/-- So are those of a motion without a target. -/
theorem plainChecks_eq : firstFailure [ticketCheck p tag s, driveCheck kind s] = motionRefusal kind p tag none none s := by
  unfold ticketCheck driveCheck motionRefusal
  by_cases hlimit : 2 ≤ (s.port p).tickets.length
  · simp [Config.ticketLimit, hlimit, firstFailure]
  by_cases htag : tag ∈ (s.port p).tickets
  · simp [Config.ticketLimit, hlimit, htag, firstFailure]
  by_cases hkind : kind = .release
  · simp [Config.ticketLimit, hlimit, htag, hkind, firstFailure]
  by_cases hfault : s.supervisor.drive = .faulted
  · simp [Config.ticketLimit, hlimit, htag, hkind, hfault, firstFailure]
  · cases s.arbiter.releaseLatch <;> simp [Config.ticketLimit, hlimit, htag, hkind, hfault, firstFailure]

/-- The end address that a FOLLOW stores (R119). -/
theorem followEnd_eq (e : Option Addr) (s : State) : followEnd e s = endStored e s := by
  cases e <;> rfl

/-- What the reply to an accepted motion carries: its status after placement, its speed, its end address (R125, R192). -/
def placedReply (m : Motion) (t : State) : List Byte :=
  [(placedStatus m.port m.tag t).code, (m.speed.map Multiple.code).getD 0xFF] ++ addrField m.endAddr

/-- The state in which an accepted motion has found its place, and the start test has been made (R125, R131). -/
abbrev settledWith (m : Motion) (s : State) : State := react (accept m s)

/-- A request that passes its checks is accepted and answered. -/
theorem requestMotion_accepts {failure : Option Status} (h : failure = none) :
    requestMotion m failure s = (settledWith m s, .accepted, placedReply m (settledWith m s)) := by
  rw [h]
  rfl

/-- The motion that a SEEK brings. -/
abbrev newSeek (p : Port) (tag speed : Byte) (g : Addr) (s : State) : Motion :=
  Motion.accepted p tag .seek (some g.toNat) none (some (clampSpeed speed)) s.arbiter.arrivals

/-- The motion that a FOLLOW brings. -/
abbrev newFollow (p : Port) (tag speed : Byte) (g : Addr) (e : Option Addr) (s : State) : Motion :=
  Motion.accepted p tag .follow (some g.toNat) (endStored e s) (some (clampSpeed speed)) s.arbiter.arrivals

/-- The motion that a REJOIN brings. -/
abbrev newRejoin (p : Port) (tag : Byte) (g : Addr) (s : State) : Motion :=
  Motion.accepted p tag .rejoin (some g.toNat) none none s.arbiter.arrivals

theorem exec_seek {speed : Byte} {g : Addr} (h : Takes 0x10 p s)
    (hpass : motionRefusal .seek p tag (some g.toNat) none s = none) : exec (.seek p tag g speed) s
      = .next ((settledWith (newSeek p tag speed g s) s).answer p tag .accepted
        (placedReply (newSeek p tag speed g s) (settledWith (newSeek p tag speed g s) s))) := by
  refine exec_takes (k := .seek) rfl rfl h ?_
  have hchecks : moveChecks p tag .seek g (fun _ => true) s = none :=
    (moveChecks_eq (by decide) (by simp)).trans hpass
  exact requestMotion_accepts hchecks

theorem exec_follow {speed : Byte} {g : Addr} {e : Option Addr} (h : Takes 0x11 p s)
    (hpass : motionRefusal .follow p tag (some g.toNat) (endStored e s) s = none) : exec (.follow p tag g speed e) s
      = .next ((settledWith (newFollow p tag speed g e s) s).answer p tag .accepted
        (placedReply (newFollow p tag speed g e s) (settledWith (newFollow p tag speed g e s) s))) := by
  refine exec_takes (k := .follow) rfl rfl h ?_
  have hchecks : moveChecks p tag .follow g (fun k => g.toNat ≤ storedEnd k e) s = none := by
    refine (moveChecks_eq (endAddr := endStored e s) (by decide) fun k hk => ?_).trans hpass
    rw [← followEnd_eq]
    simp [followEnd, hk]
  have haccepts := requestMotion_accepts (m := newFollow p tag speed g e s) (s := s) hchecks
  rw [newFollow, ← followEnd_eq] at haccepts ⊢
  exact haccepts

theorem exec_rejoin {g : Addr} (h : Takes 0x22 p s) (hpass : motionRefusal .rejoin p tag (some g.toNat) none s = none) :
    exec (.rejoin p tag g) s = .next ((settledWith (newRejoin p tag g s) s).answer p tag .accepted
      (placedReply (newRejoin p tag g s) (settledWith (newRejoin p tag g s) s))) := by
  refine exec_takes (k := .rejoin) rfl rfl h ?_
  have hchecks : moveChecks p tag .rejoin g (fun _ => true) s = none :=
    (moveChecks_eq (by decide) (by simp)).trans hpass
  exact requestMotion_accepts hchecks

/-- Every accepted motion request brings a new motion, finds it its place and tells so. -/
theorem exec_accepted (h : Accepted p tag s c kind target) : ∃ e v, ∀ m,
    m = Motion.accepted p tag kind target e v s.arbiter.arrivals →
    exec c s = .next ((settledWith m s).answer p tag .accepted (placedReply m (settledWith m s))) := by
  cases h with
  | seek a v htakes hpass => exact ⟨_, _, fun m hm => hm ▸ exec_seek htakes hpass⟩
  | follow a v e htakes hpass => exact ⟨_, _, fun m hm => hm ▸ exec_follow htakes hpass⟩
  | rejoin a htakes hpass => exact ⟨_, _, fun m hm => hm ▸ exec_rejoin htakes hpass⟩
  | stop htakes hpass =>
    refine ⟨none, none, fun m hm => exec_takes (k := .stop) rfl rfl htakes ?_⟩
    rw [hm]
    exact requestMotion_accepts (plainChecks_eq.trans hpass)
  | release htakes hpass =>
    refine ⟨none, none, fun m hm => exec_takes (k := .release) rfl rfl htakes ?_⟩
    rw [hm]
    exact requestMotion_accepts (plainChecks_eq.trans hpass)

/-! ### The ticket (R120, R123) -/

@[simp] theorem takeTicket_arbiter (m : Motion) (s : State) :
    (takeTicket m s).arbiter = { s.arbiter with arrivals := s.arbiter.arrivals + 1 } := by simp [takeTicket]
@[simp] theorem takeTicket_clock (m : Motion) (s : State) : (takeTicket m s).clock = s.clock := by simp [takeTicket]
@[simp] theorem takeTicket_planner (m : Motion) (s : State) : (takeTicket m s).planner = s.planner := by simp [takeTicket]
@[simp] theorem takeTicket_map (m : Motion) (s : State) : (takeTicket m s).map = s.map := by simp [takeTicket]
@[simp] theorem takeTicket_zones (m : Motion) (s : State) : (takeTicket m s).zones = s.zones := by simp [takeTicket]
@[simp] theorem takeTicket_monitor (m : Motion) (s : State) : (takeTicket m s).monitor = s.monitor := by simp [takeTicket]
@[simp] theorem takeTicket_optics (m : Motion) (s : State) : (takeTicket m s).optics = s.optics := by simp [takeTicket]
@[simp] theorem takeTicket_sled (m : Motion) (s : State) : (takeTicket m s).sled = s.sled := by simp [takeTicket]
@[simp] theorem takeTicket_spindle (m : Motion) (s : State) : (takeTicket m s).spindle = s.spindle := by simp [takeTicket]
@[simp] theorem takeTicket_recovery (m : Motion) (s : State) : (takeTicket m s).recovery = s.recovery := by
  simp [takeTicket]
@[simp] theorem takeTicket_supervisor (m : Motion) (s : State) : (takeTicket m s).supervisor = s.supervisor := by
  simp [takeTicket]

theorem takeTicket_mask (m : Motion) (s : State) (q : Port) : ((takeTicket m s).port q).mask = (s.port q).mask := by
  rw [takeTicket_port]
  split
  · rename_i h
    rw [h]
  · rfl

/-! ### A motion takes the planner (R37, R62, R70) -/

section TakePlanner

variable (m : Motion) (ph : Phase) (s : State)

@[simp] theorem takePlanner_arbiter : (takePlanner m ph s).arbiter
    = { s.arbiter with active := some (m.activeIn ph) } := by
  unfold takePlanner
  dsimp only
  split <;> simp

@[simp] theorem takePlanner_planner : (takePlanner m ph s).planner = { s.planner with
    owner := .active, target := m.target, returning := false, acquireStep := .none
    sessionLegs := 0, sessionSled := 0 } := by
  unfold takePlanner
  dsimp only
  split <;> simp

@[simp] theorem takePlanner_recovery : (takePlanner m ph s).recovery = { s.recovery with holdCopy := none } := by
  unfold takePlanner
  dsimp only
  split <;> simp

@[simp] theorem takePlanner_supervisor : (takePlanner m ph s).supervisor = s.supervisor := by
  unfold takePlanner
  dsimp only
  split <;> simp

@[simp] theorem takePlanner_clock : (takePlanner m ph s).clock = s.clock := by
  unfold takePlanner
  dsimp only
  split <;> simp

@[simp] theorem takePlanner_map : (takePlanner m ph s).map = s.map := by
  unfold takePlanner
  dsimp only
  split <;> simp

@[simp] theorem takePlanner_zones : (takePlanner m ph s).zones = s.zones := by
  unfold takePlanner
  dsimp only
  split <;> simp

@[simp] theorem takePlanner_monitor : (takePlanner m ph s).monitor = s.monitor := by
  unfold takePlanner
  dsimp only
  split <;> simp

@[simp] theorem takePlanner_optics : (takePlanner m ph s).optics = s.optics := by
  unfold takePlanner
  dsimp only
  split <;> simp

theorem stopSledLeg_sled : (stopSledLeg s).sled
    = if s.planner.legStage = .running ∧ s.planner.legKind = .sled then s.sled.stop else s.sled := by
  unfold stopSledLeg
  split <;> rfl

@[simp] theorem takePlanner_sled : (takePlanner m ph s).sled
    = if s.planner.legStage = .running ∧ s.planner.legKind = .sled then s.sled.stop else s.sled := by
  unfold takePlanner
  dsimp only
  split
  · rw [setHeldSpeed_sled]
    exact stopSledLeg_sled _
  · exact stopSledLeg_sled _

@[simp] theorem takePlanner_mode : (takePlanner m ph s).spindle.mode = s.spindle.mode := by
  unfold takePlanner
  dsimp only
  split <;> simp

@[simp] theorem takePlanner_basis : (takePlanner m ph s).spindle.basis = s.spindle.basis := by
  unfold takePlanner
  dsimp only
  split <;> simp

theorem takePlanner_held : (takePlanner m ph s).spindle.held = m.speed.getD s.spindle.held := by
  unfold takePlanner
  dsimp only
  split
  · rename_i v hv
    simp [hv]
  · rename_i hv
    simp [hv]

@[simp] theorem takePlanner_reports (q : Port) : reportsOf q (takePlanner m ph s) = reportsOf q s := by
  unfold takePlanner
  dsimp only
  split <;> simp

/-- Only m, the spindle and the SPEED notices follow the held speed: the rest is in no motion's hands. -/
theorem takePlanner_mask (q : Port) : ((takePlanner m ph s).port q).mask = (s.port q).mask := by
  unfold takePlanner
  dsimp only
  split
  · rw [(((Keeps.refl _).setHeldSpeed).port q).mask]
    simp
  · simp

end TakePlanner

/-! ### The drive moves (R72, R147) -/

section NowMoving

variable (s : State)

@[simp] theorem nowMoving_arbiter : (nowMoving s).arbiter = s.arbiter := by simp [nowMoving]
@[simp] theorem nowMoving_planner : (nowMoving s).planner = s.planner := by simp [nowMoving]
@[simp] theorem nowMoving_recovery : (nowMoving s).recovery = s.recovery := by simp [nowMoving]
@[simp] theorem nowMoving_clock : (nowMoving s).clock = s.clock := by simp [nowMoving]
@[simp] theorem nowMoving_map : (nowMoving s).map = s.map := by simp [nowMoving]
@[simp] theorem nowMoving_monitor : (nowMoving s).monitor = s.monitor := by simp [nowMoving]
@[simp] theorem nowMoving_optics : (nowMoving s).optics = s.optics := by simp [nowMoving]
@[simp] theorem nowMoving_sled : (nowMoving s).sled = s.sled := by simp [nowMoving]
@[simp] theorem nowMoving_mode : (nowMoving s).spindle.mode = s.spindle.mode := by simp [nowMoving]
@[simp] theorem nowMoving_basis : (nowMoving s).spindle.basis = s.spindle.basis := by simp [nowMoving]
@[simp] theorem nowMoving_held : (nowMoving s).spindle.held = s.spindle.held := by simp [nowMoving]
@[simp] theorem nowMoving_reports (q : Port) : reportsOf q (nowMoving s) = reportsOf q s := by simp [nowMoving]

theorem nowMoving_supervisor (h : s.supervisor.drive.setsAside = false) :
    (nowMoving s).supervisor = { s.supervisor with drive := .moving } := by simp [nowMoving, h]

end NowMoving

/-! ### A motion that ends no other, and starts (R125, R131) -/

/-- Nothing is superseded where the new kind ends no live motion (R126). -/
theorem supersede_none (h : ∀ m ∈ liveMotions s, ends kind m = false) : supersede kind s = s := by
  have hlist : (liveMotions s).filterMap (fun m => (m.endedBy kind).map (fun r => (m, r))) = [] := by
    refine List.filterMap_eq_nil_iff.2 fun m hm => ?_
    have hnot := h m hm
    simp only [ends, Option.isSome_eq_false_iff, Option.isNone_iff_eq_none] at hnot
    simp [hnot]
  have hactive : s.arbiter.active.filter (fun m => !ends kind m) = s.arbiter.active := by
    cases ha : s.arbiter.active with
    | none => rfl
    | some m => simp [h m (by simp [liveMotions, ha])]
  have hattached : s.arbiter.attached.filter (fun m => !ends kind m) = s.arbiter.attached := by
    cases ha : s.arbiter.attached with
    | none => rfl
    | some m => simp [h m (by simp [liveMotions, ha])]
  have hwaiting : s.arbiter.waiting.filter (fun m => !ends kind m) = s.arbiter.waiting :=
    List.filter_eq_self.2 fun m hm => by simp [h m (by simp [liveMotions, hm])]
  unfold supersede
  dsimp only
  rw [hlist, hactive, hattached, hwaiting]
  rfl

/-- The kinds of motion that move to a target (R118). -/
abbrev Moves (kind : MotionKind) : Prop := kind = .seek ∨ kind = .follow ∨ kind = .rejoin

/-- A motion with a target that finds no other goes into the list (R125, R130). -/
theorem accept_waits (hmoves : Moves m.kind) (hnone : NoMotion s) :
    accept m s = setWaiting [m] (takeTicket m s) := by
  obtain ⟨hactive, hattached, hwaiting⟩ := noMotion_iff.1 hnone
  have hlive : liveMotions (takeTicket m s) = [] := by simp [liveMotions, hactive, hattached, hwaiting]
  have hsupersede : supersede m.kind (takeTicket m s) = takeTicket m s := supersede_none (by simp [hlive])
  unfold accept
  rcases hmoves with hkind | hkind | hkind <;>
    simp [hkind, hkind ▸ hsupersede, place, completesAtOnce, hactive, hattached, hwaiting, insertWaiting]

/-- Nothing waits for the spindle. -/
theorem onSpindleReady_idle (hident : s.supervisor.ident = none) (hstep : s.planner.acquireStep ≠ .spin) :
    onSpindleReady s = s := by
  simp [onSpindleReady, identIn, hident, hstep]

theorem testHeads_empty (n : Nat) (h : s.arbiter.waiting = []) : testHeads n s = s := by
  cases n with
  | zero => rfl
  | succ n => simp [testHeads, testHead, h]

/-- The one motion in the list starts, and nothing is left in the list (R131). -/
theorem react_starts (hw : s.arbiter.waiting = [m]) (hcan : canStart m s = true) (hident : s.supervisor.ident = none)
    (hstep : s.planner.acquireStep ≠ .spin) (hleft : (startHead m (setWaiting [] s)).arbiter.waiting = []) :
    react s = onSpindleReady (startHead m (setWaiting [] s)) := by
  have htest : testHead s = (startHead m (setWaiting [] s), true) := by simp [testHead, hw, hcan]
  rw [react, onSpindleReady_idle hident hstep, testHeads, htest, if_pos rfl, testHeads_empty 2 hleft]

/-- The state in which a motion that starts begins its work: it has the slot and the planner, and the drive moves (R131). -/
def started (m : Motion) (s : State) : State :=
  nowMoving (takePlanner m .acquire (endRecovery (setWaiting [] (setWaiting [m] (takeTicket m s)))))

section Started

variable (m : Motion) (s : State)

@[simp] theorem started_arbiter : (started m s).arbiter = { s.arbiter with
    active := some (m.activeIn .acquire), waiting := [], arrivals := s.arbiter.arrivals + 1 } := by simp [started]
@[simp] theorem started_planner : (started m s).planner = { s.planner with
    owner := .active, target := m.target, returning := false, acquireStep := .none
    sessionLegs := 0, sessionSled := 0 } := by simp [started]
@[simp] theorem started_optics : (started m s).optics = s.optics := by simp [started]
@[simp] theorem started_map : (started m s).map = s.map := by simp [started]
@[simp] theorem started_monitor : (started m s).monitor = s.monitor := by simp [started]
@[simp] theorem started_clock : (started m s).clock = s.clock := by simp [started]
@[simp] theorem started_reports (q : Port) : reportsOf q (started m s) = reportsOf q s := by simp [started]
@[simp] theorem started_mode : (started m s).spindle.mode = s.spindle.mode := by simp [started]
@[simp] theorem started_basis : (started m s).spindle.basis = s.spindle.basis := by simp [started]
theorem started_held : (started m s).spindle.held = m.speed.getD s.spindle.held := by simp [started, takePlanner_held]
theorem started_sled (h : s.planner.legStage ≠ .running) : (started m s).sled = s.sled := by simp [started, h]
theorem started_supervisor (h : s.supervisor.drive.setsAside = false) :
    (started m s).supervisor = { s.supervisor with drive := .moving } := by
  rw [started, nowMoving_supervisor _ (by simpa using h)]
  simp
theorem started_last : lastGood (started m s) = lastGood s := lastGood_congr (started_monitor m s)
theorem started_fresh : fixFresh (started m s) = fixFresh s := fixFresh_congr (started_monitor m s)

end Started

theorem beginWork_waiting (s : State) : (beginWork s).arbiter.waiting = s.arbiter.waiting := by
  unfold beginWork
  split
  · exact (planLeaves_setPhase _ s).waiting
  · split
    · exact (planLeaves_plan s).waiting
    · simp [startAcquire, setPhase]

/-- A motion with a target that finds no other, and a drive that lets it start, begins its work at once (R125, R131). -/
theorem settledWith_starts (hmoves : Moves m.kind) (hnone : NoMotion s)
    (hdrive : s.supervisor.drive = .onTrack ∨ s.supervisor.drive = .stopped ∧ s.supervisor.supply = .normal)
    (hident : s.supervisor.ident = none) (hstep : s.planner.acquireStep ≠ .spin) :
    settledWith m s = onSpindleReady (beginWork (started m s)) := by
  obtain ⟨hactive, -, -⟩ := noMotion_iff.1 hnone
  have hstart : startHead m (setWaiting [] (setWaiting [m] (takeTicket m s))) = beginWork (started m s) := by
    rcases hmoves with hkind | hkind | hkind <;> simp [startHead, hkind, started]
  rw [settledWith, accept_waits hmoves hnone, react_starts (m := m) (by simp) ?can (by simpa using hident)
    (by simpa using hstep) ?left, hstart]
  case can =>
    rcases hdrive with hdrive | ⟨hdrive, hsupply⟩
    · simp [canStart, hactive, hdrive]
    · simp [canStart, hactive, hdrive, hsupply]
  case left =>
    rw [hstart, beginWork_waiting]
    simp

/-- With no motion left it tells DONE. -/
theorem placedStatus_none (h : NoMotion t) : placedStatus p tag t = .done := by
  simp [placedStatus, h]

end Sys2Proof.Proofs
end

section
/-! A SEEK taken while the drive holds: it ends within reach, approaches, or begins its first leg (R41 to R50, R131, R133). -/

namespace Sys2Proof.Proofs

set_option Elab.async false

open Sys2Proof.Machine Sys2Proof.Safety Sys2Proof.Laws

variable {s t u v w : State} {k : DiscClass} {p : Port} {tag speed : Byte} {kind : MotionKind} {m : Motion}
  {g a pg pa : Nat} {f : Fix} {d n : Int}

/-! ### The first plan of a motion (R38, R131) -/

/-- A motion with a target is accepted in a disc's class alone (R124). -/
theorem class_of_accepted {e : Option Nat} (hkind : kind ≠ .release)
    (h : motionRefusal kind p tag (some g) e s = none) : ∃ k, s.supervisor.cls = some k := by
  cases hk : s.supervisor.cls with
  | some k => exact ⟨k, rfl⟩
  | none =>
    exfalso
    revert h
    unfold motionRefusal
    simp only [hkind, if_false, hk]
    split_ifs <;> simp

theorem clvTarget_congr (hspindle : t.spindle = s.spindle) (hcls : t.supervisor.cls = s.supervisor.cls)
    (h : ClvTarget s) : ClvTarget t := by
  intro k b hk hb
  rw [hspindle] at hb ⊢
  exact h k b (hcls ▸ hk) hb

/-- The fresh fix is what the first plan is made from. -/
theorem fresh_fix (hfix : s.monitor.fix = some f) (hfresh : f.fresh = true) : fixFresh s = true ∧ lastGood s = some f.address := by
  simp [fixFresh, lastGood, hfix, hfresh]

/-- With no leg left over and a fresh fix, a motion begins with a plan. -/
theorem beginWork_plans (hidle : s.planner.legStage = .idle) (hfresh : fixFresh s = true) : beginWork s = plan s := by
  simp [beginWork, legInFlight, hidle, hfresh]

/-- The motion that starts has something to plan. -/
theorem started_canPlan (htarget : m.target = some g) (hlast : lastGood s = some a) (hk : s.supervisor.cls = some k)
    (hpg : s.map.predict g = some pg) (hpa : s.map.predict a = some pa) (hdrive : s.supervisor.drive.setsAside = false) :
    CanPlan k g a pg pa (started m s) where
  owner := by simp
  target := by simp [htarget]
  last := by rw [started_last, hlast]
  cls := by rw [started_supervisor m s hdrive]; exact hk
  there := by simpa using hpg
  here := by simpa using hpa

/-- A motion with a target, accepted where the drive holds with a fresh fix, makes its plan at once, and nothing follows. -/
theorem settledWith_plans (hmoves : Moves m.kind) (hhold : Holding s) (hfresh : fixFresh s = true) :
    settledWith m s = plan (started m s) := by
  obtain ⟨⟨hdrive, hidle, -, hwaiting, hident, hstep⟩, hactive, hattached, -⟩ := hhold
  have haside : s.supervisor.drive.setsAside = false := by simp [hdrive, DriveState.setsAside]
  have hplan : beginWork (started m s) = plan (started m s) :=
    beginWork_plans (by simpa using hidle) (by rw [started_fresh, hfresh])
  have hleaves := planLeaves_plan (started m s)
  rw [settledWith_starts hmoves (noMotion_iff.2 ⟨hactive, hattached, hwaiting⟩) (.inl hdrive) hident hstep, hplan]
  refine onSpindleReady_idle ?_ ?_
  · rw [hleaves.ident, started_supervisor m s haside]
    exact hident
  · exact hleaves.step.elim (fun h => by simp [h]) fun h => by simp [h]

/-! ### Within reach (R42, R43, R133) -/

/-- Settles O33: the SEEK starts, plans within reach of its target, and ends there. -/
theorem seekWithinReachCompletes : Obligations.SeekWithinReachCompletes := by
  intro p tag speed target f s htakes hpass hhold hfix hfreshf hlow hhigh hthere hhere
  obtain ⟨m, hm⟩ : ∃ m, m = newSeek p tag speed target s := ⟨_, rfl⟩
  obtain ⟨k, hk⟩ := class_of_accepted (by decide) hpass
  obtain ⟨pg, hpg⟩ := Option.isSome_iff_exists.1 hthere
  obtain ⟨pa, hpa⟩ := Option.isSome_iff_exists.1 hhere
  obtain ⟨hfresh, hlast⟩ := fresh_fix hfix hfreshf
  have hdrive : s.supervisor.drive = .onTrack := hhold.1.1
  have hattached : s.arbiter.attached = none := hhold.2.2.1
  have htrack : OnATrack s := hhold.2.2.2
  have haside : s.supervisor.drive.setsAside = false := by simp [hdrive, DriveState.setsAside]
  have hplan := settledWith_plans (m := m) (hm ▸ .inl rfl) hhold hfresh
  obtain ⟨v, hv⟩ : ∃ v, v = started m s := ⟨_, rfl⟩
  have hcan : CanPlan k target.toNat f.address pg pa v := hv ▸ started_canPlan (by rw [hm]; rfl) hlast hk hpg hpa haside
  have howner : v.planner.owner = .active := by simp [hv]
  have hactive : v.arbiter.active = some (m.activeIn .acquire) := by simp [hv]
  have hfollow : (m.activeIn .acquire).kind ≠ .follow := by rw [hm]; simp [Motion.activeIn, Motion.accepted]
  have htarget : (m.activeIn .acquire).target = some target.toNat := by rw [hm]; rfl
  have hheq := plan_holdsAtTarget hcan howner hactive ⟨hlow, hhigh⟩ hfollow htarget
  have hended := plan_endsReached hcan howner hactive ⟨hlow, hhigh⟩ hfollow htarget (by simpa [hv, OnATrack] using htrack)
    (by rw [hv, started_supervisor m s haside]; rfl)
  rw [← hv] at hplan
  have hnone : NoMotion (plan v) := noMotion_iff.2
    ⟨hended.slot, by rw [hheq]; simp [holdAt, hv, hattached], by rw [(planLeaves_plan v).waiting, hv]; simp⟩
  have hexec := exec_seek (speed := speed) htakes hpass
  rw [← hm, hplan] at hexec
  refine ⟨_, hexec, ?reports, ?reply, ?none, by rw [answer_planner]; exact hended.owner,
    by rw [answer_supervisor]; exact hended.drive, by rw [answer_optics]; exact hended.hold.1,
    by rw [answer_optics]; exact hended.hold.2.1, by rw [answer_recovery]; exact hended.hold.2.2, ?held, ?fix⟩
  case reports =>
    have hstart : reportsOf p v = reportsOf p s := by simp [hv]
    rw [answer_queue, hended.reports p, if_pos (by rw [hm]; rfl),
      show completionsIn (v.port p).queue = completionsIn (s.port p).queue from hstart, hm]
    rfl
  case reply =>
    rw [answer_reply, placedReply, placedStatus_none hnone, hm]
    rfl
  case none => rw [NoMotion, ← noMotion_iff.2 (noMotion_iff.1 hnone), liveMotions, liveMotions, answer_arbiter]
  case held =>
    rw [answer_spindle, hheq]
    obtain ⟨-, -, hheld, -⟩ :=
      aimed_spindle (by rw [hv, started_supervisor m s haside]; exact hk : v.supervisor.cls = some k) pg pa
    have hspeed : (aimed pg pa v).spindle.held = clampSpeed speed := by
      rw [hheld, hv, started_held, hm]
      rfl
    simp [holdAt, hspeed]
  case fix =>
    rw [answer_monitor, hheq]
    simp [holdAt, hv]

/-! ### Away from the target (R41, R42, R44 to R50) -/

theorem legBegun_answer {lk : LegKind} {st : Status} {data : List Byte} {q : Port} {b : Byte}
    (h : LegBegun p tag lk n pg pa d s t) : LegBegun p tag lk n pg pa d s (t.answer q b st data) :=
  ⟨by simpa using h.motion, by simpa using h.owner, by simpa using h.plan, by simpa using h.leg, by simpa using h.session,
    by simpa using h.drive, ⟨(fixFresh_congr (answer_monitor ..)).trans h.fix.1,
      (lastGood_congr (answer_monitor ..)).trans h.fix.2⟩,
    ⟨by simpa using h.basis.1, by simpa using h.basis.2.1, clvTarget_congr (by simp) (by simp) h.basis.2.2⟩⟩

/-- Settles O34: the SEEK starts, and its first plan approaches or begins a leg. -/
theorem seekBeginsItsFirstLeg : Obligations.SeekBeginsItsFirstLeg := by
  intro p tag speed target f k pt pa s htakes hpass hhold hfix hfreshf hk hpg hpa d
  obtain ⟨m, hm⟩ : ∃ m, m = newSeek p tag speed target s := ⟨_, rfl⟩
  have hport : m.port = p := by rw [hm]; rfl
  have htag : m.tag = tag := by rw [hm]; rfl
  have hkind : m.kind = .seek := by rw [hm]; rfl
  have htarget : m.target = some target.toNat := by rw [hm]; rfl
  have hcancel : m.cancelPending = false := by rw [hm]; rfl
  have hlegs : (m.activeIn .acquire).legs = 0 := by rw [hm]; rfl
  obtain ⟨hfresh, hlast⟩ := fresh_fix hfix hfreshf
  have hdrive : s.supervisor.drive = .onTrack := hhold.1.1
  have hidle : s.planner.legStage = .idle := hhold.1.2.1
  have htrack : OnATrack s := hhold.2.2.2
  have haside : s.supervisor.drive.setsAside = false := by simp [hdrive, DriveState.setsAside]
  have hplan := settledWith_plans (m := m) (hm ▸ .inl rfl) hhold hfresh
  have hexec := exec_seek (speed := speed) htakes hpass
  rw [← hm, hplan] at hexec
  obtain ⟨v, hv⟩ : ∃ v, v = started m s := ⟨_, rfl⟩
  rw [← hv] at hexec
  have hcan : CanPlan k target.toNat f.address pt pa v := hv ▸ started_canPlan (by rw [hm]; rfl) hlast hk hpg hpa haside
  have howner : v.planner.owner = .active := by simp [hv]
  have hactive : v.arbiter.active = some (m.activeIn .acquire) := by simp [hv]
  have hsupervisor : v.supervisor = { s.supervisor with drive := .moving } := by rw [hv, started_supervisor m s haside]
  obtain ⟨hmode, hbasis, -, hclv⟩ := aimed_spindle (by rw [hsupervisor]; exact hk : v.supervisor.cls = some k) pt pa
  have hlastv : lastGood (plan v) = lastGood s := by rw [(planLeaves_plan v).last, hv, started_last]
  refine ⟨fun hbelow hloops => ?approach, fun hfar hnear => ?fine, fun x n hfar hlong hx hrest hn hne => ?sled⟩
  case approach =>
    have hfree : FreeOrHolding s := htrack.imp (fun h => ⟨h, hloops.absent (.inr h)⟩) id
    have heq := (plan_approach hcan hbelow).trans (by rw [if_neg (by simp [howner])])
    have hoptics := endHold_optics (s := setPhase .approach (aimed pt pa v)) (by simpa [hv] using hfree)
    rw [heq] at hexec
    have hspindle : (endHold (setPhase .approach (aimed pt pa v))).spindle = (aimed pt pa v).spindle := by simp
    have harbiter : (endHold (setPhase .approach (aimed pt pa v))).arbiter.active
        = some { m.activeIn .acquire with phase := some .approach } := by simp [setPhase, hactive]
    refine ⟨_, hexec, ⟨_, (congrArg Arbiter.active (answer_arbiter ..)).trans harbiter, hport, htag, hkind, htarget, rfl, rfl,
      hcancel⟩, ?_⟩
    refine ⟨by simp [Owns, hv, htarget], by simp, by simp [d], by simp [hsupervisor], by simp [hoptics],
      by simp [hoptics], by rw [answer_spindle, hspindle, hmode], by rw [answer_spindle, hspindle, hbasis],
      clvTarget_congr (by rw [answer_spindle, hspindle]) (by simp) hclv, ?_⟩
    rw [answer_monitor, endHold_monitor]
    simp [hv]
  case fine =>
    have hstarts := plan_fineStarts hcan (by simpa [hv, OnATrack] using htrack) hfar hnear (by simp [hv])
    have harbiter := hstarts.arbiter.trans (legBegins_arbiter_active (by simpa using howner) (by simpa using hactive))
    have hbegun : LegBegun p tag .fine (legOf d) pt pa d s (plan v) :=
      ⟨⟨_, congrArg Arbiter.active harbiter, hport, htag, hkind, rfl, rfl, by simp [hlegs]⟩,
        by simp [hstarts.planner, howner], by simp [hstarts.planner, d], by simp [hstarts.planner, d],
        by rw [hstarts.planner]; simp [hv], by simp [hstarts.supervisor, hsupervisor], ⟨hstarts.fresh, hlastv⟩,
        by rw [hstarts.spindle, hbasis], by rw [hstarts.spindle, hmode],
        clvTarget_congr hstarts.spindle (by rw [hstarts.supervisor]) hclv⟩
    refine ⟨_, hexec, legBegun_answer hbegun, ?_⟩
    rw [answer_planner, answer_optics, hstarts.planner, hstarts.optics]
    exact ⟨by simp [hv], rfl, rfl, rfl, rfl, rfl⟩
  case sled =>
    have hvsled : v.sled = s.sled := by rw [hv, started_sled m s (by simp [hidle])]
    have hvtrim : v.planner.trim = s.planner.trim := by simp [hv]
    have hstarts := plan_sledStarts hcan (by simpa [hv, OnATrack] using htrack) hfar hlong (by simp [hv]) (by simp [hv])
      (by rw [hvsled]; exact hrest) (by rw [hvsled]; exact hx) (by rw [hvtrim]; exact hn ▸ hne)
    rw [hvtrim, ← hn] at hstarts
    have harbiter := hstarts.arbiter.trans (legBegins_arbiter_active (by simpa using howner) (by simpa using hactive))
    have hbegun : LegBegun p tag .sled (signed d n) pt pa d s (plan v) :=
      ⟨⟨_, congrArg Arbiter.active harbiter, hport, htag, hkind, rfl, rfl, by simp [hlegs]⟩,
        by simp [hstarts.planner, howner], by simp [hstarts.planner, d], by simp [hstarts.planner, d],
        by rw [hstarts.planner]; simp [hv], by simp [hstarts.supervisor, hsupervisor], ⟨hstarts.fresh, hlastv⟩,
        by rw [hstarts.spindle, hbasis], by rw [hstarts.spindle, hmode],
        clvTarget_congr hstarts.spindle (by rw [hstarts.supervisor]) hclv⟩
    obtain ⟨hstate, hsteps, htaken, hrequester, -⟩ := hstarts.sled
    refine ⟨_, hexec, legBegun_answer hbegun, ?_⟩
    rw [answer_planner, answer_optics, answer_sled, hstarts.planner]
    exact ⟨by simp [hv], hstarts.optics.1, by rw [hstarts.optics.2]; simp [hv], hstate, hsteps, htaken, hrequester⟩

end Sys2Proof.Proofs
end

section
/-! ACQUIRE (R39, R40): a motion begins it, the spindle comes up, the search or the close follows, and an address that comes
before. -/

namespace Sys2Proof.Proofs

set_option Elab.async false

open Sys2Proof.Machine Sys2Proof.Safety Sys2Proof.Laws

variable {s t u v w : State} {k : DiscClass} {p : Port} {tag : Byte} {kind : MotionKind} {m : Motion} {a c c0 x : Nat}
  {armed : Option Time → Prop} {sp : Spindle} {now : Time}

/-! ### What the spindle keeps through a change of m and of its target (R67, R72) -/

/-- What a spindle keeps, at a time, through every change of the held speed, of m and of its target. -/
structure KeptAt (now : Time) (P : Spindle → Prop) : Prop where
  speeds : ∀ sp v n, P sp → P { sp with held := v, m := n }
  target : ∀ sp x b, 150 ≤ x → P sp → P (sp.setTarget now x b)

section Kept

variable {P : Spindle → Prop}

theorem kept_retarget {cls : Option DiscClass} (hkept : KeptAt now P) (h : P sp) : P (sp.retarget now cls) := by
  unfold Spindle.retarget
  split
  · exact hkept.target _ _ _ (by decide) h
  · exact hkept.target _ _ _ (clvTarget_range _ _ _).1 h
  · exact h

theorem kept_recomputeM (hkept : KeptAt s.clock P) (h : P s.spindle) : P (recomputeM s).spindle := by
  have hm : P { s.spindle with m := effectiveMultiple s } := hkept.speeds _ s.spindle.held _ h
  unfold recomputeM
  dsimp only
  split
  · exact h
  · rw [speedNotice_spindle]
    split
    · exact kept_retarget hkept hm
    · exact hm

theorem kept_setHeldSpeed {v : Multiple} (hkept : KeptAt s.clock P) (h : P s.spindle) :
    P (setHeldSpeed v s).spindle := by
  unfold setHeldSpeed
  split
  · exact h
  · exact kept_recomputeM (s := s.setSpindle { s.spindle with held := v }) hkept (hkept.speeds _ _ s.spindle.m h)

theorem kept_setDrive {d : DriveState} (hkept : KeptAt s.clock P) (h : P s.spindle) : P (setDrive d s).spindle := by
  unfold setDrive
  split
  · exact h
  · dsimp only
    generalize hu : (if d = .onTrack then _ else _) = u
    have hspindle : u.spindle = s.spindle := by rw [← hu]; split <;> simp
    have hclock : u.clock = s.clock := by rw [← hu]; split <;> simp
    split
    · exact kept_recomputeM (hclock ▸ hkept) (hspindle ▸ h)
    · exact hspindle ▸ h

theorem kept_nowMoving (hkept : KeptAt s.clock P) (h : P s.spindle) : P (nowMoving s).spindle := by
  refine kept_recomputeM (by simpa using hkept) ?_
  unfold reportDrive
  split
  · exact h
  · exact kept_setDrive hkept h

theorem kept_takePlanner {ph : Phase} (hkept : KeptAt s.clock P) (h : P s.spindle) :
    P (takePlanner m ph s).spindle := by
  unfold takePlanner
  dsimp only
  split
  · exact kept_setHeldSpeed (by simpa using hkept) (by simpa using h)
  · simpa using h

end Kept

/-! ### A spindle that comes up from below every band (R67, R73, R74) -/

/-- The spindle turns below the band of every target: it is driven, its lock limit armed so, or it has no target yet. -/
def Rising (armed : Option Time → Prop) (sp : Spindle) : Prop :=
  sp.measured < 135 ∧ (sp.state = .spinup ∧ armed sp.lockLimit ∨
    (sp.state = .stopped ∨ sp.state = .braking) ∧ sp.target = 0)

theorem not_within_of_slow {y : Nat} (h : y < 135) (hx : 150 ≤ x) : ¬ Within 10 y x := by
  unfold Within
  omega

/-- A target given to such a spindle finds it in SPINUP. -/
theorem rising_setTarget {b : Bool} (h : Rising armed sp) (hnow : armed (some now)) (hx : 150 ≤ x) :
    Rising armed (sp.setTarget now x b) ∧ (sp.setTarget now x b).state = .spinup ∧
      armed (sp.setTarget now x b).lockLimit := by
  obtain ⟨hslow, hstate⟩ := h
  by_cases hsame : x = sp.target
  · have hspin : sp.state = .spinup ∧ armed sp.lockLimit := hstate.resolve_right fun hzero => by omega
    rw [Spindle.setTarget, if_pos hsame]
    exact ⟨⟨hslow, .inl hspin⟩, hspin⟩
  · have hcoast : sp.state ≠ .coast := by
      rcases hstate with ⟨hspin, -⟩ | ⟨hstop | hstop, -⟩
      · simp [hspin]
      · simp [hstop]
      · simp [hstop]
    rw [setTarget_driven hsame hcoast, if_neg (not_within_of_slow hslow hx)]
    exact ⟨⟨hslow, .inl ⟨rfl, hnow⟩⟩, rfl, hnow⟩

theorem rising_kept (hnow : armed (some now)) : KeptAt now (Rising armed) :=
  ⟨fun _ _ _ h => h, fun _ _ _ hx h => (rising_setTarget h hnow hx).1⟩

/-- Driven for a coordinate of a class such a spindle is in SPINUP (R67, R73, R74). -/
theorem rising_spindleCommand (h : Rising armed s.spindle) (hnow : armed (some s.clock)) (hk : s.supervisor.cls = some k) :
    (spindleCommand .clv (some c) s).spindle.state = .spinup ∧ armed (spindleCommand .clv (some c) s).spindle.lockLimit := by
  have hspindle : (spindleCommand .clv (some c) s).spindle
      = ({ s.spindle with mode := .clv, basis := some c } : Spindle).setTarget s.clock (clvTarget k s.spindle.m c).1
        (clvTarget k s.spindle.m c).2 := by
    simp [spindleCommand, Spindle.retarget, hk]
  rw [hspindle]
  exact (rising_setTarget (sp := { s.spindle with mode := .clv, basis := some c }) h hnow (clvTarget_range _ _ _).1).2

/-! ### ACQUIRE begins (R39, R68, R131) -/

/-- A step of ACQUIRE waits for a spindle that is not COARSE yet, and nothing follows. -/
theorem onSpindleReady_notReady (h : s.spindle.state.ready = false) : onSpindleReady s = s := by
  simp [onSpindleReady, h]

/-- The beginning of ACQUIRE, from the state in which its motion has the planner (R39). -/
structure Acquires (v t : State) : Prop where
  arbiter : t.arbiter = { v.arbiter with active := v.arbiter.active.map (fun m => { m with phase := some .acquire }) }
  planner : t.planner = { v.planner with acquireStep := .spin }
  supervisor : t.supervisor = v.supervisor
  optics : t.optics = v.optics
  sled : t.sled = v.sled
  recovery : t.recovery = v.recovery
  monitor : t.monitor = v.monitor
  mode : t.spindle.mode = .clv ∧ t.spindle.basis = some ((v.monitor.fix.map Fix.coord).getD 0)
  reports : ∀ q, reportsOf q t = reportsOf q v

theorem startAcquire_acquires (v : State) : Acquires v (startAcquire v) := by
  constructor
  · simp [startAcquire, setPhase]
  · simp [startAcquire]
  · simp [startAcquire]
  · simp [startAcquire]
  · simp [startAcquire]
  · simp [startAcquire]
  · simp [startAcquire]
  · simp [startAcquire]
  · intro q
    simp [startAcquire]

theorem startAcquire_spindle (v : State) :
    (startAcquire v).spindle = (spindleCommand .clv (some ((v.monitor.fix.map Fix.coord).getD 0)) v).spindle := by
  simp [startAcquire]

theorem startAcquire_clv (hk : v.supervisor.cls = some k) : ClvTarget (startAcquire v) := by
  obtain ⟨htarget, hclamped, hm⟩ := spindleCommand_clv (c := (v.monitor.fix.map Fix.coord).getD 0) hk
  refine clvTarget_of_eq (k := k) (b := (v.monitor.fix.map Fix.coord).getD 0)
    (by rw [(startAcquire_acquires v).supervisor, hk]) (startAcquire_acquires v).mode.2 ?_ ?_
  · rw [startAcquire_spindle, htarget, hm]
  · rw [startAcquire_spindle, hclamped, hm]

theorem noticed_startAcquire {b : Notice} {q : Port} (h : Laws.Noticed b q v) (hb : b.code ≠ 3) :
    Laws.Noticed b q (startAcquire v) := by
  have hcommand : Laws.Noticed b q (spindleCommand .clv (some ((v.monitor.fix.map Fix.coord).getD 0)) v) :=
    Noticed.speedNotice (h.congr (State.setSpindle_port ..)) hb
  exact hcommand.congr (by simp [startAcquire, setPhase])

/-- The report that the drive moves is a change of drive state, told so. -/
theorem nowMoving_noticed {q : Port} (hdrive : s.supervisor.drive ≠ .moving) (haside : s.supervisor.drive.setsAside = false)
    (hq : admits (s.port q).mask 2 = true) :
    Laws.Noticed (.drive .moving s.supervisor.drive s.supervisor.cls s.clock) q (nowMoving s) := by
  have hset : reportDrive .moving s = setDrive .moving s := by simp [reportDrive, haside]
  rw [nowMoving, hset]
  exact (setDrive_noticed hdrive.symm hq).recomputeM (by simp [Notice.code])

/-- A motion with a target begins its ACQUIRE in STOPPED. -/
theorem settledWith_acquires (hmoves : Moves m.kind) (hport : m.port = p) (htag : m.tag = tag) (hkind : m.kind = kind)
    (hlegs : m.legs = 0) (hdrive : s.supervisor.drive = .stopped) (hsupply : s.supervisor.supply = .normal)
    (hnone : NoMotion s) (hsettled : Settled s) (hstale : fixFresh s = false) (hfocus : s.optics.focus ≠ .locked)
    (hstop : s.spindle.state = .stopped) (htarget : s.spindle.target = 0) (hslow : s.spindle.measured < 30)
    (hk : s.supervisor.cls = some k) : AcquireBegun p tag kind s (settledWith m s) := by
  have haside : s.supervisor.drive.setsAside = false := by simp [hdrive, DriveState.setsAside]
  obtain ⟨v, hv⟩ : ∃ v, v = started m s := ⟨_, rfl⟩
  have hsupervisor : v.supervisor = { s.supervisor with drive := .moving } := by rw [hv, started_supervisor m s haside]
  have hclock : v.clock = s.clock := by simp [hv]
  have hrising : Rising (· = some s.clock) v.spindle := by
    rw [hv, started]
    refine kept_nowMoving (rising_kept (by simp)) (kept_takePlanner (rising_kept (by simp)) ?_)
    exact ⟨by simpa using (by omega : s.spindle.measured < 135), .inr ⟨.inl (by simpa using hstop), by simpa using htarget⟩⟩
  have hacquires := startAcquire_acquires v
  obtain ⟨hspin, hlimit⟩ := rising_spindleCommand (c := (v.monitor.fix.map Fix.coord).getD 0) hrising (by simp [hclock])
    (by rw [hsupervisor]; exact hk)
  rw [← startAcquire_spindle] at hspin hlimit
  have heq : settledWith m s = startAcquire v := by
    have hbegin : beginWork v = startAcquire v := by
      have hfresh : fixFresh v = false := by rw [hv, started_fresh, hstale]
      have hopen : v.optics.focus ≠ .locked := by simpa [hv] using hfocus
      simp [beginWork, hfresh, hopen]
    rw [settledWith_starts hmoves hnone (.inr ⟨hdrive, hsupply⟩) hsettled.2.1 hsettled.2.2, ← hv, hbegin]
    exact onSpindleReady_notReady (by rw [hspin]; rfl)
  rw [heq]
  constructor
  · have hslot : (startAcquire v).arbiter.active = some (m.activeIn .acquire) := by
      rw [hacquires.arbiter, hv]
      simp [Motion.activeIn]
    exact ⟨_, hslot, hport, htag, hkind, rfl, rfl, hlegs⟩
  · rw [hacquires.planner]
    simp [hv]
  · refine ⟨by rw [hacquires.supervisor, hsupervisor], fun q hq => ?_⟩
    change admits (s.port q).mask 2 = true at hq
    rw [hacquires.supervisor, hsupervisor]
    refine noticed_startAcquire (b := .drive .moving s.supervisor.drive s.supervisor.cls s.clock) ?_ (by simp [Notice.code])
    have hnotice := nowMoving_noticed (q := q)
      (s := takePlanner m .acquire (endRecovery (setWaiting [] (setWaiting [m] (takeTicket m s))))) (by simp [hdrive])
      (by simpa using haside) (by rw [takePlanner_mask]; simpa [takeTicket_mask] using hq)
    simpa [hv, started] using hnotice
  · have hmonitor : v.monitor = s.monitor := by simp [hv]
    exact ⟨hacquires.mode.1, by rw [hacquires.mode.2, hmonitor], hspin, hlimit,
      startAcquire_clv (by rw [hsupervisor]; exact hk)⟩
  · rw [hacquires.optics, hv, started_optics]

theorem acquireBegun_answer {st : Status} {data : List Byte} {q : Port} {b : Byte} (h : AcquireBegun p tag kind s t) :
    AcquireBegun p tag kind s (t.answer q b st data) :=
  ⟨by simpa using h.motion, by simpa using h.planner,
    ⟨by simpa using h.drive.1, by rw [DriveNoticed, answer_supervisor]; exact noticed_answer h.drive.2⟩,
    ⟨by simpa using h.spindle.1, by simpa using h.spindle.2.1, by simpa using h.spindle.2.2.1,
      by simpa using h.spindle.2.2.2.1, clvTarget_congr (by simp) (by simp) h.spindle.2.2.2.2⟩,
    by simpa using h.loops⟩

/-! ### The steps of ACQUIRE (R39, R40) -/

/-- ACQUIRE that waits for the spindle searches once it is COARSE or LOCKED, and nothing follows its search. -/
theorem react_searches (hident : s.supervisor.ident = none)
    (hstep : s.planner.acquireStep = .spin) (hready : s.spindle.state.ready = true)
    (hleft : (acquireSearch s).arbiter.waiting = []) (hidentleft : (acquireSearch s).supervisor.ident = none)
    (hstepleft : (acquireSearch s).planner.acquireStep ≠ .spin) : react s = acquireSearch s := by
  have hfirst : onSpindleReady s = acquireSearch s := by rw [onSpindleReady_waiting hident hstep, if_pos hready]
  rw [react, hfirst, testHeads_empty 3 hleft, onSpindleReady_idle hidentleft hstepleft]

/-- One that finds it not ready stays. -/
theorem react_spinning (hwaiting : s.arbiter.waiting = []) (hready : s.spindle.state.ready = false) : react s = s := by
  rw [react, onSpindleReady_notReady hready, testHeads_empty 3 hwaiting, onSpindleReady_notReady hready]

/-- With focus LOCKED already the close follows at once (R39). -/
theorem acquireSearch_closes (hfocus : s.optics.focus = .locked) (htrack : s.optics.tracking = .off) :
    acquireSearch s = (s.setOptics { s.optics with
      closers := s.optics.closers.erase .planner ++ [.planner] }).setPlanner { s.planner with acquireStep := .close } := by
  have hdone : acquireSearch s = acquireClose (s.setPlanner { s.planner with acquireStep := .search }) := by
    simp [acquireSearch, focusSearch, hfocus]
  exact hdone.trans (acquireClose_begins (by simpa using hfocus) (by simpa using htrack))

/-- With no active profile the search fails at once (R40, R86). -/
theorem acquireSearch_faults (hfocus : s.optics.focus ≠ .locked) (hswitch : s.optics.switch = none)
    (hprofile : s.optics.profile = none) : acquireSearch s
      = raiseFault .focusUnrecoverable (s.setPlanner { s.planner with acquireStep := .search }) := by
  simp [acquireSearch, focusSearch, hfocus, hswitch, hprofile]

/-- A reading within 10 % of the target brings the spindle to COARSE. -/
theorem exec_reading_coarse {rpm : Nat} (hstate : s.spindle.state = .spinup)
    (hband : Within 10 (min rpm 9999) s.spindle.target) : ∃ sp, exec (.tachometerReading rpm) s
      = .next (react (s.setSpindle sp)) ∧ sp.state = .coarse := by
  refine ⟨s.spindle.read s.clock rpm, ?_, ?_⟩
  · change Host.Outcome.next (react (readingReports s.spindle rpm _)) = _
    simp [readingReports, Spindle.slips, Spindle.stops, hstate]
  · simp [Spindle.read, hstate, (within10_iff _ _).2 hband]

/-! ### An address that comes before (R39, R52, R56, R110; entry 13) -/

/-- While MOVING a fix leaves the spindle as it is (R69, R72). -/
theorem fixTaken_spindle (hdrive : s.supervisor.drive = .moving) : (fixTaken a c s).spindle = s.spindle := by
  have hmoving : (compareZone (storeFix a c s)).supervisor.drive = .moving := by simp [storeFix, hdrive]
  have hbasis : basisAfterFix (compareZone (storeFix a c s)) c = (compareZone (storeFix a c s)).spindle.basis := by
    unfold basisAfterFix
    split <;> simp_all
  rw [fixTaken, spindleOnFix_eq, respun_same hbasis (if_pos hmoving)]
  simp [storeFix]

theorem landLeft_idle (h : s.planner.legStage = .idle) : landLeft a s = s := by simp [landLeft, h]

theorem landLeft_disturbed (hstage : s.planner.legStage = .landing) (hmark : s.planner.legDisturbed = true) :
    landLeft a s = s.setPlanner s.planner.legOver := by
  simp [landLeft, hstage, hmark]

/-- The landing of a leg left over changes the map, the trim and the leg alone. -/
theorem landLeft_taught (a : Nat) (s : State) (hstage : s.planner.legStage = .landing) :
    ∃ u, Taught s u ∧ landLeft a s = u.setPlanner u.planner.legOver ∧
      (s.planner.legDisturbed = true → u = s) ∧ (s.planner.legDisturbed = false → u = landingTeaches a s) := by
  cases hmark : s.planner.legDisturbed with
  | true => exact ⟨s, Taught.refl s, landLeft_disturbed hstage hmark, fun _ => rfl, fun h => nomatch h⟩
  | false => exact ⟨_, landingTeaches_taught a s, landLeft_landing hstage hmark, fun h => (nomatch h), fun _ => rfl⟩

/-- What the landing of a leg left over leaves as it is. -/
structure LandedLeft (s t : State) : Prop where
  arbiter : t.arbiter = s.arbiter
  monitor : t.monitor = s.monitor
  optics : t.optics = s.optics
  sled : t.sled = s.sled
  spindle : t.spindle = s.spindle
  supervisor : t.supervisor = s.supervisor

theorem landLeft_landed (h : s.planner.legStage = .idle ∨ s.planner.legStage = .landing) :
    LandedLeft s (landLeft a s) := by
  rcases h with hidle | hlanding
  · rw [landLeft_idle hidle]
    exact ⟨rfl, rfl, rfl, rfl, rfl, rfl⟩
  · obtain ⟨u, htaught, heq, -, -⟩ := landLeft_taught a s hlanding
    rw [heq]
    exact ⟨htaught.arbiter, htaught.monitor, htaught.optics, htaught.sled, htaught.spindle, htaught.supervisor⟩

/-- Settles O56: the motion starts and begins ACQUIRE; the spindle COARSE lets its search begin, its close, or its fault; an
address that comes before is taken, and a leg left over lands with it. -/
theorem acquireRunsItsSteps : Obligations.AcquireRunsItsSteps := by
  refine ⟨fun p tag speed target e s hdrive hsupply hnone hsettled hstale hfocus hstop htarget hslow =>
      ⟨fun htakes hpass => ?seek, fun htakes hpass => ?follow, fun htakes hpass => ?rejoin⟩,
    fun rpm s hwaiting hident hstep hstate hband hswitch => ?reading,
    fun p tag address k c s htakes hk hmax hp hwaiting hident hfocus htrack hheld hstage hdrive hphase hactive hstep
      hspin => ?address⟩
  case seek =>
    obtain ⟨k, hk⟩ := class_of_accepted (by decide) hpass
    exact ⟨_, exec_seek htakes hpass, acquireBegun_answer (settledWith_acquires (.inl rfl) rfl rfl rfl rfl hdrive hsupply
      hnone hsettled hstale hfocus hstop htarget hslow hk)⟩
  case follow =>
    obtain ⟨k, hk⟩ := class_of_accepted (by decide) hpass
    exact ⟨_, exec_follow htakes hpass, acquireBegun_answer (settledWith_acquires (.inr (.inl rfl)) rfl rfl rfl rfl hdrive
      hsupply hnone hsettled hstale hfocus hstop htarget hslow hk)⟩
  case rejoin =>
    obtain ⟨k, hk⟩ := class_of_accepted (by decide) hpass
    exact ⟨_, exec_rejoin htakes hpass, acquireBegun_answer (settledWith_acquires (.inr (.inr rfl)) rfl rfl rfl rfl hdrive
      hsupply hnone hsettled hstale hfocus hstop htarget hslow hk)⟩
  case reading =>
    obtain ⟨sp, hexec, hcoarse⟩ := exec_reading_coarse (rpm := rpm) hstate hband
    obtain ⟨u, hu⟩ : ∃ u, u = s.setSpindle sp := ⟨_, rfl⟩
    rw [← hu] at hexec
    have hready : u.spindle.state.ready = true := by rw [hu, State.setSpindle_spindle, hcoarse]; rfl
    have hreacts := react_searches (s := u) (by simpa [hu] using hident)
      (by simpa [hu] using hstep) hready
    refine ⟨_, hexec, fun hfocus hprofile => ?_, fun hfocus htrack => ?_, fun hfocus hprofile hdrive => ?_⟩
    · have hsearch := acquireSearch_begins (s := u) (by simpa [hu] using hfocus) (by simpa [hu] using hswitch)
        (by simpa [hu] using hprofile)
      rw [hreacts (by rw [hsearch]; simpa [hu] using hwaiting) (by rw [hsearch]; simpa [hu] using hident)
        (by rw [hsearch]; simp), hsearch]
      have hbegun := (beginSearch_unlocked (r := .planner) (n := u.recovery.retryCount)
        (s := u.setPlanner { u.planner with acquireStep := .search }) (by simpa [hu] using hfocus)).2
      refine ⟨by simp [hu, hcoarse], by simp [hu], ?_, by simp [hu]⟩
      simpa [SearchBegun, hu] using hbegun
    · have hclose := acquireSearch_closes (s := u) (by simpa [hu] using hfocus) (by simpa [hu] using htrack)
      rw [hreacts (by rw [hclose]; simpa [hu] using hwaiting) (by rw [hclose]; simpa [hu] using hident)
        (by rw [hclose]; simp), hclose]
      exact ⟨by simp [hu, hcoarse], by simp [hu], by simp [hu]⟩
    · obtain ⟨v, hv⟩ : ∃ v, v = u.setPlanner { u.planner with acquireStep := .search } := ⟨_, rfl⟩
      have hfault := acquireSearch_faults (s := u) (by simpa [hu] using hfocus) (by simpa [hu] using hswitch)
        (by simpa [hu] using hprofile)
      rw [← hv] at hfault
      have hdrivev : v.supervisor.drive ≠ .faulted := by simpa [hv, hu] using hdrive
      have hparks := raiseFault_parks .focusUnrecoverable hdrivev
      rw [hreacts (by rw [hfault]; exact (noMotion_iff.1 hparks.motions.1).2.2) (by rw [hfault]; exact hparks.ended.1)
        (by rw [hfault, raiseFault_step hdrivev]; simp), hfault]
      exact faultParked_congr hparks (by simp [hv, hu]) (lastGood_congr (by simp [hv, hu])) (by simp [hv, hu])
        (liveMotions_congr (by simp [hv, hu])) fun q => by simp [hv, hu]
  case address =>
    obtain ⟨a, ha⟩ : ∃ a, a = address.toNat := ⟨_, rfl⟩
    rw [← ha] at hmax hp ⊢
    obtain ⟨u, hu⟩ : ∃ u, u = fixTaken a c s := ⟨_, rfl⟩
    have huplanner : u.planner = s.planner := by simp [hu]
    have hfix : takeFix a s = landLeft a u := by
      have hplanner : plannerOnFix a s u = landLeft a u := by simp [plannerOnFix, hstep]
      rw [takeFix_eq hp, recoveryOnFix_idle (by simp [hphase]), arbiterOnFix_idle (by simp [hactive]), ← hu, hplanner]
      simp [holdOnFix, hheld]
    have hjudge : judge address.toNat true s = (landLeft a u, .fix) := by
      rw [← ha, ← hfix]
      exact judge_fixes (by simp [hdrive]) (by simp [hdrive]) hk hmax hfocus (.inl htrack)
        (by rcases hstage with h | h <;> simp [h]) (by rcases hstage with h | h <;> simp [h]) (by simp [hactive])
        (jumps_offTrack (by simp [hdrive]))
    have hspindle : u.spindle = s.spindle := hu ▸ fixTaken_spindle hdrive
    have hmonitor : u.monitor.fix = some ⟨a, c, s.clock, (s.zones.decode a).zone, true⟩ := by
      rw [hu, fixTaken_monitor]
      rfl
    have hlanded : LandedLeft u (landLeft a u) := landLeft_landed (by rw [huplanner]; exact hstage)
    have hexec := exec_fixReport (tag := tag) htakes hjudge (react_spinning
      (by rw [hlanded.arbiter, hu]; simpa using hwaiting) (by rw [hlanded.spindle, hspindle, hspin]; rfl))
    refine ⟨_, hexec, answer_reply .., by rw [answer_monitor, hlanded.monitor, hmonitor],
      by rw [answer_arbiter, hlanded.arbiter, hu, fixTaken_arbiter], by rw [answer_optics, hlanded.optics, hu, fixTaken_optics],
      by rw [answer_sled, hlanded.sled, hu, fixTaken_sled], by rw [answer_spindle, hlanded.spindle, hspindle],
      by rw [answer_supervisor, hlanded.supervisor, hu, fixTaken_supervisor], fun hidle => ?_, fun hlanding => ?_⟩
    · rw [landLeft_idle (by rw [huplanner, hidle]), answer_planner, answer_map, huplanner, hu, fixTaken_map]
      exact ⟨rfl, rfl⟩
    · obtain ⟨v, htaught, heq, hmarked, hclean⟩ := landLeft_taught a u (by rw [huplanner, hlanding])
      have hplanner : v.planner = { s.planner with trim := v.planner.trim } := by rw [← huplanner]; exact htaught.planner
      rw [answer_planner, answer_map, heq]
      refine ⟨?_, fun hdisturbed => ?_, fun c0 hc0 hdisturbed hkind => ?_⟩
      · rw [State.setPlanner_planner, hplanner]
        rfl
      · rw [hmarked (by rw [huplanner, hdisturbed])]
        exact ⟨by simp [hu], by simp [huplanner, Planner.legOver]⟩
      · have hc0' : u.planner.startCoord = some c0 := by rw [huplanner, hc0]
        have hp' : u.map.predict a = some c := by rw [hu, fixTaken_map, hp]
        rw [hclean (by rw [huplanner, hdisturbed])]
        refine ⟨?_, ?_⟩
        · rw [State.setPlanner_map, landingTeaches_map_same hc0' hp' (.inl (by simp [huplanner, hkind])), hu, fixTaken_map]
        · have htrim := landingTeaches_trimAfter (by rw [huplanner, hkind]) hc0' hp' (by simpa [hu] using hk)
          simpa [TrimAfter, huplanner, Planner.legOver] using htrim

end Sys2Proof.Proofs
end

section
/-! A REJOIN attaches to the FOLLOW that plays (R37, R127, R137). -/

namespace Sys2Proof.Proofs

set_option Elab.async false

open Sys2Proof.Machine Sys2Proof.Safety Sys2Proof.Laws

variable {s t u v w : State} {k : DiscClass} {p : Port} {tag : Byte} {m r : Motion} {g a pg pa : Nat}

/-! ### The attached REJOIN becomes the owner (R37, R59, R62) -/

section AttachOwner

variable (r : Motion) (s : State)

@[simp] theorem attachOwner_arbiter : (attachOwner r s).arbiter = { s.arbiter with attached := some r.attachedOn } := by
  simp [attachOwner]
@[simp] theorem attachOwner_planner : (attachOwner r s).planner = { s.planner with
    owner := .attached, target := r.target, returning := false, acquireStep := .none
    sessionLegs := 0, sessionSled := 0 } := by simp [attachOwner]
@[simp] theorem attachOwner_clock : (attachOwner r s).clock = s.clock := by simp [attachOwner]
@[simp] theorem attachOwner_map : (attachOwner r s).map = s.map := by simp [attachOwner]
@[simp] theorem attachOwner_zones : (attachOwner r s).zones = s.zones := by simp [attachOwner]
@[simp] theorem attachOwner_monitor : (attachOwner r s).monitor = s.monitor := by simp [attachOwner]
@[simp] theorem attachOwner_optics : (attachOwner r s).optics = s.optics := by simp [attachOwner]
@[simp] theorem attachOwner_spindle : (attachOwner r s).spindle = s.spindle := by simp [attachOwner]
@[simp] theorem attachOwner_recovery : (attachOwner r s).recovery = s.recovery := by simp [attachOwner]
@[simp] theorem attachOwner_supervisor : (attachOwner r s).supervisor = s.supervisor := by simp [attachOwner]
@[simp] theorem attachOwner_port (q : Port) : (attachOwner r s).port q = s.port q := by simp [attachOwner]
@[simp] theorem attachOwner_reports (q : Port) : reportsOf q (attachOwner r s) = reportsOf q s :=
  reportsOf_congr q (attachOwner_port r s q)
theorem attachOwner_phase : activePhase (attachOwner r s) = activePhase s := by simp [activePhase]

end AttachOwner

/-- The phase of the FOLLOW decides what the REJOIN that has attached does: in a recovery the drive moves, in a sag nothing,
else a plan is made where no leg is in flight (R137, R147). -/
theorem attach_recovering (h : activePhase s = some .recovering) : attach r s = nowMoving (attachOwner r s) := by
  simp [attach, attachOwner_phase, h]

theorem attach_suspended (h : activePhase s = some .suspended) : attach r s = attachOwner r s := by
  simp [attach, attachOwner_phase, h]

theorem attach_works (hr : activePhase s ≠ some .recovering) (hs : activePhase s ≠ some .suspended) :
    attach r s = if legInFlight (nowMoving (attachOwner r s)) then nowMoving (attachOwner r s)
      else plan (nowMoving (attachOwner r s)) := by
  unfold attach
  dsimp only
  rw [attachOwner_phase]
  split
  · rename_i h
    exact absurd h hr
  · rename_i h
    exact absurd h hs
  · rfl

/-! ### A REJOIN finds a FOLLOW that plays (R131, R137) -/

/-- A REJOIN that ends no other and finds the active slot taken goes into the list. -/
theorem accept_rejoinWaits (hkind : r.kind = .rejoin) (hfollow : s.arbiter.active = some m) (hm : m.kind ≠ .rejoin)
    (hattached : s.arbiter.attached = none) (hwaiting : s.arbiter.waiting = []) :
    accept r s = setWaiting [r] (takeTicket r s) := by
  have hkeeps : ends .rejoin m = false := by simp [ends, Motion.endedBy, hm]
  have hsupersede : supersede .rejoin (takeTicket r s) = takeTicket r s :=
    supersede_none (by simp [liveMotions, hfollow, hattached, hwaiting, hkeeps])
  simp [accept, hkind, hsupersede, place, completesAtOnce, hfollow, hkeeps, Option.filter, hattached, hwaiting,
    insertWaiting]

/-- The one REJOIN in the list attaches, and nothing is left in the list. -/
theorem react_attaches (hw : s.arbiter.waiting = [r]) (hkind : r.kind = .rejoin) (hplays : followPlays s = true)
    (hactive : s.arbiter.active ≠ none) (hident : s.supervisor.ident = none) (hstep : s.planner.acquireStep ≠ .spin)
    (hleft : (attach r (setWaiting [] s)).arbiter.waiting = []) :
    react s = onSpindleReady (attach r (setWaiting [] s)) := by
  have hcan : canStart r s = false := by
    cases ha : s.arbiter.active with
    | none => exact absurd ha hactive
    | some m => simp [canStart, ha]
  have htest : testHead s = (attach r (setWaiting [] s), true) := by simp [testHead, hw, hcan, hkind, hplays]
  rw [react, onSpindleReady_idle hident hstep, testHeads, htest, if_pos rfl, testHeads_empty 2 hleft]

/-- The state in which an attached REJOIN makes its first plan. -/
def attachedTo (r : Motion) (s : State) : State :=
  nowMoving (attachOwner r (setWaiting [] (setWaiting [r] (takeTicket r s))))

/-- Settles O36: the REJOIN attaches, plans from the fresh fix, and begins a fine leg that the FOLLOW shows and it counts. -/
theorem rejoinAttachesToThePlayingFollow : Obligations.RejoinAttachesToThePlayingFollow := by
  intro p tag target f m pt pa s htakes hpass hrest hm hcontrol hfollow hplays hattached hclosed hfix hfreshf hcls hpg hpa d
    hfar hnear
  obtain ⟨hdrive, hidle, -, hwaiting, hident, hstep⟩ := hrest
  obtain ⟨k, hk⟩ := Option.ne_none_iff_exists'.1 hcls
  obtain ⟨hfresh, hlast⟩ := fresh_fix hfix hfreshf
  obtain ⟨r, hr⟩ : ∃ r, r = newRejoin p tag target s := ⟨_, rfl⟩
  have hport : r.port = p := by rw [hr]; rfl
  have htag : r.tag = tag := by rw [hr]; rfl
  have hkind : r.kind = .rejoin := by rw [hr]; rfl
  have htarget : r.target = some target.toNat := by rw [hr]; rfl
  have hstream : p = .stream := by
    have hserved := htakes.2
    cases p with
    | stream => rfl
    | control => exact absurd hserved (by decide)
    | mechanism => exact absurd hserved (by decide)
  obtain ⟨v, hv⟩ : ∃ v, v = attachedTo r s := ⟨_, rfl⟩
  have hsupervisor : v.supervisor = { s.supervisor with drive := .moving } := by
    rw [hv, attachedTo, nowMoving_supervisor _ (by simp [hdrive, DriveState.setsAside])]
    simp
  have hlastv : lastGood v = some f.address := by
    rw [← hlast, hv]
    exact lastGood_congr (by simp [attachedTo])
  have hcan : CanPlan k target.toNat f.address pt pa v :=
    ⟨by simp [hv, attachedTo], by simp [hv, attachedTo, htarget], hlastv, by rw [hsupervisor]; exact hk,
      by simpa [hv, attachedTo] using hpg, by simpa [hv, attachedTo] using hpa⟩
  have hstarts := plan_fineStarts hcan (.inl (by simpa [hv, attachedTo] using hclosed)) hfar hnear
    (by simp [hv, attachedTo])
  have harbiter := hstarts.arbiter.trans (legBegins_arbiter_attached (m := m) (r := r.attachedOn)
    (by simp [hv, attachedTo]) (by simpa [hv, attachedTo] using hm) (by simp [hv, attachedTo]))
  have hleaves := planLeaves_plan v
  have hsettles : settledWith r s = plan v := by
    have hattach : attach r (setWaiting [] (setWaiting [r] (takeTicket r s))) = plan v := by
      have hphase : activePhase (setWaiting [] (setWaiting [r] (takeTicket r s))) = some .following := by
        simp [activePhase, hm, hplays]
      rw [attach_works (by simp [hphase]) (by simp [hphase]), if_neg (by simp [legInFlight, hidle]), hv, attachedTo]
    have hwaitingv : v.arbiter.waiting = [] := by simp [hv, attachedTo]
    rw [settledWith, accept_rejoinWaits hkind hm (by simp [hfollow]) hattached hwaiting,
      react_attaches (r := r) (by simp) hkind (by simp [followPlays, hattached, hm, hfollow, hplays]) (by simp [hm])
        (by simpa using hident) (by simpa using hstep) (by rw [hattach, hleaves.waiting, hwaitingv]), hattach]
    refine onSpindleReady_idle (by rw [hleaves.ident, hsupervisor]; exact hident) ?_
    exact hleaves.step.elim (fun h => by rw [h, hv]; simp [attachedTo]) fun h => by simp [h]
  have hexec := exec_rejoin htakes hpass
  rw [← hr, hsettles] at hexec
  have hslots : (plan v).arbiter.attached = some (withLeg r.attachedOn) := congrArg Arbiter.attached harbiter
  have hactive : (plan v).arbiter.active = some { m with phase := some .leg } := congrArg Arbiter.active harbiter
  have hplaced : placedStatus p tag (plan v) = .attached := by
    have hother : Motion.named p tag { m with phase := some .leg } = false := by simp [Motion.named, hcontrol, hstream]
    have hnamed : Motion.named p tag (withLeg r.attachedOn) = true := by simp [Motion.named, Motion.attachedOn, hport, htag]
    simp only [placedStatus, liveMotions, hactive, hslots, Option.toList_some, List.cons_append, List.nil_append,
      List.find?_cons, hother, hnamed]
    rfl
  refine ⟨_, withLeg r.attachedOn, hexec, by rw [answer_arbiter, hslots], hport, htag, hkind, rfl,
    by rw [hr]; rfl, by rw [answer_arbiter, hactive], ?_, ?_⟩
  · rw [answer_reply, placedReply, hport, htag, hplaced, hr]
    rfl
  · rw [answer_planner, answer_optics, answer_supervisor, fixFresh_congr (answer_monitor ..), hstarts.planner, hstarts.optics,
      hstarts.supervisor]
    refine ⟨by simp [hv, attachedTo], by simp [hv, attachedTo, htarget], rfl, rfl, rfl, by simp [hv, attachedTo],
      by simp [hsupervisor], rfl, rfl, hstarts.fresh⟩

end Sys2Proof.Proofs
end

section
/-! CANCEL of a motion at work (R138 to R142). -/

namespace Sys2Proof.Proofs

set_option Elab.async false

open Sys2Proof.Machine Sys2Proof.Safety Sys2Proof.Laws

variable {s t u v w : State} {k : DiscClass} {p : Port} {tag which : Byte} {m r : Motion} {a c z : Nat} {st : Status}
  {data : List Byte} {res : Result}

/-! ### The STOP mechanics park a drive that turns (R76, R162) -/

/-- The drive is on its way to STOPPED: braked, dark, with no recovery and no sag hold, and no owner. -/
structure Parks (s t : State) : Prop where
  drive : t.supervisor = { s.supervisor with
    drive := .parking, sagTimer := none, focusLostInSag := false, suspendedPhase := none }
  arbiter : t.arbiter = (setPhase .braking s).arbiter
  planner : t.planner.owner = .none ∧ t.planner.acquireStep = .none
  spindle : Braked s t
  loops : t.optics.focus = .off ∧ t.optics.tracking = .off
  recovery : t.recovery.phase = .none
  reports : ∀ q, reportsOf q t = reportsOf q s

theorem stopMechanics_parks (hdriven : Driven s.spindle) (hturns : 30 ≤ s.spindle.measured) :
    Parks s (stopMechanics s) := by
  have hbraking := (brake_driven (now := s.clock) hdriven hturns).1
  have heq : stopMechanics s = setDrive .parking (park (setPhase .braking (disown s))) := by
    rw [stopMechanics, parkOrStop, if_neg (by simp [spindleStopped, hbraking])]
  obtain ⟨m, hm⟩ := setDrive_spindle_stop (s := park (setPhase .braking (disown s))) .parking
    (by simp [(brake_stops _ _).1])
  rw [heq]
  refine ⟨by simp, by simp [setPhase], by simp [disown], braked_of_spindle (m := m) hdriven hturns ?_, by simp [park_optics],
    by simp, fun q => ?_⟩
  · rw [hm]
    simp
  · rw [reportsOf_setDrive, reportsOf_park]
    simp

/-! ### The drive moves in a recovery (R147) -/

/-- A report that the drive moves, given in a recovery, is a change with its notice, and nothing more. -/
theorem takenInRecovery_of (hsupervisor : t.supervisor = (reportDrive .moving u).supervisor)
    (hu : u.supervisor = s.supervisor)
    (hnotice : s.supervisor.drive = .recovering → ∀ q, admits (s.port q).mask 2 = true →
      Laws.Noticed (.drive .moving s.supervisor.drive s.supervisor.cls s.clock) q t) : TakenInRecovery s t := by
  intro hdrive
  have haside : u.supervisor.drive.setsAside = false := by
    rw [hu]
    rcases hdrive with h | h <;> simp [h, DriveState.setsAside]
  have hmoving : t.supervisor = { s.supervisor with drive := .moving } := by
    rw [hsupervisor, reportDrive_supervisor, haside, hu]
    simp
  refine ⟨hmoving, fun hrecovering q hq => ?_⟩
  rw [hmoving]
  exact hnotice hrecovering q hq

/-- The report itself is told to every port whose mask admits it. -/
theorem reportDrive_noticed {q : Port} (hdrive : s.supervisor.drive = .recovering)
    (hq : admits (s.port q).mask 2 = true) :
    Laws.Noticed (.drive .moving s.supervisor.drive s.supervisor.cls s.clock) q (reportDrive .moving s) := by
  have hset : reportDrive .moving s = setDrive .moving s := by simp [reportDrive, hdrive, DriveState.setsAside]
  rw [hset]
  exact setDrive_noticed (by simp [hdrive]) hq

/-! ### The motion that CANCEL names (R139) -/

/-- A CANCEL that names a motion acts, and the start test follows. -/
theorem exec_cancel (htakes : Takes 0x13 p s) (hcancel : cancel p which s = (w, .accepted)) :
    exec (.cancel p tag which) s = .next ((react w).answer p tag .accepted []) := by
  refine exec_takes (k := .cancel) rfl rfl htakes ?_
  change requestCancel p which s = _
  simp [requestCancel, hcancel]

theorem cancel_ofActive (hfind : (liveMotions s).find? (Motion.named p which) = some m) (hkind : m.kind ≠ .stop)
    (hm : s.arbiter.active = some m) : cancel p which s = (cancelActive m s, .accepted) := by
  simp [cancel, hfind, hkind, hm]

theorem cancel_ofAttached (hfind : (liveMotions s).find? (Motion.named p which) = some r) (hkind : r.kind = .rejoin)
    (hm : s.arbiter.active = some m) (hfollow : m.kind = .follow) (hr : s.arbiter.attached = some r) :
    cancel p which s = (cancelAttached r s, .accepted) := by
  have hother : m ≠ r := by
    rintro rfl
    simp [hfollow] at hkind
  simp [cancel, hfind, hkind, hm, hother, hr]

/-! ### The active motion (R138, R140, R142) -/

@[simp] theorem withdraw_owner (s : State) : (withdraw s).planner.owner = .none := by simp [withdraw, disown]
@[simp] theorem withdraw_step (s : State) : (withdraw s).planner.acquireStep = .none := by simp [withdraw, disown]
@[simp] theorem withdraw_reports (q : Port) (s : State) : reportsOf q (withdraw s) = reportsOf q s :=
  reportsOf_congr q (by simp)

theorem withdraw_sled (s : State) : (withdraw s).sled
    = if s.planner.legStage = .running ∧ s.planner.legKind = .sled then s.sled.stop else s.sled :=
  stopSledLeg_sled (disown s)

theorem withdraw_last (s : State) : lastGood (withdraw s) = lastGood s := lastGood_congr (by simp)

/-- A leg in flight that will land is what a CANCEL waits for. -/
theorem waits_inFlight {ph : Option Phase} (hph : ph = some .leg ∨ ph = some .settle ∨ ph = some .verify)
    (hstage : s.planner.legStage ≠ .idle) (hclean : s.planner.legDisturbed = false) : waits ph s = true := by
  rcases hph with h | h | h <;> simp [waits, h, Phase.ofLeg, legInFlight, hstage, hclean]

theorem waits_none {ph : Phase} (h : ph.ofLeg = false) : waits (some ph) s = false := by simp [waits, h]

/-- The state of a motion that has just been cancelled in its slot. -/
def cancelled (m : Motion) (s : State) : State := endMotion m .cancelled (lastGood s) (setActive none (withdraw s))

theorem cancelled_reports (m : Motion) (s : State) :
    OneMoreReport m.port ⟨m.tag, m.kind, .cancelled, lastGood s, m.legs, m.bad⟩ s (cancelled m s) := by
  intro q
  have hreports := reportsOf_endMotion (setActive none (withdraw s)) q m .cancelled (lastGood s)
  simpa [cancelled, reportsOf, eq_comm, Motion.report] using hreports

theorem cancelActive_ends (hattached : s.arbiter.attached = none) (hwaits : waits m.phase s = false) :
    cancelActive m s = leaveMechanism m.phase (cancelled m s) := by
  simp [cancelActive, hattached, hwaits, cancelled]

theorem cancelActive_waits (hattached : s.arbiter.attached = none) (hwaits : waits m.phase s = true) :
    cancelActive m s = setActive (some { m with cancelPending := true }) (withdraw s) := by
  simp [cancelActive, hattached, hwaits]

/-- What follows a CANCEL that has left its motion no owner of the planner. -/
theorem react_cancelled (hwaiting : t.arbiter.waiting = []) (hident : t.supervisor.ident = none)
    (hstep : t.planner.acquireStep = .none) : react t = t :=
  react_settled ⟨hwaiting, hident, by simp [hstep]⟩

/-- The REJOIN that a cancelled FOLLOW carried takes its slot and its planner. -/
theorem cancelActive_carried (hr : s.arbiter.attached = some r) (howner : s.planner.owner = .attached) :
    (cancelActive m s).arbiter.active = some (r.activeIn (m.phase.getD .acquire)) ∧
    (cancelActive m s).arbiter.attached = none ∧ (cancelActive m s).arbiter.waiting = s.arbiter.waiting ∧
    (cancelActive m s).planner = { s.planner with owner := .active } ∧ TakenInRecovery s (cancelActive m s) ∧
    (cancelActive m s).supervisor = (reportDrive .moving s).supervisor ∧
    OneMoreReport m.port ⟨m.tag, m.kind, .cancelled, lastGood s, m.legs, m.bad⟩ s (cancelActive m s) := by
  obtain ⟨u, hu⟩ : ∃ u, u = endMotion m .cancelled (lastGood s)
      (setActive (some (r.activeIn (m.phase.getD .acquire))) (setAttached none s)) := ⟨_, rfl⟩
  obtain ⟨v, hv⟩ : ∃ v, v = (u.setRecovery { u.recovery with holdCopy := none }).setPlanner
      { s.planner with owner := .active } := ⟨_, rfl⟩
  have hplanner : u.planner = s.planner := by simp [hu]
  have heq : cancelActive m s = reportDrive .moving v := by
    simp [cancelActive, hr, ← hu, hv, hplanner, howner]
  have hvs : v.supervisor = s.supervisor := by simp [hv, hu]
  have hmask (q : Port) : (v.port q).mask = (s.port q).mask := by
    rw [hv, State.setPlanner_port, State.setRecovery_port, hu, endMotion_port]
    split
    · rename_i h
      simp [h, PortState.joined]
    · simp
  rw [heq]
  refine ⟨by simp [hv, hu], by simp [hv, hu], by simp [hv, hu], by simp [hv], takenInRecovery_of rfl hvs fun hdrive q hq => ?_,
    by simp [hvs], fun q => ?_⟩
  · have hnotice := reportDrive_noticed (s := v) (q := q) (by rw [hvs, hdrive]) (by rw [hmask]; exact hq)
    rw [hvs, show v.clock = s.clock by simp [hv, hu]] at hnotice
    exact hnotice
  · have hreports := reportsOf_endMotion (setActive (some (r.activeIn (m.phase.getD .acquire))) (setAttached none s)) q m
      .cancelled (lastGood s)
    have hsame : reportsOf q (reportDrive .moving v) = reportsOf q u := by simp [hv]
    rw [← hu] at hreports
    simpa [reportsOf, eq_comm, Motion.report] using hsame.trans hreports

/-! ### The attached REJOIN (R138, R140; entry 18) -/

theorem cancelAttached_waits (hwaits : waits (activePhase s) s = true) :
    cancelAttached r s = setAttached (some { r with cancelPending := true }) (withdraw s) := by
  simp [cancelAttached, hwaits]

/-- The state of an attached REJOIN that has just been cancelled. -/
def detached (r : Motion) (s : State) : State := endMotion r .cancelled (lastGood s) (setAttached none s)

theorem detached_reports (r : Motion) (s : State) :
    OneMoreReport r.port ⟨r.tag, r.kind, .cancelled, lastGood s, r.legs, r.bad⟩ s (detached r s) := by
  intro q
  have hreports := reportsOf_endMotion (setAttached none s) q r .cancelled (lastGood s)
  simpa [detached, reportsOf, eq_comm, Motion.report] using hreports

theorem cancelAttached_recovering (h : activePhase s = some .recovering) : cancelAttached r s
    = markRejoin true ((detached r (withdraw s)).setRecovery
        { (detached r (withdraw s)).recovery with keptPhase := some .following }) := by
  simp [cancelAttached, h, waits, Phase.ofLeg, detached, withdraw_last]

theorem cancelAttached_suspended (h : activePhase s = some .suspended) : cancelAttached r s
    = markRejoin true ((detached r (withdraw s)).setSupervisor
        { (detached r (withdraw s)).supervisor with suspendedPhase := some .following }) := by
  simp [cancelAttached, h, waits, Phase.ofLeg, detached, withdraw_last]

/-- In the other phases the FOLLOW enters FOLLOWING at once. -/
theorem cancelAttached_follows (hr : s.arbiter.attached = some r) (hwaits : waits (activePhase s) s = false)
    (hrec : activePhase s ≠ some .recovering) (hsus : activePhase s ≠ some .suspended) :
    cancelAttached r s = endAttached .cancelled (withdraw s) := by
  have hr' : (withdraw s).arbiter.attached = some r := by simpa using hr
  unfold cancelAttached endAttached
  dsimp only
  rw [hwaits, if_neg Bool.false_ne_true, hr', withdraw_last]
  split
  · exact absurd ‹_› hrec
  · exact absurd ‹_› hsus
  · rfl

@[simp] theorem followTest_planner (a : Nat) (s : State) : (followTest a s).planner = s.planner := by
  unfold followTest
  split
  · dsimp only
    split
    · split
      · simp [holdAt]
      · split <;> simp [holdAt]
    · rfl
  · rfl

theorem enterFollowing_owner {e : FollowEntry} (h : s.planner.owner = .none) :
    (enterFollowing e s).planner.owner = .none := by
  unfold enterFollowing
  split
  · rw [followTest_planner, offer_planner, releaseHold_planner, reportDrive_planner]
    rfl
  · exact h

theorem endAttached_owner (h : s.planner.owner = .none) : (endAttached res s).planner.owner = .none := by
  unfold endAttached
  split
  · exact enterFollowing_owner (by simpa using h)
  · exact h

end Sys2Proof.Proofs
end

section
/-! A disturbance begins a recovery (R171 to R179): its record, the opening, and the phase it names. -/

namespace Sys2Proof.Proofs

set_option Elab.async false

open Sys2Proof.Machine Sys2Proof.Safety Sys2Proof.Laws

variable {s t u v w : State} {k : Disturbance} {ph : RecoveryPhase} {m r : Motion} {kept : Option Phase}

/-! ### The record of a disturbance (R171, R172) -/

/-- The history with one more disturbance. -/
def historyWith (k : Disturbance) (s : State) : List HistoryEntry :=
  appendHistory ⟨s.clock, k, lastGood s⟩ s.recovery.history

/-- Whether the drive is ROUGH once the disturbance is recorded. -/
def roughWith (k : Disturbance) (s : State) : Bool :=
  s.recovery.rough || decide (4 ≤ recentCount (historyWith k s) s.clock)

/-- The disturbance in the history, with its notice. -/
def noted (k : Disturbance) (ph : RecoveryPhase) (s : State) : State :=
  offer (.disturbance k s.clock (lastGood s) ph (roughWith k s) (recentCount (historyWith k s) s.clock))
    (s.setRecovery { s.recovery with
      history := historyWith k s
      roughExit := if roughWith k s then some (later s.clock 20000) else s.recovery.roughExit })

/-- ROUGH is entered with the disturbance that makes the drive so. -/
theorem recordDisturbance_eq (k : Disturbance) (ph : RecoveryPhase) (s : State) : recordDisturbance k ph s
    = if roughWith k s && !s.recovery.rough then setRough true (noted k ph s) else noted k ph s := rfl

/-- The recovery record after a disturbance is recorded. -/
theorem recordDisturbance_recovery (k : Disturbance) (ph : RecoveryPhase) (s : State) :
    (recordDisturbance k ph s).recovery = { s.recovery with
      history := historyWith k s, rough := roughWith k s
      roughExit := if roughWith k s then some (later s.clock 20000) else s.recovery.roughExit } := by
  have hnoted : (noted k ph s).recovery = { s.recovery with
      history := historyWith k s
      roughExit := if roughWith k s then some (later s.clock 20000) else s.recovery.roughExit } := by simp [noted]
  rw [recordDisturbance_eq]
  by_cases hnew : (roughWith k s && !s.recovery.rough) = true
  · rw [if_pos hnew, setRough_recovery, hnoted, (Bool.and_eq_true_iff.1 hnew).1]
  · have hsame : s.recovery.rough = roughWith k s := by
      cases hrough : s.recovery.rough with
      | true => rw [roughWith, hrough, Bool.true_or]
      | false => exact (Bool.eq_false_iff.2 fun hall => hnew (by rw [hall, hrough]; rfl)).symm
    rw [if_neg hnew, hnoted, ← hsame]

/-- The gain is all that the record of a disturbance changes of the loops (R95, R172). -/
theorem recordDisturbance_optics (k : Disturbance) (ph : RecoveryPhase) (s : State) :
    ∃ b, (recordDisturbance k ph s).optics = { s.optics with robustGain := b } := by
  rw [recordDisturbance_eq]
  split
  · exact ⟨true, by simp [setRough_optics, noted]⟩
  · exact ⟨s.optics.robustGain, by simp [noted]⟩

theorem recordDisturbance_kept {P : Spindle → Prop} (hkept : KeptAt s.clock P) (h : P s.spindle) :
    P (recordDisturbance k ph s).spindle := by
  rw [recordDisturbance_eq]
  split
  · exact kept_recomputeM (by simpa [noted] using hkept) (by simpa [noted] using h)
  · simpa [noted] using h

/-- The DISTURBANCE notice stands in every queue whose mask admits it (R171). -/
theorem recordDisturbance_noticed {q : Port} (hq : admits (s.port q).mask 4 = true) :
    Laws.Noticed (.disturbance k s.clock (lastGood s) ph (roughWith k s) (recentCount (historyWith k s) s.clock)) q
      (recordDisturbance k ph s) := by
  have hnoted : Laws.Noticed
      (.disturbance k s.clock (lastGood s) ph (roughWith k s) (recentCount (historyWith k s) s.clock)) q (noted k ph s) :=
    noticed_offer _ (by rw [State.setRecovery_port]; exact hq)
  rw [recordDisturbance_eq]
  split
  · unfold setRough
    refine Noticed.recomputeM (Noticed.offer (hnoted.congr ?_) (by simp [Notice.code])) (by simp [Notice.code])
    rw [State.setOptics_port, State.setRecovery_port]
  · exact hnoted

/-! ### The opening of a recovery (R173) -/

section Open

variable (kept : Option Phase) (s : State)

@[simp] theorem openRecovery_supervisor :
    (openRecovery kept s).supervisor = { s.supervisor with drive := .recovering } := by simp [openRecovery]
@[simp] theorem openRecovery_arbiter : (openRecovery kept s).arbiter = { s.arbiter with
    active := s.arbiter.active.map (fun m => { m with phase := some .recovering }) } := by simp [openRecovery, setPhase]
@[simp] theorem openRecovery_planner :
    (openRecovery kept s).planner = { s.planner with acquireStep := .none } := by simp [openRecovery]
@[simp] theorem openRecovery_optics : (openRecovery kept s).optics = s.optics := by simp [openRecovery]
@[simp] theorem openRecovery_sled : (openRecovery kept s).sled = s.sled := by simp [openRecovery]
@[simp] theorem openRecovery_map : (openRecovery kept s).map = s.map := by simp [openRecovery]
@[simp] theorem openRecovery_clock : (openRecovery kept s).clock = s.clock := by simp [openRecovery]
@[simp] theorem openRecovery_monitor : (openRecovery kept s).monitor = s.monitor := by simp [openRecovery]
@[simp] theorem openRecovery_reports (q : Port) : reportsOf q (openRecovery kept s) = reportsOf q s := by
  simp [openRecovery]
@[simp] theorem openRecovery_recovery : (openRecovery kept s).recovery = { s.recovery with
    refocusCount := 0, retrackCount := 0, refixCount := 0, respinCount := 0
    retryLimit := s.recovery.retryCount, fixReported := false, window := none
    returnAddr := lastGood s, keptPhase := kept } := by simp [openRecovery]

end Open

theorem openRecovery_kept {P : Spindle → Prop} (hkept : KeptAt s.clock P) (h : P s.spindle) :
    P (openRecovery kept s).spindle := by
  unfold openRecovery
  exact kept_setDrive (by simpa using hkept) (by simpa using h)

theorem openRecovery_noticed {n : Notice} {q : Port} (h : Laws.Noticed n q s) (h2 : n.code ≠ 2) (h3 : n.code ≠ 3)
    (h7 : n.code ≠ 7) : Laws.Noticed n q (openRecovery kept s) := by
  unfold openRecovery
  exact Noticed.setDrive (h.congr (by simp [setPhase])) h2 h3 h7

/-! ### A recovery begins (R173, R174) -/

/-- The recovery opened on a disturbance that takes away no landing. -/
def opened (k : Disturbance) (s : State) : State := openRecovery (activePhase s) (recordDisturbance k k.phase s)

/-- No CANCEL waits for a landing. -/
theorem endWaitingCancel_none (h : ∀ m ∈ liveMotions s, m.cancelPending = false) : endWaitingCancel s = s := by
  unfold endWaitingCancel
  split
  · rename_i r hr
    rw [if_neg (by simp [h r (by simp [liveMotions, hr])])]
  · rename_i m hr hm
    rw [if_neg (by simp [h m (by simp [liveMotions, hm])])]
  · rfl

/-- A disturbance in ON_TRACK or MOVING begins a recovery at the phase it names. -/
theorem takeDisturbance_begins (hdrive : s.supervisor.drive = .onTrack ∨ s.supervisor.drive = .moving)
    (hphase : s.recovery.phase = .none) (hcancel : ∀ m ∈ liveMotions s, m.cancelPending = false) :
    takeDisturbance k s = beginPhase k.phase (opened k (disturbLeg s)) := by
  have hlive : ∀ m ∈ liveMotions (recordDisturbance k k.phase (disturbLeg s)), m.cancelPending = false := by
    rw [liveMotions_congr (show (recordDisturbance k k.phase (disturbLeg s)).arbiter = s.arbiter by simp)]
    exact hcancel
  have hactive : activePhase (recordDisturbance k k.phase (disturbLeg s)) = activePhase (disturbLeg s) := by
    simp [activePhase]
  unfold takeDisturbance
  dsimp only
  rw [if_neg (by simp [recovering, hphase]), if_pos (by simpa using hdrive), beginRecovery, endWaitingCancel_none hlive,
    hactive]
  rfl

/-- What the beginning of a phase that is not exhausted leaves of the opened recovery. -/
structure PhaseBegins (ph : RecoveryPhase) (s t : State) : Prop where
  supervisor : t.supervisor = s.supervisor
  arbiter : t.arbiter = s.arbiter
  planner : t.planner = s.planner
  map : t.map = s.map
  spindle : t.spindle = s.spindle
  recovery : t.recovery = { s.recovery with
    phase := ph, window := t.recovery.window
    refocusCount := s.recovery.refocusCount + (if ph = .refocus then 1 else 0)
    retrackCount := s.recovery.retrackCount + (if ph = .retrack then 1 else 0)
    refixCount := s.recovery.refixCount + (if ph = .refix then 1 else 0)
    respinCount := s.recovery.respinCount + (if ph = .respin then 1 else 0) }
  last : lastGood t = lastGood s
  port : ∀ q, t.port q = s.port q

/-- A phase that begins in an opened recovery makes it a recovery begun. -/
theorem recoveryBegun_opened (h : PhaseBegins k.phase (opened k s) t) : RecoveryBegun k k.phase s t := by
  have hrecovery := h.recovery
  simp only [opened, openRecovery_recovery, recordDisturbance_recovery] at hrecovery
  have hlast : lastGood t = lastGood s := by
    rw [h.last]
    exact lastGood_congr (by simp [opened])
  constructor
  · rw [h.supervisor]
    simp [opened]
  · rw [h.arbiter]
    simp [opened]
  · rw [hrecovery]
  · rw [hrecovery]
    simp
  · rw [hrecovery]
    exact ⟨rfl, rfl⟩
  · rw [hrecovery]
    exact ⟨rfl, lastGood_congr (by simp), rfl⟩
  · rw [hrecovery]
    rw [historyWith, appendHistory]
    by_cases hfull : s.recovery.history.length < 8
    · rw [if_pos hfull, if_neg (show ¬ Config.historyCapacity ≤ _ from Nat.not_le.2 hfull)]
    · rw [if_neg hfull, if_pos (show Config.historyCapacity ≤ _ from Nat.not_lt.1 hfull)]
  · rw [hrecovery]
    rfl
  · rw [hrecovery]
  · exact hlast
  · intro q hq
    have hnotice := openRecovery_noticed (kept := activePhase s) (recordDisturbance_noticed (k := k) (ph := k.phase) hq)
      (by simp [Notice.code]) (by simp [Notice.code]) (by simp [Notice.code])
    have hstill : Laws.Noticed _ q t := hnotice.congr (h.port q)
    rw [hrecovery]
    exact hstill

/-- A recovery begun is one begun from every state that agrees in what it speaks of. -/
theorem recoveryBegun_congr (h : RecoveryBegun k ph v t) (hactive : v.arbiter.active = s.arbiter.active)
    (hrecovery : v.recovery = s.recovery) (hclock : v.clock = s.clock) (hlast : lastGood v = lastGood s)
    (hmask : ∀ q, (v.port q).mask = (s.port q).mask) : RecoveryBegun k ph s t where
  drive := h.drive
  motion := by rw [← hactive]; exact h.motion
  phase := h.phase
  counts := h.counts
  limits := by rw [← hrecovery]; exact h.limits
  kept := by
    rw [← hrecovery, ← hlast, activePhase, ← hactive]
    exact h.kept
  history := by rw [← hrecovery, ← hclock, ← hlast]; exact h.history
  rough := by rw [← hrecovery, ← hclock]; exact h.rough
  exit := by rw [← hrecovery, ← hclock]; exact h.exit
  fix := h.fix.trans hlast
  notice := fun q hq => by
    rw [← hclock, ← hlast]
    exact h.notice q (by rw [hmask q]; exact hq)

/-! ### The phases begin (R174 to R178) -/

theorem beginRefix_starts (hcount : s.recovery.refixCount < s.recovery.retryLimit) :
    beginRefix s = s.setRecovery { s.recovery with
      phase := .refix, refixCount := s.recovery.refixCount + 1, window := none } := by
  simp [beginRefix, enterPhase, Nat.not_le.2 hcount]

theorem beginRefix_phase (hcount : s.recovery.refixCount < s.recovery.retryLimit) :
    PhaseBegins .refix s (beginRefix s) := by
  rw [beginRefix_starts hcount]
  exact ⟨rfl, rfl, rfl, rfl, rfl, rfl, rfl, fun q => State.setRecovery_port ..⟩

/-- RESPIN waits for a spindle that is not LOCKED. -/
theorem beginRespin_starts (hcount : s.recovery.respinCount < s.recovery.retryLimit) (hspin : s.spindle.state ≠ .locked) :
    beginRespin s = s.setRecovery { s.recovery with
      phase := .respin, respinCount := s.recovery.respinCount + 1, window := none } := by
  simp [beginRespin, enterPhase, Nat.not_le.2 hcount, hspin]

theorem beginRespin_phase (hcount : s.recovery.respinCount < s.recovery.retryLimit) (hspin : s.spindle.state ≠ .locked) :
    PhaseBegins .respin s (beginRespin s) := by
  rw [beginRespin_starts hcount hspin]
  exact ⟨rfl, rfl, rfl, rfl, rfl, rfl, rfl, fun q => State.setRecovery_port ..⟩

/-- RETRACK commands the close where tracking is OFF (R176). -/
theorem beginRetrack_closes (hcount : s.recovery.retrackCount < s.recovery.retryLimit)
    (hfocus : s.optics.focus = .locked) (htrack : s.optics.tracking = .off) : beginRetrack s
    = (s.setRecovery { s.recovery with
        phase := .retrack, retrackCount := s.recovery.retrackCount + 1, window := none }).setOptics
        { s.optics with closers := s.optics.closers.erase .recovery ++ [.recovery] } := by
  rw [beginRetrack_begins hcount, retrackClose, closeTracking_begins _ (by simpa using hfocus) (by simpa using htrack)]
  simp

/-- Its window starts at once where tracking is on. -/
theorem beginRetrack_windows (hcount : s.recovery.retrackCount < s.recovery.retryLimit)
    (htrack : s.optics.tracking ≠ .off) : beginRetrack s = s.setRecovery { s.recovery with
      phase := .retrack, retrackCount := s.recovery.retrackCount + 1, window := some s.clock } := by
  rw [beginRetrack_begins hcount, retrackClose]
  simp [closeTracking, htrack, State.setRecovery]

theorem beginRetrack_phase (hcount : s.recovery.retrackCount < s.recovery.retryLimit)
    (h : s.optics.focus = .locked ∨ s.optics.tracking ≠ .off) : PhaseBegins .retrack s (beginRetrack s) := by
  by_cases htrack : s.optics.tracking = .off
  · rw [beginRetrack_closes hcount (h.resolve_right (not_not.2 htrack)) htrack]
    exact ⟨rfl, rfl, rfl, rfl, rfl, rfl, rfl, fun q => by simp⟩
  · rw [beginRetrack_windows hcount htrack]
    exact ⟨rfl, rfl, rfl, rfl, rfl, rfl, rfl, fun q => State.setRecovery_port ..⟩

/-- REFOCUS stops the sled and searches (R175). -/
theorem beginRefocus_searches (hcount : s.recovery.refocusCount < s.recovery.retryLimit)
    (hfocus : s.optics.focus ≠ .locked) (htrack : s.optics.tracking = .off) (hswitch : s.optics.switch = none)
    (hprofile : s.optics.profile ≠ none) : beginRefocus s
    = beginSearch .recovery s.recovery.retryLimit (sledStop (s.setRecovery { s.recovery with
        phase := .refocus, refocusCount := s.recovery.refocusCount + 1, window := none })) := by
  obtain ⟨u, hu⟩ : ∃ u, u = s.setRecovery { s.recovery with
      phase := .refocus, refocusCount := s.recovery.refocusCount + 1, window := none } := ⟨_, rfl⟩
  have hbegins : beginRefocus s = refocusSearch u := by simp [beginRefocus, enterPhase, Nat.not_le.2 hcount, hu]
  have hopen : openTracking u = u := by simp [openTracking, hu, htrack]
  have hsearch : focusSearch .recovery u.recovery.retryLimit (sledStop u)
      = (beginSearch .recovery u.recovery.retryLimit (sledStop u), .begun) := by
    simp [focusSearch, hu, hfocus, hswitch, hprofile]
  have hlimit : u.recovery.retryLimit = s.recovery.retryLimit := by simp [hu]
  rw [hbegins, refocusSearch, hopen, sledStop_recovery]
  dsimp only
  rw [hsearch, ← hu, ← hlimit]

theorem beginRefocus_phase (hcount : s.recovery.refocusCount < s.recovery.retryLimit)
    (hfocus : s.optics.focus ≠ .locked) (htrack : s.optics.tracking = .off) (hswitch : s.optics.switch = none)
    (hprofile : s.optics.profile ≠ none) : PhaseBegins .refocus s (beginRefocus s) ∧
      SearchBegun .recovery s.recovery.retryLimit s (beginRefocus s) ∧ (beginRefocus s).optics.tracking = .off ∧
      (beginRefocus s).sled = s.sled.stop ∧ (beginRefocus s).monitor = s.monitor := by
  obtain ⟨u, hu⟩ : ∃ u, u = sledStop (s.setRecovery { s.recovery with
      phase := .refocus, refocusCount := s.recovery.refocusCount + 1, window := none }) := ⟨_, rfl⟩
  obtain ⟨hmonitor, hsearch⟩ := beginSearch_unlocked (r := .recovery) (n := s.recovery.retryLimit) (s := u)
    (by simpa [hu] using hfocus)
  rw [beginRefocus_searches hcount hfocus htrack hswitch hprofile, ← hu]
  refine ⟨⟨by simp [hu], by simp [hu], by simp [hu], by simp [hu], by simp [hu], by simp [hu], ?_, fun q => by simp [hu]⟩,
    ?_, ?_, by simp [hu, sledStop], by rw [hmonitor]; simp [hu]⟩
  · exact (lastGood_congr hmonitor).trans (lastGood_congr (by simp [hu]))
  · simpa [SearchBegun, hu] using hsearch
  · simp [beginSearch, setFocus, hu, htrack, hfocus]

end Sys2Proof.Proofs
end

section
/-! The disturbances in ON_TRACK and MOVING (R40, R47, R51, R60, R75, R88, R91 to R95, R112, R114, R171 to R179). -/

namespace Sys2Proof.Proofs

set_option Elab.async false

open Sys2Proof.Machine Sys2Proof.Safety Sys2Proof.Laws

variable {s t u v w : State} {k : Disturbance} {now : Time} {y : Nat} {sp : Spindle}

/-! ### A disturbance that is taken (R60, R173) -/

/-- A disturbance begins a recovery here, and nothing else follows it. -/
structure MayBegin (s : State) : Prop where
  drive : s.supervisor.drive = .onTrack ∨ s.supervisor.drive = .moving
  phase : s.recovery.phase = .none
  waiting : s.arbiter.waiting = []
  ident : s.supervisor.ident = none
  cancel : ∀ m ∈ liveMotions s, m.cancelPending = false
  retries : 1 ≤ s.recovery.retryCount

/-- What the event of a disturbance leaves as it is before the disturbance is taken. -/
structure Upsets (s v : State) : Prop where
  supervisor : v.supervisor = s.supervisor
  arbiter : v.arbiter = s.arbiter
  recovery : v.recovery = s.recovery
  clock : v.clock = s.clock
  map : v.map = s.map
  last : lastGood v = lastGood s
  port : ∀ q, v.port q = s.port q

theorem Upsets.refl (s : State) : Upsets s s := ⟨rfl, rfl, rfl, rfl, rfl, rfl, fun _ => rfl⟩

theorem MayBegin.raises (h : MayBegin s) : raises s = true := by
  rcases h.drive with hd | hd <;> simp [Machine.raises, hd]

/-- The recovery that a disturbance opens, once the leg in flight is marked (R60, R173). -/
abbrev openedOn (k : Disturbance) (v : State) : State := opened k (disturbLeg v)

theorem openedOn_optics (k : Disturbance) (v : State) : ∃ b, (openedOn k v).optics = { v.optics with robustGain := b } := by
  obtain ⟨b, hb⟩ := recordDisturbance_optics k k.phase (disturbLeg v)
  exact ⟨b, by simp [openedOn, opened, hb]⟩

theorem openedOn_planner (k : Disturbance) (v : State) :
    (openedOn k v).planner = { (disturbLeg v).planner with acquireStep := .none } := by simp [openedOn, opened]

theorem openedOn_monitor (k : Disturbance) (v : State) : (openedOn k v).monitor = v.monitor := by
  simp [openedOn, opened]

theorem openedOn_sled (k : Disturbance) (v : State) : (openedOn k v).sled = v.sled := by simp [openedOn, opened]

theorem openedOn_clock (k : Disturbance) (v : State) : (openedOn k v).clock = v.clock := by simp [openedOn, opened]

theorem openedOn_kept {P : Spindle → Prop} (hkept : KeptAt v.clock P) (h : P v.spindle) : P (openedOn k v).spindle := by
  unfold openedOn opened
  exact openRecovery_kept (by simpa using hkept) (recordDisturbance_kept (by simpa using hkept) (by simpa using h))

/-- No phase count of an opened recovery has reached the retry limit. -/
theorem openedOn_counts (h : 1 ≤ v.recovery.retryCount) (k : Disturbance) :
    (openedOn k v).recovery.refocusCount < (openedOn k v).recovery.retryLimit ∧
    (openedOn k v).recovery.retrackCount < (openedOn k v).recovery.retryLimit ∧
    (openedOn k v).recovery.refixCount < (openedOn k v).recovery.retryLimit ∧
    (openedOn k v).recovery.respinCount < (openedOn k v).recovery.retryLimit := by
  have hlimit : 0 < v.recovery.retryCount := h
  simp only [openedOn, opened, openRecovery_recovery, recordDisturbance_recovery, disturbLeg_recovery]
  exact ⟨hlimit, hlimit, hlimit, hlimit⟩

/-- The disturbance opens a recovery and begins the phase it names. -/
theorem MayBegin.takes (h : MayBegin s) (hv : Upsets s v) (k : Disturbance) :
    takeDisturbance k v = beginPhase k.phase (openedOn k v) :=
  takeDisturbance_begins (by rw [hv.supervisor]; exact h.drive) (by rw [hv.recovery]; exact h.phase)
    (by rw [liveMotions_congr hv.arbiter]; exact h.cancel)

/-- What the phase begun leaves is a recovery begun, and nothing follows it. -/
theorem MayBegin.begun (h : MayBegin s) (hv : Upsets s v) (ht : PhaseBegins k.phase (openedOn k v) t) :
    RecoveryBegun k k.phase s t ∧ react t = t := by
  refine ⟨recoveryBegun_congr (recoveryBegun_opened ht) (by simp [hv.arbiter]) (by simp [hv.recovery]) (by simp [hv.clock])
    ?_ fun q => by simp [hv.port], react_settled ⟨?_, ?_, ?_⟩⟩
  · exact (lastGood_congr (disturbLeg_monitor v)).trans hv.last
  · rw [ht.arbiter]
    simp [openedOn, opened, hv.arbiter, h.waiting]
  · rw [ht.supervisor]
    simp [openedOn, opened, hv.supervisor, h.ident]
  · rw [ht.planner]
    simp [openedOn, opened]

/-! ### The leg in flight (R47, R51, R60) -/

theorem disturbLeg_planner (v : State) : (disturbLeg v).planner =
    if v.planner.legStage = .idle then v.planner
    else if v.planner.legStage = .settling then { v.planner.legOver with legDisturbed := true }
    else { v.planner with legDisturbed := true } := by
  unfold disturbLeg
  cases h : v.planner.legStage <;> simp

/-- The planner with a leg in flight marked disturbed; a settle lapses. -/
theorem legDisturbed_of (hv : Upsets s v) (hplanner : v.planner = s.planner)
    (ht : PhaseBegins k.phase (openedOn k v) t) : LegDisturbed false s t := by
  have hp : t.planner = { (disturbLeg v).planner with acquireStep := .none } := by rw [ht.planner, openedOn_planner]
  have hattached : t.arbiter.attached = s.arbiter.attached := by
    rw [ht.arbiter]
    simp [openedOn, opened, hv.arbiter]
  have hmap : t.map = s.map := by
    rw [ht.map]
    simp [openedOn, opened, hv.map]
  rw [disturbLeg_planner, hplanner] at hp
  cases hstage : s.planner.legStage <;> simp only [hstage, reduceCtorEq, if_true, if_false] at hp <;>
    exact ⟨by simp [hp, hstage, Planner.legOver], by simp [hp, hstage], by simp [hp],
      by simp [hp, Planner.legOver], by simp [hp, Planner.legOver], hattached, hmap⟩

/-! ### A loss of focus (R88, R93, R175) -/

/-- The planner after a loss of focus: a fine leg in its jump has ended short (R47, R93). -/
def cutShort (p : Planner) : Planner := if p.legStage = .running ∧ p.legKind = .fine then p.legOver else p

/-- A loss of focus opens the loops. -/
theorem loseFocus_eq (s : State) : loseFocus s = (loopsOpen .lost s).setPlanner (cutShort s.planner) := by
  have hplanner : (loopsOpen .lost s).planner = s.planner := by simp
  unfold loseFocus cutShort
  dsimp only
  rw [hplanner]
  split
  · rfl
  · rw [← hplanner]
    rfl

/-- The loops have opened on a loss of focus (R47, R88, R93). -/
theorem loseFocus_upsets (s : State) : Upsets s (loseFocus (disturbLeg s)) := by
  rw [loseFocus_eq]
  refine ⟨by simp, by simp, by simp, by simp, by simp, ?_, fun q => by simp⟩
  rw [lastGood_congr (State.setPlanner_monitor ..), lastGood_loopsOpen]
  exact lastGood_congr (by simp)

/-- A drop that lasts begins a recovery at REFOCUS, with its search (R88, R175). -/
theorem focusDrop_recovers {us : Nat} {l : DiscClass} (h : MayBegin s)
    (hlong : (if s.optics.robustGain then 5000 else 2000) < us) (hfocus : s.optics.focus = .locked)
    (hprofile : s.optics.profile = some l) (hswitch : s.optics.switch = none) :
    ∃ t, exec (.focusDrop us) s = .next t ∧ RecoveryBegun .focusLost .refocus s t ∧ LegDisturbed true s t ∧
      fixFresh t = false ∧ SearchBegun .recovery s.recovery.retryCount s t ∧ t.optics.tracking = .off ∧
      SledStopped s t := by
  obtain ⟨v, hv⟩ : ∃ v, v = loseFocus (disturbLeg s) := ⟨_, rfl⟩
  have hups : Upsets s v := hv ▸ loseFocus_upsets s
  have hoptics : v.optics = { s.optics with
      focus := .lost, tracking := .off, holdAddress := none, openPending := false
      closers := [], storedJump := none, attemptTimer := none, attempt := 0 } := by
    rw [hv, loseFocus_eq]
    simp [loopsOpen_optics]
  obtain ⟨b, hb⟩ := openedOn_optics .focusLost v
  obtain ⟨hphase, hsearch, htrack, hsled, hmonitor⟩ := beginRefocus_phase (s := openedOn .focusLost v)
    (openedOn_counts (by rw [hups.recovery]; exact h.retries) _).1 (by simp [hb, hoptics]) (by simp [hb, hoptics])
    (by simp [hb, hoptics, hswitch]) (by simp [hb, hoptics, hprofile])
  obtain ⟨t, ht⟩ : ∃ t, t = beginRefocus (openedOn .focusLost v) := ⟨_, rfl⟩
  rw [← ht] at hphase hsearch htrack hsled hmonitor
  obtain ⟨hbegun, hreact⟩ := h.begun (k := .focusLost) hups hphase
  have hexec : exec (.focusDrop us) s = .next t := by
    have hlost : focusLost s = t := by
      rw [focusLost, if_pos h.raises, ← hv, h.takes hups, ht]
      rfl
    have hlow : s.optics.focus = .locked ∧ dropTimeUs s.optics.robustGain < us := ⟨hfocus, hlong⟩
    change execFocusDrop us s = _
    rw [execFocusDrop, if_pos hlow, hlost, hreact]
  have hlimit : (openedOn .focusLost v).recovery.retryLimit = s.recovery.retryCount := by
    simp [openedOn, opened, recordDisturbance_recovery, hups.recovery]
  refine ⟨t, hexec, hbegun, ?leg, ?fresh, ?search, htrack, ?sled⟩
  case leg =>
    have hp : t.planner = { (disturbLeg v).planner with acquireStep := .none } := by rw [hphase.planner, openedOn_planner]
    have hvplanner : v.planner = cutShort (disturbLeg s).planner := by rw [hv, loseFocus_eq, State.setPlanner_planner]
    have hattached : t.arbiter.attached = s.arbiter.attached := by
      rw [hphase.arbiter]
      simp [openedOn, opened, hups.arbiter]
    have hmap : t.map = s.map := by
      rw [hphase.map]
      simp [openedOn, opened, hups.map]
    rw [disturbLeg_planner, hvplanner, disturbLeg_planner] at hp
    cases hstage : s.planner.legStage with
    | idle =>
      simp only [hstage, if_true, cutShort, reduceCtorEq, false_and, if_false] at hp
      exact ⟨by simp [hp, hstage], .inr hstage, by simp [hp], by simp [hp], by simp [hp], hattached, hmap⟩
    | settling =>
      simp only [hstage, if_true, cutShort, reduceCtorEq, false_and, if_false, Planner.legOver] at hp
      exact ⟨by simp [hp, hstage], .inl (by simp [hp]), by simp [hp], by simp [hp], by simp [hp], hattached, hmap⟩
    | landing =>
      simp only [hstage, cutShort, reduceCtorEq, false_and, if_false] at hp
      exact ⟨by simp [hp, hstage], .inl (by simp [hp]), by simp [hp], by simp [hp], by simp [hp], hattached, hmap⟩
    | running =>
      by_cases hkind : s.planner.legKind = .fine
      · simp only [hstage, cutShort, hkind, reduceCtorEq, true_and, if_true, if_false, Planner.legOver] at hp
        exact ⟨by simp [hp, hstage, hkind], .inl (by simp [hp]), by simp [hp], by simp [hp], by simp [hp], hattached, hmap⟩
      · simp only [hstage, cutShort, hkind, reduceCtorEq, and_false, if_false] at hp
        exact ⟨by simp [hp, hstage, hkind], .inl (by simp [hp]), by simp [hp], by simp [hp], by simp [hp], hattached, hmap⟩
  case fresh =>
    rw [fixFresh_congr hmonitor, fixFresh_congr (openedOn_monitor ..), hv, loseFocus_eq,
      fixFresh_congr (State.setPlanner_monitor ..), loopsOpen, fixFresh_trackingOff]
  case search =>
    rw [hlimit] at hsearch
    have hclock : (openedOn .focusLost v).clock = s.clock := (openedOn_clock ..).trans hups.clock
    simpa [SearchBegun, hclock] using hsearch
  case sled =>
    have hfollows : t.sled = (s.sled.follows .off).stop := by
      rw [hsled, openedOn_sled, hv, loseFocus_eq, State.setPlanner_sled, loopsOpen_sled]
      simp
    rw [SledStopped, hfollows]
    refine ⟨fun hidle => ?_, fun hcreep => ?_, fun hleg => ?_, fun hhoming hpaused => ?_, fun hhoming hpaused => ?_⟩
    · simp [Sled.follows, Sled.stop, hidle]
    · simp [Sled.follows, Sled.stop, hcreep]
    · simp [Sled.follows, Sled.stop, hleg]
    · simp [Sled.follows, Sled.stop, hhoming, hpaused]
    · simp [Sled.follows, Sled.stop, hhoming, hpaused]

/-! ### The other disturbances (R91, R112, R114, R75, R176 to R178) -/

/-- An excursion that lasts begins a recovery at RETRACK, with its close (R91, R176). -/
theorem offTrack_recovers {us : Nat} (h : MayBegin s) (hlong : (if s.optics.robustGain then 3000 else 1000) < us)
    (hfocus : s.optics.focus = .locked) (htrack : OnATrack s) :
    ∃ t, exec (.offTrack us) s = .next t ∧ RecoveryBegun .trackSlip .retrack s t ∧ LegDisturbed false s t ∧
      fixFresh t = false ∧ t.optics.focus = .locked ∧ t.optics.tracking = .off ∧ t.optics.holdAddress = none ∧
      Requester.recovery ∈ t.optics.closers := by
  obtain ⟨v, hv⟩ : ∃ v, v = trackingOff s := ⟨_, rfl⟩
  have hups : Upsets s v := by
    rw [hv]
    exact ⟨by simp, by simp, by simp, by simp, by simp, lastGood_trackingOff s, fun q => by simp⟩
  have hoptics : v.optics = { s.optics with tracking := .off, holdAddress := none, openPending := false } :=
    hv ▸ trackingOff_optics s
  obtain ⟨b, hb⟩ := openedOn_optics .trackSlip v
  have hcount := (openedOn_counts (v := v) (by rw [hups.recovery]; exact h.retries) .trackSlip).2.1
  have hlocked : (openedOn .trackSlip v).optics.focus = .locked := by simp [hb, hoptics, hfocus]
  have hcloses := beginRetrack_closes hcount hlocked (by simp [hb, hoptics])
  have hphase := beginRetrack_phase hcount (.inl hlocked)
  obtain ⟨t, ht⟩ : ∃ t, t = beginRetrack (openedOn .trackSlip v) := ⟨_, rfl⟩
  rw [← ht] at hcloses hphase
  obtain ⟨hbegun, hreact⟩ := h.begun (k := .trackSlip) hups hphase
  have hexec : exec (.offTrack us) s = .next t := by
    have htakes : takeDisturbance .trackSlip (trackingOff s) = t := by
      rw [← hv, h.takes hups, ht]
      rfl
    have hslips : (s.optics.tracking = .closed ∨ s.optics.tracking = .hold) ∧ offTrackTimeUs s.optics.robustGain < us ∧
        raises s := ⟨htrack, hlong, h.raises⟩
    change execOffTrack us s = _
    rw [execOffTrack, if_pos hslips, htakes, hreact]
  have hmonitor : t.monitor = v.monitor := by
    rw [hcloses]
    simp [openedOn_monitor]
  refine ⟨t, hexec, hbegun, legDisturbed_of (k := .trackSlip) hups (by rw [hv]; simp) hphase, ?_, ?_⟩
  · rw [fixFresh_congr hmonitor, hv, fixFresh_trackingOff]
  · rw [hcloses, State.setOptics_optics, hb, hoptics]
    exact ⟨hfocus, rfl, rfl, by simp⟩

/-- An address monitor whose timer runs out begins a recovery at REFIX (R114, R177). -/
theorem starved_recovers (h : MayBegin s) (hrun : monitorRunning s = true) :
    let u := passTime (s.monitor.limit - s.monitor.elapsed) s
    ∃ t, exec .addressMonitorTimerExpiry s = .next t ∧ RecoveryBegun .addressStarved .refix u t ∧
      LegDisturbed false s t ∧ t.optics.focus = s.optics.focus ∧ t.optics.tracking = s.optics.tracking ∧
      t.monitor = { s.monitor with started := true, elapsed := 0, limit := s.recovery.amTime } := by
  intro u
  have husupervisor : u.supervisor = s.supervisor := passTime_supervisor_same h.ident
  have hu : MayBegin u := ⟨by rw [husupervisor]; exact h.drive, h.phase, h.waiting, by rw [husupervisor]; exact h.ident,
    h.cancel, h.retries⟩
  have hups : Upsets u u := Upsets.refl u
  have hcount := (openedOn_counts (v := u) hu.retries .addressStarved).2.2.1
  have hstarts := beginRefix_starts hcount
  have hphase := beginRefix_phase hcount
  obtain ⟨b, hb⟩ := openedOn_optics .addressStarved u
  obtain ⟨t, ht⟩ : ∃ t, t = restartMonitor (beginRefix (openedOn .addressStarved u)) := ⟨_, rfl⟩
  have hphaset : PhaseBegins .refix (openedOn .addressStarved u) t := by
    rw [ht]
    exact ⟨hphase.supervisor, hphase.arbiter, hphase.planner, hphase.map, hphase.spindle, hphase.recovery,
      hphase.last, fun q => by rw [restartMonitor_port, hphase.port]⟩
  obtain ⟨hbegun, hreact⟩ := hu.begun (k := .addressStarved) hups hphaset
  have hexec : exec .addressMonitorTimerExpiry s = .next t := by
    have htakes : takeDisturbance .addressStarved u = beginRefix (openedOn .addressStarved u) := hu.takes hups _
    change execAddressMonitorTimerExpiry s = _
    rw [execAddressMonitorTimerExpiry, if_pos hrun]
    change Host.Outcome.next (react (restartMonitor (if raises u then takeDisturbance .addressStarved u else u))) = _
    rw [if_pos hu.raises, htakes, ← ht, hreact]
  obtain ⟨hstage, hmark, hstep, hkept, hsession, hattached, hmap⟩ :=
    legDisturbed_of (k := .addressStarved) hups rfl hphaset
  refine ⟨t, hexec, hbegun, ⟨hstage, hmark, hstep, hkept, hsession, hattached, hmap⟩, ?_, ?_, ?_⟩
  · rw [ht, restartMonitor_optics, hstarts, State.setRecovery_optics, hb]
    rfl
  · rw [ht, restartMonitor_optics, hstarts, State.setRecovery_optics, hb]
    rfl
  · have hmonitor : (beginRefix (openedOn .addressStarved u)).monitor = u.monitor := by
      rw [hstarts, State.setRecovery_monitor, openedOn_monitor]
    have htime : (beginRefix (openedOn .addressStarved u)).recovery.amTime = s.recovery.amTime := by
      rw [hstarts]
      simp [openedOn, opened, recordDisturbance_recovery, u]
    rw [ht, restartMonitor, State.setMonitor_monitor, hmonitor, htime]
    rfl

/-- The spindle that has slipped: measured so, no more LOCKED, its lock limit armed at that time (R74, R75). -/
def Slipped (now : Time) (y : Nat) (sp : Spindle) : Prop :=
  sp.measured = y ∧ sp.state ≠ .locked ∧ sp.lockLimit = some now

theorem slipped_kept (now : Time) (y : Nat) : KeptAt now (Slipped now y) := by
  refine ⟨fun _ _ _ h => h, fun sp x b _ h => ?_⟩
  obtain ⟨hmeasured, hstate, hlimit⟩ := h
  by_cases hsame : x = sp.target
  · rw [Spindle.setTarget, if_pos hsame]
    exact ⟨hmeasured, hstate, hlimit⟩
  · by_cases hcoast : sp.state = .coast
    · rw [setTarget_coasting hsame hcoast]
      exact ⟨hmeasured, hstate, hlimit⟩
    · rw [setTarget_driven hsame hcoast]
      refine ⟨hmeasured, ?_, rfl⟩
      dsimp only
      split <;> decide

/-- A reading outside 10 % slips a LOCKED spindle. -/
theorem read_slips {rpm : Nat} (hlocked : s.spindle.state = .locked) (hout : ¬ Within 10 (min rpm 9999) s.spindle.target) :
    s.spindle.slips rpm = true ∧ Slipped s.clock (min rpm 9999) (s.spindle.read s.clock rpm) := by
  have hten : within10 (min rpm 9999) s.spindle.target = false :=
    Bool.eq_false_iff.2 fun h => hout ((within10_iff _ _).1 h)
  have htwo : within2 (min rpm 9999) s.spindle.target = false :=
    Bool.eq_false_iff.2 fun h => hout (within10_of_within2 ((within2_iff _ _).1 h))
  exact ⟨by simp [Spindle.slips, hlocked, hten], by simp [Spindle.read, hlocked, hten, htwo, Slipped]⟩

/-- A slip of the spindle begins a recovery at RESPIN (R75, R178). -/
theorem spindleSlip_recovers {rpm : Nat} (h : MayBegin s) (hlocked : s.spindle.state = .locked)
    (hout : ¬ Within 10 (min rpm 9999) s.spindle.target) :
    ∃ t, exec (.tachometerReading rpm) s = .next t ∧ RecoveryBegun .spindleSlip .respin s t ∧
      LegDisturbed false s t ∧ t.optics.focus = s.optics.focus ∧ t.optics.tracking = s.optics.tracking ∧
      t.spindle.measured = min rpm 9999 ∧ t.spindle.state ≠ .locked ∧ t.spindle.lockLimit = some s.clock := by
  obtain ⟨hslips, hslipped⟩ := read_slips hlocked hout
  obtain ⟨v, hv⟩ : ∃ v, v = s.setSpindle (s.spindle.read s.clock rpm) := ⟨_, rfl⟩
  have hups : Upsets s v := by
    rw [hv]
    exact ⟨rfl, rfl, rfl, rfl, rfl, rfl, fun q => State.setSpindle_port ..⟩
  have hopened : Slipped s.clock (min rpm 9999) (openedOn .spindleSlip v).spindle :=
    openedOn_kept (hups.clock ▸ slipped_kept s.clock _) (by rw [hv]; exact hslipped)
  obtain ⟨hmeasured, hstate, hlimit⟩ := hopened
  have hcount := (openedOn_counts (v := v) (by rw [hups.recovery]; exact h.retries) .spindleSlip).2.2.2
  have hstarts := beginRespin_starts hcount hstate
  have hphase := beginRespin_phase hcount hstate
  obtain ⟨b, hb⟩ := openedOn_optics .spindleSlip v
  obtain ⟨t, ht⟩ : ∃ t, t = beginRespin (openedOn .spindleSlip v) := ⟨_, rfl⟩
  rw [← ht] at hstarts hphase
  obtain ⟨hbegun, hreact⟩ := h.begun (k := .spindleSlip) hups hphase
  have hraises : raises v = true := by
    have hsame : raises v = raises s := by rw [Machine.raises, hups.supervisor, Machine.raises]
    rw [hsame, h.raises]
  have hexec : exec (.tachometerReading rpm) s = .next t := by
    have htakes : takeDisturbance .spindleSlip v = t := (h.takes hups _).trans ht.symm
    change Host.Outcome.next (react (readingReports s.spindle rpm (s.setSpindle (s.spindle.read s.clock rpm)))) = _
    rw [← hv, readingReports, if_pos hslips, if_pos hraises, htakes, hreact]
  have hvoptics : v.optics = s.optics := by rw [hv, State.setSpindle_optics]
  refine ⟨t, hexec, hbegun, legDisturbed_of (k := .spindleSlip) hups (by rw [hv, State.setSpindle_planner]) hphase,
    ?_, ?_, by rw [hphase.spindle, hmeasured], by rw [hphase.spindle]; exact hstate, by rw [hphase.spindle, hlimit]⟩
  · rw [hstarts, State.setRecovery_optics, hb, ← hvoptics]
  · rw [hstarts, State.setRecovery_optics, hb, ← hvoptics]

theorem recoveryBegun_answer {ph : RecoveryPhase} {p : Port} {tag : Byte} {st : Status} {data : List Byte}
    (h : RecoveryBegun k ph s t) : RecoveryBegun k ph s (t.answer p tag st data) := by
  obtain ⟨hdrive, hmotion, hphase, hcounts, hlimits, hkept, hhistory, hrough, hexit, hfix, hnotice⟩ := h
  constructor
  · rw [answer_supervisor, hdrive]
  · rw [answer_arbiter, hmotion]
  · rw [answer_recovery, hphase]
  · rw [answer_recovery]
    exact hcounts
  · rw [answer_recovery]
    exact hlimits
  · rw [answer_recovery]
    exact hkept
  · rw [answer_recovery, hhistory]
  · rw [answer_recovery, hrough]
  · rw [answer_recovery, hexit]
  · rw [lastGood_congr (answer_monitor ..), hfix]
  · intro q hq
    rw [answer_recovery, answer_queue]
    exact hnotice q hq

/-- An address off the expected course begins a recovery at RETRACK, its window started (R112, R176). -/
theorem addressJump_recovers {p : Port} {tag : Byte} {address : Addr} {l : DiscClass} {c b : Nat} (h : MayBegin s)
    (hdrive : s.supervisor.drive = .onTrack) (hidle : s.planner.legStage = .idle) (htakes : Takes 0x20 p s)
    (hl : s.supervisor.cls = some l) (hmax : address.toNat ≤ l.maxAddress) (hp : s.map.predict address.toNat = some c)
    (hfocus : s.optics.focus = .locked) (htrack : OnATrack s) (hfresh : fixFresh s = true)
    (hbase : s.monitor.expectedBase = some b) (hoff : 2 < ((c : Int) - ((b : Int) + s.monitor.jumpSum)).natAbs)
    (hphase : activePhase s ≠ some .suspended) :
    ∃ t, exec (.addressReport p tag address 0) s = .next t ∧ RecoveryBegun .addressJump .retrack s t ∧
      (t.port p).reply = some ⟨.accepted, tag, [2]⟩ ∧ fixFresh t = false ∧
      t.optics.tracking = s.optics.tracking ∧ t.recovery.window = some s.clock := by
  obtain ⟨v, hv⟩ : ∃ v, v = staleFix s := ⟨_, rfl⟩
  have hups : Upsets s v := by
    rw [hv]
    exact ⟨by simp, by simp, by simp, by simp, by simp, lastGood_staleFix s, fun q => by simp⟩
  have hvoptics : v.optics = s.optics := by simp [hv]
  have hoff' : v.optics.tracking ≠ .off := by
    rw [hvoptics]
    rcases htrack with ht | ht <;> simp [ht]
  obtain ⟨g, hg⟩ := openedOn_optics .addressJump v
  have hcount := (openedOn_counts (v := v) (by rw [hups.recovery]; exact h.retries) .addressJump).2.1
  have hon : (openedOn .addressJump v).optics.tracking ≠ .off := by rw [hg]; exact hoff'
  have hwindow := beginRetrack_windows hcount hon
  have hbegins := beginRetrack_phase hcount (.inr hon)
  obtain ⟨t, ht⟩ : ∃ t, t = beginRetrack (openedOn .addressJump v) := ⟨_, rfl⟩
  rw [← ht] at hwindow hbegins
  obtain ⟨hbegun, hreact⟩ := h.begun (k := .addressJump) hups hbegins
  have hjumps : jumps address.toNat s = true := by
    simp [jumps, hdrive, hfresh, hp, offCourse, hbase, hoff]
  have hjudge : judge address.toNat true s = (t, .jump) := by
    have haside : setsReportAside s = false := by
      rcases htrack with ht' | ht' <;> simp [setsReportAside, hfocus, ht', hidle, hphase, hdrive]
    have htaken : takeDisturbance .addressJump (staleFix s) = t := by
      rw [← hv]
      exact (h.takes hups _).trans ht.symm
    simp [judge, reportClass, hdrive, hl, Nat.not_lt.2 hmax, haside, hjumps, htaken]
  have hexec : exec (.addressReport p tag address 0) s = .next (t.answer p tag .accepted [2]) := by
    refine exec_takes (k := .addressReport) rfl rfl htakes ?_
    change reportAddress address 0 s = _
    simp only [reportAddress, goodFlag?, if_true, hjudge, hreact]
    rfl
  have hmonitor : t.monitor = v.monitor := by rw [hwindow, State.setRecovery_monitor, openedOn_monitor]
  refine ⟨_, hexec, recoveryBegun_answer hbegun, answer_reply .., ?_, ?_, ?_⟩
  · rw [fixFresh_congr (answer_monitor ..), fixFresh_congr hmonitor, hv, fixFresh_staleFix]
  · rw [answer_optics, hwindow, State.setRecovery_optics, hg, hvoptics]
  · rw [answer_recovery, hwindow, State.setRecovery_recovery, openedOn_clock, hups.clock]

/-- Settles O50: in ON_TRACK and in MOVING the same recovery begins; the shorter drops and excursions are no event. -/
theorem disturbancesBeginRecovery : Obligations.DisturbancesBeginRecovery := by
  intro s
  refine ⟨fun us hshort => ?drop, fun us hshort => ?excursion, fun hrest hattached hcancel hretries => ?onTrack,
    fun hdrive hphase hwaiting hident hcancel hretries => ?moving⟩
  case drop =>
    have hnot : ¬ (s.optics.focus = .locked ∧ dropTimeUs s.optics.robustGain < us) := fun ⟨hlocked, hlong⟩ =>
      hshort.elim (fun h => h hlocked) fun h => absurd hlong (Nat.not_lt.2 h)
    change execFocusDrop us s = _
    rw [execFocusDrop, if_neg hnot]
  case excursion =>
    have hnot : ¬ ((s.optics.tracking = .closed ∨ s.optics.tracking = .hold) ∧
        offTrackTimeUs s.optics.robustGain < us ∧ raises s) := fun ⟨_, hlong, _⟩ => absurd hlong (Nat.not_lt.2 hshort)
    change execOffTrack us s = _
    rw [execOffTrack, if_neg hnot]
  case onTrack =>
    obtain ⟨hdrive, hidle, hphase, hwaiting, hident, -⟩ := hrest
    have hlive : ∀ m ∈ liveMotions s, m.cancelPending = false := by
      intro m hm
      refine hcancel m ?_
      simpa [liveMotions, hattached, hwaiting] using hm
    have hmay : MayBegin s := ⟨.inl hdrive, hphase, hwaiting, hident, hlive, hretries⟩
    refine ⟨fun us l hlong hfocus hprofile hswitch => ?_, fun us hlong hfocus htrack => ?_,
      fun hstarted hfocus htrack hspin => ?_, fun rpm hlocked hout => ?_,
      fun p tag address l c b htakes hl hmax hp hfocus htrack hfresh hbase hoff hsus =>
        addressJump_recovers hmay hdrive hidle htakes hl hmax hp hfocus htrack hfresh hbase hoff hsus⟩
    · obtain ⟨t, hexec, hbegun, -, hfresh, ⟨hsearch, hrequester, hallowed, hattempt, htimer⟩, htrack, -⟩ :=
        focusDrop_recovers hmay hlong hfocus hprofile hswitch
      exact ⟨t, hexec, hbegun, hfresh, hsearch, htrack, hallowed, hattempt, htimer, hrequester⟩
    · obtain ⟨t, hexec, hbegun, -, hrest⟩ := offTrack_recovers hmay hlong hfocus htrack
      exact ⟨t, hexec, hbegun, hrest⟩
    · have hrun : monitorRunning s = true := by
        rcases htrack with ht | ht <;> rcases hspin with hs | hs <;>
          simp [monitorRunning, hstarted, hfocus, ht, hs, SpindleState.ready]
      obtain ⟨t, hexec, hbegun, -, hlocked, htracks, hmonitor⟩ := starved_recovers hmay hrun
      exact ⟨t, hexec, hbegun, by rw [hlocked, hfocus], htracks, by rw [hmonitor, ← hstarted]⟩
    · obtain ⟨t, hexec, hbegun, -, hrest⟩ := spindleSlip_recovers hmay hlocked hout
      exact ⟨t, hexec, hbegun, hrest⟩
  case moving =>
    have hmay : MayBegin s := ⟨.inr hdrive, hphase, hwaiting, hident, hcancel, hretries⟩
    refine ⟨fun us l hlong hfocus hprofile hswitch => focusDrop_recovers hmay hlong hfocus hprofile hswitch,
      fun us hlong hfocus htrack => offTrack_recovers hmay hlong hfocus htrack, fun hrun => ?_,
      fun rpm hlocked hout => spindleSlip_recovers hmay hlocked hout⟩
    obtain ⟨t, hexec, hbegun, hleg, hfocus, htrack, -⟩ := starved_recovers hmay hrun
    exact ⟨t, hexec, hbegun, hleg, hfocus, htrack⟩

end Sys2Proof.Proofs
end

section
/-! CANCEL and the landings and slips that follow it (R58, R138 to R142). -/

namespace Sys2Proof.Proofs

set_option Elab.async false

open Sys2Proof.Machine Sys2Proof.Safety Sys2Proof.Laws

variable {s t u v w : State} {k : DiscClass} {p : Port} {tag which : Byte} {m r : Motion} {a c z : Nat}

@[simp] theorem disown_planner (s : State) :
    (disown s).planner = { s.planner with owner := .none, acquireStep := .none, returning := false } := rfl

/-! ### CANCEL of the active motion (R140, R142) -/

/-- With a leg in flight the motion waits for its landing. -/
theorem cancelActive_inFlight (hwaiting : s.arbiter.waiting = []) (hident : s.supervisor.ident = none)
    (hattached : s.arbiter.attached = none) (hph : m.phase = some .leg ∨ m.phase = some .settle ∨ m.phase = some .verify)
    (hstage : s.planner.legStage ≠ .idle) (hclean : s.planner.legDisturbed = false) (t : State)
    (ht : t = (react (cancelActive m s)).answer p tag .accepted []) :
    t.arbiter = { s.arbiter with active := some { m with cancelPending := true } } ∧ t.planner.owner = .none ∧
      t.planner.legStage = s.planner.legStage ∧ ReportsStay s t ∧ t.supervisor = s.supervisor ∧
      (s.planner.legStage = .running → s.planner.legKind = .sled → s.sled.state = .leg →
        t.sled = { s.sled with stopPending := true }) := by
  rw [cancelActive_waits hattached (waits_inFlight hph hstage hclean),
    react_cancelled (by simpa using hwaiting) (by simpa using hident) (by simp)] at ht
  rw [ht]
  refine ⟨by simp, by simp, by simp [withdraw, disown], reportsStay_answer fun q => ?_, by simp,
    fun hrun hkind hleg => ?_⟩
  · have hreports : reportsOf q (setActive (some { m with cancelPending := true }) (withdraw s)) = reportsOf q s := by simp
    exact hreports
  · rw [answer_sled, setActive_sled, withdraw_sled, if_pos ⟨hrun, hkind⟩]
    simp [Sled.stop, hleg]

/-- In ACQUIRE the mechanism is stopped. -/
theorem cancelActive_acquire (hwaiting : s.arbiter.waiting = []) (hident : s.supervisor.ident = none)
    (hattached : s.arbiter.attached = none) (hph : m.phase = some .acquire) (hdriven : Driven s.spindle)
    (hturns : 30 ≤ s.spindle.measured) (t : State) (ht : t = (react (cancelActive m s)).answer p tag .accepted []) :
    NoMotion t ∧ OneMoreReport m.port ⟨m.tag, m.kind, .cancelled, lastGood s, m.legs, m.bad⟩ s t ∧
      t.planner.owner = .none ∧ t.supervisor.drive = .parking ∧ Braked s t ∧ t.optics.focus = .off := by
  obtain ⟨u, hu⟩ : ∃ u, u = cancelled m s := ⟨_, rfl⟩
  have husp : u.spindle = s.spindle := by simp [hu, cancelled]
  have hclock : u.clock = s.clock := by simp [hu, cancelled]
  have hparks := stopMechanics_parks (s := u) (by rw [husp]; exact hdriven) (by rw [husp]; exact hturns)
  have hnone : NoMotion (stopMechanics u) := noMotion_iff.2 (by
    rw [hparks.arbiter]
    simp [hu, cancelled, setPhase, hattached, hwaiting])
  rw [cancelActive_ends hattached (by rw [hph]; exact waits_none rfl), hph, ← hu] at ht
  change t = (react (stopMechanics u)).answer p tag .accepted [] at ht
  rw [react_cancelled (noMotion_iff.1 hnone).2.2 (by rw [hparks.drive]; simpa [hu, cancelled] using hident)
    hparks.planner.2] at ht
  rw [ht]
  refine ⟨(liveMotions_congr (answer_arbiter ..)).trans hnone, oneMoreReport_answer fun q => ?_,
    by rw [answer_planner, hparks.planner.1], by rw [answer_supervisor, hparks.drive], ?_,
    by rw [answer_optics, hparks.loops.1]⟩
  · exact (hparks.reports q).trans (hu ▸ cancelled_reports m s q)
  · have hbraked := hparks.spindle
    rw [Braked, hclock] at hbraked
    rw [Braked, answer_spindle]
    exact hbraked

/-- In RECOVERING and SUSPENDED the recovery or the sag goes on with no motion. -/
theorem cancelActive_aside (hwaiting : s.arbiter.waiting = []) (hident : s.supervisor.ident = none)
    (hattached : s.arbiter.attached = none) (hph : m.phase = some .recovering ∨ m.phase = some .suspended) (t : State)
    (ht : t = (react (cancelActive m s)).answer p tag .accepted []) :
    NoMotion t ∧ OneMoreReport m.port ⟨m.tag, m.kind, .cancelled, lastGood s, m.legs, m.bad⟩ s t ∧
      t.planner.owner = .none ∧ t.supervisor.drive = s.supervisor.drive ∧
      t.recovery.phase = s.recovery.phase ∧
      (m.phase = some .recovering → t.recovery.keptPhase = none ∧ t.recovery.holdCopy = none) ∧
      (m.phase = some .suspended → t.supervisor.suspendedPhase = none) := by
  have hends := cancelActive_ends hattached (m := m) (by rcases hph with h | h <;> rw [h] <;> exact waits_none rfl)
  have hreports := cancelled_reports m s
  rcases hph with h | h
  · rw [hends, h] at ht
    change t = (react ((cancelled m s).setRecovery
      { (cancelled m s).recovery with keptPhase := none, holdCopy := none })).answer p tag .accepted [] at ht
    rw [react_cancelled (by simpa [cancelled] using hwaiting) (by simpa [cancelled] using hident) (by simp [cancelled])] at ht
    rw [ht]
    refine ⟨noMotion_iff.2 (by simp [cancelled, hattached, hwaiting]), oneMoreReport_answer fun q => ?_, by simp [cancelled],
      by simp [cancelled], by simp [cancelled], fun _ => by simp, fun hother => by simp [h] at hother⟩
    rw [State.setRecovery_port]
    exact hreports q
  · rw [hends, h] at ht
    change t = (react ((cancelled m s).setSupervisor
      { (cancelled m s).supervisor with suspendedPhase := none })).answer p tag .accepted [] at ht
    rw [react_cancelled (by simpa [cancelled] using hwaiting) (by simpa [cancelled] using hident) (by simp [cancelled])] at ht
    rw [ht]
    refine ⟨noMotion_iff.2 (by simp [cancelled, hattached, hwaiting]), oneMoreReport_answer fun q => ?_, by simp [cancelled],
      by simp [cancelled], by simp [cancelled], fun hother => by simp [h] at hother, fun _ => by simp⟩
    rw [State.setSupervisor_port]
    exact hreports q

theorem takenInRecovery_answer {st : Status} {data : List Byte} (h : TakenInRecovery s t) :
    TakenInRecovery s (t.answer p tag st data) := fun hdrive => by
  obtain ⟨hsupervisor, hnotice⟩ := h hdrive
  refine ⟨by rw [answer_supervisor, hsupervisor], fun hrecovering => ?_⟩
  rw [DriveNoticed, answer_supervisor]
  exact noticed_answer (hnotice hrecovering)

/-- CANCEL of a FOLLOW that carries a REJOIN leaves the REJOIN in its place. -/
theorem cancelActive_leavesRejoin (hwaiting : s.arbiter.waiting = []) (hident : s.supervisor.ident = none)
    (hr : s.arbiter.attached = some r) (hstep : s.planner.acquireStep ≠ .spin) (howner : s.planner.owner = .attached)
    (t : State) (ht : t = (react (cancelActive m s)).answer p tag .accepted []) :
    t.arbiter.active = some { r with status := .active, phase := some (m.phase.getD .acquire) } ∧
      t.arbiter.attached = none ∧ t.planner = { s.planner with owner := .active } ∧ TakenInRecovery s t ∧
      (s.supervisor.drive = .sagHold → t.supervisor = s.supervisor) ∧
      OneMoreReport m.port ⟨m.tag, m.kind, .cancelled, lastGood s, m.legs, m.bad⟩ s t := by
  obtain ⟨hactive, hattached, hleft, hplanner, htaken, hsupervisor, hreport⟩ := cancelActive_carried (m := m) hr howner
  have hidentleft : (cancelActive m s).supervisor.ident = none := by
    rw [hsupervisor, reportDrive_supervisor]
    split <;> simpa using hident
  rw [react_settled ⟨by rw [hleft, hwaiting], hidentleft, by rw [hplanner]; exact hstep⟩] at ht
  rw [ht]
  refine ⟨by rw [answer_arbiter, hactive]; rfl, by rw [answer_arbiter, hattached], by rw [answer_planner, hplanner],
    takenInRecovery_answer htaken, fun hsag => ?_, oneMoreReport_answer hreport⟩
  rw [answer_supervisor, hsupervisor]
  simp [reportDrive, hsag, DriveState.setsAside]

/-! ### CANCEL of the attached REJOIN (R138, R140) -/

/-- The reaction to the CANCEL of an attached REJOIN is none: it leaves no owner, and no step of ACQUIRE. -/
theorem cancelAttached_leaves (hr : s.arbiter.attached = some r) : (cancelAttached r s).planner.owner = .none ∧
    PlanLeaves (withdraw s) (cancelAttached r s) := by
  have hdetached (v : State) : PlanLeaves v (detached r v) :=
    (planLeaves_setAttached none v).trans (planLeaves_endMotion r .cancelled (lastGood v) _)
  by_cases hrec : activePhase s = some .recovering
  · rw [cancelAttached_recovering hrec]
    refine ⟨by simp [markRejoin, detached], ((hdetached _).trans ?_).trans (planLeaves_markRejoin true _)⟩
    exact ⟨rfl, rfl, rfl, rfl, rfl, .inl rfl⟩
  by_cases hsus : activePhase s = some .suspended
  · rw [cancelAttached_suspended hsus]
    refine ⟨by simp [markRejoin, detached], ((hdetached _).trans ?_).trans (planLeaves_markRejoin true _)⟩
    exact ⟨rfl, rfl, rfl, rfl, rfl, .inl rfl⟩
  cases hwaits : waits (activePhase s) s with
  | true =>
    rw [cancelAttached_waits hwaits]
    exact ⟨by simp, planLeaves_setAttached _ _⟩
  | false =>
    rw [cancelAttached_follows hr hwaits hrec hsus]
    exact ⟨endAttached_owner (withdraw_owner s), planLeaves_endAttached .cancelled _⟩

theorem react_cancelAttached (hwaiting : s.arbiter.waiting = []) (hident : s.supervisor.ident = none)
    (hr : s.arbiter.attached = some r) : react (cancelAttached r s) = cancelAttached r s := by
  obtain ⟨-, hleaves⟩ := cancelAttached_leaves hr
  exact react_cancelled (by rw [hleaves.waiting]; simpa using hwaiting) (by rw [hleaves.ident]; simpa using hident)
    (hleaves.step.elim (fun h => by rw [h]; simp) id)

/-- In a recovery or a sag the FOLLOW is to follow again after it (entry 18). -/
theorem cancelAttached_aside (hm : s.arbiter.active = some m)
    (hph : m.phase = some .recovering ∨ m.phase = some .suspended) (t : State)
    (ht : t = (cancelAttached r s).answer p tag .accepted []) :
    t.arbiter.active = some { m with rejoinEnded := true } ∧ t.arbiter.attached = none ∧
      t.supervisor.drive = s.supervisor.drive ∧
      OneMoreReport r.port ⟨r.tag, r.kind, .cancelled, lastGood s, r.legs, r.bad⟩ s t ∧
      (m.phase = some .recovering → t.recovery.keptPhase = some .following) ∧
      (m.phase = some .suspended → t.supervisor.suspendedPhase = some .following) := by
  have hphase : activePhase s = m.phase := by simp [activePhase, hm]
  have hreports : OneMoreReport r.port ⟨r.tag, r.kind, .cancelled, lastGood s, r.legs, r.bad⟩ s
      (detached r (withdraw s)) := fun q => by
    rw [detached_reports r (withdraw s) q, withdraw_last]
    exact congrArg (· ++ _) (withdraw_reports q s)
  rcases hph with h | h
  · rw [cancelAttached_recovering (hphase.trans h)] at ht
    rw [ht]
    refine ⟨by simp [markRejoin, detached, hm], by simp [markRejoin, detached], by simp [markRejoin, detached],
      oneMoreReport_answer fun q => ?_, fun _ => by simp [markRejoin], fun hother => by simp [h] at hother⟩
    rw [markRejoin, setActive_port, State.setRecovery_port]
    exact hreports q
  · rw [cancelAttached_suspended (hphase.trans h)] at ht
    rw [ht]
    refine ⟨by simp [markRejoin, detached, hm], by simp [markRejoin, detached], by simp [markRejoin, detached],
      oneMoreReport_answer fun q => ?_, fun hother => by simp [h] at hother, fun _ => by simp [markRejoin]⟩
    rw [markRejoin, setActive_port, State.setSupervisor_port]
    exact hreports q

/-! ### The landing that a CANCEL waits for (R58, R140) -/

/-- A landing with no owner is taken from the state that the landing has taught. -/
theorem takeFix_landsUnowned (hp : s.map.predict a = some c) (hphase : s.recovery.phase ≠ .refix)
    (hnot : activePhase s ≠ some .following) (hstep : s.planner.acquireStep = .none)
    (hstage : s.planner.legStage = .landing) (hclean : s.planner.legDisturbed = false) (howner : s.planner.owner = .none)
    (hhold : s.optics.tracking = .closed ∧ s.optics.holdAddress = none ∨
      s.optics.tracking = .hold ∧ s.optics.holdAddress.all (fun h => decide (a ≤ h)) = true) :
    ∃ v, PlanFrom a s v ∧ takeFix a s = landUnowned a v := by
  have hland : plannerOnFix a s (fixTaken a c s) = landUnowned a (landingTeaches a (fixTaken a c s)) := by
    have hlands : plannerOnFix a s (fixTaken a c s) = land a (fixTaken a c s) := by simp [plannerOnFix, hstep, hstage]
    rw [hlands, land_clean (by simpa using hclean), if_pos (by simpa using howner)]
  refine ⟨landingTeaches a (fixTaken a c s), planFrom_taught hstep, ?_⟩
  rw [takeFix_eq hp, recoveryOnFix_idle hphase, arbiterOnFix_idle hnot, holdOnFix_below hhold, hland]

/-- The address that lands a leg which a CANCEL waits for is answered FIX, and nothing follows the landing. -/
theorem exec_landsUnowned {address : Addr} {m : Motion} (hcomes : FixComes p address k c s)
    (hdrive : s.supervisor.drive = .moving) (hphase : s.recovery.phase = .none) (hm : s.arbiter.active = some m)
    (hnot : m.phase ≠ some .following) (howner : s.planner.owner = .none) (hstep : s.planner.acquireStep = .none)
    (hstage : s.planner.legStage = .landing) (hclean : s.planner.legDisturbed = false) :
    ∃ v, PlanFrom address.toNat s v ∧ exec (.addressReport p tag address 0) s
      = .next ((landUnowned address.toNat v).answer p tag .accepted [0]) := by
  obtain ⟨htakes, hk, hmax, hp, hsettled, hfocus, htrack, hrun, hsettle, hsuspended⟩ := hcomes
  obtain ⟨v, hfrom, hfix⟩ := takeFix_landsUnowned hp (by simp [hphase]) (by simpa [activePhase, hm] using hnot) hstep hstage
    hclean howner htrack
  have hjudge : judge address.toNat true s = (landUnowned address.toNat v, .fix) := by
    rw [← hfix]
    exact judge_fixes (by simp [hdrive]) (by simp [hdrive]) hk hmax hfocus (htrack.imp And.left And.left) hrun hsettle
      hsuspended (jumps_offTrack (by simp [hdrive]))
  have hsettledv : Settled v := ⟨by rw [hfrom.arbiter]; exact hsettled.1, by rw [hfrom.supervisor]; exact hsettled.2.1,
    by simp [hfrom.step]⟩
  exact ⟨v, hfrom, exec_fixReport htakes hjudge (react_planned (planLeaves_landUnowned _ v) hsettledv)⟩

/-- It ends the motion where it lands. -/
theorem landUnowned_ends (hattached : v.arbiter.attached = none) (hm : v.arbiter.active = some m)
    (hcancel : m.cancelPending = true) (howner : v.planner.owner = .none) (htrack : OnATrack v)
    (haside : v.supervisor.drive.setsAside = false) : EndedHolding m .cancelled a a v (landUnowned a v) := by
  obtain ⟨u, hu⟩ : ∃ u, u = setActive none (v.setPlanner v.planner.legOver) := ⟨_, rfl⟩
  have heq : landUnowned a v = holdAt a (endMotion m .cancelled (some a) u) := by
    simp [landUnowned, hattached, hm, hcancel, hu]
  rw [heq]
  refine endedHolding_congr (s := u) (endedHolding ?_ ?_ ?_ ?_) fun q => ?_
  · simpa [hu, OnATrack] using htrack
  · simpa [hu] using haside
  · simp [hu]
  · simpa [hu, Planner.legOver] using howner
  · simp [hu]

/-- It ends the attached REJOIN, and its FOLLOW plays on from there. -/
theorem landUnowned_plays (hr : v.arbiter.attached = some r) (hcancel : r.cancelPending = true)
    (hm : v.arbiter.active = some m) (hkind : m.kind = .follow) (hlast : lastGood v = some a) (hend : m.endAddr = some z)
    (hopen : (v.zones.decode a).access = .opened) (hbefore : a < z) (haside : v.supervisor.drive.setsAside = false)
    (htrack : FreeOrHolding v) : PlaysFrom m .rejoin a z v (landUnowned a v) ∧
      (landUnowned a v).arbiter.attached = none ∧
      OneMoreReport r.port ⟨r.tag, r.kind, .cancelled, some a, r.legs, r.bad⟩ v (landUnowned a v) := by
  obtain ⟨u, hu⟩ : ∃ u, u = v.setPlanner v.planner.legOver := ⟨_, rfl⟩
  have huport (q : Port) : u.port q = v.port q := hu ▸ State.setPlanner_port ..
  have heq : landUnowned a v = endAttached .cancelled u := by simp [landUnowned, hr, hcancel, hu]
  obtain ⟨hplays, hattached, hreport, -⟩ := endAttached_plays (res := .cancelled) (s := u) (by simpa [hu] using hr)
    (by simpa [hu] using hm) hkind (by rw [hu, (planLeaves_legOver v).last, hlast]) hend (by simpa [hu] using hopen) hbefore
    (by simpa [hu] using haside) (by simpa [hu, FreeOrHolding] using htrack)
  rw [heq]
  exact ⟨playsFrom_congr hplays fun q => by rw [huport], hattached, fun q => by rw [hreport q, huport]⟩

/-! ### A slip takes the landing away (R138, R140; entry 18) -/

/-- A slip in MOVING ends the attached REJOIN whose CANCEL waits, and its FOLLOW is to follow again. -/
theorem slip_endsWaiting {us : Nat} (hm : s.arbiter.active = some m) (hr : s.arbiter.attached = some r)
    (hcancel : r.cancelPending = true) (hwaiting : s.arbiter.waiting = []) (hident : s.supervisor.ident = none)
    (hdrive : s.supervisor.drive = .moving) (hphase : s.recovery.phase = .none) (hfocus : s.optics.focus = .locked)
    (htrack : OnATrack s) (hlong : (if s.optics.robustGain then 3000 else 1000) < us) (hretries : 1 ≤ s.recovery.retryCount) :
    ∃ t, exec (.offTrack us) s = .next t ∧ t.supervisor.drive = .recovering ∧
      t.arbiter.active = some { m with phase := some .recovering, rejoinEnded := true } ∧ t.arbiter.attached = none ∧
      t.recovery.keptPhase = some .following ∧
      OneMoreReport r.port ⟨r.tag, r.kind, .cancelled, lastGood s, r.legs, r.bad⟩ s t := by
  obtain ⟨e, he⟩ : ∃ e, e = recordDisturbance .trackSlip .retrack (disturbLeg (trackingOff s)) := ⟨_, rfl⟩
  have hlast : lastGood e = lastGood s := by
    rw [he, lastGood_congr (recordDisturbance_monitor ..), lastGood_congr (disturbLeg_monitor ..), lastGood_trackingOff]
  obtain ⟨u, hu⟩ : ∃ u, u = markRejoin true (setPhase .following (endMotion r .cancelled (lastGood e) (setAttached none e))) :=
    ⟨_, rfl⟩
  have hends : endWaitingCancel e = u := by simp [endWaitingCancel, he, hr, hcancel, hu]
  have hactive : u.arbiter.active = some { m with phase := some .following, rejoinEnded := true } := by
    simp [hu, markRejoin, setPhase, he, hm]
  obtain ⟨o, ho⟩ : ∃ o, o = openRecovery (some .following) u := ⟨_, rfl⟩
  obtain ⟨b, hb⟩ := recordDisturbance_optics .trackSlip .retrack (disturbLeg (trackingOff s))
  have hoptics : o.optics = { s.optics with tracking := .off, holdAddress := none, openPending := false, robustGain := b } := by
    rw [ho, openRecovery_optics]
    simp [hu, markRejoin, setPhase, he, hb, trackingOff_optics]
  have hcount : o.recovery.retrackCount < o.recovery.retryLimit := by
    simp only [ho, openRecovery_recovery]
    simpa [hu, markRejoin, setPhase, he, recordDisturbance_recovery, Nat.pos_iff_ne_zero, Nat.one_le_iff_ne_zero] using hretries
  have hbegins := beginRetrack_phase hcount (.inl (by rw [hoptics]; exact hfocus))
  have htakes : takeDisturbance .trackSlip (trackingOff s) = beginRetrack o := by
    unfold takeDisturbance
    dsimp only
    rw [if_neg (by simp [recovering, hphase]), if_pos (by simp [hdrive])]
    rw [show Disturbance.trackSlip.phase = .retrack from rfl, ← he]
    rw [beginRecovery, hends, activePhase, hactive, ho]
    rfl
  obtain ⟨t, ht⟩ : ∃ t, t = beginRetrack o := ⟨_, rfl⟩
  rw [← ht] at hbegins htakes
  have hquiet : react t = t := by
    refine react_cancelled ?_ ?_ ?_
    · rw [hbegins.arbiter, ho]
      simpa [hu, markRejoin, setPhase, he] using hwaiting
    · rw [hbegins.supervisor, ho]
      simpa [hu, markRejoin, setPhase, he] using hident
    · rw [hbegins.planner, ho]
      simp
  have hexec : exec (.offTrack us) s = .next t := by
    have hslips : (s.optics.tracking = .closed ∨ s.optics.tracking = .hold) ∧ offTrackTimeUs s.optics.robustGain < us ∧
        raises s := ⟨htrack, hlong, by simp [raises, hdrive]⟩
    change execOffTrack us s = _
    rw [execOffTrack, if_pos hslips, htakes, hquiet]
  refine ⟨t, hexec, by rw [hbegins.supervisor, ho]; simp, by rw [hbegins.arbiter, ho]; simp [hactive],
    by rw [hbegins.arbiter, ho]; simp [hu, markRejoin, setPhase], by rw [hbegins.recovery, ho]; simp, fun q => ?_⟩
  have hreports := reportsOf_endMotion (setAttached none e) q r .cancelled (lastGood e)
  have hsame : reportsOf q t = reportsOf q (endMotion r .cancelled (lastGood e) (setAttached none e)) := by
    rw [reportsOf_congr q (hbegins.port q), ho]
    simp [hu]
  have hbefore : reportsOf q (setAttached none e) = reportsOf q s := by
    have htrackOff := reportsOf_congr q (trackingOff_port s q)
    simp [he, reportsOf_congr q (disturbLeg_port (s := trackingOff s) q), htrackOff]
  rw [hbefore, hlast] at hreports
  rw [hlast] at hsame
  simpa [reportsOf, eq_comm, Motion.report] using hsame.trans hreports

/-- Settles O40: CANCEL by what its motion is doing, the landing it waits for, and the slip that takes that away. -/
theorem cancelOfMotionsAtWork : Obligations.CancelOfMotionsAtWork := by
  refine ⟨fun p tag which m s htakes hwaiting hident hm =>
      ⟨fun hfind hkind => ?active, fun r hr hfind hkind hfollow => ?attached⟩,
    fun p tag address k c m s hcomes hdrive hphase hm hnot howner hstep hstage hclean => ?landing,
    fun us m r s hm hr hcancel hwaiting hident hdrive hphase hfocus htrack hlong hretries =>
      slip_endsWaiting hm hr hcancel hwaiting hident hdrive hphase hfocus htrack hlong hretries⟩
  case active =>
    exact ⟨_, exec_cancel htakes (cancel_ofActive hfind hkind hm), answer_reply ..,
      fun hattached hph hstage hclean => cancelActive_inFlight hwaiting hident hattached hph hstage hclean _ rfl,
      fun hattached hph hdriven hturns => cancelActive_acquire hwaiting hident hattached hph hdriven hturns _ rfl,
      fun hattached hph => cancelActive_aside hwaiting hident hattached hph _ rfl,
      fun r hr hstep howner => cancelActive_leavesRejoin hwaiting hident hr hstep howner _ rfl⟩
  case attached =>
    have hexec := exec_cancel (tag := tag) htakes (cancel_ofAttached hfind hkind hm hfollow hr)
    rw [react_cancelAttached hwaiting hident hr] at hexec
    have hphase : activePhase s = m.phase := by simp [activePhase, hm]
    refine ⟨_, hexec, answer_reply .., by rw [answer_planner, (cancelAttached_leaves hr).1], fun hph hstage hclean => ?_,
      fun a z hph hidle hdrive htrack hheld hlast hend hbefore hopen => ?_, fun hph => cancelAttached_aside hm hph _ rfl⟩
    · rw [cancelAttached_waits (by rw [hphase]; exact waits_inFlight hph hstage hclean)]
      refine ⟨by simp, reportsStay_answer fun q => ?_⟩
      rw [setAttached_port]
      exact withdraw_reports q s
    · have hfollows := cancelAttached_follows hr (by rw [hphase, hph]; exact waits_none rfl) (by rw [hphase, hph]; simp)
        (by rw [hphase, hph]; simp)
      obtain ⟨hplays, hattached, hreport, -⟩ := endAttached_plays (res := .cancelled) (s := withdraw s) (by simpa using hr)
        (by simpa using hm) hfollow (by rw [withdraw_last, hlast]) hend (by simpa using hopen) hbefore
        (by simp [hdrive, DriveState.setsAside]) (.inl (by simpa using ⟨htrack, hheld⟩))
      rw [hfollows]
      refine ⟨playsFrom_answer (playsFrom_congr hplays fun q => by simp), by rw [answer_arbiter, hattached],
        oneMoreReport_answer fun q => (hreport q).trans (congrArg (· ++ _) (withdraw_reports q s))⟩
  case landing =>
    obtain ⟨v, hfrom, hexec⟩ := exec_landsUnowned (tag := tag) hcomes hdrive hphase hm hnot howner hstep hstage hclean
    obtain ⟨-, -, -, -, -, -, htrack, -⟩ := hcomes
    have hfree : FreeOrHolding v := by rw [FreeOrHolding, hfrom.optics]; exact htrack.imp id And.left
    have haside : v.supervisor.drive.setsAside = false := by rw [hfrom.supervisor, hdrive]; rfl
    have hmv : v.arbiter.active = some m := by rw [hfrom.arbiter, hm]
    refine ⟨_, hexec, answer_reply .., fun hattached hcancel => ?_, fun r z hr hcancel hkind hend hbefore hopen => ?_⟩
    · exact endedHolding_answer (hfrom.ended (landUnowned_ends (by rw [hfrom.arbiter, hattached]) hmv hcancel
        (by rw [hfrom.owner, howner]) hfree.onATrack haside))
    · obtain ⟨hplays, hdetached, hreport⟩ := landUnowned_plays (by rw [hfrom.arbiter, hr]) hcancel hmv hkind hfrom.last hend
        (by rw [hfrom.decode, hopen]) hbefore haside hfree
      exact ⟨playsFrom_answer (hfrom.plays hplays), by rw [answer_arbiter, hdetached],
        oneMoreReport_answer (hfrom.oneMore hreport)⟩

end Sys2Proof.Proofs
end

section
/-! REFIX ends, and the RETURN begins (R177, R180 to R182; entries 15, 18, 33). -/

namespace Sys2Proof.Proofs

set_option Elab.async false

open Sys2Proof.Machine Sys2Proof.Safety Sys2Proof.Laws

variable {s t u v w : State} {k : DiscClass} {a c g pg pa : Nat} {m r : Motion}

/-! ### A recovery that is over stays over (R181) -/

/-- No recovery is in progress, and no phase is kept. -/
abbrev RecoveryOver (s : State) : Prop := s.recovery.phase = .none ∧ s.recovery.keptPhase = none

theorem fineLegEnds_recovery (s : State) : (fineLegEnds s).recovery = s.recovery := by
  unfold fineLegEnds
  split
  · split <;> simp
  · rfl

theorem sledLegEnds_recovery (b : Bool) (s : State) : (sledLegEnds b s).recovery = s.recovery := by
  unfold sledLegEnds
  split <;> simp

theorem beginFine_recovery (n : Int) (s : State) : (beginFine n s).recovery = s.recovery := by
  unfold beginFine
  dsimp only
  split
  · rw [fineLegEnds_recovery, legBegins_recovery]
  · split <;> simp

theorem beginSled_recovery (n : Int) (s : State) : (beginSled n s).recovery = s.recovery := by
  unfold beginSled
  dsimp only
  split <;> simp [sledLegEnds_recovery]

/-- Making a plan, its leg with it, is no business of the recovery controller. -/
theorem makePlan_recovery (s : State) : (makePlan s).1.recovery = s.recovery := by
  have hleg (k : DiscClass) (d : Int) (v : State) : (planLeg k d v).1.recovery = v.recovery := by
    unfold planLeg
    dsimp only
    split
    · rfl
    · split
      · exact beginFine_recovery _ v
      · exact beginSled_recovery _ v
  unfold makePlan
  split
  · split
    · dsimp only
      split
      · simp
      · simp
      · rw [hleg]
        simp
    · rfl
  · rfl

theorem recoveryOver_hold (x : Nat) (h : RecoveryOver s) : RecoveryOver (hold x s) := by
  unfold hold
  split
  · exact h
  · simpa [RecoveryOver] using h
  · simpa [RecoveryOver] using h
  · simpa [RecoveryOver] using h

theorem recoveryOver_holdAt (x : Nat) (h : RecoveryOver s) : RecoveryOver (holdAt x s) := by
  simpa [RecoveryOver, holdAt] using recoveryOver_hold x h

theorem recoveryOver_endInternal (x : Nat) (s : State) : RecoveryOver (endInternal x s) := by
  simp [RecoveryOver, endInternal, endRecovery]

theorem recoveryOver_holdHere (h : RecoveryOver s) : RecoveryOver (holdHere s) := by
  unfold holdHere
  split
  · exact recoveryOver_holdAt _ h
  · simpa [RecoveryOver] using h

theorem recoveryOver_followTest (x : Nat) (h : RecoveryOver s) : RecoveryOver (followTest x s) := by
  have hends (m : Motion) (r : Result) (y : Nat) : RecoveryOver (holdAt y (endMotion m r (some x) (setActive none s))) :=
    recoveryOver_holdAt y (by simpa [RecoveryOver] using h)
  unfold followTest
  split
  · split
    · split
      · exact hends _ _ _
      · dsimp only
        split
        · exact hends _ _ _
        · simpa [RecoveryOver] using h
    · exact h
  · exact h

theorem recoveryOver_enterFollowing (e : FollowEntry) (h : RecoveryOver s) : RecoveryOver (enterFollowing e s) := by
  unfold enterFollowing
  split
  · exact recoveryOver_followTest _ (by simpa [RecoveryOver, releaseHold] using h)
  · exact h

theorem recoveryOver_endAttached (res : Result) (h : RecoveryOver s) : RecoveryOver (endAttached res s) := by
  unfold endAttached
  split
  · exact recoveryOver_enterFollowing _ (by simpa [RecoveryOver] using h)
  · exact h

theorem recoveryOver_targetReached (x : Nat) (h : RecoveryOver s) : RecoveryOver (targetReached x s) := by
  unfold targetReached
  split
  · exact h
  · exact recoveryOver_endInternal _ s
  · exact recoveryOver_endAttached _ h
  · split
    · split
      · exact recoveryOver_enterFollowing _ h
      · exact recoveryOver_holdAt _ (by simpa [RecoveryOver] using h)
    · exact h

theorem recoveryOver_targetUnreached (e : Cause) (h : RecoveryOver s) : RecoveryOver (targetUnreached e s) := by
  unfold targetUnreached
  split
  · exact h
  · exact recoveryOver_endInternal _ s
  · split
    · exact recoveryOver_endAttached _ h
    · exact h
  · split
    · exact recoveryOver_holdHere (by simpa [RecoveryOver, unreachedBy] using h)
    · exact h

/-- A plan begins no recovery. -/
theorem recoveryOver_plan (h : RecoveryOver s) : RecoveryOver (plan s) := by
  have hmade : RecoveryOver (makePlan (s.setPlanner s.planner.legOver)).1 := by
    rw [RecoveryOver, makePlan_recovery]
    exact h
  unfold plan
  split
  · exact h
  · dsimp only
    split
    · exact hmade
    · exact hmade
    · split
      · simpa [RecoveryOver] using hmade
      · simpa [RecoveryOver] using hmade
    · exact recoveryOver_targetReached _ hmade
    · exact recoveryOver_targetUnreached _ hmade

/-! ### The new owner (R71, R72) -/

@[simp] theorem ownerTaken_planner (s : State) : (ownerTaken s).planner = s.planner := by
  unfold ownerTaken; split <;> simp
@[simp] theorem ownerTaken_arbiter (s : State) : (ownerTaken s).arbiter = s.arbiter := by
  unfold ownerTaken; split <;> simp
@[simp] theorem ownerTaken_map (s : State) : (ownerTaken s).map = s.map := by
  unfold ownerTaken; split <;> simp
@[simp] theorem ownerTaken_monitor (s : State) : (ownerTaken s).monitor = s.monitor := by
  unfold ownerTaken; split <;> simp
@[simp] theorem ownerTaken_optics (s : State) : (ownerTaken s).optics = s.optics := by
  unfold ownerTaken; split <;> simp
@[simp] theorem ownerTaken_recovery (s : State) : (ownerTaken s).recovery = s.recovery := by
  unfold ownerTaken; split <;> simp
@[simp] theorem ownerTaken_supervisor (s : State) : (ownerTaken s).supervisor = s.supervisor := by
  unfold ownerTaken; split <;> simp
@[simp] theorem ownerTaken_reports (q : Port) (s : State) : reportsOf q (ownerTaken s) = reportsOf q s := by
  unfold ownerTaken; split <;> simp

theorem planLeaves_ownerTaken (s : State) : PlanLeaves s (ownerTaken s) :=
  ⟨by simp, by simp, lastGood_congr (by simp), by simp, by simp, .inl (by simp)⟩

@[simp] theorem handBack_arbiter (s : State) : (handBack s).arbiter = s.arbiter := by
  unfold handBack; split <;> rfl
@[simp] theorem handBack_map (s : State) : (handBack s).map = s.map := by
  unfold handBack; split <;> rfl
@[simp] theorem handBack_monitor (s : State) : (handBack s).monitor = s.monitor := by
  unfold handBack; split <;> rfl
@[simp] theorem handBack_optics (s : State) : (handBack s).optics = s.optics := by
  unfold handBack; split <;> rfl
@[simp] theorem handBack_recovery (s : State) : (handBack s).recovery = s.recovery := by
  unfold handBack; split <;> rfl
@[simp] theorem handBack_supervisor (s : State) : (handBack s).supervisor = s.supervisor := by
  unfold handBack; split <;> rfl
@[simp] theorem handBack_reports (q : Port) (s : State) : reportsOf q (handBack s) = reportsOf q s := by
  unfold handBack; split <;> simp

theorem planLeaves_handBack (s : State) : PlanLeaves s (handBack s) := by
  unfold handBack
  split
  · exact ⟨rfl, rfl, rfl, rfl, rfl, .inl rfl⟩
  · exact ⟨rfl, rfl, rfl, rfl, rfl, .inl rfl⟩

/-- The motion is handed back, and the drive is MOVING for it (R147, R181). -/
def handedBack (s : State) : State := ownerTaken (reportDrive .moving (endRecovery (handBack s)))

theorem returnMotion_eq (s : State) : returnMotion s = plan (handedBack s) := rfl

theorem planLeaves_handedBack (s : State) : PlanLeaves s (handedBack s) :=
  (((planLeaves_handBack s).trans (planLeaves_endRecovery _)).trans (planLeaves_reportDrive .moving _)).trans
    (planLeaves_ownerTaken _)

/-- The internal return has the planner for a target (R182). -/
def returning (g : Nat) (s : State) : State :=
  ownerTaken ((s.setRecovery { s.recovery with phase := .return, fixReported := true, window := none }).setPlanner
    { s.planner with owner := .internal, target := some g, returning := false, sessionLegs := 0, sessionSled := 0 })

theorem planLeaves_returning (g : Nat) (s : State) : PlanLeaves s (returning g s) := by
  refine PlanLeaves.trans ?_ (planLeaves_ownerTaken _)
  exact ⟨rfl, rfl, rfl, rfl, rfl, .inl rfl⟩

theorem returnInternal_target (hg : (s.recovery.holdCopy <|> s.recovery.returnAddr) = some g) :
    returnInternal s = plan (returning g s) := by
  rw [returnInternal, hg]
  rfl

theorem returnInternal_none (hg : (s.recovery.holdCopy <|> s.recovery.returnAddr) = none) (hlast : lastGood s = some a) :
    returnInternal s = endInternal a s := by
  rw [returnInternal, hg, hlast]
  rfl

theorem planLeaves_refixEnds (s : State) : PlanLeaves s (refixEnds s) := by
  unfold refixEnds
  split
  · exact (planLeaves_handedBack s).trans (planLeaves_plan _)
  · split
    · exact ⟨rfl, rfl, rfl, rfl, rfl, .inl rfl⟩
    · cases hg : (s.recovery.holdCopy <|> s.recovery.returnAddr) with
      | some g =>
        rw [returnInternal_target hg]
        exact (planLeaves_returning g s).trans (planLeaves_plan _)
      | none =>
        rw [returnInternal, hg]
        exact planLeaves_endInternal _ s

/-! ### The address that ends REFIX -/

theorem planLeaves_plannerOnFix_idle (hstep : s.planner.acquireStep = .none) (hidle : s.planner.legStage = .idle) :
    PlanLeaves u (plannerOnFix a s u) := by
  unfold plannerOnFix
  rw [if_neg (by simp [hstep]), if_neg (by simp [hstep]), if_neg (by simp [hidle])]
  split
  · exact planLeaves_plan u
  · split
    · exact planLeaves_plan u
    · exact PlanLeaves.refl u

theorem planLeaves_arbiterOnFix (x : Nat) (b s : State) : PlanLeaves s (arbiterOnFix x b s) := by
  unfold arbiterOnFix
  split
  · exact planLeaves_followTest x s
  · exact PlanLeaves.refl s

theorem planLeaves_recoveryOnFix (b s : State) : PlanLeaves s (recoveryOnFix b s) := by
  unfold recoveryOnFix
  split
  · exact planLeaves_refixEnds s
  · exact PlanLeaves.refl s

theorem takeFix_leaves (hp : s.map.predict a = some c) (hstep : s.planner.acquireStep = .none)
    (hidle : s.planner.legStage = .idle) : PlanLeaves (fixTaken a c s) (takeFix a s) := by
  rw [takeFix_eq hp]
  exact (((planLeaves_plannerOnFix_idle hstep hidle).trans (planLeaves_holdOnFix a s _)).trans
    (planLeaves_arbiterOnFix a s _)).trans (planLeaves_recoveryOnFix s _)

/-- In REFIX, with no motion that takes the fix itself, it is the recovery that goes on from it. -/
theorem takeFix_refix (hp : s.map.predict a = some c) (hstep : s.planner.acquireStep = .none)
    (hidle : s.planner.legStage = .idle) (hrefix : s.recovery.phase = .refix)
    (happroach : activePhase s ≠ some .approach) (hfollowing : activePhase s ≠ some .following)
    (hhold : s.optics.tracking = .closed ∧ s.optics.holdAddress = none ∨
      s.optics.tracking = .hold ∧ s.optics.holdAddress.all (fun h => decide (a ≤ h)) = true) :
    takeFix a s = refixEnds (fixTaken a c s) := by
  have hplanner : plannerOnFix a s (fixTaken a c s) = fixTaken a c s := by
    simp [plannerOnFix, hstep, hidle, happroach, hrefix]
  rw [takeFix_eq hp, hplanner, holdOnFix_below hhold, arbiterOnFix_idle hfollowing, recoveryOnFix, if_pos hrefix]

/-! ### The motion that the recovery hands back (R180, R181) -/

/-- What the hand-back leaves of the state `s` that the fix found: the planner works for the motion, and the drive is MOVING. -/
structure HandedBack (a c : Nat) (s v : State) : Prop where
  arbiter : v.arbiter = s.arbiter
  optics : v.optics = s.optics
  map : v.map = s.map
  recovery : RecoveryOver v
  supervisor : v.supervisor = { s.supervisor with drive := .moving }
  last : lastGood v = some a
  reports : ∀ q, reportsOf q v = reportsOf q s
  mask : ∀ q, (v.port q).mask = (s.port q).mask
  decode : ∀ x, v.zones.decode x = s.zones.decode x
  planner : v.planner = (handBack (fixTaken a c s)).planner

theorem handedBack_of (hdrive : s.supervisor.drive = .recovering ∨ s.supervisor.drive = .moving) :
    HandedBack a c s (handedBack (fixTaken a c s)) := by
  have hkeeps : Keeps [] (fixTaken a c s) (handedBack (fixTaken a c s)) :=
    ((Keeps.refl _).handBack.endRecovery.reportDrive (d := .moving)).ownerTaken
  have haside : s.supervisor.drive.setsAside = false := by
    rcases hdrive with h | h <;> simp [h, DriveState.setsAside]
  constructor
  · simp [handedBack]
  · simp [handedBack]
  · simp [handedBack]
  · simp [handedBack, RecoveryOver, endRecovery]
  · simp [handedBack, haside]
  · rw [(planLeaves_handedBack _).last, fixTaken_last]
  · intro q
    simp [handedBack]
  · exact fun q => ((hkeeps.port q).mask).trans (fixTaken_mask a c s q)
  · exact fun x => (decode_congr hkeeps.entries hkeeps.defaultCap x).trans (fixTaken_decode a c s x)
  · simp [handedBack]

/-- The return target is the one that R180 names. -/
theorem playReturn_of (h : ReturnTarget s g) : playReturn (fixTaken a c s) = some g := by
  have hresume : (fixTaken a c s).monitor.resume = s.monitor.resume := by rw [fixTaken_monitor, storeFix_monitor]
  unfold playReturn
  rw [hresume, fixTaken_recovery]
  rcases h with ⟨hset, hopen⟩ | ⟨hnone, haddr⟩
  · simp [hset, fixTaken_decode, hopen]
  · cases hset : s.monitor.resume with
    | none => exact haddr
    | some x => simp [fixTaken_decode, hnone x hset, haddr]

/-- A FOLLOW that was FOLLOWING is handed back with its return target and a fresh session (R180). -/
theorem handBack_follows (hkept : s.recovery.keptPhase = some .following) (htarget : ReturnTarget s g) :
    (handBack (fixTaken a c s)).planner = { s.planner with
      owner := .active, target := some g, returning := true, sessionLegs := 0, sessionSled := 0 } := by
  simp [handBack, hkept, playReturn_of htarget]

/-- Any other motion is handed back with the target and the session that the planner holds for it. -/
theorem handBack_goesOn (hkept : s.recovery.keptPhase ≠ some .following) :
    (handBack (fixTaken a c s)).planner = { s.planner with owner := ownerOfMotion s } := by
  simp [handBack, hkept, ownerOfMotion]

theorem HandedBack.canPlan (h : HandedBack a c s v) (hk : s.supervisor.cls = some k)
    (hp : s.map.predict a = some c) (howner : v.planner.owner ≠ .none) (htarget : v.planner.target = some g)
    (hpg : s.map.predict g = some pg) : CanPlan k g a pg c v :=
  ⟨howner, htarget, h.last, by rw [h.supervisor]; exact hk, by rw [h.map, hpg], by rw [h.map, hp]⟩

/-- A fine leg for the motion handed back. -/
theorem HandedBack.fineBegun (h : HandedBack a c s v) (hcan : CanPlan k g a pg c v) (hfree : FreeOrHolding s)
    (hfar : CallsForLeg g a ((pg : Int) - (c : Int))) (hnear : ((pg : Int) - (c : Int)).natAbs ≤ 64)
    (hlegs : v.planner.sessionLegs < 6) : FineLegBegun g ((pg : Int) - (c : Int)) s (plan v) ∧
      FineStarts (legOf ((pg : Int) - (c : Int))) (aimed pg c v) (plan v) ∧ (plan v).supervisor.drive = .moving := by
  have hstarts := plan_fineStarts hcan (by rw [OnATrack, h.optics]; exact hfree.onATrack) hfar hnear hlegs
  exact ⟨hstarts.begun hcan.target (by rw [h.supervisor]), hstarts, by rw [hstarts.supervisor, aimed_supervisor, h.supervisor]⟩

/-- A FOLLOW that was FOLLOWING and whose fix is within reach of its return target plays on from there. -/
theorem HandedBack.playsOn {z : Nat} (h : HandedBack a c s v) (hcan : CanPlan k g a pg c v)
    (howner : v.planner.owner = .active) (hreturning : v.planner.returning = true) (hm : s.arbiter.active = some m)
    (hkind : m.kind = .follow) (hfree : FreeOrHolding s) (hreach : InReach g a) (hend : m.endAddr = some z)
    (hopen : (s.zones.decode a).access = .opened) (hbefore : a < z) :
    PlaysFrom m (if m.rejoinEnded then .rejoin else .return) a z s (plan v) ∧ ReportsStay s (plan v) := by
  obtain ⟨hplays, hreports⟩ := plan_plays hcan howner (by rw [h.arbiter, hm]) hreach hkind hend (by rw [h.decode, hopen])
    hbefore (by rw [FreeOrHolding, h.optics]; exact hfree) (by rw [h.supervisor]; rfl)
  rw [hreturning] at hplays
  exact ⟨playsFrom_congr hplays fun q => (h.mask q).symm, fun q => (hreports q).trans (h.reports q)⟩

/-! ### The internal return (R182) -/

/-- The end of the internal return: the drive holds there, and no recovery is in progress. -/
theorem endInternal_holds (x : Nat) (htrack : OnATrack v) (haside : v.supervisor.drive.setsAside = false)
    (harbiter : v.arbiter = s.arbiter) : ReturnedHolding x s (endInternal x v) := by
  obtain ⟨hoptics, hrecovery⟩ := hold_taken (x := x) htrack
  exact ⟨by simp [endInternal, haside], by simp [endInternal, endRecovery, hrecovery], by simp [endInternal, hoptics],
    by simp [endInternal, disown], by simp [endInternal, harbiter]⟩

/-- The internal return within reach of its target ends there. -/
theorem plan_returns (hcan : CanPlan k g a pg pa v) (howner : v.planner.owner = .internal) (hreach : InReach g a)
    (htrack : OnATrack v) (haside : v.supervisor.drive.setsAside = false) (harbiter : v.arbiter = s.arbiter) :
    ReturnedHolding g s (plan v) := by
  have heq : plan v = endInternal g (aimed pg pa v) := by
    simp [plan_reached hcan hreach, targetReached, howner, hcan.target]
  rw [heq]
  exact endInternal_holds g (by simpa [OnATrack] using htrack) (by simpa using haside) (by simpa using harbiter)

/-- An internal return that a check of R45 refuses its leg ends at the fix. -/
theorem plan_returnFails {e : Cause} (hcan : CanPlan k g a pg pa v) (howner : v.planner.owner = .internal)
    (hfar : CallsForLeg g a ((pg : Int) - (pa : Int))) (he : FailsCheck k ((pg : Int) - (pa : Int)) v e)
    (htrack : OnATrack v) (haside : v.supervisor.drive.setsAside = false) (harbiter : v.arbiter = s.arbiter) :
    ReturnedHolding a s (plan v) ∧ (plan v).planner.unreached = v.planner.unreached := by
  have heq : plan v = endInternal a (aimed pg pa v) := by
    simp [plan_unreached hcan hfar he, targetUnreached, howner, hcan.last]
  rw [heq]
  exact ⟨endInternal_holds a (by simpa [OnATrack] using htrack) (by simpa using haside) (by simpa using harbiter),
    by simp [endInternal, disown]⟩

/-- What the start of an internal return leaves of the state `s` that the fix found. -/
theorem returning_arbiter (g : Nat) (s : State) : (returning g s).arbiter = s.arbiter := by simp [returning]
theorem returning_optics (g : Nat) (s : State) : (returning g s).optics = s.optics := by simp [returning]
theorem returning_supervisor (g : Nat) (s : State) : (returning g s).supervisor = s.supervisor := by simp [returning]
theorem returning_planner (g : Nat) (s : State) : (returning g s).planner = { s.planner with
    owner := .internal, target := some g, returning := false, sessionLegs := 0, sessionSled := 0 } := by simp [returning]
theorem returning_recovery (g : Nat) (s : State) : (returning g s).recovery = { s.recovery with
    phase := .return, fixReported := true, window := none } := by simp [returning]

theorem returning_canPlan (hk : s.supervisor.cls = some k) (hp : s.map.predict a = some c)
    (hpg : s.map.predict g = some pg) : CanPlan k g a pg c (returning g (fixTaken a c s)) :=
  ⟨by simp [returning_planner], by simp [returning_planner], by rw [(planLeaves_returning _ _).last, fixTaken_last],
    by rw [returning_supervisor, fixTaken_supervisor, hk], by rw [(planLeaves_returning _ _).map, fixTaken_map, hpg],
    by rw [(planLeaves_returning _ _).map, fixTaken_map, hp]⟩

theorem returnedHolding_answer {p : Port} {tag : Byte} {st : Status} {data : List Byte} {x : Nat}
    (h : ReturnedHolding x s t) : ReturnedHolding x s (t.answer p tag st data) :=
  ⟨by simpa using h.drive, by simpa using h.recovery, by simpa using h.loops, by simpa using h.owner,
    by simpa using h.arbiter⟩

/-- Where the hold copy, or else the return address, says the drive held. -/
theorem holdTarget_eq {rc : Recovery} (h : rc.holdCopy = some g ∨ rc.holdCopy = none ∧ rc.returnAddr = some g) :
    (rc.holdCopy <|> rc.returnAddr) = some g := by
  rcases h with h | ⟨hnone, haddr⟩
  · simp [h]
  · simp [hnone, haddr]

/-- The address that comes in an internal return makes the planner's next plan, after what a landing teaches. -/
theorem takeFix_returns (hp : s.map.predict a = some c) (hphase : s.recovery.phase = .return)
    (howner : s.planner.owner = .internal) (hactive : s.arbiter.active = none) (hstep : s.planner.acquireStep = .none)
    (hclean : s.planner.legDisturbed = false) (hrun : s.planner.legStage ≠ .running)
    (hsettle : s.planner.legStage ≠ .settling)
    (hhold : s.optics.tracking = .closed ∧ s.optics.holdAddress = none ∨
      s.optics.tracking = .hold ∧ s.optics.holdAddress.all (fun h => decide (a ≤ h)) = true) :
    ∃ v, PlanFrom a s v ∧ v.planner.unreached = s.planner.unreached ∧ takeFix a s = plan v := by
  have hnot (ph : Phase) : activePhase s ≠ some ph := by simp [activePhase, hactive]
  rw [takeFix_eq hp, recoveryOnFix_idle (by simp [hphase]), arbiterOnFix_idle (hnot _), holdOnFix_below hhold]
  cases hstage : s.planner.legStage with
  | running => exact absurd hstage hrun
  | settling => exact absurd hstage hsettle
  | landing =>
    refine ⟨landingTeaches a (fixTaken a c s), planFrom_taught hstep, ?_, ?_⟩
    · rw [(landingTeaches_taught a _).planner]
      simp
    · simp [plannerOnFix, hstep, hstage, land_clean, hclean, howner]
  | idle =>
    exact ⟨fixTaken a c s, PlanFrom.fixTaken hstep, by simp, by simp [plannerOnFix, hstep, hstage, hnot, hphase, howner]⟩

/-- Settles O52: REFIX hands its motion back to the planner, or begins the internal return, and the plan that follows ends it,
plays it or begins a leg. -/
theorem refixEndsInReturn : Obligations.RefixEndsInReturn := by
  intro p tag address k c s hcomes hdrive hstep a
  obtain ⟨htakes, hk, hmax, hp, hsettled, hfocus, htrack, hrun, hsettle, hsuspended⟩ := hcomes
  have hfree : FreeOrHolding s := htrack.imp id And.left
  have haside : s.supervisor.drive.setsAside = false := by
    rcases hdrive with h | h <;> simp [h, DriveState.setsAside]
  obtain ⟨w, hw⟩ : ∃ w, w = takeFix a s := ⟨_, rfl⟩
  have hjudge : judge address.toNat true s = (w, .fix) := by
    have hquiet {d : DriveState} (h : d ≠ .recovering) (h' : d ≠ .moving) : s.supervisor.drive ≠ d := by
      rcases hdrive with hd | hd <;> rw [hd]
      · exact h.symm
      · exact h'.symm
    exact hw ▸ judge_fixes (hquiet nofun nofun) (hquiet nofun nofun) hk hmax hfocus (hfree.imp And.left id) hrun hsettle
      hsuspended (jumps_offTrack (hquiet nofun nofun))
  refine ⟨fun hrefix hidle => ?refix, fun hphase howner hactive hattached hclean => ?internal⟩
  case refix =>
    have hleaves : PlanLeaves (fixTaken a c s) w := hw ▸ takeFix_leaves hp hstep hidle
    have hreact : react w = w := react_planned hleaves (settled_congr hsettled (by simp) (by simp) (by simp))
    refine ⟨_, exec_fixReport htakes hjudge hreact, answer_reply .., ?_, by rw [answer_map, hleaves.map, fixTaken_map],
      fun m hm hph => ?motion, fun hnone => ?none⟩
    · rw [lastGood_congr (answer_monitor ..), hleaves.last, fixTaken_last]
    case motion =>
      have hrefixes : w = plan (handedBack (fixTaken a c s)) := by
        rw [hw, takeFix_refix hp hstep hidle hrefix (by simp [activePhase, hm, hph]) (by simp [activePhase, hm, hph]) htrack,
          refixEnds, if_pos (by simp [hm]), returnMotion_eq]
      obtain ⟨v, hv⟩ : ∃ v, v = handedBack (fixTaken a c s) := ⟨_, rfl⟩
      have hback : HandedBack a c s v := hv ▸ handedBack_of hdrive
      rw [← hv] at hrefixes
      subst hrefixes
      have hover := recoveryOver_plan hback.recovery
      have hmv : v.arbiter.active = some m := by rw [hback.arbiter, hm]
      refine ⟨by simpa using hover.1, by simpa using hover.2, fun g z hattached hkind hkept htarget hend hsome => ?follow,
        fun g pg hkept htarget hpg => ?other⟩
      case follow =>
        have hplanner := hback.planner.trans (handBack_follows hkept htarget)
        have hcan (pg : Nat) (hpg : s.map.predict g = some pg) : CanPlan k g a pg c v :=
          hback.canPlan hk hp (by rw [hplanner]; simp) (by rw [hplanner]) hpg
        refine ⟨fun hreach hopen hbefore => ?_, fun pg hpg hfar hnear => ?_⟩
        · obtain ⟨pg, hpg⟩ := Option.isSome_iff_exists.1 hsome
          obtain ⟨hplays, hreports⟩ := hback.playsOn (hcan pg hpg) (by rw [hplanner]) (by rw [hplanner]) hm hkind hfree hreach
            hend hopen hbefore
          exact ⟨playsFrom_answer hplays, reportsStay_answer hreports⟩
        · obtain ⟨hbegun, hstarts, hmoving⟩ := hback.fineBegun (hcan pg hpg) hfree hfar hnear (by rw [hplanner]; simp)
          refine ⟨fineLegBegun_answer hbegun, by simp [hstarts.planner, hplanner], by simpa using hmoving,
            by simp [hstarts.planner, hplanner], by simp [hstarts.planner, hplanner], ?_⟩
          rw [answer_arbiter, hstarts.arbiter, legBegins_arbiter_active (by simp [hplanner]) (by simpa using hmv)]
      case other =>
        have hplanner := hback.planner.trans (handBack_goesOn hkept)
        have howner : v.planner.owner ≠ .none := by
          rw [hplanner]
          simp only [ownerOfMotion]
          split <;> simp
        have hcan : CanPlan k g a pg c v := hback.canPlan hk hp howner (by rw [hplanner]; exact htarget) hpg
        refine ⟨fun hreach hattached hkind hmg => ?_, fun hfar hnear hlegs => ?_⟩
        · have hactive : v.planner.owner = .active := by simp [hplanner, ownerOfMotion, hattached]
          exact endedHolding_answer (endedHolding_congr (plan_endsReached hcan hactive hmv hreach hkind hmg
            (by rw [OnATrack, hback.optics]; exact hfree.onATrack) (by rw [hback.supervisor]; rfl))
            fun q => (hback.reports q).symm)
        · obtain ⟨hbegun, hstarts, hmoving⟩ := hback.fineBegun hcan hfree hfar hnear (by rw [hplanner]; exact hlegs)
          refine ⟨fineLegBegun_answer hbegun, by simpa using hmoving, by simp [hstarts.planner, hplanner],
            by simp [hstarts.planner, hplanner], fun hattached => ?_, fun r hr => ?_⟩
          · have hactive : v.planner.owner = .active := by simp [hplanner, ownerOfMotion, hattached]
            refine ⟨by simp [hstarts.planner, hactive], ?_⟩
            rw [answer_arbiter, hstarts.arbiter, legBegins_arbiter_active (by simpa using hactive) (by simpa using hmv)]
          · have hcarried : v.planner.owner = .attached := by simp [hplanner, ownerOfMotion, hr]
            have harbiter := hstarts.arbiter.trans (legBegins_arbiter_attached (m := m) (r := r) (by simpa using hcarried)
              (by simpa using hmv) (by simpa [hback.arbiter] using hr))
            exact ⟨by simp [hstarts.planner, hcarried], by rw [answer_arbiter, harbiter], by rw [answer_arbiter, harbiter]⟩
    case none =>
      have hrefixes : w = returnInternal (fixTaken a c s) := by
        rw [hw, takeFix_refix hp hstep hidle hrefix (by simp [activePhase, hnone]) (by simp [activePhase, hnone]) htrack,
          refixEnds, if_neg (by simp [hnone]), if_neg (by simp [hsettled.1])]
      refine ⟨fun g pg hg hpg => ?_, fun hcopy haddr => ?_⟩
      · have hplans := hrefixes.trans (returnInternal_target (g := g) (by rw [fixTaken_recovery]; exact holdTarget_eq hg))
        have hcan := returning_canPlan (c := c) hk hp hpg
        obtain ⟨v, hv⟩ : ∃ v, v = returning g (fixTaken a c s) := ⟨_, rfl⟩
        have harbiter : v.arbiter = s.arbiter := by rw [hv, returning_arbiter, fixTaken_arbiter]
        have hsupervisor : v.supervisor = s.supervisor := by rw [hv, returning_supervisor, fixTaken_supervisor]
        have htracks : OnATrack v := by
          rw [OnATrack, hv, returning_optics, fixTaken_optics]
          exact hfree.onATrack
        have hplanner := congrArg State.planner hv
        rw [returning_planner] at hplanner
        have hrecovery := congrArg State.recovery hv
        rw [returning_recovery] at hrecovery
        rw [← hv] at hplans hcan
        subst hplans
        refine ⟨fun hreach => returnedHolding_answer (plan_returns hcan (by rw [hplanner]) hreach htracks
          (by rw [hsupervisor]; exact haside) harbiter), fun hfar hnear => ?_⟩
        have hstarts := plan_fineStarts hcan htracks hfar hnear (by rw [hplanner]; simp)
        exact ⟨fineLegBegun_answer (hstarts.begun hcan.target (by rw [hsupervisor])), by simp [hstarts.planner, hplanner],
          by simp [hstarts.planner, hplanner], by simp [hstarts.planner, hplanner],
          by rw [answer_supervisor, hstarts.supervisor, aimed_supervisor, hsupervisor],
          by rw [answer_recovery, hstarts.recovery, aimed_recovery, hrecovery],
          by rw [answer_recovery, hstarts.recovery, aimed_recovery, hrecovery],
          by rw [answer_arbiter, hstarts.arbiter, legBegins_arbiter_internal (by simp [hplanner]), aimed_arbiter, harbiter]⟩
      · have hholds := hrefixes.trans (returnInternal_none (a := a) (by simp [hcopy, haddr]) (by simp))
        rw [hholds]
        exact returnedHolding_answer (endInternal_holds a (by simpa [OnATrack] using hfree.onATrack) (by simpa using haside)
          (by simp))
  case internal =>
    obtain ⟨v, hfrom, hrecord, hplans⟩ := takeFix_returns hp hphase howner hactive hstep hclean hrun hsettle htrack
    replace hw := hw.trans hplans
    have hleaves : PlanLeaves v w := hw ▸ planLeaves_plan v
    have hreact : react w = w := react_planned hleaves ⟨by rw [hfrom.arbiter]; exact hsettled.1,
      by rw [hfrom.supervisor]; exact hsettled.2.1, by simp [hfrom.step]⟩
    refine ⟨_, exec_fixReport htakes hjudge hreact, fun g pg pa htarget hpg hpa => ?_⟩
    have hcan : CanPlan k g a pg pa v :=
      ⟨by simp [hfrom.owner, howner], by rw [hfrom.target, htarget], hfrom.last, by rw [hfrom.supervisor, hk],
        by rw [← hleaves.map]; simpa using hpg, by rw [← hleaves.map]; simpa using hpa⟩
    have hinternal : v.planner.owner = .internal := by rw [hfrom.owner, howner]
    have htracks : OnATrack v := by rw [OnATrack, hfrom.optics]; exact hfree.onATrack
    have haside' : v.supervisor.drive.setsAside = false := by rw [hfrom.supervisor, haside]
    refine ⟨fun hreach => ?_, fun e hfar he => ?_⟩
    · rw [hw]
      exact returnedHolding_answer (plan_returns hcan hinternal hreach htracks haside' hfrom.arbiter)
    · rw [answer_planner, hleaves.trim] at he
      obtain ⟨hholds, hunreached⟩ := plan_returnFails hcan hinternal hfar (hfrom.fails he) htracks haside' hfrom.arbiter
      rw [hw]
      exact ⟨returnedHolding_answer hholds, by rw [answer_planner, hunreached, hrecord]⟩

end Sys2Proof.Proofs
end

section
/-! The motions that an accepted motion ends, with their reports (R126 to R128, R144), and the place that it finds (R125). -/

namespace Sys2Proof.Proofs

set_option Elab.async false

open Sys2Proof.Machine Sys2Proof.Safety Sys2Proof.Laws

variable {s t u v : State} {p : Port} {tag : Byte} {kind : MotionKind} {target : Option Nat} {m old r x : Motion} {c : Instr}
  {q : Port}

/-! ### Which motions are ended, and their reports (R126 to R128) -/

/-- The model ends the motions that the statements name, with the same results. -/
theorem endedBy_eq (kind : MotionKind) (x : Motion) : x.endedBy kind = endedWith kind x := by
  cases kind <;> cases hx : x.kind <;> simp [Motion.endedBy, endedWith, hx]

theorem ends_iff : ends kind x = true ↔ endedWith kind x ≠ none := by
  rw [ends, endedBy_eq, Option.isSome_iff_ne_none]

theorem endedReports_congr (harbiter : liveMotions t = liveMotions s) (hlast : lastGood t = lastGood s) (kind : MotionKind)
    (q : Port) : endedReports kind q t = endedReports kind q s := by
  rw [endedReports, endedReports, harbiter, hlast]

/-- The reports of the motions that are ended join their ports' queues in the order of the motions. -/
theorem reportsOf_supersede (kind : MotionKind) (q : Port) (s : State) :
    reportsOf q (supersede kind s) = reportsOf q s ++ endedReports kind q s := by
  have hlist (l : List Motion) (f : Option Nat) :
      ((l.filterMap fun m => (m.endedBy kind).map fun r => (m, r)).filter fun e => e.1.port == q).map
        (fun e => e.1.report e.2 f)
      = l.filterMap fun m => if m.port = q then (endedWith kind m).map fun r => m.report r f else none := by
    induction l with
    | nil => rfl
    | cons m l ih =>
      rw [List.filterMap_cons, List.filterMap_cons, endedBy_eq]
      cases hends : endedWith kind m with
      | none => simpa using ih
      | some r =>
        by_cases hport : m.port = q
        · simpa [hport] using ih
        · simpa [hport] using ih
  rw [supersede, reportsOf_endMotions, hlist, endedReports]
  exact congrArg (· ++ _) (reportsOf_congr q (State.setArbiter_port ..))

/-! ### The state in which the motion finds its place -/

/-- The accepted motion has its ticket, a RELEASE its latch (R123 to R125). -/
def ticketed (m : Motion) (s : State) : State :=
  if m.kind = .release then
    (takeTicket m s).setArbiter { (takeTicket m s).arbiter with releaseLatch := true }
  else takeTicket m s

/-- The motions that it ends are ended. -/
def superseded (m : Motion) (s : State) : State := supersede m.kind (ticketed m s)

/-- What acceptance leaves of the state `s` before the motion m is placed. -/
structure Supersedes (m : Motion) (s u : State) : Prop where
  active : u.arbiter.active = s.arbiter.active.filter (fun x => !ends m.kind x)
  attached : u.arbiter.attached = s.arbiter.attached.filter (fun x => !ends m.kind x)
  waiting : u.arbiter.waiting = s.arbiter.waiting.filter (fun x => !ends m.kind x)
  clock : u.clock = s.clock
  planner : u.planner = s.planner
  map : u.map = s.map
  monitor : u.monitor = s.monitor
  optics : u.optics = s.optics
  sled : u.sled = s.sled
  spindle : u.spindle = s.spindle
  recovery : u.recovery = s.recovery
  supervisor : u.supervisor = s.supervisor
  reports : ∀ q, reportsOf q u = reportsOf q s ++ endedReports m.kind q s
  mask : ∀ q, (u.port q).mask = (s.port q).mask

theorem ticketed_slots (m : Motion) (s : State) : (ticketed m s).arbiter.active = s.arbiter.active ∧
    (ticketed m s).arbiter.attached = s.arbiter.attached ∧ (ticketed m s).arbiter.waiting = s.arbiter.waiting := by
  unfold ticketed
  split <;> simp

theorem ticketed_port (m : Motion) (s : State) (q : Port) : (ticketed m s).port q = (takeTicket m s).port q := by
  unfold ticketed
  split <;> simp

theorem ticketed_reports (m : Motion) (s : State) (q : Port) : reportsOf q (ticketed m s) = reportsOf q s :=
  (reportsOf_congr q (ticketed_port m s q)).trans (by simp)

theorem ticketed_live (m : Motion) (s : State) : liveMotions (ticketed m s) = liveMotions s := by
  obtain ⟨hactive, hattached, hwaiting⟩ := ticketed_slots m s
  rw [liveMotions, hactive, hattached, hwaiting, liveMotions]

theorem superseded_of (m : Motion) (s : State) : Supersedes m s (superseded m s) := by
  obtain ⟨hactive, hattached, hwaiting⟩ := ticketed_slots m s
  obtain ⟨hactive', hattached', hwaiting'⟩ := supersede_slots m.kind (ticketed m s)
  have hmonitor : (ticketed m s).monitor = s.monitor := by unfold ticketed; split <;> simp
  constructor
  case active => rw [superseded, hactive', hactive]
  case attached => rw [superseded, hattached', hattached]
  case waiting => rw [superseded, hwaiting', hwaiting]
  case reports =>
    intro q
    rw [superseded, reportsOf_supersede, ticketed_reports,
      endedReports_congr (ticketed_live m s) (lastGood_congr hmonitor)]
  case mask =>
    intro q
    rw [superseded, (((Keeps.refl (ticketed m s)).supersede).port q).mask, ticketed_port, takeTicket_mask]
  case clock | planner | map | monitor | optics | sled | spindle | recovery | supervisor =>
    simp only [superseded, supersede, ticketed]
    split <;> simp

theorem Supersedes.last (h : Supersedes m s u) : lastGood u = lastGood s := lastGood_congr h.monitor

theorem Supersedes.fresh (h : Supersedes m s u) : fixFresh u = fixFresh s := fixFresh_congr h.monitor

theorem Supersedes.noneWaiting (h : Supersedes m s u) (hwaiting : s.arbiter.waiting = []) : u.arbiter.waiting = [] := by
  rw [h.waiting, hwaiting]
  rfl

theorem filter_ended {o : Option Motion} (ho : o = some x) (hends : endedWith kind x ≠ none) :
    o.filter (fun y => !ends kind y) = none := by
  simp [ho, ends_iff.2 hends]

theorem filter_left {o : Option Motion} (ho : o = some x) (hleft : endedWith kind x = none) :
    o.filter (fun y => !ends kind y) = some x := by
  have hnot : ends kind x = false := by
    cases h : ends kind x with
    | false => rfl
    | true => exact absurd hleft (ends_iff.1 h)
  simp [ho, Option.filter, hnot]

/-! ### The place that it finds (R125, R129) -/

/-- Only the slots of the state before are asked for the place. -/
theorem place_congr (hactive : u.arbiter.active = s.arbiter.active) (hattached : u.arbiter.attached = s.arbiter.attached) :
    place m u v = place m s v := by
  rw [place, hactive, hattached]
  rfl

theorem accept_places (m : Motion) (s : State) : accept m s = place m s (superseded m s) := by
  obtain ⟨hactive, hattached, -⟩ := ticketed_slots m s
  exact place_congr hactive hattached

/-- Whatever place it finds and whatever follows, only reports join the queues. -/
theorem settledWith_reports (m : Motion) (s : State) (q : Port) :
    ∃ more, reportsOf q (settledWith m s) = reportsOf q s ++ endedReports m.kind q s ++ more := by
  obtain ⟨u, hu⟩ : ∃ u, u = superseded m s := ⟨_, rfl⟩
  have hsupersedes : Supersedes m s u := hu ▸ superseded_of m s
  have hinHand : Keeps [m] (withWaiting m u) u := by
    have hhead : Keeps [m] (withWaiting m u) (setWaiting u.arbiter.waiting (withWaiting m u)) :=
      (Keeps.refl (withWaiting m u)).takeHead rfl
    exact hhead
  have hplaced : Keeps [] (withWaiting m u) (settledWith m s) := by
    rw [settledWith, accept_places, ← hu]
    exact (hinHand.place hsupersedes.active hsupersedes.attached).react
  obtain ⟨more, hmore⟩ := (hplaced.port q).completions
  rw [withWaiting_port] at hmore
  exact ⟨more, hmore.trans (congrArg (· ++ more) (hsupersedes.reports q))⟩

/-- A motion with a target that ends the active one takes its slot. -/
theorem accept_takesSlot (hmoves : Moves m.kind) (hold : s.arbiter.active = some old) (hends : endedWith m.kind old ≠ none) :
    accept m s = takeSlot m (old.phase.getD .acquire) (superseded m s) := by
  have hfilter : s.arbiter.active.filter (ends m.kind) = some old := by simp [hold, Option.filter, ends_iff.2 hends]
  rw [accept_places]
  rcases hmoves with h | h | h <;> rw [h] at hfilter <;> simp [place, completesAtOnce, h, hfilter]

/-- A STOP that ends the active motion begins its mechanics at once. -/
theorem accept_stops (hkind : m.kind = .stop) (hold : s.arbiter.active = some old) (hends : endedWith .stop old ≠ none)
    (hstopped : s.supervisor.drive ≠ .stopped) (hempty : s.supervisor.drive ≠ .empty) :
    accept m s = activateStop m (superseded m s) := by
  have hdrive : (superseded m s).supervisor.drive = s.supervisor.drive := by rw [(superseded_of m s).supervisor]
  have hnot : completesAtOnce .stop (superseded m s) = false := by
    unfold completesAtOnce
    rw [hdrive]
    split
    · exact absurd ‹_› hstopped
    · exact absurd ‹_› hempty
    · simp_all
    · rfl
  rw [accept_places, place, hkind, hnot]
  simp [hold, ends_iff.2 hends]

/-- A REJOIN takes the attached place of an older one. -/
theorem accept_attaches (hkind : m.kind = .rejoin) (hactive : s.arbiter.active = some x) (hx : x.kind = .follow)
    (hold : s.arbiter.attached = some old) (hrejoin : old.kind = .rejoin) :
    accept m s = attach m (superseded m s) := by
  have hleft : ends .rejoin x = false := by simp [ends, Motion.endedBy, hx]
  have hends : ends .rejoin old = true := by simp [ends, Motion.endedBy, hrejoin]
  rw [accept_places]
  simp [place, completesAtOnce, hkind, hactive, Option.filter, hleft, hold, hends]

/-- A RELEASE carries an older one on from where it stands. -/
theorem accept_carriesOn {ph : Phase} (hkind : m.kind = .release) (hold : s.arbiter.active = some old)
    (hrelease : old.kind = .release) (hph : old.phase = some ph) (hdrive : s.supervisor.drive ≠ .released) :
    accept m s = setActive (some (m.activeIn ph)) (beginSession (superseded m s)) := by
  have hsup : (superseded m s).supervisor.drive = s.supervisor.drive := by rw [(superseded_of m s).supervisor]
  have hnot : completesAtOnce .release (superseded m s) = false := by
    unfold completesAtOnce
    rw [hsup]
    split
    · simp_all
    · simp_all
    · exact absurd ‹_› hdrive
    · rfl
  rw [accept_places, place, hkind, hnot]
  simp [activateRelease, hold, hrelease, hph]

end Sys2Proof.Proofs
end

section
/-! An accepted motion takes the slot of the motion that it ends (R58, R59, R62, R126 to R129, R137, R147; entries 16 and 33). -/

namespace Sys2Proof.Proofs

set_option Elab.async false

open Sys2Proof.Machine Sys2Proof.Safety Sys2Proof.Laws

variable {s t u v : State} {p : Port} {tag : Byte} {kind : MotionKind} {target : Option Nat} {m old r x : Motion} {c : Instr}
  {k : DiscClass} {g a pg pa : Nat} {ph : Phase}

/-! ### The accepted motion -/

/-- A motion as an accepted request brings it. -/
structure Brought (p : Port) (tag : Byte) (kind : MotionKind) (target : Option Nat) (m : Motion) : Prop where
  port : m.port = p
  tag : m.tag = tag
  kind : m.kind = kind
  target : m.target = target
  cancel : m.cancelPending = false

theorem brought_accepted {e : Option Nat} {v : Option Multiple} {n : Time} :
    Brought p tag kind target (Motion.accepted p tag kind target e v n) := ⟨rfl, rfl, rfl, rfl, rfl⟩

theorem Brought.hasSlot (h : Brought p tag kind target m) (hactive : t.arbiter.active = some (m.activeIn ph)) :
    HasSlot p tag kind target ph t := ⟨_, hactive, h.port, h.tag, h.kind, h.target, rfl, rfl, h.cancel⟩

/-- A motion with a target is of a kind that moves, and is accepted in a disc's class alone. -/
theorem moves_of_accepted (h : Accepted p tag s c kind (some g)) : Moves kind ∧ ∃ k, s.supervisor.cls = some k := by
  cases h with
  | seek a v htakes hpass => exact ⟨.inl rfl, class_of_accepted (by decide) hpass⟩
  | follow a v e htakes hpass =>
    exact ⟨.inr (.inl rfl), class_of_accepted (kind := .follow) (by decide) hpass⟩
  | rejoin a htakes hpass => exact ⟨.inr (.inr rfl), class_of_accepted (by decide) hpass⟩

theorem hasSlot_answer {st : Status} {data : List Byte} {q : Port} {b : Byte} (h : HasSlot p tag kind target ph t) :
    HasSlot p tag kind target ph (t.answer q b st data) := ⟨by simpa using h.motion⟩

/-! ### The slot of a motion that worked (R58, R59, R129) -/

/-- The motion has the slot and the planner, and the drive moves. -/
def tookSlot (m : Motion) (s : State) : State := nowMoving (takePlanner m .acquire (superseded m s))

section TookSlot

variable (m : Motion) (s : State)

@[simp] theorem tookSlot_active : (tookSlot m s).arbiter.active = some (m.activeIn .acquire) := by simp [tookSlot]
@[simp] theorem tookSlot_planner : (tookSlot m s).planner = { s.planner with
    owner := .active, target := m.target, returning := false, acquireStep := .none
    sessionLegs := 0, sessionSled := 0 } := by simp [tookSlot, (superseded_of m s).planner]
@[simp] theorem tookSlot_optics : (tookSlot m s).optics = s.optics := by simp [tookSlot, (superseded_of m s).optics]
@[simp] theorem tookSlot_map : (tookSlot m s).map = s.map := by simp [tookSlot, (superseded_of m s).map]
@[simp] theorem tookSlot_monitor : (tookSlot m s).monitor = s.monitor := by simp [tookSlot, (superseded_of m s).monitor]
@[simp] theorem tookSlot_clock : (tookSlot m s).clock = s.clock := by simp [tookSlot, (superseded_of m s).clock]
theorem tookSlot_reports (q : Port) : reportsOf q (tookSlot m s) = reportsOf q s ++ endedReports m.kind q s := by
  simp [tookSlot, (superseded_of m s).reports]
theorem tookSlot_last : lastGood (tookSlot m s) = lastGood s := lastGood_congr (tookSlot_monitor m s)
theorem tookSlot_fresh : fixFresh (tookSlot m s) = fixFresh s := fixFresh_congr (tookSlot_monitor m s)
theorem tookSlot_ident : (tookSlot m s).supervisor.ident = s.supervisor.ident := by
  simp [tookSlot, nowMoving, (superseded_of m s).supervisor]
theorem tookSlot_cls : (tookSlot m s).supervisor.cls = s.supervisor.cls := by
  simp [tookSlot, nowMoving, (superseded_of m s).supervisor]

end TookSlot

theorem reports_answer {st : Status} {data : List Byte} {q b : Port} {y : Byte} :
    completionsIn ((t.answer b y st data).port q).queue = reportsOf q t := by rw [answer_queue]; rfl

/-- The motion has the slot and the planner, and the drive is MOVING, out of PARKING too (R129). -/
def drivenOn (m : Motion) (s : State) : State :=
  recomputeM (setDrive .moving (takePlanner m .acquire (superseded m s)))

theorem drivenOn_supervisor (m : Motion) (s : State) :
    (drivenOn m s).supervisor = { s.supervisor with drive := .moving } := by
  simp [drivenOn, (superseded_of m s).supervisor]

theorem drivenOn_planner (m : Motion) (s : State) : (drivenOn m s).planner = { s.planner with
    owner := .active, target := m.target, returning := false, acquireStep := .none
    sessionLegs := 0, sessionSled := 0 } := by
  simp [drivenOn, (superseded_of m s).planner]

theorem drivenOn_reports (m : Motion) (s : State) (q : Port) :
    reportsOf q (drivenOn m s) = reportsOf q s ++ endedReports m.kind q s := by
  simp [drivenOn, (superseded_of m s).reports]

/-- A spindle that comes up, or that brakes with no target, is driven on from below every band. -/
theorem drivenOn_rising (hslow : s.spindle.measured < 135)
    (hstate : s.spindle.state = .spinup ∨ s.spindle.state = .braking ∧ s.spindle.target = 0) :
    Rising (fun _ => True) (drivenOn m s).spindle := by
  have hsupersedes := superseded_of m s
  have hrising : Rising (fun _ => True) (superseded m s).spindle := by
    rw [hsupersedes.spindle]
    exact ⟨hslow, hstate.imp (fun h => ⟨h, trivial⟩) fun h => ⟨.inr h.1, h.2⟩⟩
  exact kept_recomputeM (rising_kept trivial) (kept_setDrive (rising_kept trivial)
    (kept_takePlanner (rising_kept trivial) hrising))

section TakesSlot

variable {data : List Byte}

variable (hbrought : Brought p tag kind target m) (hmoves : Moves kind) (hold : s.arbiter.active = some old)
  (hends : endedWith kind old ≠ none) (hwaiting : s.arbiter.waiting = []) (hident : s.supervisor.ident = none)

include hbrought hmoves hold hends hwaiting hident

/-- It takes over a leg in flight, which lands as its first plan. -/
theorem settledWith_takesLeg (hph : old.phase = some .leg ∨ old.phase = some .settle ∨ old.phase = some .verify)
    (hstage : s.planner.legStage ≠ .idle) (hclean : s.planner.legDisturbed = false) (hfocus : s.optics.focus = .locked) :
    settledWith m s = takeLeg (tookSlot m s) := by
  have hsupersedes := superseded_of m s
  have hwork : beginWork (tookSlot m s) = takeLeg (tookSlot m s) := by
    simp [beginWork, legInFlight, hstage, hclean, hfocus]
  have haccept : accept m s = takeLeg (tookSlot m s) := by
    rw [accept_takesSlot (hbrought.kind ▸ hmoves) hold (hbrought.kind ▸ hends), ← hwork]
    rcases hph with h | h | h <;> rw [h] <;> rfl
  have hquiet : Settled (takeLeg (tookSlot m s)) :=
    ⟨by simp [takeLeg, setPhase, tookSlot, hsupersedes.noneWaiting hwaiting],
      by simp [takeLeg, tookSlot_ident, hident], by simp [takeLeg]⟩
  rw [settledWith, haccept, react_settled hquiet]

/-- It makes its first plan from the fresh fix. -/
theorem settledWith_takesPlan (hph : old.phase = some .approach ∨ old.phase = some .following)
    (hidle : s.planner.legStage = .idle) (hfresh : fixFresh s = true) : settledWith m s = plan (tookSlot m s) := by
  have hsupersedes := superseded_of m s
  have hwork : beginWork (tookSlot m s) = plan (tookSlot m s) :=
    beginWork_plans (by simp [hidle]) (by rw [tookSlot_fresh, hfresh])
  have haccept : accept m s = plan (tookSlot m s) := by
    rw [accept_takesSlot (hbrought.kind ▸ hmoves) hold (hbrought.kind ▸ hends), ← hwork]
    rcases hph with h | h <;> rw [h] <;> rfl
  have hquiet : Settled (tookSlot m s) :=
    ⟨by simp [tookSlot, hsupersedes.noneWaiting hwaiting], by rw [tookSlot_ident, hident], by simp⟩
  rw [settledWith, haccept, react_planned (planLeaves_plan _) hquiet]

/-- A leg in flight lands for the motion that has taken the slot. -/
theorem takesLeg_answer (hph : old.phase = some .leg ∨ old.phase = some .settle ∨ old.phase = some .verify)
    (hstage : s.planner.legStage ≠ .idle) (hclean : s.planner.legDisturbed = false) (hfocus : s.optics.focus = .locked)
    (hdrive : s.supervisor.drive = .moving) (t : State) (ht : t = (settledWith m s).answer p tag .accepted data) :
    HasSlot p tag kind target s.planner.legStage.phase t ∧
    Owns target 0 0 t ∧ t.planner.legStage = s.planner.legStage ∧ t.planner.legCount = s.planner.legCount ∧
    t.supervisor = s.supervisor ∧ t.optics = s.optics ∧
    (s.planner.legStage = .running → s.planner.legKind = .sled → s.sled.state = .leg →
      t.sled = { s.sled with stopPending := true }) ∧
    ∀ q, completionsIn (t.port q).queue = completionsIn (s.port q).queue ++ endedReports kind q s := by
  have hsupersedes := superseded_of m s
  rw [settledWith_takesLeg hbrought hmoves hold hends hwaiting hident hph hstage hclean hfocus] at ht
  have hactive : (takeLeg (tookSlot m s)).arbiter.active = some (m.activeIn s.planner.legStage.phase) := by
    simp [takeLeg, setPhase, Motion.activeIn]
  have hmoving : (tookSlot m s).supervisor = s.supervisor := by
    have haside : (takePlanner m .acquire (superseded m s)).supervisor.drive.setsAside = false := by
      rw [takePlanner_supervisor, hsupersedes.supervisor, hdrive]
      rfl
    rw [tookSlot, nowMoving_supervisor _ haside, takePlanner_supervisor, hsupersedes.supervisor, ← hdrive]
  rw [ht]
  refine ⟨hasSlot_answer (hbrought.hasSlot hactive), by simp [takeLeg, Owns, hbrought.target], by simp [takeLeg],
    by simp [takeLeg], by simp [takeLeg, hmoving], by simp [takeLeg], fun hrunning hsled hleg => ?_, fun q => ?_⟩
  · simp [takeLeg, tookSlot, hsupersedes.planner, hrunning, hsled, hsupersedes.sled, Sled.stop, hleg]
  · rw [reports_answer, takeLeg, reportsOf_setPhase, tookSlot_reports, hbrought.kind]
    rfl

/-- The first plan of the motion begins a fine leg. -/
theorem takesPlan_answer (htarget : target = some g) (hk : s.supervisor.cls = some k) (hlast : lastGood s = some a)
    (hfresh : fixFresh s = true) (hph : old.phase = some .approach ∨ old.phase = some .following)
    (hidle : s.planner.legStage = .idle) (htrack : OnATrack s) (hpg : s.map.predict g = some pg)
    (hpa : s.map.predict a = some pa) (hfar : CallsForLeg g a ((pg : Int) - (pa : Int)))
    (hnear : ((pg : Int) - (pa : Int)).natAbs ≤ 64) (t : State)
    (ht : t = (settledWith m s).answer p tag .accepted data) :
    HasSlot p tag kind target .leg t ∧ Owns target 1 0 t ∧ FineLegBegun g ((pg : Int) - (pa : Int)) s t ∧
    ∀ q, completionsIn (t.port q).queue = completionsIn (s.port q).queue ++ endedReports kind q s := by
  rw [settledWith_takesPlan hbrought hmoves hold hends hwaiting hident hph hidle hfresh] at ht
  have hcan : CanPlan k g a pg pa (tookSlot m s) :=
    ⟨by simp, by simp [hbrought.target, htarget], by rw [tookSlot_last, hlast], by rw [tookSlot_cls, hk], by simpa using hpg,
      by simpa using hpa⟩
  have hstarts := plan_fineStarts hcan (by simpa [OnATrack] using htrack) hfar hnear (by simp)
  have harbiter := hstarts.arbiter.trans
    (legBegins_arbiter_active (m := m.activeIn .acquire) (by simp) (by simp))
  rw [ht]
  refine ⟨hasSlot_answer ⟨_, congrArg Arbiter.active harbiter, hbrought.port, hbrought.tag, hbrought.kind, hbrought.target,
    rfl, rfl, hbrought.cancel⟩, by simp [hstarts.planner, Owns, hbrought.target],
    fineLegBegun_answer (hstarts.begun hcan.target (tookSlot_cls m s)), fun q => ?_⟩
  rw [reports_answer, hstarts.reports, aimed_reports, tookSlot_reports, hbrought.kind]
  rfl

omit hident in
/-- It begins an ACQUIRE of its own where the drive was in ACQUIRE, and where an older STOP brakes. -/
theorem settledWith_takesAcquire (hk : s.supervisor.cls = some k)
    (hph : old.phase = some .acquire ∧ s.supervisor.drive = .moving ∨
      old.kind = .stop ∧ old.phase = some .braking ∧ s.supervisor.drive = .parking) (hslow : s.spindle.measured < 135)
    (hstate : s.spindle.state = .spinup ∨ s.spindle.state = .braking ∧ s.spindle.target = 0) :
    settledWith m s = startAcquire (drivenOn m s) ∧ (startAcquire (drivenOn m s)).spindle.state = .spinup := by
  have hsupersedes := superseded_of m s
  have haccept : accept m s = startAcquire (drivenOn m s) := by
    rw [accept_takesSlot (hbrought.kind ▸ hmoves) hold (hbrought.kind ▸ hends)]
    rcases hph with ⟨h, hdrive⟩ | ⟨-, h, -⟩
    · have hset : reportDrive .moving (takePlanner m .acquire (superseded m s))
          = setDrive .moving (takePlanner m .acquire (superseded m s)) := by
        simp [reportDrive, hsupersedes.supervisor, hdrive, DriveState.setsAside]
      rw [h, drivenOn, ← hset]
      rfl
    · rw [h]
      rfl
  have hspin : (startAcquire (drivenOn m s)).spindle.state = .spinup := by
    rw [startAcquire_spindle]
    exact (rising_spindleCommand (drivenOn_rising hslow hstate) trivial
      (by rw [drivenOn_supervisor]; exact hk)).1
  have hquiet : (startAcquire (drivenOn m s)).arbiter.waiting = [] := by
    rw [(startAcquire_acquires _).arbiter]
    simp [drivenOn, hsupersedes.noneWaiting hwaiting]
  rw [settledWith, haccept]
  exact ⟨react_spinning hquiet (by rw [hspin]; rfl), hspin⟩

omit hident in
theorem takesAcquire_answer (hk : s.supervisor.cls = some k)
    (hph : old.phase = some .acquire ∧ s.supervisor.drive = .moving ∨
      old.kind = .stop ∧ old.phase = some .braking ∧ s.supervisor.drive = .parking) (hslow : s.spindle.measured < 135)
    (hstate : s.spindle.state = .spinup ∨ s.spindle.state = .braking ∧ s.spindle.target = 0) (t : State)
    (ht : t = (settledWith m s).answer p tag .accepted data) :
    HasSlot p tag kind target .acquire t ∧ Owns target 0 0 t ∧ t.planner.acquireStep = .spin ∧
    t.supervisor.drive = .moving ∧ t.optics = s.optics ∧ t.spindle.state = .spinup ∧ t.spindle.mode = .clv ∧
    t.spindle.basis = some ((s.monitor.fix.map Fix.coord).getD 0) ∧ ClvTarget t ∧
    ∀ q, completionsIn (t.port q).queue = completionsIn (s.port q).queue ++ endedReports kind q s := by
  have hsupersedes := superseded_of m s
  obtain ⟨heq, hspin⟩ := settledWith_takesAcquire hbrought hmoves hold hends hwaiting hk hph hslow hstate
  have hacquires := startAcquire_acquires (drivenOn m s)
  have hslot : (startAcquire (drivenOn m s)).arbiter.active = some (m.activeIn .acquire) := by
    rw [hacquires.arbiter]
    simp [drivenOn, Motion.activeIn]
  have hmonitor : (drivenOn m s).monitor = s.monitor := by simp [drivenOn, hsupersedes.monitor]
  rw [heq] at ht
  rw [ht]
  refine ⟨hasSlot_answer (hbrought.hasSlot hslot), ?_, by simp [hacquires.planner], ?_, ?_, by simpa using hspin,
    by simpa using hacquires.mode.1, by rw [answer_spindle, hacquires.mode.2, hmonitor],
    clvTarget_congr (answer_spindle ..) (by simp) (startAcquire_clv (by rw [drivenOn_supervisor]; exact hk)), fun q => ?_⟩
  · simp [Owns, hacquires.planner, drivenOn_planner, hbrought.target]
  · rw [answer_supervisor, hacquires.supervisor, drivenOn_supervisor]
  · rw [answer_optics, hacquires.optics]
    simp [drivenOn, hsupersedes.optics]
  · rw [reports_answer, hacquires.reports, drivenOn_reports, hbrought.kind]
    rfl

/-- A recovery goes on with the motion, and the drive is MOVING. -/
theorem takesRecovery_answer (hph : old.phase = some .recovering) (t : State)
    (ht : t = (settledWith m s).answer p tag .accepted data) :
    HasSlot p tag kind target .recovering t ∧ Owns target 0 0 t ∧ TakenInRecovery s t ∧ t.optics = s.optics ∧
    t.recovery = { s.recovery with keptPhase := none, holdCopy := none } ∧
    ∀ q, completionsIn (t.port q).queue = completionsIn (s.port q).queue ++ endedReports kind q s := by
  have hsupersedes := superseded_of m s
  obtain ⟨v, hv⟩ : ∃ v, v = (takePlanner m .recovering (superseded m s)).setRecovery
      { (takePlanner m .recovering (superseded m s)).recovery with keptPhase := none } := ⟨_, rfl⟩
  have hsupervisor : v.supervisor = s.supervisor := by simp [hv, hsupersedes.supervisor]
  have haccept : accept m s = nowMoving v := by
    rw [accept_takesSlot (hbrought.kind ▸ hmoves) hold (hbrought.kind ▸ hends), hph, hv]
    rfl
  have hquiet : Settled (nowMoving v) :=
    ⟨by simp [hv, hsupersedes.noneWaiting hwaiting], by simp [nowMoving, hsupervisor, hident], by simp [hv]⟩
  rw [settledWith, haccept, react_settled hquiet] at ht
  have htaken : TakenInRecovery s (nowMoving v) := by
    refine takenInRecovery_of (u := v) (by simp [nowMoving]) hsupervisor fun hrecovering q hq => ?_
    have hnotice := nowMoving_noticed (s := v) (q := q) (by simp [hsupervisor, hrecovering])
      (by rw [hsupervisor, hrecovering]; rfl)
      (by rw [hv, State.setRecovery_port, takePlanner_mask, hsupersedes.mask]; exact hq)
    rw [hsupervisor] at hnotice
    simpa [hv, hsupersedes.clock] using hnotice
  rw [ht]
  refine ⟨hasSlot_answer (hbrought.hasSlot (by simp [hv])), by simp [hv, Owns, hbrought.target],
    takenInRecovery_answer htaken, by simp [hv, hsupersedes.optics], by simp [hv, hsupersedes.recovery], fun q => ?_⟩
  have hreports : reportsOf q (nowMoving v) = reportsOf q s ++ endedReports m.kind q s := by
    simp [hv, hsupersedes.reports]
  rw [reports_answer, hreports, hbrought.kind]
  rfl

/-- A sag goes on with the motion. -/
theorem takesSag_answer (hph : old.phase = some .suspended) (t : State)
    (ht : t = (settledWith m s).answer p tag .accepted data) :
    HasSlot p tag kind target .suspended t ∧ Owns target 0 0 t ∧ t.optics = s.optics ∧
    t.supervisor = { s.supervisor with suspendedPhase := none } ∧ t.recovery = { s.recovery with holdCopy := none } ∧
    ∀ q, completionsIn (t.port q).queue = completionsIn (s.port q).queue ++ endedReports kind q s := by
  have hsupersedes := superseded_of m s
  obtain ⟨v, hv⟩ : ∃ v, v = (takePlanner m .suspended (superseded m s)).setSupervisor
      { (takePlanner m .suspended (superseded m s)).supervisor with suspendedPhase := none } := ⟨_, rfl⟩
  have haccept : accept m s = v := by
    rw [accept_takesSlot (hbrought.kind ▸ hmoves) hold (hbrought.kind ▸ hends), hph, hv]
    rfl
  have hquiet : Settled v :=
    ⟨by simp [hv, hsupersedes.noneWaiting hwaiting], by simp [hv, hsupersedes.supervisor, hident], by simp [hv]⟩
  rw [settledWith, haccept, react_settled hquiet] at ht
  rw [ht]
  refine ⟨hasSlot_answer (hbrought.hasSlot (by simp [hv])), by simp [hv, Owns, hbrought.target],
    by simp [hv, hsupersedes.optics], by simp [hv, hsupersedes.supervisor], by simp [hv, hsupersedes.recovery], fun q => ?_⟩
  have hreports : reportsOf q v = reportsOf q s ++ endedReports m.kind q s := by simp [hv, hsupersedes.reports]
  rw [reports_answer, hreports, hbrought.kind]
  rfl

end TakesSlot

/-! ### A STOP takes over (R76, R127, R129, R162) -/

/-- The STOP has the slot and begins its mechanics from here. -/
def stopBegins (m : Motion) (s : State) : State :=
  setActive (some (m.activeIn .braking)) (beginSession (superseded m s))

theorem activateStop_eq (m : Motion) (s : State) : activateStop m (superseded m s) = stopMechanics (stopBegins m s) := rfl

section StopBegins

variable (m : Motion) (s : State)

theorem stopBegins_spindle : (stopBegins m s).spindle = s.spindle := by
  simp [stopBegins, beginSession, (superseded_of m s).spindle]
theorem stopBegins_supervisor : (stopBegins m s).supervisor = s.supervisor := by
  simp [stopBegins, beginSession, (superseded_of m s).supervisor]
theorem stopBegins_clock : (stopBegins m s).clock = s.clock := by
  simp [stopBegins, beginSession, (superseded_of m s).clock]
theorem stopBegins_reports (q : Port) : reportsOf q (stopBegins m s) = reportsOf q s ++ endedReports m.kind q s := by
  simp [stopBegins, beginSession, (superseded_of m s).reports]
theorem stopBegins_active : (setPhase .braking (stopBegins m s)).arbiter.active = some (m.activeIn .braking) := by
  simp [stopBegins, setPhase, Motion.activeIn]
theorem stopBegins_attached : (setPhase .braking (stopBegins m s)).arbiter.attached
    = s.arbiter.attached.filter (fun x => !ends m.kind x) := by
  simp [stopBegins, setPhase, beginSession, (superseded_of m s).attached]
theorem stopBegins_waiting (hwaiting : s.arbiter.waiting = []) :
    (setPhase .braking (stopBegins m s)).arbiter.waiting = [] := by
  simp [stopBegins, setPhase, beginSession, (superseded_of m s).noneWaiting hwaiting]

end StopBegins

/-- The STOP mechanics leave a braking spindle braking, its stop limit as it was (R76). -/
structure KeepsBraking (s t : State) : Prop where
  drive : t.supervisor.drive = .parking ∧ t.supervisor.ident = s.supervisor.ident
  arbiter : t.arbiter = (setPhase .braking s).arbiter
  step : t.planner.acquireStep = .none
  spindle : t.spindle.state = .braking ∧ t.spindle.stopLimit = s.spindle.stopLimit
  reports : ∀ q, reportsOf q t = reportsOf q s

theorem stopMechanics_braking (h : s.spindle.state = .braking) : KeepsBraking s (stopMechanics s) := by
  obtain ⟨hbraking, hlimit⟩ := brake_braking (now := s.clock) h
  have heq : stopMechanics s = setDrive .parking (park (setPhase .braking (disown s))) := by
    rw [stopMechanics, parkOrStop, if_neg (by simp [spindleStopped, hbraking])]
  obtain ⟨m, hm⟩ := setDrive_spindle_stop (s := park (setPhase .braking (disown s))) .parking
    (by simp [(brake_stops _ _).1])
  rw [heq]
  refine ⟨by simp, by simp [setPhase], by simp [disown], ?_, fun q => ?_⟩
  · rw [hm]
    simp [hbraking, hlimit]
  · rw [reportsOf_setDrive, reportsOf_park]
    simp

section Stops

variable {data : List Byte} (hbrought : Brought p tag .stop none m) (hold : s.arbiter.active = some old)
  (hends : endedWith .stop old ≠ none) (hstopped : s.supervisor.drive ≠ .stopped) (hempty : s.supervisor.drive ≠ .empty)
  (hwaiting : s.arbiter.waiting = []) (hident : s.supervisor.ident = none)

include hbrought hold hends hstopped hempty hwaiting hident

/-- Over a motion it parks the drive, and it is the only motion left. -/
theorem stopParks_answer (hattached : AttachedOk s) (hdriven : Driven s.spindle) (hturns : 30 ≤ s.spindle.measured)
    (t : State) (ht : t = (settledWith m s).answer p tag .accepted data) :
    HasSlot p tag .stop none .braking t ∧ liveMotions t = t.arbiter.active.toList ∧ t.planner.owner = .none ∧
    t.supervisor.drive = .parking ∧ Braked s t ∧ t.optics.focus = .off ∧ t.optics.tracking = .off ∧
    t.recovery.phase = .none ∧ t.supervisor.sagTimer = none ∧
    ∀ q, completionsIn (t.port q).queue = completionsIn (s.port q).queue ++ endedReports .stop q s := by
  obtain ⟨v, hv⟩ : ∃ v, v = stopBegins m s := ⟨_, rfl⟩
  have hspindle : v.spindle = s.spindle := by rw [hv, stopBegins_spindle]
  have hclock : v.clock = s.clock := by rw [hv, stopBegins_clock]
  have hparks := stopMechanics_parks (s := v) (by rw [hspindle]; exact hdriven) (by rw [hspindle]; exact hturns)
  have hleft : (stopMechanics v).arbiter.waiting = [] := by rw [hparks.arbiter, hv, stopBegins_waiting m s hwaiting]
  have hnone : (stopMechanics v).arbiter.attached = none := by
    rw [hparks.arbiter, hv, stopBegins_attached, hbrought.kind]
    cases hr : s.arbiter.attached with
    | none => rfl
    | some r => exact filter_ended rfl (by simp [endedWith, hattached r hr])
  have hquiet : Settled (stopMechanics v) :=
    ⟨hleft, by rw [hparks.drive, hv, stopBegins_supervisor]; exact hident, by simp [hparks.planner.2]⟩
  rw [settledWith, accept_stops hbrought.kind hold hends hstopped hempty, activateStop_eq, ← hv, react_settled hquiet] at ht
  rw [ht]
  refine ⟨hasSlot_answer (hbrought.hasSlot ?_), ?_, by rw [answer_planner, hparks.planner.1],
    by rw [answer_supervisor, hparks.drive], ?_, by rw [answer_optics, hparks.loops.1],
    by rw [answer_optics, hparks.loops.2], by rw [answer_recovery, hparks.recovery],
    by rw [answer_supervisor, hparks.drive], fun q => ?_⟩
  · rw [hparks.arbiter, hv, stopBegins_active]
  · simp [liveMotions, hleft, hnone]
  · have hbraked := hparks.spindle
    rw [Braked, hclock] at hbraked
    rw [Braked, answer_spindle]
    exact hbraked
  · rw [reports_answer, hparks.reports, hv, stopBegins_reports, hbrought.kind]
    rfl

/-- Over an older STOP it takes over the braking. -/
theorem stopTakesOver_answer (hbraking : s.spindle.state = .braking) (t : State)
    (ht : t = (settledWith m s).answer p tag .accepted data) :
    HasSlot p tag .stop none .braking t ∧ t.supervisor.drive = .parking ∧ t.spindle.state = .braking ∧
    t.spindle.stopLimit = s.spindle.stopLimit ∧
    ∀ q, completionsIn (t.port q).queue = completionsIn (s.port q).queue ++ endedReports .stop q s := by
  obtain ⟨v, hv⟩ : ∃ v, v = stopBegins m s := ⟨_, rfl⟩
  have hspindle : v.spindle = s.spindle := by rw [hv, stopBegins_spindle]
  have hkeeps := stopMechanics_braking (s := v) (by rw [hspindle, hbraking])
  have hquiet : Settled (stopMechanics v) :=
    ⟨by rw [hkeeps.arbiter, hv, stopBegins_waiting m s hwaiting],
      by rw [hkeeps.drive.2, hv, stopBegins_supervisor, hident], by simp [hkeeps.step]⟩
  rw [settledWith, accept_stops hbrought.kind hold hends hstopped hempty, activateStop_eq, ← hv, react_settled hquiet] at ht
  rw [ht]
  refine ⟨hasSlot_answer (hbrought.hasSlot ?_), by rw [answer_supervisor, hkeeps.drive.1],
    by rw [answer_spindle, hkeeps.spindle.1], by rw [answer_spindle, hkeeps.spindle.2, hspindle], fun q => ?_⟩
  · rw [hkeeps.arbiter, hv, stopBegins_active]
  · rw [reports_answer, hkeeps.reports, hv, stopBegins_reports, hbrought.kind]
    rfl

end Stops

/-! ### A REJOIN takes the place of an older one (R59, R62, R127, R137) -/

/-- The REJOIN is attached in the place of the older one, and has the planner. -/
structure Attaches (target : Option Nat) (m x : Motion) (s t : State) : Prop where
  active : t.arbiter.active = some x
  attached : t.arbiter.attached = some m.attachedOn
  waiting : t.arbiter.waiting = []
  planner : t.planner = { s.planner with
    owner := .attached, target := target, returning := false, acquireStep := .none, sessionLegs := 0, sessionSled := 0 }
  ident : t.supervisor.ident = none
  optics : t.optics = s.optics
  recovery : t.recovery = s.recovery
  reports : ∀ q, reportsOf q t = reportsOf q s ++ endedReports .rejoin q s

section AttachedInPlace

variable {data : List Byte} (hbrought : Brought p tag .rejoin target m) (hactive : s.arbiter.active = some x)
  (hx : x.kind = .follow) (hold : s.arbiter.attached = some old) (hrejoin : old.kind = .rejoin)
  (hwaiting : s.arbiter.waiting = []) (hident : s.supervisor.ident = none)

include hbrought hactive hx hwaiting hident

theorem attachOwner_attaches : Attaches target m x s (attachOwner m (superseded m s)) := by
  have hsupersedes := superseded_of m s
  constructor
  case active =>
    rw [attachOwner_arbiter]
    exact hsupersedes.active.trans (filter_left hactive (by rw [hbrought.kind]; simp [endedWith, hx]))
  case reports =>
    intro q
    rw [attachOwner_reports, hsupersedes.reports, hbrought.kind]
  case attached => simp
  case waiting => simp [hsupersedes.noneWaiting hwaiting]
  case planner => simp [hsupersedes.planner, hbrought.target]
  case ident => simp [hsupersedes.supervisor, hident]
  case optics => simp [hsupersedes.optics]
  case recovery => simp [hsupersedes.recovery]

theorem nowMoving_attaches : Attaches target m x s (nowMoving (attachOwner m (superseded m s))) := by
  have hattaches := attachOwner_attaches hbrought hactive hx hwaiting hident
  constructor
  case active => rw [nowMoving_arbiter, hattaches.active]
  case attached => rw [nowMoving_arbiter, hattaches.attached]
  case waiting => rw [nowMoving_arbiter, hattaches.waiting]
  case planner => rw [nowMoving_planner, hattaches.planner]
  case ident =>
    have hsame := hattaches.ident
    simpa [nowMoving] using hsame
  case optics => rw [nowMoving_optics, hattaches.optics]
  case recovery => rw [nowMoving_recovery, hattaches.recovery]
  case reports =>
    intro q
    rw [nowMoving_reports, hattaches.reports]

omit hactive hx hwaiting hident in
/-- What the statement says of it. -/
theorem Attaches.answer (h : Attaches target m x s u) (t : State) (ht : t = (react u).answer p tag .accepted data) :
    t = u.answer p tag .accepted data ∧ t.arbiter.active = some x ∧ t.planner.owner = .attached ∧ t.planner.target = target ∧
    t.planner.sessionLegs = 0 ∧ t.planner.sessionSled = 0 ∧ t.planner.legStage = s.planner.legStage ∧
    (∃ r, t.arbiter.attached = some r ∧ r.port = p ∧ r.tag = tag ∧ r.kind = .rejoin ∧ r.status = .attached ∧
      r.target = target) ∧
    ∀ q, completionsIn (t.port q).queue = completionsIn (s.port q).queue ++ endedReports .rejoin q s := by
  rw [react_settled ⟨h.waiting, h.ident, by simp [h.planner]⟩] at ht
  rw [ht]
  refine ⟨rfl, by rw [answer_arbiter, h.active], by simp [h.planner], by simp [h.planner], by simp [h.planner],
    by simp [h.planner], by simp [h.planner], ⟨m.attachedOn, by rw [answer_arbiter, h.attached], hbrought.port, hbrought.tag,
      hbrought.kind, rfl, hbrought.target⟩, fun q => ?_⟩
  rw [reports_answer, h.reports]
  rfl

theorem superseded_phase : activePhase (superseded m s) = x.phase := by
  have hkeeps := (attachOwner_attaches hbrought hactive hx hwaiting hident).active
  rw [attachOwner_arbiter] at hkeeps
  have hslot : (superseded m s).arbiter.active = some x := hkeeps
  simp [activePhase, hslot]

include hold hrejoin

/-- With a leg in flight the leg lands for it. -/
theorem attachesInFlight_answer (hstage : s.planner.legStage ≠ .idle) (hclean : s.planner.legDisturbed = false)
    (hrecovering : x.phase ≠ some .recovering) (hsuspended : x.phase ≠ some .suspended) (t : State)
    (ht : t = (settledWith m s).answer p tag .accepted data) :
    t.arbiter.active = some x ∧ t.planner.owner = .attached ∧ t.planner.target = target ∧
    t.planner.sessionLegs = 0 ∧ t.planner.sessionSled = 0 ∧ t.planner.legStage = s.planner.legStage ∧
    (∃ r, t.arbiter.attached = some r ∧ r.port = p ∧ r.tag = tag ∧ r.kind = .rejoin ∧ r.status = .attached ∧
      r.target = target) ∧
    ∀ q, completionsIn (t.port q).queue = completionsIn (s.port q).queue ++ endedReports .rejoin q s := by
  have hattaches := nowMoving_attaches hbrought hactive hx hwaiting hident
  have hphase := superseded_phase hbrought hactive hx hwaiting hident
  have hflight : legInFlight (nowMoving (attachOwner m (superseded m s))) = true := by
    simp [legInFlight, (superseded_of m s).planner, hstage, hclean]
  rw [settledWith, accept_attaches hbrought.kind hactive hx hold hrejoin,
    attach_works (by rw [hphase]; exact hrecovering) (by rw [hphase]; exact hsuspended), if_pos hflight] at ht
  exact (hattaches.answer hbrought t ht).2

/-- In a recovery, and in a sag, it waits for their end. -/
theorem attachesAside_answer (hph : x.phase = some .recovering ∨ x.phase = some .suspended) (t : State)
    (ht : t = (settledWith m s).answer p tag .accepted data) :
    t.arbiter.active = some x ∧ t.planner.owner = .attached ∧ t.planner.target = target ∧
    t.planner.sessionLegs = 0 ∧ t.planner.sessionSled = 0 ∧ t.planner.legStage = s.planner.legStage ∧
    (∃ r, t.arbiter.attached = some r ∧ r.port = p ∧ r.tag = tag ∧ r.kind = .rejoin ∧ r.status = .attached ∧
      r.target = target) ∧
    t.recovery = s.recovery ∧ t.optics = s.optics ∧
    (x.phase = some .recovering → TakenInRecovery s t) ∧ (x.phase = some .suspended → t.supervisor = s.supervisor) ∧
    ∀ q, completionsIn (t.port q).queue = completionsIn (s.port q).queue ++ endedReports .rejoin q s := by
  have hsupersedes := superseded_of m s
  have hphase := superseded_phase hbrought hactive hx hwaiting hident
  rw [settledWith, accept_attaches hbrought.kind hactive hx hold hrejoin] at ht
  rcases hph with h | h
  · have hattaches := nowMoving_attaches hbrought hactive hx hwaiting hident
    rw [attach_recovering (by rw [hphase, h])] at ht
    obtain ⟨heq, hslot, howner, htarget, hlegs, hsled, hstage, hr, hreports⟩ := hattaches.answer hbrought t ht
    refine ⟨hslot, howner, htarget, hlegs, hsled, hstage, hr, by rw [heq, answer_recovery, hattaches.recovery],
      by rw [heq, answer_optics, hattaches.optics], fun _ => ?_, fun hother => by simp [h] at hother, hreports⟩
    rw [heq]
    refine takenInRecovery_answer (takenInRecovery_of (u := attachOwner m (superseded m s)) (by simp [nowMoving])
      (by simp [hsupersedes.supervisor]) fun hrecovering q hq => ?_)
    have hnotice := nowMoving_noticed (s := attachOwner m (superseded m s)) (q := q)
      (by simp [hsupersedes.supervisor, hrecovering]) (by simp [hsupersedes.supervisor, hrecovering, DriveState.setsAside])
      (by rw [attachOwner_port, hsupersedes.mask]; exact hq)
    simpa [hsupersedes.supervisor, hsupersedes.clock] using hnotice
  · have hattaches := attachOwner_attaches hbrought hactive hx hwaiting hident
    rw [attach_suspended (by rw [hphase, h])] at ht
    obtain ⟨heq, hslot, howner, htarget, hlegs, hsled, hstage, hr, hreports⟩ := hattaches.answer hbrought t ht
    exact ⟨hslot, howner, htarget, hlegs, hsled, hstage, hr, by rw [heq, answer_recovery, hattaches.recovery],
      by rw [heq, answer_optics, hattaches.optics], fun hother => by simp [h] at hother,
      fun _ => by rw [heq, answer_supervisor, attachOwner_supervisor, hsupersedes.supervisor], hreports⟩

end AttachedInPlace

/-! ### A RELEASE carries an older one on (R128, R164) -/

theorem carriesOn_answer {data : List Byte} (hbrought : Brought p tag .release none m) (hold : s.arbiter.active = some old)
    (hrelease : old.kind = .release) (hph : old.phase = some ph) (hdrive : s.supervisor.drive ≠ .released)
    (hwaiting : s.arbiter.waiting = []) (hident : s.supervisor.ident = none) (hstep : s.planner.acquireStep ≠ .spin)
    (t : State) (ht : t = (settledWith m s).answer p tag .accepted data) :
    HasSlot p tag .release none ph t ∧ t.supervisor = s.supervisor ∧ t.spindle = s.spindle ∧ t.sled = s.sled ∧
    t.optics = s.optics ∧
    ∀ q, completionsIn (t.port q).queue = completionsIn (s.port q).queue ++ endedReports .release q s := by
  have hsupersedes := superseded_of m s
  obtain ⟨v, hv⟩ : ∃ v, v = setActive (some (m.activeIn ph)) (beginSession (superseded m s)) := ⟨_, rfl⟩
  have hquiet : Settled v :=
    ⟨by simp [hv, beginSession, hsupersedes.noneWaiting hwaiting], by simp [hv, beginSession, hsupersedes.supervisor, hident],
      by simp [hv, beginSession, hsupersedes.planner, hstep]⟩
  rw [settledWith, accept_carriesOn hbrought.kind hold hrelease hph hdrive, ← hv, react_settled hquiet] at ht
  rw [ht]
  refine ⟨hasSlot_answer (hbrought.hasSlot (by simp [hv])), by simp [hv, beginSession, hsupersedes.supervisor],
    by simp [hv, beginSession, hsupersedes.spindle], by simp [hv, beginSession, hsupersedes.sled],
    by simp [hv, beginSession, hsupersedes.optics], fun q => ?_⟩
  have hreports : reportsOf q v = reportsOf q s ++ endedReports m.kind q s := by
    simp [hv, beginSession, hsupersedes.reports]
  rw [reports_answer, hreports, hbrought.kind]
  rfl

/-- A STOP and a RELEASE have no target. -/
theorem target_of_plain (h : Accepted p tag s c kind target) (hkind : kind = .stop ∨ kind = .release) : target = none := by
  cases h with
  | stop | release => rfl
  | seek | follow | rejoin => simp at hkind

/-- Settles O32: the accepted motion ends the motions that its kind ends, with their reports, and takes over what they were
doing. -/
theorem acceptedMotionsTakeTheSlotOfTheMotionsTheyEnd : Obligations.AcceptedMotionsTakeTheSlotOfTheMotionsTheyEnd := by
  intro p tag c kind target s haccepted
  obtain ⟨e, v, hexec⟩ := exec_accepted haccepted
  obtain ⟨m, hm⟩ : ∃ m, m = Motion.accepted p tag kind target e v s.arbiter.arrivals := ⟨_, rfl⟩
  have hbrought : Brought p tag kind target m := hm ▸ brought_accepted
  refine ⟨⟨_, hexec m hm, fun q => ?reports⟩,
    fun hwaiting hident => ⟨_, hexec m hm, ?takes, ?stops, ?attaches, ?aside, ?carries⟩⟩
  case reports =>
    obtain ⟨more, hmore⟩ := settledWith_reports m s q
    rw [hbrought.kind] at hmore
    exact ⟨more, reports_answer.trans hmore⟩
  case takes =>
    intro old g hold _ hends htarget
    obtain ⟨hmoves, k, hk⟩ := moves_of_accepted (htarget ▸ haccepted)
    refine ⟨fun hph hstage hclean hfocus hdrive => ?_, fun f pt pa hph hidle htrack hfix hfresh _ hpg hpa hfar hnear => ?_,
      fun hph hslow hstate => ?_, fun hph => ?_, fun hph => ?_⟩
    · have htakes := takesLeg_answer (data := placedReply m (settledWith m s)) hbrought hmoves hold hends hwaiting hident hph
        hstage hclean hfocus hdrive _ rfl
      refine ⟨?_, htakes.2⟩
      have hslot := htakes.1
      cases hstage : s.planner.legStage <;> simpa [hstage, LegStage.phase] using hslot
    · obtain ⟨hisFresh, hlast⟩ := fresh_fix hfix hfresh
      exact takesPlan_answer hbrought hmoves hold hends hwaiting hident htarget hk hlast hisFresh hph hidle htrack hpg hpa hfar
        hnear _ rfl
    · exact takesAcquire_answer hbrought hmoves hold hends hwaiting hk hph hslow hstate _ rfl
    · exact takesRecovery_answer hbrought hmoves hold hends hwaiting hident hph _ rfl
    · exact takesSag_answer hbrought hmoves hold hends hwaiting hident hph _ rfl
  case stops =>
    intro old hold hends hkind hstopped hempty
    subst hkind
    obtain rfl := target_of_plain haccepted (.inl rfl)
    exact ⟨fun hattached hdriven hturns => stopParks_answer hbrought hold hends hstopped hempty hwaiting hident hattached
      hdriven hturns _ rfl, fun _ _ hbraking => stopTakesOver_answer hbrought hold hends hstopped hempty hwaiting hident
      hbraking _ rfl⟩
  case attaches =>
    intro x old hactive hold hrejoin hx hkind hstage hclean _ hrecovering hsuspended
    subst hkind
    exact attachesInFlight_answer hbrought hactive hx hold hrejoin hwaiting hident hstage hclean hrecovering hsuspended _ rfl
  case aside =>
    intro x old hactive hold hrejoin hx hkind _ hph
    subst hkind
    exact attachesAside_answer hbrought hactive hx hold hrejoin hwaiting hident hph _ rfl
  case carries =>
    intro old ph hold hrelease hph hkind hdrive hstep
    subst hkind
    obtain rfl := target_of_plain haccepted (.inr rfl)
    exact carriesOn_answer hbrought hold hrelease hph hdrive hwaiting hident hstep _ rfl

end Sys2Proof.Proofs
end

section
/-! The two resets (R82, R202, R203): every block at its reset values, and the soft reset that waits for the end of its reply. -/

namespace Sys2Proof.Proofs

set_option Elab.async false

open Sys2Proof.Machine Sys2Proof.Safety Sys2Proof.Laws

variable {p : Port} {s u : State}

/-- A reset puts every block at its reset values, but for the two pins that it finds and the queue of commands (R202). -/
theorem resetAll_blocks (cause : ResetCause) (hhome : u.sled.homeClosed = s.sled.homeClosed)
    (hread : u.spindle.measured = s.spindle.measured) (hpending : u.pending = s.pending) :
    BlocksReset s (resetAll cause u) := by
  refine ⟨rfl, rfl, rfl, rfl, rfl, rfl, rfl, ?_, ?_, rfl, rfl, hpending⟩
  · rw [← hhome]; rfl
  · rw [← hread]; rfl

/-- A reset puts every port at its reset values (R202). -/
theorem resetAll_portReset (cause : ResetCause) (q : Port) (u : State) : PortReset q cause ((resetAll cause u).port q) := by
  rw [resetAll_port]
  exact ⟨rfl, rfl, rfl, rfl, rfl, rfl, rfl, rfl, rfl⟩

theorem resetAll_decoder (cause : ResetCause) (q : Port) (u : State) :
    ((resetAll cause u).port q).decoder = (u.port q).decoder.afterReset := by rw [resetAll_port]; rfl

/-- The decoder that a reset leaves: IDLE with the select line high, BLOCKED with it low (R202, R203). -/
theorem resetAll_decoderReset (cause : ResetCause) {q : Port} (h : (u.port q).decoder = (s.port q).decoder) :
    DecoderReset (s.port q) ((resetAll cause u).port q) := by
  rw [DecoderReset, resetAll_decoder, h]
  cases (s.port q).decoder <;> simp [Decoder.afterReset]

/-- Settles O11: the reset is one assignment to every block and port. -/
theorem powerOnResetRestoresEverything : Obligations.PowerOnResetRestoresEverything := fun s =>
  ⟨resetAll .powerOn s, rfl, resetAll_blocks _ rfl rfl rfl,
    fun q => ⟨resetAll_portReset _ q s, resetAll_decoderReset _ rfl⟩⟩

/-! ### SOFT RESET (R202) -/

/-- The completed read of a report leaves a reset armed (R198, R202). -/
theorem endRead_resetArmed (x : PortState) : x.endRead.resetArmed = x.resetArmed := by
  have hremoved (y : PortState) : y.afterRemoval.resetArmed = y.resetArmed := by
    unfold PortState.afterRemoval
    split_ifs <;> rfl
  have hleaves : x.headLeaves.resetArmed = x.resetArmed := by
    unfold PortState.headLeaves
    split <;> simp [hremoved]
  have hstays : x.headStays.resetArmed = x.resetArmed := by
    unfold PortState.headStays
    split <;> rfl
  unfold PortState.endRead
  dsimp only
  split
  · exact hstays
  · exact hleaves

/-- The end of a read touches its own port and the records that are DONE (R121, R198). -/
theorem endReport_cases (p : Port) (u : State) : endReport p u = u ∨
    ∃ a, endReport p u = (u.setPort p (u.port p).endRead).setArbiter a := by
  unfold endReport
  dsimp only
  split
  · right
    split
    · exact ⟨_, rfl⟩
    · exact ⟨(u.setPort p (u.port p).endRead).arbiter, rfl⟩
  · exact .inl rfl

/-- What a SOFT RESET waits for finds the pins, the other decoders and the armed reset as they were (R202). -/
structure ResetFinds (p : Port) (s u : State) : Prop where
  home : u.sled.homeClosed = s.sled.homeClosed
  measured : u.spindle.measured = s.spindle.measured
  pending : u.pending = s.pending
  armed : (u.port p).resetArmed = (s.port p).resetArmed
  others : ∀ q, q ≠ p → (u.port q).decoder = (s.port q).decoder

theorem endReport_finds (p : Port) (u : State) : ResetFinds p u (endReport p u) := by
  rcases endReport_cases p u with h | ⟨a, h⟩ <;> rw [h]
  · exact ⟨rfl, rfl, rfl, rfl, fun _ _ => rfl⟩
  · exact ⟨by simp, by simp, by simp, by simp [endRead_resetArmed], fun q hq => by simp [hq]⟩

/-- An armed reset takes effect when it is due, the decoder of its own port as the end of the reply leaves it (R202). -/
theorem softResetDue_resets (h : ResetFinds p s u) (harmed : (s.port p).resetArmed = true) (x : PortState)
    (hx : x.resetArmed = (u.port p).resetArmed) : ∃ t, softResetDue p (u.setPort p x) = t ∧ BlocksReset s t ∧
      (t.port p).decoder = x.decoder.afterReset ∧
      ∀ q, PortReset q .softReset (t.port q) ∧ (q ≠ p → DecoderReset (s.port q) (t.port q)) := by
  have hdue : softResetDue p (u.setPort p x) = resetAll .softReset (u.setPort p x) := if_pos (by simp [hx, h.armed, harmed])
  refine ⟨_, hdue, resetAll_blocks _ (by simp [h.home]) (by simp [h.measured]) (by simp [h.pending]), ?_, fun q =>
    ⟨resetAll_portReset _ q _, fun hq => resetAll_decoderReset _ (by simp [hq, h.others])⟩⟩
  simp [resetAll_decoder]

/-- The end of a reply, its turnaround byte included (R188; entry 6). -/
theorem exec_replyComplete (h : (s.port p).decoder = .turnaround ∨ (s.port p).decoder = .replying) :
    ∃ u, ResetFinds p s u ∧
      exec (.replyComplete p) s = .next (softResetDue p (u.setPort p { u.port p with decoder := .finished, reply := none })) := by
  have hends : (s.port p).turnaroundEnds.decoder = .replying := by
    rcases h with h | h <;> simp [PortState.turnaroundEnds, h]
  have hfound := endReport_finds p (s.setPort p (s.port p).turnaroundEnds)
  refine ⟨endReport p (s.setPort p (s.port p).turnaroundEnds), ?_, ?_⟩
  · exact ⟨by simp [hfound.home], by simp [hfound.measured], by simp [hfound.pending],
      by rw [hfound.armed]; simp [PortState.turnaroundEnds], fun q hq => by simp [hfound.others q hq, hq]⟩
  · change execReplyComplete p s = _
    simp only [execReplyComplete, State.setPort_port, if_true, hends]

/-- Settles O12: the request arms the reset, and the end of its reply or a rise of the select line makes it due. -/
theorem softResetWaitsForItsReply : Obligations.SoftResetWaitsForItsReply := by
  intro p tag s
  refine ⟨fun htakes => ?request, fun harmed hreply => ?complete, fun harmed => ?release⟩
  case request => exact exec_takes (k := .softReset) rfl rfl htakes rfl
  case complete =>
    obtain ⟨u, hfinds, hexec⟩ := exec_replyComplete hreply
    obtain ⟨t, ht, hreset⟩ := softResetDue_resets hfinds harmed { u.port p with decoder := .finished, reply := none } rfl
    exact ⟨t, hexec.trans (congrArg _ ht), hreset⟩
  case release =>
    obtain ⟨t, ht, hreset⟩ := softResetDue_resets ⟨rfl, rfl, rfl, rfl, fun _ _ => rfl⟩ harmed (s.port p).released rfl
    exact ⟨t, congrArg _ ht, hreset⟩

end Sys2Proof.Proofs
end

section
/-! A STOP that finds no motion (R76, R89, R125, R131, R132, R162): it starts from a hold and parks the drive, or completes at
once where the drive stands already. -/

namespace Sys2Proof.Proofs

set_option Elab.async false

open Sys2Proof.Machine Sys2Proof.Safety Sys2Proof.Laws

variable {s : State} {p : Port} {tag : Byte} {m : Motion}

/-! ### Its place (R125, R132) -/

/-- A STOP that finds no motion ends none, and is placed. -/
theorem accept_stopAlone (hkind : m.kind = .stop) (hnone : NoMotion s) :
    accept m s = place m (takeTicket m s) (takeTicket m s) := by
  have hlive : liveMotions (takeTicket m s) = [] := by rw [← hnone]; simp [liveMotions]
  simp [accept, hkind, supersede_none (kind := .stop) (s := takeTicket m s) (by simp [hlive])]

/-- In STOPPED and EMPTY it completes DONE at once. -/
theorem accept_stopAtRest (hkind : m.kind = .stop) (hnone : NoMotion s)
    (hdrive : s.supervisor.drive = .stopped ∨ s.supervisor.drive = .empty) :
    accept m s = endMotion m .done (lastGood s) (takeTicket m s) := by
  have hlast : lastGood (takeTicket m s) = lastGood s := lastGood_congr (by simp)
  have hatOnce : completesAtOnce m.kind (takeTicket m s) = true := by
    rcases hdrive with h | h <;> simp [completesAtOnce, hkind, h]
  rw [accept_stopAlone hkind hnone, place, if_pos hatOnce, hlast]

/-- While the drive holds it goes into the list. -/
theorem accept_stopHolding (hkind : m.kind = .stop) (hnone : NoMotion s) (hdrive : s.supervisor.drive = .onTrack) :
    accept m s = setWaiting [m] (takeTicket m s) := by
  obtain ⟨hactive, -, hwaiting⟩ := noMotion_iff.1 hnone
  rw [accept_stopAlone hkind hnone]
  simp [place, completesAtOnce, hkind, hdrive, hactive, hwaiting, insertWaiting]

/-! ### It starts (R131, R162) -/

/-- The state in which a STOP that starts from the list begins its mechanics: it is the active motion. -/
def stopStarted (m : Motion) (s : State) : State :=
  setActive (some (m.activeIn .braking)) (beginSession (endRecovery (setWaiting [] (setWaiting [m] (takeTicket m s)))))

theorem stopStarted_arbiter (m : Motion) (s : State) : (stopStarted m s).arbiter = { s.arbiter with
    active := some (m.activeIn .braking), waiting := [], arrivals := s.arbiter.arrivals + 1 } := by
  simp [stopStarted, beginSession]

@[simp] theorem stopStarted_supervisor (m : Motion) (s : State) : (stopStarted m s).supervisor = s.supervisor := by
  simp [stopStarted, beginSession]

@[simp] theorem stopStarted_spindle (m : Motion) (s : State) : (stopStarted m s).spindle = s.spindle := by
  simp [stopStarted, beginSession]

@[simp] theorem stopStarted_clock (m : Motion) (s : State) : (stopStarted m s).clock = s.clock := by
  simp [stopStarted, beginSession]

@[simp] theorem stopStarted_monitor (m : Motion) (s : State) : (stopStarted m s).monitor = s.monitor := by
  simp [stopStarted, beginSession]

theorem stopStarted_mask (m : Motion) (s : State) (q : Port) : ((stopStarted m s).port q).mask = (s.port q).mask := by
  simp [stopStarted, beginSession, takeTicket_mask]

/-- What the STOP mechanics of a turning disc are: the park, and the drive in PARKING (R162). -/
theorem stopMechanics_turning (hdriven : Driven s.spindle) (hturns : 30 ≤ s.spindle.measured) :
    stopMechanics s = setDrive .parking (park (setPhase .braking (disown s))) := by
  have hbraking := (brake_driven (now := s.clock) hdriven hturns).1
  rw [stopMechanics, parkOrStop, if_neg (by simp [spindleStopped, hbraking])]

theorem stopMechanics_stalesFix (hdriven : Driven s.spindle) (hturns : 30 ≤ s.spindle.measured) :
    fixFresh (stopMechanics s) = false ∧ lastGood (stopMechanics s) = lastGood s := by
  rw [stopMechanics_turning hdriven hturns, fixFresh_congr (setDrive_monitor ..), lastGood_congr (setDrive_monitor ..),
    fixFresh_park, lastGood_park]
  exact ⟨rfl, lastGood_congr (by simp)⟩

/-- The DRIVE notice of PARKING (R146). -/
theorem stopMechanics_noticed (hdriven : Driven s.spindle) (hturns : 30 ≤ s.spindle.measured)
    (hdrive : s.supervisor.drive ≠ .parking) {q : Port} (hq : admits (s.port q).mask 2 = true) :
    Laws.Noticed (.drive .parking s.supervisor.drive s.supervisor.cls s.clock) q (stopMechanics s) := by
  have hmask : ((park (setPhase .braking (disown s))).port q).mask = (s.port q).mask :=
    ((Keeps.refl s).disown.setPhase.park.port q).mask
  have hnotice := setDrive_noticed (s := park (setPhase .braking (disown s))) (d := .parking) (q := q)
    (by simpa using hdrive.symm) (by rw [hmask]; exact hq)
  rw [stopMechanics_turning hdriven hturns]
  simpa using hnotice

/-- A STOP taken while the drive holds starts at once (R131). -/
theorem settledWith_stops (hkind : m.kind = .stop) (hhold : Holding s) (hdriven : Driven s.spindle)
    (hturns : 30 ≤ s.spindle.measured) : settledWith m s = stopMechanics (stopStarted m s) ∧
      Parks (stopStarted m s) (stopMechanics (stopStarted m s)) := by
  obtain ⟨⟨hdrive, -, -, hwaiting, hident, hstep⟩, hactive, hattached, -⟩ := hhold
  have hparks : Parks (stopStarted m s) (stopMechanics (stopStarted m s)) :=
    stopMechanics_parks (by simpa using hdriven) (by simpa using hturns)
  have hstart : startHead m (setWaiting [] (setWaiting [m] (takeTicket m s))) = stopMechanics (stopStarted m s) := by
    simp [startHead, hkind, activateStop, stopStarted]
  refine ⟨?_, hparks⟩
  rw [settledWith, accept_stopHolding hkind (noMotion_iff.2 ⟨hactive, hattached, hwaiting⟩) hdrive,
    react_starts (m := m) (by simp) (by simp [canStart, hactive, hdrive]) (by simpa using hident) (by simpa using hstep)
      (by rw [hstart, hparks.arbiter]; simp [setPhase, stopStarted_arbiter]), hstart,
    onSpindleReady_idle (by rw [hparks.drive]; simpa using hident) (by simp [hparks.planner.2])]

/-! ### The statement -/

/-- The motion that a STOP brings. -/
abbrev newStop (p : Port) (tag : Byte) (s : State) : Motion := Motion.accepted p tag .stop none none none s.arbiter.arrivals

theorem exec_stop (h : Takes 0x12 p s) (hpass : motionRefusal .stop p tag none none s = none) :
    exec (.stop p tag) s = .next ((settledWith (newStop p tag s) s).answer p tag .accepted
      (placedReply (newStop p tag s) (settledWith (newStop p tag s) s))) :=
  exec_takes (k := .stop) rfl rfl h (requestMotion_accepts (plainChecks_eq.trans hpass))

/-- The reply to a motion without a speed and an end address (R125). -/
theorem placedReply_plain {t : State} (hspeed : m.speed = none) (hend : m.endAddr = none) :
    placedReply m t = [(placedStatus m.port m.tag t).code, 0xFF, 0xFF, 0xFF, 0xFF] := by
  simp [placedReply, hspeed, hend, addrField, absent]

/-- The status of the active motion is told by its own tag (R125). -/
theorem placedStatus_active {t : State} {x : Motion} (hx : t.arbiter.active = some x) (hnamed : x.named p tag = true) :
    placedStatus p tag t = x.status := by
  simp [placedStatus, liveMotions, hx, hnamed]

/-- Settles O37: from a hold the STOP starts and parks the drive; in STOPPED and EMPTY its placement is its end. -/
theorem stopParksTheDrive : Obligations.StopParksTheDrive := by
  intro p tag s htakes hpass
  have hexec := exec_stop htakes hpass
  obtain ⟨m, hm⟩ : ∃ m, m = newStop p tag s := ⟨_, rfl⟩
  have hkind : m.kind = .stop := by rw [hm]; rfl
  have hport : m.port = p := by rw [hm]; rfl
  have htag : m.tag = tag := by rw [hm]; rfl
  have hreply (t : State) : placedReply m t = [(placedStatus m.port m.tag t).code, 0xFF, 0xFF, 0xFF, 0xFF] :=
    placedReply_plain (by rw [hm]; rfl) (by rw [hm]; rfl)
  rw [← hm] at hexec
  refine ⟨fun hhold hturns hdriven => ?parks, fun hdrive hnone hsettled => ?rests⟩
  case parks =>
    obtain ⟨hstops, hparks⟩ := settledWith_stops hkind hhold hdriven hturns
    have hdriven' : Driven (stopStarted m s).spindle := by simpa using hdriven
    have hturns' : 30 ≤ (stopStarted m s).spindle.measured := by simpa using hturns
    have harbiter : (stopMechanics (stopStarted m s)).arbiter = { s.arbiter with
        active := some (m.activeIn .braking), waiting := [], arrivals := s.arbiter.arrivals + 1 } := by
      rw [hparks.arbiter]
      simp [setPhase, stopStarted_arbiter, Motion.activeIn]
    have hplaced : placedStatus m.port m.tag (stopMechanics (stopStarted m s)) = .active :=
      placedStatus_active (x := m.activeIn .braking) (by rw [harbiter]) (by simp [Motion.named, Motion.activeIn])
    obtain ⟨hstale, hlast⟩ := stopMechanics_stalesFix hdriven' hturns'
    rw [hstops] at hexec
    refine ⟨_, m.activeIn .braking, hexec, by simp [harbiter], hport, htag, hkind, rfl, ?_, by simp [hparks.drive],
      by simp [hparks.drive], fun q hq => ?_, ?_, by simp [hparks.loops], by simp [hparks.loops], ?_, ?_⟩
    · rw [answer_reply, hreply, hplaced]
      rfl
    · have hnotice := stopMechanics_noticed hdriven' hturns' (by simp [hhold.1.1]) (q := q)
        (by rw [stopStarted_mask]; exact hq)
      rw [answer_queue]
      simpa [hparks.drive, Laws.Noticed] using hnotice
    · simpa [Braked] using hparks.spindle
    · rw [fixFresh_congr (answer_monitor ..), hstale]
    · rw [lastGood_congr (answer_monitor ..), hlast, lastGood_congr (stopStarted_monitor m s)]
  case rests =>
    have hends : settledWith m s = endMotion m .done (lastGood s) (takeTicket m s) := by
      rw [settledWith, accept_stopAtRest hkind hnone hdrive, react_unmoved hsettled (by simp) (by simp) (by simp)]
    have hnone' : NoMotion (endMotion m .done (lastGood s) (takeTicket m s)) := by
      rw [NoMotion, ← hnone]
      simp [liveMotions]
    rw [hends] at hexec
    refine ⟨_, hexec, ?_, ?_, by simpa [NoMotion] using hnone', by simp, by simp, by simp⟩
    · rw [answer_reply, hreply, placedStatus_none hnone']
      rfl
    · have hreport := reportsOf_endMotion_own (takeTicket m s) m .done (lastGood s)
      rw [answer_queue, ← hport]
      exact hreport.trans (by rw [reportsOf_takeTicket, hm]; rfl)

end Sys2Proof.Proofs
end

section
/-! The commands that an identification gives to the sled and to the spindle (R68, R98, R100, R102, R151, R152): what each leaves
of the record, the sled and the spindle, and that nothing else of the part moves. -/

namespace Sys2Proof.Proofs

set_option Elab.async false

open Sys2Proof.Machine Sys2Proof.Safety Sys2Proof.Laws

variable {s t u : State} {i j : Ident} {x : Nat}

/-! ### The record moves on -/

theorem changeIdent_supervisor (f : Ident → Ident) (hi : s.supervisor.ident = some i) :
    (changeIdent f s).supervisor = { s.supervisor with ident := some (f i) } := by
  simp [changeIdent, hi]

/-- An identification moves on to the record `j`, its commands going to the sled, the spindle and a leg left over. -/
structure IdentMoves (j : Ident) (s t : State) : Prop where
  supervisor : t.supervisor = { s.supervisor with ident := some j }
  clock : t.clock = s.clock
  arbiter : t.arbiter = s.arbiter
  step : t.planner.acquireStep = s.planner.acquireStep
  optics : t.optics = s.optics
  noticed : ∀ n q, n.code ≠ 3 → Laws.Noticed n q s → Laws.Noticed n q t

theorem IdentMoves.ident (h : IdentMoves j s t) : t.supervisor.ident = some j := by rw [h.supervisor]

theorem IdentMoves.trans (h : IdentMoves i s t) (h' : IdentMoves j t u) : IdentMoves j s u where
  supervisor := by rw [h'.supervisor, h.supervisor]
  clock := h'.clock.trans h.clock
  arbiter := h'.arbiter.trans h.arbiter
  step := h'.step.trans h.step
  optics := h'.optics.trans h.optics
  noticed n q hn hq := h'.noticed n q hn (h.noticed n q hn hq)

theorem changeIdent_moves (f : Ident → Ident) (hi : s.supervisor.ident = some i) : IdentMoves (f i) s (changeIdent f s) where
  supervisor := changeIdent_supervisor f hi
  clock := rfl
  arbiter := rfl
  step := rfl
  optics := rfl
  noticed _ _ _ hq := hq.congr (by simp)

/-- The stage and the step move on, and a restart is given up (R161). -/
theorem identAt_moves (g : IdentStage) (y : Option ProfileStep) (hi : s.supervisor.ident = some i) :
    IdentMoves { i with stage := g, step := y, restart := false } s (identAt g y s) :=
  changeIdent_moves (fun i => { i with stage := g, step := y, restart := false }) hi

theorem IdentMoves.setSled (h : IdentMoves j s t) (sl : Sled) : IdentMoves j s (t.setSled sl) where
  supervisor := h.supervisor
  clock := h.clock
  arbiter := h.arbiter
  step := h.step
  optics := h.optics
  noticed n q hn hq := (h.noticed n q hn hq).congr (by simp)

theorem IdentMoves.spindleCommand (h : IdentMoves j s t) (md : DriveMode) (b : Option Nat) :
    IdentMoves j s (spindleCommand md b t) where
  supervisor := by rw [spindleCommand_supervisor, h.supervisor]
  clock := by rw [spindleCommand_clock, h.clock]
  arbiter := by rw [spindleCommand_arbiter, h.arbiter]
  step := by rw [spindleCommand_planner, h.step]
  optics := by rw [spindleCommand_optics, h.optics]
  noticed n q hn hq := Noticed.speedNotice ((h.noticed n q hn hq).congr (by simp)) hn

/-- With no other motion and no ACQUIRE that waits, an identification that is not at its first try waits for events. -/
theorem IdentMoves.react (h : IdentMoves j s t) (hwaiting : s.arbiter.waiting = []) (hstep : s.planner.acquireStep ≠ .spin)
    (hstage : j.stage ≠ .spinning) (hrestart : j.restart = false) : react t = t :=
  react_trying (by rw [h.arbiter, hwaiting]) (by rw [h.step]; exact hstep) h.ident hstage hrestart

/-! ### The fixed speed (R68, R152) -/

theorem spindleCommand_fixed (s : State) : (spindleCommand .fixed none s).spindle
    = ({ s.spindle with mode := .fixed, basis := none } : Spindle).setTarget s.clock 500 false := by
  simp [spindleCommand, Spindle.retarget]

/-- The fixed speed reaches a motor that stands or brakes, out of its band: it spins up, its lock limit armed (R68, R73, R74). -/
structure SpinsUp (s t : State) : Prop where
  mode : t.spindle.mode = .fixed
  target : t.spindle.target = 500
  state : t.spindle.state = .spinup
  lockLimit : t.spindle.lockLimit = some s.clock

theorem spindleCommand_spinsUp (hstate : s.spindle.state = .stopped ∨ s.spindle.state = .braking)
    (htarget : s.spindle.target = 0) (hband : ¬ Within 10 s.spindle.measured 500) :
    SpinsUp s (spindleCommand .fixed none s) := by
  have hcoast : s.spindle.state ≠ .coast := by rcases hstate with h | h <;> simp [h]
  have hspindle := spindleCommand_fixed s
  rw [setTarget_driven (by simp [htarget]) (by exact hcoast)] at hspindle
  constructor <;> rw [hspindle]
  exact if_neg hband

/-- SPINNING is entered with the fixed speed, and the sled stays as it is (R152). -/
theorem identSpin_moves (hi : s.supervisor.ident = some i) :
    IdentMoves { i with stage := .spinning, step := none, restart := false } s (identSpin s) :=
  (identAt_moves _ _ hi).spindleCommand .fixed none

@[simp] theorem identSpin_sled (s : State) : (identSpin s).sled = s.sled := by simp [identSpin]

theorem identSpin_spinsUp (hstate : s.spindle.state = .stopped ∨ s.spindle.state = .braking)
    (htarget : s.spindle.target = 0) (hband : ¬ Within 10 s.spindle.measured 500) : SpinsUp s (identSpin s) :=
  have hspins := spindleCommand_spinsUp (s := identAt .spinning none s) hstate htarget hband
  ⟨hspins.mode, hspins.target, hspins.state, hspins.lockLimit⟩

/-! ### The leg toward step 150 (R100, R102, R151) -/

/-- A leg command finds a resting sled whose first step stays on the rail (R100). -/
theorem sledLeg_fromRest {q : Requester} {n : Int} (hrest : s.sled.state = .idle ∨ s.sled.state = .creep)
    (hx : s.sled.position = some x) (hn : n ≠ 0) (hrail : beyondRail n x = false) :
    sledLeg q n s = (s.setSled { s.sled.takesLeg n with state := .leg, requester := some q }, .begun) := by
  rcases hrest with h | h <;> simp [sledLeg, h, hx, hn, hrail]

/-- A leg of 0 steps is full at once (R100). -/
theorem sledLeg_zero {q : Requester} (hrest : s.sled.state = .idle ∨ s.sled.state = .creep)
    (hx : s.sled.position = some x) :
    sledLeg q 0 s = (s.setSled ((s.sled.takesLeg 0).legOver s.optics.tracking), .done) := by
  rcases hrest with h | h <;> simp [sledLeg, h, hx]

/-- The sled in its leg from step x toward step 150. -/
def legTo150 (x : Nat) (sl : Sled) : Sled :=
  { sl with state := .leg, legSteps := 150 - (x : Int), taken := 0, stopPending := false, requester := some .supervisor }

theorem identPosition_leaves (hi : s.supervisor.ident = some i)
    (hrest : s.sled.state = .idle ∨ s.sled.state = .creep) (hx : s.sled.position = some x) (hne : x ≠ 150) :
    IdentMoves { i with stage := .positioning, step := none, restart := false } s (identPosition s) ∧
    (identPosition s).sled = legTo150 x s.sled ∧ (identPosition s).spindle = s.spindle := by
  have hleg : sledLeg .supervisor (150 - (x : Int)) (identAt .positioning none s)
      = ((identAt .positioning none s).setSled (legTo150 x s.sled), .begun) := by
    refine sledLeg_fromRest hrest hx (by omega) ?_
    unfold beyondRail
    split
    · exact decide_eq_false (by omega)
    · exact beq_eq_false_iff_ne.2 (by omega)
  have heq : identPosition s = (identAt .positioning none s).setSled (legTo150 x s.sled) := by
    simp [identPosition, hx, hleg]
  rw [heq]
  exact ⟨(identAt_moves _ _ hi).setSled _, rfl, rfl⟩

/-- At step 150 already the leg is full at once, and SPINNING follows (R102, R151, R152). -/
theorem identPosition_arrives (hi : s.supervisor.ident = some i)
    (hrest : s.sled.state = .idle ∨ s.sled.state = .creep) (hx : s.sled.position = some 150) :
    IdentMoves { i with stage := .spinning, step := none, restart := false } s (identPosition s) ∧
    (identPosition s).sled = (s.sled.takesLeg 0).legOver s.optics.tracking ∧
    identPosition s = identSpin ((identAt .positioning none s).setSled (identPosition s).sled) := by
  have hleg : sledLeg .supervisor 0 (identAt .positioning none s) = ((identAt .positioning none s).setSled
      ((s.sled.takesLeg 0).legOver s.optics.tracking), .done) := sledLeg_zero hrest hx
  have heq : identPosition s
      = identSpin ((identAt .positioning none s).setSled ((s.sled.takesLeg 0).legOver s.optics.tracking)) := by
    simp [identPosition, hx, hleg]
  have hmoves := (identAt_moves .positioning none hi).setSled ((s.sled.takesLeg 0).legOver s.optics.tracking)
  have hspin := identSpin_moves hmoves.ident
  rw [heq]
  exact ⟨hmoves.trans hspin, by simp, by simp⟩

/-! ### Homing (R98, R151) -/

theorem homingCommand_leaves (hopen : s.sled.homeClosed = false) : (homingCommand s).2 = .begun ∧
    (homingCommand s).1.sled = { s.sled with
      state := .homing, position := none, taken := 0, stopPending := false, paused := false
      requester := some .supervisor } := by
  unfold homingCommand
  split <;> simp [hopen]

theorem homingCommand_atHome (hclosed : s.sled.homeClosed = true) : (homingCommand s).2 = .done ∧
    (homingCommand s).1.sled = { s.sled.homed with taken := 0 } := by
  unfold homingCommand
  split <;> simp [hclosed]

@[simp] theorem homingCommand_step (s : State) :
    (homingCommand s).1.planner.acquireStep = s.planner.acquireStep := by
  unfold homingCommand
  dsimp only
  split <;> split <;> rfl

/-- The homing command drops a sled leg left over, and goes to the sled (R98; entry 13). -/
theorem IdentMoves.homingCommand (h : IdentMoves j s t) : IdentMoves j s (homingCommand t).1 where
  supervisor := by rw [homingCommand_supervisor, h.supervisor]
  clock := by rw [homingCommand_clock, h.clock]
  arbiter := by rw [homingCommand_arbiter, h.arbiter]
  step := by rw [homingCommand_step, h.step]
  optics := by rw [homingCommand_optics, h.optics]
  noticed n q hn hq := (h.noticed n q hn hq).congr (homingCommand_port ..)

theorem identHome_leaves (hi : s.supervisor.ident = some i) (hopen : s.sled.homeClosed = false) :
    IdentMoves { i with stage := .homing, step := none, restart := false } s (identHome s) ∧
    (identHome s).sled = { s.sled with
      state := .homing, position := none, taken := 0, stopPending := false, paused := false
      requester := some .supervisor } ∧
    (identHome s).spindle = s.spindle := by
  obtain ⟨hbegun, hsled⟩ := homingCommand_leaves (s := identAt .homing none s) hopen
  have heq : identHome s = (homingCommand (identAt .homing none s)).1 := by simp [identHome, hbegun]
  rw [heq]
  exact ⟨(identAt_moves _ _ hi).homingCommand, hsled, by simp⟩

/-- With the switch closed the sled is home at once, and its leg toward step 150 begins (R98, R151). -/
theorem identHome_atHome (hi : s.supervisor.ident = some i) (hclosed : s.sled.homeClosed = true) :
    IdentMoves { i with stage := .positioning, step := none, restart := false } s (identHome s) ∧
    (identHome s).sled = legTo150 0 { s.sled.homed with taken := 0 } ∧ (identHome s).spindle = s.spindle := by
  obtain ⟨hdone, hsled⟩ := homingCommand_atHome (s := identAt .homing none s) hclosed
  have heq : identHome s = identPosition (homingCommand (identAt .homing none s)).1 := by simp [identHome, hdone]
  have hmoves := (identAt_moves .homing none hi).homingCommand
  obtain ⟨hleg, hleft, hspindle⟩ := identPosition_leaves hmoves.ident (x := 0) (.inl (by rw [hsled]; rfl))
    (by rw [hsled]; rfl) (by omega)
  rw [heq]
  exact ⟨hmoves.trans hleg, by rw [hleft, hsled]; rfl, by rw [hspindle]; simp⟩

end Sys2Proof.Proofs
end

section
/-! CLAMP STATE (R76, R99 to R102, R148 to R152, R161): the start of an identification, and the emergency of an unclamp. -/

namespace Sys2Proof.Proofs

set_option Elab.async false

open Sys2Proof.Machine Sys2Proof.Safety Sys2Proof.Laws

variable {s t u : State} {i j : Ident} {x : Nat} {p : Port} {tag value : Byte} {origin : IdentOrigin}

/-! ### An identification starts (R151, R161) -/

/-- The record that a start of an identification makes (R151, R161). -/
def firstRecord (origin : IdentOrigin) (s : State) : Ident where
  origin := origin
  stage := if s.sled.position = none then .homing else .positioning
  step := none
  candidate := none
  window := none
  paused := s.supervisor.supply == .sag
  restart := false

/-- The part with its new record, before the first command of the identification. -/
def identStarted (origin : IdentOrigin) (s : State) : State :=
  let u := setDrive .identifying (s.setArbiter { s.arbiter with releaseLatch := false })
  u.setSupervisor { u.supervisor with ident := some (firstRecord origin s) }

theorem startIdent_eq (origin : IdentOrigin) (s : State) : startIdent origin s
    = if s.supervisor.supply = .sag then identStarted origin s else identBegin (identStarted origin s) := by
  unfold startIdent identStarted
  simp [firstRecord]

theorem identStarted_supervisor (origin : IdentOrigin) (s : State) : (identStarted origin s).supervisor
    = { s.supervisor with drive := .identifying, ident := some (firstRecord origin s) } := by
  simp [identStarted]

@[simp] theorem identStarted_arbiter (origin : IdentOrigin) (s : State) :
    (identStarted origin s).arbiter = { s.arbiter with releaseLatch := false } := by simp [identStarted]

@[simp] theorem identStarted_planner (origin : IdentOrigin) (s : State) :
    (identStarted origin s).planner = s.planner := by simp [identStarted]

@[simp] theorem identStarted_sled (origin : IdentOrigin) (s : State) :
    (identStarted origin s).sled = s.sled := by simp [identStarted]

@[simp] theorem identStarted_optics (origin : IdentOrigin) (s : State) :
    (identStarted origin s).optics = s.optics := by simp [identStarted]

@[simp] theorem identStarted_clock (origin : IdentOrigin) (s : State) :
    (identStarted origin s).clock = s.clock := by simp [identStarted]

theorem identStarted_spindle (origin : IdentOrigin) (hdrive : s.supervisor.drive ≠ .moving) :
    (identStarted origin s).spindle = s.spindle := by
  simp [identStarted, setDrive_spindle (s := s.setArbiter { s.arbiter with releaseLatch := false }) (d := .identifying)
    (by decide) hdrive]

/-- The DRIVE notice of IDENTIFYING (R146). -/
theorem identStarted_noticed (origin : IdentOrigin) (hdrive : s.supervisor.drive ≠ .identifying) {q : Port}
    (hq : admits (s.port q).mask 2 = true) :
    Laws.Noticed (.drive .identifying s.supervisor.drive s.supervisor.cls s.clock) q (identStarted origin s) := by
  have hnotice := setDrive_noticed (s := s.setArbiter { s.arbiter with releaseLatch := false }) (d := .identifying)
    (q := q) (by simpa using hdrive.symm) (by rw [State.setArbiter_port]; exact hq)
  exact hnotice.congr (by simp [identStarted])

theorem IdentMoves.refl (hi : s.supervisor.ident = some i) : IdentMoves i s s where
  supervisor := by rw [← hi]
  clock := rfl
  arbiter := rfl
  step := rfl
  optics := rfl
  noticed _ _ _ hq := hq

/-- What an identification has begun with: its record in IDENTIFYING, and nothing that is to follow (R151). -/
structure Starts (origin : IdentOrigin) (j : Ident) (s t : State) : Prop where
  moves : IdentMoves j (identStarted origin s) t
  waits : react t = t
  begun : IdentBegun origin j s t

section Starts

variable (hwaiting : s.arbiter.waiting = []) (hstep : s.planner.acquireStep ≠ .spin) (hmoving : s.supervisor.drive ≠ .moving)

include hwaiting hstep

theorem IdentMoves.started_react (h : IdentMoves j (identStarted origin s) t) (hstage : j.stage ≠ .spinning)
    (hrestart : j.restart = false) : Machine.react t = t :=
  h.react (by simpa using hwaiting) (by simpa using hstep) hstage hrestart

omit hwaiting hstep in
/-- The parts of a beginning that the record and the drive state tell. -/
theorem IdentMoves.started_record (h : IdentMoves j (identStarted origin s) t) :
    t.supervisor.drive = .identifying ∧ t.arbiter.releaseLatch = false ∧ t.supervisor.ident = some j := by
  refine ⟨?_, ?_, h.ident⟩
  · rw [h.supervisor, identStarted_supervisor]
  · rw [h.arbiter, identStarted_arbiter]

include hmoving

/-- In a sag it is paused from its start (R161). -/
theorem startIdent_inSag (hsupply : s.supervisor.supply = .sag) :
    Starts origin (firstRecord origin s) s (startIdent origin s) := by
  have heq : startIdent origin s = identStarted origin s := by rw [startIdent_eq, if_pos hsupply]
  have hmoves : IdentMoves (firstRecord origin s) (identStarted origin s) (identStarted origin s) :=
    .refl (by rw [identStarted_supervisor])
  have hstage : (firstRecord origin s).stage ≠ .spinning := by
    simp only [firstRecord]
    split <;> simp
  obtain ⟨hdrive, hlatch, hident⟩ := hmoves.started_record
  rw [heq]
  exact
    { moves := hmoves
      waits := hmoves.started_react hwaiting hstep hstage rfl
      begun :=
        { drive := ⟨hdrive, hlatch⟩
          record := ⟨hident, rfl, rfl, rfl, rfl, rfl⟩
          sag := fun _ => ⟨rfl, by simp, identStarted_spindle _ hmoving⟩
          homing := by simp [hsupply]
          home := by simp [hsupply]
          position := by simp [hsupply]
          there := by simp [hsupply] } }

section Normal

variable (hsupply : s.supervisor.supply = .normal)

include hsupply

omit hwaiting hstep hmoving in
theorem startIdent_normal : startIdent origin s = identBegin (identStarted origin s) := by
  rw [startIdent_eq, if_neg (by simp [hsupply])]

omit hmoving in
/-- With the sled position unknown and the switch open it homes (R98, R151). -/
theorem startIdent_homes (hx : s.sled.position = none) (hopen : s.sled.homeClosed = false) :
    ∃ j, Starts origin j s (startIdent origin s) := by
  have heq : startIdent origin s = identHome (identStarted origin s) := by
    rw [startIdent_normal hsupply, identBegin, if_pos (by simpa using hx)]
  obtain ⟨hmoves, hsled, hspindle⟩ := identHome_leaves (s := identStarted origin s)
    (by rw [identStarted_supervisor]) (by simpa using hopen)
  obtain ⟨hdrive, hlatch, hident⟩ := hmoves.started_record
  rw [heq]
  refine ⟨_, hmoves, hmoves.started_react hwaiting hstep (by simp) rfl, ⟨hdrive, hlatch⟩,
    ⟨hident, rfl, rfl, rfl, rfl, by simp [firstRecord]⟩, by simp [hsupply], fun _ _ _ => ⟨rfl, ?_⟩, by simp [hopen],
    by simp [hx], by simp [hx]⟩
  rw [hsled]
  exact ⟨rfl, rfl, rfl⟩

omit hmoving in
/-- With the position unknown and the switch closed the sled is home, and leaves for step 150 (R98, R151). -/
theorem startIdent_atHome (hx : s.sled.position = none) (hclosed : s.sled.homeClosed = true) :
    ∃ j, Starts origin j s (startIdent origin s) := by
  have heq : startIdent origin s = identHome (identStarted origin s) := by
    rw [startIdent_normal hsupply, identBegin, if_pos (by simpa using hx)]
  obtain ⟨hmoves, hsled, hspindle⟩ := identHome_atHome (s := identStarted origin s)
    (by rw [identStarted_supervisor]) (by simpa using hclosed)
  obtain ⟨hdrive, hlatch, hident⟩ := hmoves.started_record
  rw [heq]
  refine ⟨_, hmoves, hmoves.started_react hwaiting hstep (by simp) rfl, ⟨hdrive, hlatch⟩,
    ⟨hident, rfl, rfl, rfl, rfl, by simp [firstRecord]⟩, by simp [hsupply], by simp [hclosed], fun _ _ _ => ⟨rfl, ?_⟩,
    by simp [hx], by simp [hx]⟩
  rw [hsled]
  exact ⟨rfl, rfl, rfl, rfl, rfl⟩

variable (hrest : s.sled.state = .idle ∨ s.sled.state = .creep) (hx : s.sled.position = some x)

include hrest hx

omit hmoving in
/-- Away from step 150 the sled leaves for it (R100, R151). -/
theorem startIdent_leaves (hne : x ≠ 150) : ∃ j, Starts origin j s (startIdent origin s) := by
  have heq : startIdent origin s = identPosition (identStarted origin s) := by
    rw [startIdent_normal hsupply, identBegin, if_neg (by simp [hx])]
  obtain ⟨hmoves, hsled, hspindle⟩ := identPosition_leaves (s := identStarted origin s)
    (by rw [identStarted_supervisor]) (by simpa using hrest) (by simpa using hx) hne
  obtain ⟨hdrive, hlatch, hident⟩ := hmoves.started_record
  rw [heq]
  refine ⟨_, hmoves, hmoves.started_react hwaiting hstep (by simp) rfl, ⟨hdrive, hlatch⟩,
    ⟨hident, rfl, rfl, rfl, rfl, by simp [firstRecord]⟩, by simp [hsupply], by simp [hx], by simp [hx],
    fun y _ hy _ => ⟨rfl, ?_⟩, by simp [hx, hne]⟩
  obtain rfl : x = y := by simpa [hx] using hy
  rw [hsled]
  exact ⟨rfl, by simp [legTo150, hx], rfl, rfl, rfl⟩

omit hstep in
/-- At step 150 already the motor is given the fixed speed (R68, R102, R152). -/
theorem startIdent_spins (hthere : x = 150) (hstate : s.spindle.state = .stopped ∨ s.spindle.state = .braking)
    (htarget : s.spindle.target = 0) (hband : ¬ Within 10 s.spindle.measured 500) :
    ∃ j, Starts origin j s (startIdent origin s) := by
  subst hthere
  have heq : startIdent origin s = identPosition (identStarted origin s) := by
    rw [startIdent_normal hsupply, identBegin, if_neg (by simp [hx])]
  have hspindle := identStarted_spindle origin hmoving
  obtain ⟨hmoves, hsled, hspin⟩ := identPosition_arrives (s := identStarted origin s)
    (by rw [identStarted_supervisor]) (by simpa using hrest) (by simpa using hx)
  have hspins := identSpin_spinsUp (s := (identAt .positioning none (identStarted origin s)).setSled
    (identPosition (identStarted origin s)).sled) (by simpa [hspindle] using hstate) (by simpa [hspindle] using htarget)
    (by simpa [hspindle] using hband)
  rw [← hspin] at hspins
  obtain ⟨hdrive, hlatch, hident⟩ := hmoves.started_record
  rw [heq]
  refine ⟨_, hmoves, react_spinning (by rw [hmoves.arbiter]; simpa using hwaiting)
    (by rw [hspins.state]; rfl), ⟨hdrive, hlatch⟩, ⟨hident, rfl, rfl, rfl, rfl, by simp [firstRecord]⟩, by simp [hsupply],
    by simp [hx], by simp [hx], ?_, fun _ _ => ⟨rfl, ?_, hspins.mode, hspins.target, hspins.state, ?_⟩⟩
  · intro y _ hy hne
    exact absurd (by simpa [hx] using hy.symm) hne
  · rw [hsled]
    simp [Sled.takesLeg, Sled.legOver, restState]
  · simpa using hspins.lockLimit

end Normal

/-- Where a start leads is settled by the supply and the sled alone (R151, R161). -/
theorem startIdent_starts (hopen : IdentOpen s) : ∃ j, Starts origin j s (startIdent origin s) := by
  obtain ⟨hrest, hstate, htarget, hband⟩ := hopen
  cases hsupply : s.supervisor.supply with
  | sag => exact ⟨_, startIdent_inSag hwaiting hstep hmoving hsupply⟩
  | normal =>
    cases hx : s.sled.position with
    | none =>
      cases hswitch : s.sled.homeClosed with
      | false => exact startIdent_homes hwaiting hstep hsupply hx hswitch
      | true => exact startIdent_atHome hwaiting hstep hsupply hx hswitch
    | some x =>
      by_cases hthere : x = 150
      · exact startIdent_spins hwaiting hmoving hsupply hrest hx hthere hstate htarget hband
      · exact startIdent_leaves hwaiting hstep hsupply hrest hx hthere

end Starts

end Sys2Proof.Proofs
end

section
/-! CLAMP STATE (R76, R99, R101, R128, R148 to R150): a start, an entry to EMPTY, and the emergency of an unclamp. -/

namespace Sys2Proof.Proofs

set_option Elab.async false

open Sys2Proof.Machine Sys2Proof.Safety Sys2Proof.Laws

variable {s t u : State} {j : Ident} {p : Port} {tag value : Byte} {origin : IdentOrigin}

/-! ### Entry to EMPTY (R21, R150) -/

theorem setDrive_zones {d : DriveState} (hd : d ≠ .onTrack) (s : State) : (setDrive d s).zones = s.zones := by
  unfold setDrive
  split
  · rfl
  · dsimp only
    split <;> simp

theorem lasersOff_optics (s : State) : (lasersOff s).optics = { s.optics with
    focus := .off, tracking := .off, holdAddress := none, openPending := false, requester := none
    closers := [], storedSearch := none, storedJump := none, attemptTimer := none, attempt := 0
    profile := none, switch := none } := by
  simp [lasersOff, focusOff_optics]

theorem lasersOff_sled (s : State) : (lasersOff s).sled = s.sled.follows .off := by simp [lasersOff, focusOff_sled]

theorem lasersOff_resume (s : State) : (lasersOff s).monitor.resume = s.monitor.resume := by
  unfold lasersOff focusOff loopsOpen trackingOff setFocus
  dsimp only
  split <;> simp [staleFix]

/-- With the disc go the map, the fix, the resume point, the announced zone and the light; the spindle moves in m alone out of
CLV mode (R21, R72, R85, R150). -/
structure Emptied (s t : State) : Prop where
  supervisor : t.supervisor = { s.supervisor with cls := none, drive := .empty }
  map : t.map = PosMap.empty
  fix : t.monitor.fix = none ∧ t.monitor.resume = none
  loops : t.optics.focus = .off ∧ t.optics.tracking = .off ∧ t.optics.profile = none
  zones : t.zones = { s.zones with announced := none }
  arbiter : t.arbiter = { s.arbiter with releaseLatch := false }
  step : t.planner.acquireStep = .none
  sled : t.sled = s.sled.follows .off
  phase : t.recovery.phase = s.recovery.phase
  spindle : s.spindle.mode ≠ .clv → ∃ m, t.spindle = { s.spindle with m := m }
  reports : ∀ q, reportsOf q t = reportsOf q s

theorem discGone_eq (s : State) : ∃ v, discGone s = lasersOff (clearMap v) ∧ v.zones = s.zones ∧
    v.recovery = s.recovery ∧ v.spindle = s.spindle ∧ v.supervisor = { s.supervisor with cls := none } :=
  ⟨_, rfl, rfl, rfl, rfl, rfl⟩

theorem enterEmpty_empties (s : State) : Emptied s (enterEmpty s) := by
  obtain ⟨hsupervisor, hmap, hprofile, hlast, hstep, hsled⟩ := discGone_blocks s
  obtain ⟨v, hgone, hzones, hrecovery, hspindle, -⟩ := discGone_eq s
  have hcleared : (clearMap v).zones = { s.zones with announced := none } := by
    rw [clearMap_eq, recomputeM_zones, ← hzones]
    rfl
  have heq : enterEmpty s = setDrive .empty ((discGone s).setArbiter { (discGone s).arbiter with releaseLatch := false }) := rfl
  have hrecoveryGone : (discGone s).recovery.phase = s.recovery.phase := by
    rw [hgone, lasersOff_recovery, clearMap_eq, recomputeM_recovery, ← hrecovery]
    rfl
  rw [heq]
  refine ⟨by simp [hsupervisor], by simp [hmap], ⟨by simpa using lastGood_eq_none.1 hlast, ?_⟩,
    ⟨?_, ?_, by simpa using hprofile⟩, ?_, by simp, by simpa using hstep, by simpa using hsled, by simpa using hrecoveryGone,
    fun hmode => ?_, fun q => by simp⟩
  · rw [setDrive_monitor, State.setArbiter_monitor, hgone, lasersOff_resume, clearMap_eq, recomputeM_monitor]
    rfl
  · simp [hgone, lasersOff_optics]
  · simp [hgone, lasersOff_optics]
  · rw [setDrive_zones (by decide), State.setArbiter_zones, hgone, lasersOff_zones, hcleared]
  · obtain ⟨m, hm⟩ := recomputeM_spindle_stop (s := cleared v) (by simpa [cleared, hspindle] using hmode)
    have hgoneSpindle : (discGone s).spindle = { s.spindle with m := m } := by
      rw [hgone, lasersOff_spindle, clearMap_eq, hm, ← hspindle]
      rfl
    obtain ⟨m', hm'⟩ := setDrive_spindle_stop
      (s := (discGone s).setArbiter { (discGone s).arbiter with releaseLatch := false }) .empty
      (by simpa [hgoneSpindle] using hmode)
    exact ⟨m', by rw [hm', State.setArbiter_spindle, hgoneSpindle]⟩

/-- An entry to EMPTY after an unclamp leaves the drive emptied (R149, R150). -/
theorem Emptied.driveEmptied (h : Emptied u t) (hclamp : u.supervisor.clamp = .unclamped)
    (hsupply : u.supervisor.supply = s.supervisor.supply) (hfault : u.supervisor.fault = s.supervisor.fault)
    (hentries : u.zones.entries = s.zones.entries) : DriveEmptied s t where
  drive := by rw [h.supervisor]; exact ⟨rfl, rfl, hclamp⟩
  supply := by rw [h.supervisor]; exact hsupply
  fault := by rw [h.supervisor]; exact hfault
  map := h.map
  fix := h.fix
  loops := h.loops
  latch := by rw [h.arbiter]
  zones := by rw [h.zones]; exact ⟨hentries, rfl⟩

theorem driveEmptied_answer {st : Status} {d : List Byte} (h : DriveEmptied s t) :
    DriveEmptied s (t.answer p tag st d) :=
  ⟨by simpa using h.drive, by simpa using h.supply, by simpa using h.fault, by simpa using h.map, by simpa using h.fix,
    by simpa using h.loops, by simpa using h.latch, by simpa using h.zones⟩

/-! ### The emergency (R76, R99, R101, R149) -/

/-- The part before the motions of an emergency end: braked, dark, the sled stopped, with nothing in progress. -/
def silenced (s : State) : State := endRecovery (endSagHold (abandonIdent (sledStop (lasersOff (brake s)))))

theorem emergency_eq (s : State) : emergency s = enterEmpty (endAll (.preempted .release) (silenced s)) := rfl

theorem silenced_supervisor (s : State) : (silenced s).supervisor = { s.supervisor with
    ident := none, sagTimer := none, focusLostInSag := false, suspendedPhase := none } := by
  simp [silenced, endSagHold, abandonIdent, endSwitch, endIdent]

theorem silenced_sled (s : State) : (silenced s).sled = (s.sled.follows .off).stop := by
  simp [silenced, sledStop, lasersOff_sled]

theorem silenced_spindle (s : State) : (silenced s).spindle = s.spindle.brake s.clock := by
  simp [silenced, brake, brakeSpindle]

theorem silenced_arbiter (s : State) : (silenced s).arbiter = s.arbiter := by simp [silenced]

theorem silenced_zones (s : State) : (silenced s).zones = s.zones := by simp [silenced]

theorem silenced_phase (s : State) : (silenced s).recovery.phase = .none := by simp [silenced, endRecovery]

theorem silenced_last (s : State) : lastGood (silenced s) = lastGood s := by
  have hmonitor : (silenced s).monitor = (lasersOff (brake s)).monitor := by simp [silenced]
  rw [lastGood_congr hmonitor, lastGood_lasersOff, lastGood_brake]

theorem silenced_reports (q : Port) (s : State) : reportsOf q (silenced s) = reportsOf q s := by simp [silenced]

/-- What the emergency comes to, its motions ended PREEMPTED with reason RELEASE (R128, R149). -/
structure Emergency (s t : State) : Prop where
  emptied : Emptied (endAll (.preempted .release) (silenced s)) t
  motions : NoMotion t
  supervisor : t.supervisor = { s.supervisor with
    ident := none, sagTimer := none, focusLostInSag := false, suspendedPhase := none, cls := none, drive := .empty }
  phase : t.recovery.phase = .none
  sled : SledStopped s t
  braked : Driven s.spindle → 30 ≤ s.spindle.measured → Braked s t
  reports : ∀ q, reportsOf q t = reportsOf q s
    ++ ((liveMotions s).filter (fun m => m.port == q)).map (fun m => m.report (.preempted .release) (lastGood s))

/-- Tracking that opens before and after it takes nothing from a stop of the sled (R99, R101, R102). -/
theorem sledStopped_of (h : t.sled = ((s.sled.follows .off).stop).follows .off) : SledStopped s t := by
  refine ⟨fun hidle => ?_, fun hcreep => ?_, fun hleg => ?_, fun hhoming hrun => ?_, fun hhoming hpaused => ?_⟩
  · rw [h]; simp [Sled.follows, Sled.stop, hidle]
  · rw [h]; simp [Sled.follows, Sled.stop, hcreep]
  · rw [h]; simp [Sled.follows, Sled.stop, hleg]
  · rw [h]; simp [Sled.follows, Sled.stop, hhoming, hrun]
  · rw [h]; simp [Sled.follows, Sled.stop, hhoming, hpaused]

theorem emergency_empties (s : State) : Emergency s (emergency s) := by
  have hempties := enterEmpty_empties (endAll (.preempted .release) (silenced s))
  rw [emergency_eq]
  refine ⟨hempties, ?_, ?_, ?_, sledStopped_of ?_, fun hdriven hturns => ?_, fun q => ?_⟩
  · rw [NoMotion, ← liveMotions_endAll (silenced s) (.preempted .release)]
    simp [liveMotions, hempties.arbiter]
  · rw [hempties.supervisor, endAll_supervisor, silenced_supervisor]
  · rw [hempties.phase, endAll_recovery, silenced_phase]
  · rw [hempties.sled, endAll_sled, silenced_sled]
  · obtain ⟨m, hm⟩ := hempties.spindle (by simp [silenced_spindle, (brake_stops _ _).1])
    exact braked_of_spindle (m := m) hdriven hturns (by rw [hm, endAll_spindle, silenced_spindle])
  · rw [hempties.reports, reportsOf_endAll, silenced_reports, silenced_last, liveMotions_congr (silenced_arbiter s)]

/-- Nothing follows an emergency. -/
theorem Emergency.react (h : Emergency s t) : react t = t :=
  react_quiet h.motions (by rw [h.supervisor]) h.emptied.step

/-! ### The statement (R148, R191) -/

/-- The part that has recorded a clamp report (R148). -/
def clampStored (c : ClampState) (s : State) : State := s.setSupervisor { s.supervisor with clamp := c }

theorem exec_clamp {c : ClampState} (h : Takes 0x30 p s) (hc : clamp? value = some c) (hact : clampReport c s = t)
    (hwaits : react t = t) : exec (.clampState p tag value) s = .next (t.answer p tag .accepted (mechanismData t)) := by
  refine exec_takes (k := .clampState) rfl rfl h ?_
  change requestClamp value s = _
  simp [requestClamp, hc, hact, hwaits]

theorem clampReport_starts (hdrive : s.supervisor.drive = .empty ∨ s.supervisor.drive = .released) :
    clampReport .clamped s = startIdent .clamp (clampStored .clamped s) := by
  unfold clampReport clampStored
  dsimp only
  generalize s.setSupervisor { s.supervisor with clamp := .clamped } = u
  rcases hdrive with h | h <;> rw [h]

/-- A report of CLAMPED in any other state is recorded, and no more (R148). -/
theorem clampReport_clamped (h1 : s.supervisor.drive ≠ .empty) (h2 : s.supervisor.drive ≠ .released) :
    clampReport .clamped s = clampStored .clamped s := by
  unfold clampReport clampStored
  dsimp only
  generalize s.setSupervisor { s.supervisor with clamp := .clamped } = u
  split <;> simp_all

theorem clampReport_unclamped (h1 : s.supervisor.drive ≠ .empty) (h2 : s.supervisor.drive ≠ .released) :
    clampReport .unclamped s = emergency (clampStored .unclamped s) := by
  unfold clampReport clampStored
  dsimp only
  generalize s.setSupervisor { s.supervisor with clamp := .unclamped } = u
  split <;> simp_all

theorem clampReport_inEmpty (h : s.supervisor.drive = .empty) :
    clampReport .unclamped s = clampStored .unclamped s := by
  unfold clampReport clampStored
  dsimp only
  generalize s.setSupervisor { s.supervisor with clamp := .unclamped } = u
  rw [h]

theorem clampReport_inReleased (h : s.supervisor.drive = .released) :
    clampReport .unclamped s = enterEmpty (clampStored .unclamped s) := by
  unfold clampReport clampStored
  dsimp only
  generalize s.setSupervisor { s.supervisor with clamp := .unclamped } = u
  rw [h]

/-- The answer to the report takes nothing from a beginning. -/
theorem identBegun_answer {st : Status} {d : List Byte} (h : IdentBegun origin j s t) :
    IdentBegun origin j s (t.answer p tag st d) where
  drive := by simpa using h.drive
  record := by simpa using h.record
  sag := by simpa using h.sag
  homing := by simpa using h.homing
  home := by simpa using h.home
  position := by simpa using h.position
  there := by simpa using h.there

/-- Settles O44: the report by the state it carries and the drive state it finds. -/
theorem clampStateActsByDriveState : Obligations.ClampStateActsByDriveState := by
  intro p tag value s htakes
  refine ⟨fun h1 h2 => ?other, fun hone h1 h2 hsettled => ?recorded, fun hone hdrive hsettled hopen => ?starts,
    fun htwo hdrive hsettled => ?empty, fun htwo h1 h2 => ?emergency, fun htwo hdrive hsettled => ?released⟩
  case other =>
    refine exec_takes (k := .clampState) rfl rfl htakes ?_
    have hnone : clamp? value = none := by rw [clamp?, if_neg h1, if_neg h2]
    change requestClamp value s = _
    simp [requestClamp, hnone]
  case recorded =>
    subst hone
    exact exec_clamp htakes (c := .clamped) (by decide) (clampReport_clamped h1 h2)
      (react_unmoved (t := clampStored .clamped s) hsettled rfl rfl rfl)
  case starts =>
    subst hone
    obtain ⟨j, hstarts⟩ := startIdent_starts (s := clampStored .clamped s) (origin := .clamp) hsettled.1 hsettled.2.2
      (by rcases hdrive with h | h <;> simp [clampStored, h]) hopen
    have hexec := exec_clamp (tag := tag) (value := 1) htakes (c := .clamped) (by decide)
      (clampReport_starts hdrive) hstarts.waits
    have hsupervisor := hstarts.moves.supervisor
    rw [identStarted_supervisor] at hsupervisor
    refine ⟨_, j, hexec, by rw [answer_supervisor, hsupervisor]; rfl, fun q hq => ?_, ?_, ?_⟩
    · have hnotice := hstarts.moves.noticed _ q (by simp [Notice.code]) (identStarted_noticed .clamp
        (s := clampStored .clamped s) (q := q) (by rcases hdrive with h | h <;> simp [clampStored, h])
        (by rw [clampStored, State.setSupervisor_port]; exact hq))
      rw [answer_queue, answer_supervisor, hsupervisor]
      exact hnotice
    · rw [answer_reply, mechanismData, hsupervisor]
      rfl
    · obtain ⟨hd, hrecord, hsag, hhoming, hhome, hposition, hthere⟩ := identBegun_answer (p := p) (tag := tag)
        (st := .accepted) (d := mechanismData (startIdent .clamp (clampStored .clamped s))) hstarts.begun
      exact ⟨hd, hrecord, hsag, hhoming, hhome, hposition, hthere⟩
  case empty =>
    subst htwo
    have hexec := exec_clamp (tag := tag) htakes (c := .unclamped) (value := 2) (by decide) (clampReport_inEmpty hdrive)
      (react_unmoved (t := clampStored .unclamped s) hsettled rfl rfl rfl)
    have hdata : mechanismData (clampStored .unclamped s) = [2, s.supervisor.supply.code, 0] := by
      simp only [mechanismData, clampStored, State.setSupervisor_supervisor, hdrive]
      rfl
    rw [hdata] at hexec
    exact hexec
  case emergency =>
    subst htwo
    have hends := emergency_empties (clampStored .unclamped s)
    have hexec := exec_clamp (tag := tag) (value := 2) htakes (c := .unclamped) (by decide)
      (clampReport_unclamped h1 h2) hends.react
    refine ⟨_, hexec, ?_, driveEmptied_answer (hends.emptied.driveEmptied ?_ ?_ ?_ ?_), ?_, fun hdriven hturns => ?_, ?_, ?_,
      ?_, ?_, fun q => ?_⟩
    · rw [answer_reply, mechanismData, hends.supervisor]
      rfl
    · rw [endAll_supervisor, silenced_supervisor]; rfl
    · rw [endAll_supervisor, silenced_supervisor]; rfl
    · rw [endAll_supervisor, silenced_supervisor]; rfl
    · rw [endAll_zones, silenced_zones]; rfl
    · simpa [NoMotion] using hends.motions
    · simpa [Braked, clampStored] using hends.braked hdriven hturns
    · simpa [SledStopped, clampStored] using hends.sled
    · rw [answer_supervisor, hends.supervisor]
    · rw [answer_supervisor, hends.supervisor]
    · rw [answer_recovery, hends.phase]
    · rw [reports_answer]; exact hends.reports q
  case released =>
    subst htwo
    have hends := enterEmpty_empties (clampStored .unclamped s)
    have hexec := exec_clamp (tag := tag) (value := 2) htakes (c := .unclamped) (by decide) (clampReport_inReleased hdrive)
      (react_settled ⟨by rw [hends.arbiter]; exact hsettled.1, by rw [hends.supervisor]; exact hsettled.2.1,
        by simp [hends.step]⟩)
    refine ⟨_, hexec, ?_, driveEmptied_answer (hends.driveEmptied rfl rfl rfl rfl)⟩
    rw [answer_reply, mechanismData, hends.supervisor]
    rfl

end Sys2Proof.Proofs
end

section
/-! Tachometer readings and the lock test (R73 to R76, R98, R143, R162 to R164, R178): what a reading leaves of the spindle, and
what its stopped report leads to. -/

namespace Sys2Proof.Proofs

set_option Elab.async false

open Sys2Proof.Machine Sys2Proof.Safety Sys2Proof.Laws

variable {s t u : State} {m : Motion} {sp : Spindle} {now : Time} {rpm : Nat}

/-! ### What a reading leaves of the spindle (R73 to R76) -/

theorem within10_false {measured target : Nat} (h : ¬ Within 10 measured target) : within10 measured target = false :=
  Bool.eq_false_iff.2 fun hw => h ((within10_iff _ _).1 hw)

theorem within2_false {measured target : Nat} (h : ¬ Within 2 measured target) : within2 measured target = false :=
  Bool.eq_false_iff.2 fun hw => h ((within2_iff _ _).1 hw)

/-- A spindle at rest or in COAST stores the reading, and so does one that brakes at 30 rpm or more. -/
theorem read_stores (h : sp.state = .stopped ∨ sp.state = .coast ∨ sp.state = .braking ∧ 30 ≤ min rpm 9999) :
    sp.read now rpm = { sp with measured := min rpm 9999 } := by
  rcases h with h | h | ⟨h, hturns⟩
  · simp [Spindle.read, h]
  · simp [Spindle.read, h]
  · simp only [Spindle.read, h, if_neg (Nat.not_lt.2 hturns)]

theorem read_stops (h : sp.state = .braking) (hslow : min rpm 9999 < 30) :
    sp.read now rpm = { sp with measured := min rpm 9999, state := .stopped, stopLimit := none } := by
  simp only [Spindle.read, h, if_pos hslow]

section Bands

/-- Outside 10 % a spindle that spins up stays so, and a COARSE one falls back to SPINUP (R73, R74). -/
theorem read_far (h : sp.state = .spinup ∨ sp.state = .coarse) (hfar : ¬ Within 10 (min rpm 9999) sp.target) :
    sp.read now rpm = { sp with
      measured := min rpm 9999, state := .spinup
      lockTest := if sp.state = .coarse then none else sp.lockTest } := by
  rcases h with h | h
  · simp [Spindle.read, h, within10_false hfar]
  · simp [Spindle.read, h, within10_false hfar]

/-- Within 10 % it is COARSE, with no lock test outside 2 % (R73, R74). -/
theorem read_near (h : sp.state = .spinup ∨ sp.state = .coarse ∨ sp.state = .locked)
    (hnear : Within 10 (min rpm 9999) sp.target) (hout : ¬ Within 2 (min rpm 9999) sp.target) :
    sp.read now rpm = { sp with measured := min rpm 9999, state := .coarse, lockTest := none } := by
  have hband := (within10_iff _ _).2 hnear
  rcases h with h | h | h
  · simp [Spindle.read, h, hband, within2_false hout]
  · simp [Spindle.read, h, hband, within2_false hout]
  · simp [Spindle.read, h, hband, within2_false hout]

/-- Within 2 % the lock test begins, or runs on (R74). -/
theorem read_inLockBand (h : sp.state = .spinup ∨ sp.state = .coarse) (hin : Within 2 (min rpm 9999) sp.target) :
    sp.read now rpm = { sp with
      measured := min rpm 9999, state := .coarse
      lockTest := some (if sp.state = .coarse then sp.lockTest.getD now else now) } := by
  have hnear := (within10_iff _ _).2 (within10_of_within2 hin)
  rcases h with h | h
  · simp [Spindle.read, h, hnear, (within2_iff _ _).2 hin]
  · cases htest : sp.lockTest <;> simp [Spindle.read, h, hnear, (within2_iff _ _).2 hin, htest]

/-- A LOCKED spindle stays so within 2 %. -/
theorem read_staysLocked (h : sp.state = .locked) (hin : Within 2 (min rpm 9999) sp.target) :
    sp.read now rpm = { sp with measured := min rpm 9999 } := by
  simp [Spindle.read, h, (within2_iff _ _).2 hin]

/-- Outside 10 % it slips, its lock limit armed (R75). -/
theorem read_fallsOut (h : sp.state = .locked) (hfar : ¬ Within 10 (min rpm 9999) sp.target) : sp.read now rpm = { sp with
    measured := min rpm 9999, state := .spinup, lockTest := none, lockLimit := some now } := by
  simp [Spindle.read, h, within10_false hfar, within2_false fun hin => hfar (within10_of_within2 hin)]

end Bands

/-! ### What a reading leads to (R75, R76) -/

/-- A reading that is no slip in a state that recovers, and no stop, is the spindle's alone. -/
theorem exec_reading_only (hsettled : Settled s) (hstops : s.spindle.state ≠ .braking ∨ 30 ≤ min rpm 9999)
    (hslips : s.spindle.state ≠ .locked ∨ Within 10 (min rpm 9999) s.spindle.target ∨ raises s = false) :
    exec (.tachometerReading rpm) s = .next (s.setSpindle (s.spindle.read s.clock rpm)) := by
  obtain ⟨v, hv⟩ : ∃ v, v = s.setSpindle (s.spindle.read s.clock rpm) := ⟨_, rfl⟩
  have hstop : s.spindle.stops rpm = false := by
    rcases hstops with h | h
    · simp [Spindle.stops, h]
    · rw [Spindle.stops, decide_eq_false (Nat.not_lt.2 h), Bool.and_false]
  have hraises : raises v = raises s := by rw [Machine.raises, hv, State.setSpindle_supervisor, Machine.raises]
  have hslip : s.spindle.slips rpm = false ∨ raises v = false := by
    rcases hslips with h | h | h
    · exact .inl (by simp [Spindle.slips, h])
    · exact .inl (by simp [Spindle.slips, (within10_iff _ _).2 h])
    · exact .inr (hraises.trans h)
  have hreports : readingReports s.spindle rpm v = v := by
    unfold readingReports
    rcases hslip with h | h
    · rw [if_neg (by simp [h]), if_neg (by simp [hstop])]
    · rw [if_neg (c := raises v = true) (by simp [h]), if_neg (c := s.spindle.stops rpm = true) (by simp [hstop]), ite_self]
  change Host.Outcome.next (react (readingReports s.spindle rpm (s.setSpindle (s.spindle.read s.clock rpm)))) = _
  rw [← hv, hreports, react_unmoved hsettled (by simp [hv]) (by simp [hv]) (by simp [hv])]

/-- The spindle that brakes has come below 30 rpm: the supervisor takes its stopped report (R76). -/
theorem exec_reading_stopped (hstate : s.spindle.state = .braking) (hslow : min rpm 9999 < 30) :
    exec (.tachometerReading rpm) s = .next (react (spindleReportsStopped (s.setSpindle { s.spindle with
      measured := min rpm 9999, state := .stopped, stopLimit := none }))) := by
  change Host.Outcome.next (react (readingReports s.spindle rpm (s.setSpindle (s.spindle.read s.clock rpm)))) = _
  rw [readingReports, if_neg (by simp [Spindle.slips, hstate]), if_pos (by simp [Spindle.stops, hstate]; omega),
    read_stops hstate hslow]

theorem spindleReportsStopped_elsewhere (h1 : s.supervisor.drive ≠ .parking) (h2 : s.supervisor.drive ≠ .releasing) :
    spindleReportsStopped s = s := by
  unfold spindleReportsStopped
  split
  · exact absurd ‹_› h1
  · exact absurd ‹_› h2
  · rfl

theorem spindleReportsStopped_parking (h : s.supervisor.drive = .parking) : spindleReportsStopped s = enterStopped s := by
  rw [spindleReportsStopped, h]

theorem spindleReportsStopped_releasing (h : s.supervisor.drive = .releasing) (hphase : activePhase s = some .braking) :
    spindleReportsStopped s = releaseHoming s := by
  rw [spindleReportsStopped, h]
  exact if_pos hphase

/-! ### The drive is STOPPED (R143, R162) -/

/-- What an entry to STOPPED leaves as it is, and the end of its STOP. -/
structure Stopped (s t : State) : Prop where
  supervisor : t.supervisor = { s.supervisor with drive := .stopped }
  spindle : t.spindle = s.spindle
  waiting : t.arbiter.waiting = s.arbiter.waiting
  step : t.planner.acquireStep = s.planner.acquireStep
  stop : ∀ m, s.arbiter.active = some m → m.kind = .stop → t.arbiter.active = none ∧
    reportsOf m.port t = reportsOf m.port s ++ [m.report .done (lastGood s)]

theorem enterStopped_stops (hdrive : s.supervisor.drive ≠ .moving) : Stopped s (enterStopped s) := by
  have hspindle : (setDrive .stopped s).spindle = s.spindle := setDrive_spindle (by decide) hdrive
  have hlast : lastGood (setDrive .stopped s) = lastGood s := lastGood_congr (setDrive_monitor ..)
  unfold enterStopped
  dsimp only
  rw [setDrive_arbiter]
  cases hm : s.arbiter.active with
  | none => exact ⟨by simp, hspindle, by simp, by simp, fun x hx => absurd (hm.symm.trans hx) (by simp)⟩
  | some m =>
    have hsame {x : Motion} (hx : s.arbiter.active = some x) : m = x := Option.some.inj (hm.symm.trans hx)
    dsimp only
    split
    · refine ⟨by simp, by simpa using hspindle, by simp, by simp, fun x hx _ => ?_⟩
      obtain rfl := hsame hx
      exact ⟨by simp, by simp [hlast]⟩
    · exact ⟨by simp, hspindle, by simp, by simp, fun x hx hkind => absurd (hsame hx ▸ hkind) ‹_›⟩

/-! ### The homing of a RELEASE (R98, R163, R164) -/

theorem setPhase_active (hm : s.arbiter.active = some m) (ph : Phase) :
    setPhase ph s = setActive (some { m with phase := some ph }) s := by simp [setPhase, hm]

/-- With the switch open it begins, and is paused at once while the supply sags. -/
theorem releaseHoming_leaves (hm : s.arbiter.active = some m) (hopen : s.sled.homeClosed = false) :
    (releaseHoming s).sled = { s.sled with
      state := .homing, position := none, taken := 0, stopPending := false
      paused := s.supervisor.supply == .sag, requester := some .supervisor } ∧
    (releaseHoming s).arbiter = { s.arbiter with active := some { m with phase := some .homing } } ∧
    (releaseHoming s).spindle = s.spindle ∧ (releaseHoming s).supervisor = s.supervisor ∧
    (releaseHoming s).optics = s.optics ∧ (releaseHoming s).planner.acquireStep = s.planner.acquireStep ∧
    ∀ q, reportsOf q (releaseHoming s) = reportsOf q s := by
  obtain ⟨hbegun, hsled⟩ := homingCommand_leaves (s := setPhase .homing s) (by simpa using hopen)
  obtain ⟨v, hv⟩ : ∃ v, v = (homingCommand (setPhase .homing s)).1 := ⟨_, rfl⟩
  rw [← hv] at hsled
  have heq : releaseHoming s = if s.supervisor.supply = .sag then pauseHoming v else v := by
    rw [releaseHoming, if_neg (by simp [hbegun]), homingCommand_supervisor, setPhase_supervisor, ← hv]
  have harbiter : v.arbiter = { s.arbiter with active := some { m with phase := some .homing } } := by
    rw [hv, homingCommand_arbiter, setPhase_active hm]
    rfl
  have hreports (q : Port) : reportsOf q v = reportsOf q s := by
    rw [hv, reportsOf_congr q (homingCommand_port ..), reportsOf_setPhase]
  rw [heq]
  cases hsupply : s.supervisor.supply with
  | normal =>
    simp only [reduceCtorEq, if_false]
    exact ⟨by simp [hsled], harbiter, by simp [hv], by simp [hv], by simp [hv], by simp [hv], hreports⟩
  | sag =>
    simp only [if_true]
    refine ⟨?_, by simpa using harbiter, by simp [hv], by simp [hv], by simp [hv], ?_, fun q => ?_⟩
    · simp [pauseHoming, hsled]
    · rw [pauseHoming_planner]; simp [hv]
    · rw [reportsOf_congr q (pauseHoming_port ..), hreports]

/-- A spindle without a class keeps all but m when m is computed again (R72). -/
theorem recomputeM_spindle_noClass (h : s.supervisor.cls = none) :
    ∃ x, (recomputeM s).spindle = { s.spindle with m := x } := by
  unfold recomputeM
  dsimp only
  split
  · exact ⟨_, rfl⟩
  · rw [speedNotice_spindle, State.setSpindle_spindle]
    split
    · rename_i hmode
      exact ⟨effectiveMultiple s, by simp [Spindle.retarget, h, show s.spindle.mode = .clv from hmode]⟩
    · exact ⟨_, rfl⟩

/-- With no zone address the zone term is 4 (R71). -/
theorem effectiveMultiple_noFix (hdrive : s.supervisor.drive ≠ .moving) (hfix : s.monitor.fix = none) :
    effectiveMultiple s = (s.spindle.held.least .four).least (roadTerm s) := by
  simp [effectiveMultiple, zoneTerm, zoneAddress, hdrive, hfix]

/-- With the disc gone the spindle keeps all but m, and m is the least of its three terms (R71, R72, R150). -/
theorem discGone_spindle (hdrive : s.supervisor.drive ≠ .moving) :
    (∃ x, (discGone s).spindle = { s.spindle with m := x }) ∧
    (discGone s).spindle.m = (s.spindle.held.least .four).least (roadTerm s) := by
  obtain ⟨v, hgone, hzones, hrecovery, hspindle, hsupervisor⟩ := discGone_eq s
  have heq : (discGone s).spindle = (recomputeM (cleared v)).spindle := by
    rw [hgone, lasersOff_spindle, clearMap_eq]
  have hcls : (cleared v).supervisor.cls = none := by
    change v.supervisor.cls = none
    rw [hsupervisor]
  obtain ⟨x, hx⟩ := recomputeM_spindle_noClass hcls
  refine ⟨⟨x, ?_⟩, ?_⟩
  · rw [heq, hx, ← hspindle]
    rfl
  · have hmoving : (cleared v).supervisor.drive ≠ .moving := by
      change v.supervisor.drive ≠ .moving
      rw [hsupervisor]
      exact hdrive
    rw [heq, (recomputeM_spindle _).1, effectiveMultiple_noFix hmoving rfl, ← hspindle]
    simp [roadTerm, cleared, hrecovery]

/-- A RELEASE that comes to its end: the spindle keeps all but m, which is the least of its terms with no fix (R71, R150). -/
theorem enterReleased_spindle (hm : s.arbiter.active = some m) (hdrive : s.supervisor.drive ≠ .moving) :
    (∃ x, (enterReleased s).spindle = { s.spindle with m := x }) ∧ LeastMultiple (enterReleased s) := by
  obtain ⟨hsupervisor, -, -, hlast, -, -⟩ := discGone_blocks s
  obtain ⟨⟨x, hx⟩, hleast⟩ := discGone_spindle hdrive
  have hspindle : (enterReleased s).spindle = (discGone s).spindle := by
    rw [enterReleased_eq hm]
    simpa using setDrive_spindle (s := discGone s) (d := .released) (by decide) (by rw [hsupervisor]; exact hdrive)
  have hrough : (enterReleased s).recovery.rough = s.recovery.rough := by
    obtain ⟨v, hgone, -, hrecovery, -, -⟩ := discGone_eq s
    rw [enterReleased_eq hm]
    simp [hgone, clearMap_eq, cleared, hrecovery]
  have hfix : (enterReleased s).monitor.fix = none := by
    rw [enterReleased_eq hm]
    simpa [lastGood_eq_none] using hlast
  have hdriveLeft : (enterReleased s).supervisor.drive ≠ .moving := by
    rw [enterReleased_eq hm]
    simp
  refine ⟨⟨x, hspindle.trans hx⟩, leastMultiple_of_effective ?_⟩
  rw [effectiveMultiple_noFix hdriveLeft hfix, hspindle, hleast, roadTerm, roadTerm, hrough, hx]

/-- With the switch closed the homing is over at once, and the RELEASE with it (R98, R143, R163). -/
theorem releaseHoming_atHome (hm : s.arbiter.active = some m) (hclosed : s.sled.homeClosed = true)
    (hdrive : s.supervisor.drive = .releasing) :
    Released { m with phase := some .homing } ((homingCommand (setPhase .homing s)).1) (releaseHoming s) ∧
    (homingCommand (setPhase .homing s)).1.sled = { s.sled.homed with taken := 0 } ∧
    (∃ x, (releaseHoming s).spindle = { s.spindle with m := x }) ∧ LeastMultiple (releaseHoming s) ∧
    ∀ q, reportsOf q (releaseHoming s) = reportsOf q s ++ if m.port = q then [m.report .done (lastGood s)] else [] := by
  obtain ⟨hdone, hsled⟩ := homingCommand_atHome (s := setPhase .homing s) (by simpa using hclosed)
  obtain ⟨v, hv⟩ : ∃ v, v = (homingCommand (setPhase .homing s)).1 := ⟨_, rfl⟩
  have heq : releaseHoming s = enterReleased v := by rw [releaseHoming, if_pos hdone, ← hv]
  have hactive : v.arbiter.active = some { m with phase := some .homing } := by
    rw [hv, homingCommand_arbiter, setPhase_active hm]
    rfl
  have hdriveLeft : v.supervisor.drive = .releasing := by simp [hv, hdrive]
  obtain ⟨hspindle, hleast⟩ := enterReleased_spindle hactive (by simp [hdriveLeft])
  have hreleased := enterReleased_released hactive (by rw [hv, hsled]; rfl) (by simp [hdriveLeft])
  rw [heq, ← hv]
  refine ⟨hreleased, by rw [hv, hsled]; simp, by simpa [hv] using hspindle, hleast, fun q => ?_⟩
  have hlast : lastGood v = lastGood s := lastGood_congr (by simp [hv])
  have hreports : reportsOf q v = reportsOf q s := by
    rw [hv, reportsOf_congr q (homingCommand_port ..), reportsOf_setPhase]
  rw [enterReleased_eq hactive, reportsOf_endMotion, reportsOf_setActive, reportsOf_setDrive, reportsOf_discGone, hreports,
    hlast]
  rfl

/-! ### The lock test (R74, R178) -/

/-- A spindle that is LOCKED: its test over, its limit disarmed (R74). -/
def spindleLocked (sp : Spindle) : Spindle := { sp with state := .locked, lockTest := none, lockLimit := none }

theorem exec_lockTest {since : Time} (h : s.spindle.lockTest = some since) :
    exec .lockTestComplete s = .next (react (enterLocked (runTo since 100 s))) := by
  change execLockTestComplete s = _
  rw [execLockTestComplete, h]

theorem enterLocked_elsewhere (h : s.recovery.phase ≠ .respin) : enterLocked s = s.setSpindle (spindleLocked s.spindle) :=
  if_neg h

/-- A RESPIN ends, and REFIX begins with focus LOCKED and tracking on (R178). -/
theorem enterLocked_endsRespin (h : s.recovery.phase = .respin) (hfocus : s.optics.focus = .locked)
    (htrack : s.optics.tracking ≠ .off) (hcount : s.recovery.refixCount < s.recovery.retryLimit) :
    enterLocked s = (s.setSpindle (spindleLocked s.spindle)).setRecovery { s.recovery with
      phase := .refix, refixCount := s.recovery.refixCount + 1, window := none } := by
  have hends : enterLocked s = respinEnds (s.setSpindle (spindleLocked s.spindle)) := if_pos h
  rw [hends, respinEnds, if_neg (by simpa using hfocus), if_neg (by simpa using htrack), beginRefix_starts (by simpa using hcount)]
  rfl

/-! ### The statement -/

section Statement

variable (hsettled : Settled s)

include hsettled

/-- Below 30 rpm the spindle stands, and outside a park and a RELEASE nothing follows (R76). -/
theorem reading_stands (hstate : s.spindle.state = .braking) (hslow : min rpm 9999 < 30)
    (h1 : s.supervisor.drive ≠ .parking) (h2 : s.supervisor.drive ≠ .releasing) :
    exec (.tachometerReading rpm) s = .next (s.setSpindle { s.spindle with
      measured := min rpm 9999, state := .stopped, stopLimit := none }) := by
  rw [exec_reading_stopped hstate hslow, spindleReportsStopped_elsewhere (by simpa using h1) (by simpa using h2),
    react_unmoved hsettled (by simp) (by simp) (by simp)]

/-- Below 30 rpm a parking drive is STOPPED (R162). -/
theorem reading_parks (hstate : s.spindle.state = .braking) (hslow : min rpm 9999 < 30)
    (hdrive : s.supervisor.drive = .parking) :
    ∃ t, exec (.tachometerReading rpm) s = .next t ∧ t.supervisor.drive = .stopped ∧
      t.spindle = { s.spindle with measured := min rpm 9999, state := .stopped, stopLimit := none } ∧
      ∀ m, s.arbiter.active = some m → m.kind = .stop → t.arbiter.active = none ∧
        completionsIn (t.port m.port).queue = completionsIn (s.port m.port).queue ++ [m.report .done (lastGood s)] := by
  obtain ⟨v, hv⟩ : ∃ v, v = s.setSpindle { s.spindle with
    measured := min rpm 9999, state := .stopped, stopLimit := none } := ⟨_, rfl⟩
  have hstops := enterStopped_stops (s := v) (by simp [hv, hdrive])
  have hlast : lastGood v = lastGood s := lastGood_congr (by simp [hv])
  refine ⟨enterStopped v, ?_, by rw [hstops.supervisor], by rw [hstops.spindle, hv]; rfl, fun m hm hkind => ?_⟩
  · rw [exec_reading_stopped hstate hslow, ← hv, spindleReportsStopped_parking (by simp [hv, hdrive]),
      react_unmoved hsettled (by rw [hstops.waiting]; simp [hv]) (by rw [hstops.supervisor]; simp [hv])
        (by rw [hstops.step]; simp [hv])]
  · obtain ⟨hactive, hreport⟩ := hstops.stop m (by simpa [hv] using hm) hkind
    rw [hlast] at hreport
    refine ⟨hactive, ?_⟩
    simpa [hv, reportsOf] using hreport

/-- Below 30 rpm a RELEASE that brakes goes on to its homing, or to its end with the switch closed (R98, R163, R164). -/
theorem reading_releases (hstate : s.spindle.state = .braking) (hslow : min rpm 9999 < 30)
    (hdrive : s.supervisor.drive = .releasing) (hm : s.arbiter.active = some m) (hphase : m.phase = some .braking) :
    ∃ t, exec (.tachometerReading rpm) s = .next t ∧
      (s.sled.homeClosed = false →
        t.spindle = { s.spindle with measured := min rpm 9999, state := .stopped, stopLimit := none } ∧
        t.arbiter = { s.arbiter with active := some { m with phase := some .homing } } ∧
        t.supervisor = s.supervisor ∧ t.optics = s.optics ∧ ReportsStay s t ∧
        t.sled.state = .homing ∧ t.sled.taken = 0 ∧ t.sled.position = none ∧
        t.sled.paused = (s.supervisor.supply == .sag)) ∧
      (s.sled.homeClosed = true → t.spindle.state = .stopped ∧ t.spindle.measured = min rpm 9999 ∧
        t.spindle.stopLimit = none ∧ t.spindle.target = s.spindle.target ∧ LeastMultiple t ∧
        t.sled.state = .idle ∧ t.sled.position = some 0 ∧ t.supervisor.drive = .released ∧
        t.supervisor.cls = none ∧ t.arbiter.active = none ∧
        OneMoreReport m.port ⟨m.tag, m.kind, .done, lastGood s, m.legs, m.bad⟩ s t) := by
  obtain ⟨v, hv⟩ : ∃ v, v = s.setSpindle { s.spindle with
    measured := min rpm 9999, state := .stopped, stopLimit := none } := ⟨_, rfl⟩
  have harb : v.arbiter = s.arbiter := by simp [hv]
  have hsup : v.supervisor = s.supervisor := by simp [hv]
  have hplan : v.planner = s.planner := by simp [hv]
  have hrail : v.sled = s.sled := by simp [hv]
  have hturned : v.spindle = { s.spindle with measured := min rpm 9999, state := .stopped, stopLimit := none } := by
    simp [hv]
  have hactive : v.arbiter.active = some m := by rw [harb, hm]
  have hreports (q : Port) : reportsOf q v = reportsOf q s := by rw [hv, reportsOf_setSpindle]
  have hexec : exec (.tachometerReading rpm) s = .next (react (releaseHoming v)) := by
    rw [exec_reading_stopped hstate hslow, ← hv, spindleReportsStopped_releasing (by rw [hsup, hdrive])
      (by simp [activePhase, hactive, hphase])]
  cases hswitch : s.sled.homeClosed with
  | false =>
    obtain ⟨hsled, harbiter, hspindle, hsupervisor, hoptics, hstep, hstay⟩ :=
      releaseHoming_leaves hactive (by rw [hrail, hswitch])
    have hwaits : react (releaseHoming v) = releaseHoming v :=
      react_unmoved hsettled (by rw [harbiter, harb]) (by rw [hsupervisor, hsup]) (by rw [hstep, hplan])
    rw [hwaits] at hexec
    refine ⟨_, hexec, fun _ => ⟨by rw [hspindle, hturned], by rw [harbiter, harb], by rw [hsupervisor, hsup],
      by rw [hoptics, hv, State.setSpindle_optics], fun q => (hstay q).trans (hreports q), ?_⟩, fun h => absurd h (by simp)⟩
    rw [hsled, ← hsup]
    exact ⟨rfl, rfl, rfl, rfl⟩
  | true =>
    obtain ⟨hreleased, hsled, ⟨x, hspindle⟩, hleast, hreport⟩ :=
      releaseHoming_atHome hactive (by rw [hrail, hswitch]) (by rw [hsup, hdrive])
    have hlast : lastGood v = lastGood s := lastGood_congr (by simp [hv])
    have hwaits : react (releaseHoming v) = releaseHoming v :=
      react_settled ⟨hreleased.arbiter.2.trans
          (by rw [homingCommand_arbiter, setPhase_active hactive, setActive_arbiter, harb, hsettled.1]),
        hreleased.ident.trans (by simp [hsup, hsettled.2.1]), by simp [hreleased.step]⟩
    rw [hwaits] at hexec
    refine ⟨_, hexec, fun h => absurd h (by simp), fun _ => ⟨by rw [hspindle, hturned], by rw [hspindle, hturned],
      by rw [hspindle, hturned], by rw [hspindle, hturned], hleast, ?_, ?_, hreleased.drive.1, hreleased.drive.2,
      hreleased.arbiter.1, fun q => ?_⟩⟩
    · rw [hreleased.sled, hsled]; rfl
    · rw [hreleased.sled, hsled]; rfl
    · have hq := hreport q
      rw [hreports, hlast] at hq
      refine hq.trans ?_
      by_cases hp : m.port = q
      · rw [if_pos hp, if_pos hp.symm]; rfl
      · rw [if_neg hp, if_neg (Ne.symm hp)]; rfl

end Statement

/-- Settles O47: a reading by the state and the band it finds, and the end of the lock test. -/
theorem readingsAndLockTestMoveTheSpindle : Obligations.ReadingsAndLockTestMoveTheSpindle := by
  refine ⟨fun rpm s hsettled => ?readings, fun s => ⟨fun hnone => ?noTest, fun since htest hsettled => ?test⟩⟩
  case readings =>
    intro x sp run
    have hstores {y : Spindle} (h : s.spindle.state ≠ .braking ∨ 30 ≤ x)
        (h' : s.spindle.state ≠ .locked ∨ Within 10 x s.spindle.target ∨ raises s = false)
        (hy : s.spindle.read s.clock rpm = y) : run = .next (s.setSpindle y) :=
      hy ▸ exec_reading_only hsettled h h'
    refine ⟨fun hrest => ?rest, fun h => ?spinup, fun h => ?coarse, fun h => ?locked, fun h => ?braking⟩
    all_goals have hstate : sp.state = s.spindle.state := rfl
    case rest =>
      rw [hstate] at hrest
      exact hstores (by rcases hrest with h | h <;> simp [h]) (by rcases hrest with h | h <;> simp [h])
        (read_stores (hrest.elim .inl fun h => .inr (.inl h)))
    case spinup =>
      rw [hstate] at h
      have hspinup {y : Spindle} := hstores (y := y) (.inl (by simp [h])) (.inl (by simp [h]))
      refine ⟨fun hfar => hspinup ?_, fun hnear hout => hspinup (read_near (.inl h) hnear hout), fun hin => hspinup ?_⟩
      · rw [read_far (.inl h) hfar, if_neg (by simp [h]), ← h]
      · rw [read_inLockBand (.inl h) hin, if_neg (by simp [h])]
    case coarse =>
      rw [hstate] at h
      have hcoarse {y : Spindle} := hstores (y := y) (.inl (by simp [h])) (.inl (by simp [h]))
      refine ⟨fun hfar => hcoarse ?_, fun hnear hout => hcoarse ?_, fun hin => hcoarse ?_⟩
      · rw [read_far (.inr h) hfar, if_pos h]
      · rw [read_near (.inr (.inl h)) hnear hout, ← h]
      · rw [read_inLockBand (.inr h) hin, if_pos h, ← h]
    case locked =>
      rw [hstate] at h
      refine ⟨fun hin => hstores (.inl (by simp [h])) (.inr (.inl (within10_of_within2 hin))) (read_staysLocked h hin),
        fun hnear hout => hstores (.inl (by simp [h])) (.inr (.inl hnear)) (read_near (.inr (.inr h)) hnear hout),
        fun hfar h1 h2 h3 => hstores (.inl (by simp [h])) (.inr (.inr ?_)) (read_fallsOut h hfar)⟩
      unfold raises
      split
      · exact absurd ‹_› h1
      · exact absurd ‹_› h2
      · exact absurd ‹_› h3
      · rfl
    case braking =>
      rw [hstate] at h
      exact ⟨fun hturns => hstores (.inr hturns) (.inl (by simp [h])) (read_stores (.inr (.inr ⟨h, hturns⟩))),
        fun hslow h1 h2 => reading_stands hsettled h hslow h1 h2, fun hslow hdrive => reading_parks hsettled h hslow hdrive,
        fun m hslow hdrive hm hphase => reading_releases hsettled h hslow hdrive hm hphase⟩
  case noTest =>
    change execLockTestComplete s = _
    rw [execLockTestComplete, hnone]
  case test =>
    intro lockedSpindle
    have hspindle : spindleLocked (runTo since 100 s).spindle = lockedSpindle := by simp [spindleLocked, lockedSpindle]
    refine ⟨fun hphase => ?_, fun hphase hfocus htrack hcount => ?_⟩
    · rw [exec_lockTest htest, enterLocked_elsewhere (by simpa using hphase), hspindle,
        react_afterTime hsettled (since := since) (limit := 100) (by simp) (by simp) (by simp)]
    · rw [exec_lockTest htest, enterLocked_endsRespin (by simpa using hphase) (by simpa using hfocus)
        (by simpa using htrack) (by simpa using hcount), hspindle,
        react_afterTime hsettled (since := since) (limit := 100) (by simp) (by simp) (by simp)]
      simp

end Sys2Proof.Proofs
end

section
/-! Profile tries (R84, R86, R90, R152 to R154): what a close, a window, a search and a failure leave of the part. -/

namespace Sys2Proof.Proofs

set_option Elab.async false

open Sys2Proof.Machine Sys2Proof.Safety Sys2Proof.Laws

variable {s t u : State} {i j : Ident} {k : DiscClass} {fail : State → State}

/-! ### An identification in progress -/

/-- The identification with this record runs: it is not paused, and neither a restart nor anything else is to follow. -/
structure Runs (i : Ident) (s : State) : Prop where
  drive : s.supervisor.drive = .identifying
  ident : s.supervisor.ident = some i
  paused : i.paused = false
  restart : i.restart = false
  waiting : s.arbiter.waiting = []
  step : s.planner.acquireStep ≠ .spin

theorem runs_of_identifies (h : Identifies i s) : Runs i s := by
  obtain ⟨hdrive, hident, hpaused, hrestart, hwaiting, hstep⟩ := h
  exact ⟨hdrive, hident, hpaused, hrestart, hwaiting, hstep⟩

/-! ### A try moves on -/

/-- A try moves on to the record `j`, its commands going to the loops alone. -/
structure Tries (j : Ident) (s t : State) : Prop where
  supervisor : t.supervisor = { s.supervisor with ident := some j }
  arbiter : t.arbiter = s.arbiter
  step : t.planner.acquireStep = s.planner.acquireStep
  spindle : t.spindle = s.spindle

theorem Tries.ident (h : Tries j s t) : t.supervisor.ident = some j := by rw [h.supervisor]

theorem changeIdent_tries (f : Ident → Ident) (hi : s.supervisor.ident = some i) : Tries (f i) s (changeIdent f s) :=
  ⟨changeIdent_supervisor f hi, rfl, rfl, rfl⟩

/-- With no other motion and no ACQUIRE that waits, a try waits for its events. -/
theorem Tries.react (h : Tries j s t) (hwaiting : s.arbiter.waiting = []) (hstep : s.planner.acquireStep ≠ .spin)
    (hstage : j.stage ≠ .spinning) (hrestart : j.restart = false) : react t = t :=
  react_trying (by rw [h.arbiter, hwaiting]) (by rw [h.step]; exact hstep) h.ident hstage hrestart

/-! ### The window (R153) -/

/-- The candidate is named, with its notice unless it was named already, and its window runs. -/
theorem tryWindow_runs (hi : s.supervisor.ident = some i) (hk : i.stage.tries = some k) :
    Tries { i with step := some .window, candidate := some k, window := some 0 } s (tryWindow s) ∧
    (tryWindow s).optics = s.optics ∧
    (i.candidate ≠ some k → Noticed (.disc (if k = .H then .candidateH else .candidateL) k none) s (tryWindow s)) := by
  have hmoves := changeIdent_tries (fun i => { i with step := some .window, candidate := some k, window := some 0 }) hi
  by_cases hnamed : i.candidate = some k
  · have heq : tryWindow s = changeIdent (fun i => { i with
        step := some .window, candidate := some k, window := some 0 }) s := by
      simp [tryWindow, hi, hk, hnamed]
    rw [heq]
    exact ⟨hmoves, rfl, fun h => absurd hnamed h⟩
  · have heq : tryWindow s = offer (.disc (if k = .H then .candidateH else .candidateL) k none)
        (changeIdent (fun i => { i with step := some .window, candidate := some k, window := some 0 }) s) := by
      simp [tryWindow, hi, hk, hnamed]
    rw [heq]
    refine ⟨⟨by simpa using hmoves.supervisor, by simp, by simp, by simp⟩, by simp, fun _ q hq => ?_⟩
    exact noticed_offer _ hq

/-! ### The close and the search (R86, R90, R153) -/

theorem tryClose_begins (hi : s.supervisor.ident = some i) (hfocus : s.optics.focus = .locked)
    (htrack : s.optics.tracking = .off) : Tries { i with step := some .closing } s (tryClose fail s) ∧
    (tryClose fail s).optics = { s.optics with closers := s.optics.closers.erase .supervisor ++ [.supervisor] } := by
  have hmoves := changeIdent_tries (fun i => { i with step := some .closing }) hi
  have hbegins := closeTracking_begins .supervisor (s := changeIdent (fun i => { i with step := some .closing }) s)
    hfocus htrack
  have heq : tryClose fail s = (changeIdent (fun i => { i with step := some .closing }) s).setOptics
      { s.optics with closers := s.optics.closers.erase .supervisor ++ [.supervisor] } := by
    rw [tryClose, hbegins]
    rfl
  rw [heq]
  exact ⟨⟨hmoves.supervisor, rfl, rfl, rfl⟩, rfl⟩

theorem trySearch_begins (hi : s.supervisor.ident = some i) (hfocus : s.optics.focus ≠ .locked)
    (hswitch : s.optics.switch = none) (hprofile : s.optics.profile ≠ none) :
    Tries { i with step := some .searching } s (trySearch fail s) ∧
    SearchBegun .supervisor s.recovery.retryCount s (trySearch fail s) ∧
    (trySearch fail s).optics.profile = s.optics.profile ∧ (trySearch fail s).optics.switch = none := by
  obtain ⟨v, hv⟩ : ∃ v, v = changeIdent (fun i => { i with step := some .searching }) s := ⟨_, rfl⟩
  have hoptics : v.optics = s.optics := by rw [hv]; rfl
  have hmoves : Tries { i with step := some .searching } s v :=
    hv ▸ changeIdent_tries (fun i => { i with step := some .searching }) hi
  have hsearch : focusSearch .supervisor s.recovery.retryCount v
      = (beginSearch .supervisor s.recovery.retryCount v, .begun) := by
    simp [focusSearch, hoptics, hfocus, hswitch, hprofile]
  have heq : trySearch fail s = beginSearch .supervisor s.recovery.retryCount v := by
    rw [trySearch, ← hv, hsearch]
  have hclock : v.clock = s.clock := by rw [hv]; rfl
  rw [heq]
  refine ⟨⟨by simpa using hmoves.supervisor, by simpa using hmoves.arbiter, by simpa using hmoves.step,
    by simpa using hmoves.spindle⟩, ?_, ?_, ?_⟩
  · have hbegun := (beginSearch_unlocked (r := .supervisor) (n := s.recovery.retryCount) (s := v)
      (by rw [hoptics]; exact hfocus)).2
    rwa [SearchBegun, hclock] at hbegun
  · simp [beginSearch, setFocus, hoptics, hfocus]
  · simp [beginSearch, setFocus, hoptics, hfocus, hswitch]

/-! ### The failure of a try (R152, R154) -/

/-- The loops have failed the try of an identification, and the rest of the part is as it was. -/
structure Fails (s u : State) : Prop where
  supervisor : u.supervisor = s.supervisor
  arbiter : u.arbiter = s.arbiter
  step : u.planner.acquireStep = s.planner.acquireStep
  profile : u.optics.profile = s.optics.profile
  clock : u.clock = s.clock
  last : lastGood u = lastGood s
  port : ∀ q, u.port q = s.port q

theorem tryFails_ofL (hi : s.supervisor.ident = some i) (hstage : i.stage = .profileL) : tryFails s = failL s := by
  simp [tryFails, hi, hstage]

theorem tryFails_ofH (hi : s.supervisor.ident = some i) (hstage : i.stage = .profileH) : tryFails s = failH s := by
  simp [tryFails, hi, hstage]

/-- The failed try of profile L is a fault, and nothing follows it (R154). -/
theorem Fails.faults (h : Fails s u) (hdrive : s.supervisor.drive ≠ .faulted) :
    FaultParked .discUnreadable s (failL u) ∧ react (failL u) = failL u := by
  have hleft : (changeIdent (fun i => { i with candidate := none, window := none }) u).supervisor.drive ≠ .faulted := by
    change u.supervisor.drive ≠ .faulted
    rw [h.supervisor]
    exact hdrive
  refine ⟨faultParked_congr (raiseFault_parks _ hleft) ?_ h.last.symm h.clock.symm
    (liveMotions_congr h.arbiter.symm) ?_,
    react_raiseFault hleft⟩
  · change s.supervisor.cls = u.supervisor.cls
    rw [h.supervisor]
  · intro q
    rw [← h.port q]
    rfl

/-- The failed try of profile H is followed by that of profile L (R84, R154). -/
theorem Fails.triesL (h : Fails s u) (hid : Runs i s) (hprofile : s.optics.profile ≠ some .L) :
    TriesProfileL i s (failH u) ∧ react (failH u) = failH u := by
  obtain ⟨hsupervisor, hnone, hswitch, hfocus, htrack, hmode, hbasis, harbiter, hleft⟩ :=
    failH_tries (s := u) (i := i) (by rw [h.supervisor, hid.ident]) (by rw [h.profile]; exact hprofile)
  refine ⟨⟨?_, ⟨hnone, by rw [hswitch, h.clock], hfocus, htrack⟩, hmode, hbasis⟩, ?_⟩
  · rw [hsupervisor, h.supervisor, hid.restart]
  · exact react_trying (i := { i with
      stage := .profileL, step := some .switching, candidate := none, window := none, restart := false })
      (by rw [harbiter, h.arbiter, hid.waiting]) (by rw [hleft, h.step]; exact hid.step) (by rw [hsupervisor]) (by simp) rfl

/-- A failure leads from the try of profile H to that of profile L, and from there to the fault. -/
theorem Fails.leads (h : Fails s u) (hid : Runs i s) (hstage : i.stage = .profileH ∨ i.stage = .profileL)
    (hprofile : s.optics.profile = some .H ∨ i.stage = .profileL) :
    react (tryFails u) = tryFails u ∧ (i.stage = .profileH → TriesProfileL i s (tryFails u)) ∧
    (i.stage = .profileL → FaultParked .discUnreadable s (tryFails u)) := by
  have hi : u.supervisor.ident = some i := by rw [h.supervisor]; exact hid.ident
  rcases hstage with hH | hL
  · obtain ⟨htries, hwaits⟩ := h.triesL hid (by rw [hprofile.resolve_right (by simp [hH])]; simp)
    rw [tryFails_ofH hi hH]
    exact ⟨hwaits, fun _ => htries, fun hL => by simp [hH] at hL⟩
  · obtain ⟨hfaults, hwaits⟩ := h.faults (by simp [hid.drive])
    rw [tryFails_ofL hi hL]
    exact ⟨hwaits, fun hH => by simp [hL] at hH, fun _ => hfaults⟩

end Sys2Proof.Proofs
end

section
/-! An identification goes on from stage to stage, and from the try of profile H to that of profile L (R68, R84, R86, R88, R98,
R100, R151 to R154). -/

namespace Sys2Proof.Proofs

set_option Elab.async false

open Sys2Proof.Machine Sys2Proof.Safety Sys2Proof.Laws

variable {s t u : State} {i j : Ident} {k : DiscClass} {x : Nat}

/-! ### Where an identification stands -/

section Stands

variable (hid : Runs i s)

include hid

theorem Runs.runsIn (hu : u.supervisor.ident = s.supervisor.ident) (g : IdentStage) :
    identIn g u = (i.stage == g) := by
  simp [identIn, hu, hid.ident, hid.paused]

theorem Runs.stands (hu : u.supervisor.ident = s.supervisor.ident) (g : ProfileStep) :
    tryStands g u = (i.step == some g) := by
  simp [tryStands, hu, hid.ident, hid.paused, hid.restart]

theorem Runs.canFail (hu : u.supervisor.ident = s.supervisor.ident) (g : ProfileStep) :
    tryCanFail g u = (i.step == some g) := by
  simp [tryCanFail, hu, hid.ident, hid.paused]

/-- With no window running, the passing of time leaves the identification as it is (R153). -/
theorem Runs.runTo (hwindow : i.window = none) (since : Time) (limit : Nat) :
    Runs i (Machine.runTo since limit s) := by
  refine ⟨by simpa using hid.drive, ?_, hid.paused, hid.restart, by simpa using hid.waiting, by simpa using hid.step⟩
  have hsame : { i with window := none } = i := by rw [← hwindow]
  rw [runTo_supervisor]
  simp [hid.ident, run_ident _ hid.paused hid.restart, hwindow, hsame]

/-- The record that a stage leaves, its restart waited for no more than before. -/
theorem Runs.moved {g : IdentStage} (h : IdentMoves { i with stage := g, step := none, restart := false } u t) :
    t.supervisor.ident = some { i with stage := g, step := none } := by
  rw [h.ident, hid.restart]

end Stands

/-! ### The homing is complete (R98, R151) -/

theorem step_homes (hid : Runs i s) (hstage : i.stage = .homing) (hhoming : s.sled.state = .homing)
    (hrun : s.sled.paused = false) (hstop : s.sled.stopPending = false) :
    ∃ t, exec (.sledStep true) s = .next t ∧
      t.supervisor.ident = some { i with stage := .positioning, step := none } ∧ t.sled.state = .leg ∧
      t.sled.position = some 0 ∧ t.sled.legSteps = 150 ∧ t.sled.taken = 0 ∧ t.sled.requester = some .supervisor := by
  obtain ⟨v, hv⟩ : ∃ v, v = s.setSled { s.sled with
    state := .idle, position := some 0, taken := s.sled.taken + 1, homeClosed := true, stopPending := false
    paused := false, requester := none } := ⟨_, rfl⟩
  have hcomplete : homingComplete v = identPosition v := by
    rw [homingComplete, if_neg (by simp [hv, hid.drive]), if_pos (by rw [hid.runsIn (u := v) (by simp [hv]), hstage]; rfl)]
  obtain ⟨hmoves, hsled, -⟩ := identPosition_leaves (s := v) (i := i) (x := 0) (by rw [hv]; exact hid.ident)
    (by simp [hv]) (by simp [hv]) (by omega)
  refine ⟨identPosition v, ?_, hid.moved hmoves, ?_⟩
  · rw [exec_sledStep_homing true hhoming hrun, homingStep_home hstop, ← hv, hcomplete,
      hmoves.react (by rw [hv]; exact hid.waiting) (by rw [hv]; exact hid.step) (by simp) rfl]
  · rw [hsled, hv]
    exact ⟨rfl, rfl, rfl, rfl, rfl⟩

/-! ### The leg is over (R100, R101, R151, R152) -/

section Leg

variable (hid : Runs i s) (hstage : i.stage = .positioning) (hleg : s.sled.state = .leg)
  (hx : s.sled.position = some x) (hreq : s.sled.requester = some .supervisor)

/-- The sled after its last step, at rest. -/
def rested (at_ : Nat) (closed : Bool) (s : State) : State :=
  (stepped at_ closed s).setSled ((stepped at_ closed s).sled.legOver s.optics.tracking)

include hid hstage

theorem Runs.legReported (full : Bool) (at_ : Nat) (closed : Bool) (hreq : s.sled.requester = some .supervisor) :
    legReported full (stepped at_ closed s)
      = if full = true then identSpin (rested at_ closed s) else identPosition (rested at_ closed s) := by
  have hin : identIn .positioning (rested at_ closed s) = true := by
    rw [hid.runsIn (u := rested at_ closed s) rfl, hstage]
    rfl
  have hrequester : (stepped at_ closed s).sled.requester = some .supervisor := hreq
  rw [Machine.legReported]
  simp only [hrequester, reduceCtorEq, if_false, true_and, Option.some.injEq]
  rw [show ((stepped at_ closed s).setSled ((stepped at_ closed s).sled.legOver (stepped at_ closed s).optics.tracking))
    = rested at_ closed s from rfl, if_pos hin]

include hleg hx hreq

theorem step_arrives (hfull : s.sled.legSteps.natAbs ≤ s.sled.taken + 1)
    (hstate : s.spindle.state = .stopped ∨ s.spindle.state = .braking) (htarget : s.spindle.target = 0)
    (hband : ¬ Within 10 s.spindle.measured 500) :
    ∃ t, exec (.sledStep false) s = .next t ∧
      t.supervisor.ident = some { i with stage := .spinning, step := none } ∧
      t.sled.position = some (if 0 ≤ s.sled.legSteps then x + 1 else x - 1) ∧
      t.spindle.mode = .fixed ∧ t.spindle.target = 500 ∧ t.spindle.state = .spinup ∧
      t.spindle.lockLimit = some s.clock := by
  obtain ⟨y, hy⟩ : ∃ y, y = if 0 ≤ s.sled.legSteps then x + 1 else x - 1 := ⟨_, rfl⟩
  have hstep : legStep x false s = identSpin (rested y false s) := by
    refine (legStep_eq x false s).trans ?_
    rw [if_pos hfull, if_neg (by simp), ← hy, hid.legReported hstage true y false hreq, if_pos rfl]
  have hmoves := identSpin_moves (s := rested y false s) (i := i) hid.ident
  have hspins := identSpin_spinsUp (s := rested y false s) hstate htarget hband
  refine ⟨identSpin (rested y false s), ?_, hid.moved hmoves, ?_, hspins.mode, hspins.target, hspins.state, hspins.lockLimit⟩
  · rw [exec_sledStep_leg false hleg hx, hstep, react_spinning (by rw [hmoves.arbiter]; exact hid.waiting)
      (by rw [hspins.state]; rfl)]
  · rw [identSpin_sled, ← hy]
    rfl

theorem step_corrects (hopen : s.sled.homeClosed = false) (hmore : s.sled.taken + 1 < s.sled.legSteps.natAbs)
    (hin : s.sled.legSteps < 0) (hfar : 1 < x) :
    ∃ t, exec (.sledStep true) s = .next t ∧
      t.supervisor.ident = some { i with stage := .positioning, step := none } ∧ t.sled.state = .leg ∧
      t.sled.position = some 0 ∧ t.sled.legSteps = 150 ∧ t.sled.taken = 0 ∧ t.sled.requester = some .supervisor := by
  have hmoved : 0 < if 0 ≤ s.sled.legSteps then x + 1 else x - 1 := by
    rw [if_neg (by omega)]
    omega
  have hcorrected : true = true ∧ s.sled.homeClosed = false ∧ 0 < (if 0 ≤ s.sled.legSteps then x + 1 else x - 1) :=
    ⟨rfl, hopen, hmoved⟩
  have hstep : legStep x true s = identPosition (rested 0 true s) := by
    refine (legStep_eq x true s).trans ?_
    rw [if_neg (by omega), if_pos (.inl hcorrected), if_pos hcorrected, hid.legReported hstage false 0 true hreq,
      if_neg (by simp)]
  have hrest : (rested 0 true s).sled.state = .idle ∨ (rested 0 true s).sled.state = .creep := by
    change restState s.optics.tracking = .idle ∨ restState s.optics.tracking = .creep
    unfold restState
    split
    · exact .inr rfl
    · exact .inl rfl
  obtain ⟨hmoves, hsled, -⟩ := identPosition_leaves (s := rested 0 true s) (i := i) (x := 0) hid.ident hrest rfl (by omega)
  refine ⟨identPosition (rested 0 true s), ?_, hid.moved hmoves, ?_⟩
  · rw [exec_sledStep_leg true hleg hx, hstep, hmoves.react hid.waiting hid.step (by simp) rfl]
  · rw [hsled]
    exact ⟨rfl, rfl, rfl, rfl, rfl⟩

end Leg

/-! ### The spindle is COARSE: the try of profile H (R84, R152, R153) -/

theorem firstTry_switches (hi : s.supervisor.ident = some i) (hprofile : s.optics.profile ≠ some .H) :
    Tries { i with stage := .profileH, step := some .switching, candidate := none, window := none, restart := false } s
      (firstTry s) ∧
    (firstTry s).optics.profile = none ∧ (firstTry s).optics.switch = some (.H, s.clock) ∧
    (firstTry s).optics.focus = .off ∧ (firstTry s).optics.tracking = .off := by
  obtain ⟨v, hv⟩ : ∃ v, v = changeIdent (fun i => { i with
    stage := .profileH, step := some .switching, candidate := none, window := none, restart := false }) s := ⟨_, rfl⟩
  have hmoves : Tries { i with
      stage := .profileH, step := some .switching, candidate := none, window := none, restart := false } s v :=
    hv ▸ changeIdent_tries (fun i => { i with
      stage := .profileH, step := some .switching, candidate := none, window := none, restart := false }) hi
  have hbegins := profileSelect_begins (k := .H) (s := v) (by rw [hv]; exact hprofile)
  have heq : firstTry s
      = (focusOff v).setOptics { (focusOff v).optics with profile := none, switch := some (.H, v.clock) } := by
    rw [firstTry, tryProfile, ← hv, hbegins]
    rfl
  rw [heq]
  refine ⟨⟨by simpa using hmoves.supervisor, by simpa using hmoves.arbiter, ?_, by simpa using hmoves.spindle⟩,
    rfl, by simp [hv, changeIdent], by simp [focusOff_optics], by simp [focusOff_optics]⟩
  simpa using hmoves.step

theorem reading_tries {rpm : Nat} (hid : Runs i s) (hstage : i.stage = .spinning)
    (hstate : s.spindle.state = .spinup) (hband : Within 10 (min rpm 9999) s.spindle.target)
    (hprofile : s.optics.profile ≠ some .H) :
    ∃ t, exec (.tachometerReading rpm) s = .next t ∧ t.spindle.state = .coarse ∧
      t.supervisor.ident = some { i with
        stage := .profileH, step := some .switching, candidate := none, window := none } ∧
      t.optics.profile = none ∧ t.optics.switch = some (.H, s.clock) ∧ t.optics.focus = .off ∧
      t.optics.tracking = .off := by
  obtain ⟨sp, hexec, hcoarse⟩ := exec_reading_coarse hstate hband
  obtain ⟨v, hv⟩ : ∃ v, v = s.setSpindle sp := ⟨_, rfl⟩
  obtain ⟨htries, hloops⟩ := firstTry_switches (s := v) (i := i) (by rw [hv]; exact hid.ident) (by rw [hv]; exact hprofile)
  have hready : onSpindleReady v = firstTry v := by
    rw [onSpindleReady, if_pos (by simp [hv, hcoarse, SpindleState.ready]),
      if_pos (by rw [hid.runsIn (u := v) (by simp [hv]), hstage]; rfl)]
  have hwaiting : v.arbiter.waiting = [] := by rw [hv]; exact hid.waiting
  have hstep : v.planner.acquireStep ≠ .spin := by rw [hv]; exact hid.step
  have hreact : react v = firstTry v := by
    have hheads : testHeads 3 (firstTry v) = firstTry v := testHeads_empty 3 (by rw [htries.arbiter, hwaiting])
    have hstill : onSpindleReady (firstTry v) = firstTry v := by
      simp [onSpindleReady, identIn, htries.ident, htries.step, hstep]
    rw [react, hready, hheads, hstill]
  refine ⟨firstTry v, by rw [hexec, ← hv, hreact], by rw [htries.spindle, hv]; exact hcoarse, ?_, ?_⟩
  · rw [htries.ident, hid.restart]
  · rw [hv] at hloops ⊢
    exact hloops

/-- The light is lost: the loops open, and what a try is told by stays (R88). -/
theorem loseFocus_fails (s : State) : Fails s (loseFocus s) := by
  unfold loseFocus
  dsimp only
  split
  · exact ⟨by simp, by simp, by simp [Planner.legOver], by simp [loopsOpen_optics], by simp,
      lastGood_loopsOpen s FocusState.lost, by simp⟩
  · exact ⟨by simp, by simp, by simp, by simp [loopsOpen_optics], by simp, lastGood_loopsOpen s FocusState.lost, by simp⟩

/-! ### The tries (R84 to R90, R153, R154) -/

section Try

variable (hid : Runs i s) (hstage : i.stage = .profileH ∨ i.stage = .profileL)

include hid

/-- What a try that moves on leaves waits for its events. -/
theorem Runs.waits (hstage : i.stage = .profileH ∨ i.stage = .profileL) (h : Tries j s t) (hj : j.stage = i.stage)
    (hrestart : j.restart = i.restart) : react t = t :=
  h.react hid.waiting hid.step (by rw [hj]; rcases hstage with h | h <;> simp [h])
    (hrestart.trans hid.restart)

include hstage

theorem switch_searches {since : Time} (hstep : i.step = some .switching) (hwindow : i.window = none)
    (hswitch : s.optics.switch = some (k, since)) (hstored : s.optics.storedSearch = none)
    (hfocus : s.optics.focus ≠ .locked) :
    ∃ t, exec .profileSwitchComplete s = .next t ∧ t.optics.profile = some k ∧ t.optics.switch = none ∧
      t.supervisor.ident = some { i with step := some .searching } ∧
      SearchBegun .supervisor s.recovery.retryCount (runTo since 50 s) t := by
  obtain ⟨v, hv⟩ : ∃ v, v = (runTo since 50 s).setOptics { s.optics with profile := some k, switch := none } := ⟨_, rfl⟩
  have hrun := hid.runTo hwindow since 50
  have hends : switchEnds k (runTo since 50 s) = v := by
    rw [hv, switchEnds]
    simp [hstored]
  obtain ⟨htries, hbegun, hprofile, hlit⟩ := trySearch_begins (fail := tryFails) (s := v) (i := i)
    (by rw [hv]; exact hrun.ident) (by rw [hv]; exact hfocus) (by rw [hv]; rfl) (by simp [hv])
  have hstands : tryStands .switching v = true := by
    rw [hrun.stands (u := v) (by rw [hv]; rfl), hstep]
    rfl
  have hwaits : react (trySearch tryFails v) = trySearch tryFails v := by
    refine hrun.waits hstage (t := trySearch tryFails v) (j := { i with step := some .searching })
      ⟨?_, ?_, ?_, ?_⟩ rfl rfl
    · rw [htries.supervisor, hv]; rfl
    · rw [htries.arbiter, hv]; rfl
    · rw [htries.step, hv]; rfl
    · rw [htries.spindle, hv]; rfl
  refine ⟨trySearch tryFails v, ?_, by rw [hprofile, hv]; rfl, hlit, htries.ident, ?_⟩
  · change execProfileSwitchComplete s = _
    rw [execProfileSwitchComplete, hswitch]
    dsimp only
    rw [hends, if_pos hstands, hwaits]
  · rw [hv] at hbegun ⊢
    exact hbegun

theorem capture_closes (hstep : i.step = some .searching) (hfocus : s.optics.focus = .search)
    (hreq : s.optics.requester = some .supervisor) (htime : s.optics.attempt ≤ 1 ∨ s.optics.attemptTimer ≠ some s.clock)
    (htrack : s.optics.tracking = .off) :
    ∃ t, exec .focusCapture s = .next t ∧ t.optics.focus = .locked ∧
      t.supervisor.ident = some { i with step := some .closing } ∧ Requester.supervisor ∈ t.optics.closers := by
  obtain ⟨htries, hoptics⟩ := tryClose_begins (fail := tryFails) (s := focusCaptured s) (i := i) hid.ident rfl htrack
  have hreport : reportLock (some .supervisor) (focusCaptured s) = tryClose tryFails (focusCaptured s) := by
    rw [reportLock, if_pos (by rw [hid.stands (u := focusCaptured s) rfl, hstep]; rfl)]
  have hwaits : react (tryClose tryFails (focusCaptured s)) = tryClose tryFails (focusCaptured s) :=
    hid.waits hstage ⟨htries.supervisor, htries.arbiter, htries.step, htries.spindle⟩ rfl rfl
  refine ⟨_, ?_, by rw [hoptics]; rfl, htries.ident, by rw [hoptics]; simp⟩
  rw [exec_capture hfocus htime, hreq, hreport, hwaits]

theorem close_runsWindow (hstep : i.step = some .closing) (hclosers : s.optics.closers = [.supervisor])
    (hfocus : s.optics.focus = .locked) (htrack : s.optics.tracking = .off) (hk : i.stage.tries = some k) :
    ∃ t, exec .trackingClosed s = .next t ∧ t.optics.tracking = .closed ∧
      t.supervisor.ident = some { i with step := some .window, candidate := some k, window := some 0 } ∧
      (i.candidate ≠ some k → Noticed (.disc (if k = .H then .candidateH else .candidateL) k none) s t) := by
  obtain ⟨htries, hoptics, hnotice⟩ := tryWindow_runs (s := closedLoop s) (by rw [closedLoop_supervisor]; exact hid.ident) hk
  have hreport : [Requester.supervisor].foldl reportClose (closedLoop s) = tryWindow (closedLoop s) := by
    rw [List.foldl_cons, List.foldl_nil, reportClose,
      if_pos (by rw [hid.stands (u := closedLoop s) (by simp), hstep]; rfl)]
  have hwaits : react (tryWindow (closedLoop s)) = tryWindow (closedLoop s) :=
    hid.waits hstage (j := { i with step := some .window, candidate := some k, window := some 0 })
      ⟨by simpa using htries.supervisor, by simpa using htries.arbiter, by simpa using htries.step,
      by simpa using htries.spindle⟩ rfl rfl
  have hport (q : Port) : (closedLoop s).port q = s.port q := by simp [closedLoop]
  refine ⟨_, ?_, by rw [hoptics]; simp, htries.ident, fun hnamed q hq => hnotice hnamed q (by rw [hport]; exact hq)⟩
  rw [exec_closed (by simp [hclosers]) hfocus htrack, hclosers, hreport, hwaits]

theorem attempt_fails {since : Time} (hstep : i.step = some .searching) (hwindow : i.window = none)
    (htimer : s.optics.attemptTimer = some since) (hlast : s.optics.allowed ≤ s.optics.attempt)
    (hreq : s.optics.requester = some .supervisor) (hprofile : s.optics.profile = some .H ∨ i.stage = .profileL) :
    ∃ t, exec .attemptTimerExpiry s = .next t ∧
      (i.stage = .profileH → TriesProfileL i (runTo since 300 s) t) ∧
      (i.stage = .profileL → FaultParked .discUnreadable (runTo since 300 s) t) := by
  have hrun := hid.runTo hwindow since 300
  obtain ⟨v, hv⟩ : ∃ v, v = setFocus .off ((runTo since 300 s).setOptics { s.optics with
    attempt := 0, attemptTimer := none, requester := none }) := ⟨_, rfl⟩
  have hfails : Fails (runTo since 300 s) v :=
    ⟨by simp [hv], by simp [hv], by simp [hv], by rw [hv]; unfold setFocus; dsimp only; split <;> simp, by simp [hv],
      by rw [hv, lastGood_setFocus]; rfl, fun q => by simp [hv]⟩
  obtain ⟨hwaits, hleads⟩ := hfails.leads hrun hstage hprofile
  have hreport : reportNoLock (some .supervisor) v = tryFails v :=
    if_pos (by rw [hrun.canFail (u := v) (by simp [hv]), hstep]; rfl)
  have hattempt : attemptFails (runTo since 300 s) = reportNoLock (some .supervisor) v := by
    rw [attemptFails, if_neg (by simpa using hlast), hv, ← hreq]
    rfl
  exact ⟨tryFails v, by rw [exec_attempt htimer, hattempt, hreport, hwaits], hleads⟩

theorem drop_fails {us : Nat} (hstep : i.step = some .closing ∨ i.step = some .window)
    (hfocus : s.optics.focus = .locked) (hlong : (if s.optics.robustGain then 5000 else 2000) < us)
    (hprofile : s.optics.profile = some .H ∨ i.stage = .profileL) :
    ∃ t, exec (.focusDrop us) s = .next t ∧ (i.stage = .profileH → TriesProfileL i s t) ∧
      (i.stage = .profileL → FaultParked .discUnreadable s t) := by
  obtain ⟨v, hv⟩ : ∃ v, v = loseFocus s := ⟨_, rfl⟩
  have hfails : Fails s v := hv ▸ loseFocus_fails s
  obtain ⟨hwaits, hleads⟩ := hfails.leads hid hstage hprofile
  have hlost : focusLost s = tryFails v := by
    have hfail : (tryCanFail .closing v || tryCanFail .window v) = true := by
      rw [hid.canFail (u := v) (by rw [hfails.supervisor]), hid.canFail (u := v) (by rw [hfails.supervisor])]
      rcases hstep with h | h <;> simp [h]
    rw [focusLost, if_neg (by simp [raises, hid.drive]), ← hv]
    dsimp only
    rw [if_neg (by rw [hfails.supervisor, hid.drive]; simp), if_pos hfail]
  refine ⟨tryFails v, ?_, hleads⟩
  change execFocusDrop us s = _
  rw [execFocusDrop, if_pos ⟨hfocus, hlong⟩, hlost, hwaits]

end Try

/-- Settles O59: each stage by the event that ends it, and the failures of a try by its profile. -/
theorem identificationRunsItsStages : Obligations.IdentificationRunsItsStages := by
  intro i s hidentifies
  have hid := runs_of_identifies hidentifies
  refine ⟨step_homes hid, fun x hstage hleg hx hreq => ⟨?arrives, fun hopen hmore hin hfar =>
    step_corrects hid hstage hleg hx hreq hopen hmore hin hfar⟩, fun rpm => reading_tries hid, fun hstage => ⟨?switch, ?capture,
    fun hstep hclosers hfocus htrack => ?close, ?attempt, ?drop⟩⟩
  case arrives =>
    intro moved hfull hstate htarget hband
    exact step_arrives hid hstage hleg hx hreq hfull hstate htarget hband
  case switch => exact fun k since hstep hwindow => switch_searches hid hstage hstep hwindow
  case capture => exact capture_closes hid hstage
  case close =>
    rcases hstage with hH | hL
    · obtain ⟨t, hexec, hclosed, hident, hnotice⟩ :=
        close_runsWindow hid (.inl hH) hstep hclosers hfocus htrack (k := .H) (by rw [hH]; rfl)
      exact ⟨t, hexec, hclosed, fun _ => ⟨hident, hnotice⟩, fun hL => by simp [hH] at hL⟩
    · obtain ⟨t, hexec, hclosed, hident, hnotice⟩ :=
        close_runsWindow hid (.inr hL) hstep hclosers hfocus htrack (k := .L) (by rw [hL]; rfl)
      exact ⟨t, hexec, hclosed, fun hH => by simp [hL] at hH, fun _ => ⟨hident, hnotice⟩⟩
  case attempt =>
    exact fun since hstep hwindow htimer hlast hreq _ hprofile =>
      attempt_fails hid hstage hstep hwindow htimer hlast hreq hprofile
  case drop => exact fun us hstep hfocus hlong hprofile => drop_fails hid hstage hstep hfocus hlong hprofile

end Sys2Proof.Proofs
end

section
/-! SUPPLY STATE in an identification (R86, R153, R154, R161): a try that restarts with no laser lit fails at once. -/

namespace Sys2Proof.Proofs

set_option Elab.async false

open Sys2Proof.Machine Sys2Proof.Safety

/-- The try of profile L paused in a sag, the spindle coasting at the fixed speed, with focus OFF, no profile active and no
switch under way. -/
def darkTry : State := { State.reset with
  mechanism := { State.reset.mechanism with decoder := .receiving }
  sled := { Sled.reset false with position := some 150 }
  spindle := { Spindle.reset 500 with state := .coast, mode := .fixed, target := 500, stopLimit := none }
  supervisor := { Supervisor.reset with
    drive := .identifying, clamp := .clamped, supply := .sag
    ident := some ⟨.clamp, .profileL, some .searching, none, none, true, false⟩ } }

/-- The spindle state that an outcome leaves. -/
def spindleAfter : Outcome → Option SpindleState
  | .next t => some t.spindle.state
  | _ => none

/-- Refutes O46: the spindle of `darkTry` is within 10 % of its target, so that the try restarts, and the statement has it
COARSE whatever the loops are. Its search fails at once with no profile active (R86), which fails the try of profile L (R154):
the fault brakes the spindle. -/
theorem not_supplyStatePausesAndResumes : ¬ Obligations.SupplyStatePausesAndResumes := by
  intro h
  obtain ⟨x, t, -, hexec, -, -, -, hresumes⟩ :=
    h .mechanism 3 0 darkTry (by decide) rfl (by decide) (by decide) (by decide)
  obtain ⟨-, -, -, -, hrestarts⟩ :=
    hresumes ⟨.clamp, .profileL, some .searching, none, none, true, false⟩ rfl rfl rfl rfl
  obtain ⟨hcoarse, -⟩ := hrestarts rfl (by decide) (.inr rfl)
  have hbrakes : spindleAfter (exec (.supplyState .mechanism 3 0) darkTry) = some .braking := by decide
  rw [hexec, spindleAfter, hcoarse] at hbrakes
  exact absurd hbrakes (by decide)

end Sys2Proof.Proofs
end

section
/-! The loops and the fix over every step (R83 to R94, R111). -/

namespace Sys2Proof.Proofs

set_option Elab.async false

open Sys2Proof.Machine Sys2Proof.Safety Sys2Proof.Laws

/-- Settles O27: every step is safe, and `Safe` has the agreement of the loops and of the fresh fix with them. -/
theorem loopsAndFixAgree : Obligations.LoopsAndFixAgree := by
  intro s t hloops hfresh hstep
  have hsafe : Safe s t := step_safe hstep
  exact ⟨hsafe.loops hloops, hsafe.fresh hfresh⟩

end Sys2Proof.Proofs
end

section
/-! An address taken as a fix while a FOLLOW plays (R94, R135): its zone, its end address, or it plays on. -/

namespace Sys2Proof.Proofs

set_option Elab.async false

open Sys2Proof.Machine Sys2Proof.Safety Sys2Proof.Laws

variable {s u : State} {a c z : Nat} {m : Motion}

/-! ### Who receives the fix (R110) -/

/-- On a quiet track, with no hold below the address, the arbiter's test is all that follows the fix. -/
theorem takeFix_playing (hp : s.map.predict a = some c) (hstep : s.planner.acquireStep = .none)
    (hidle : s.planner.legStage = .idle) (hrecovery : s.recovery.phase = .none) (hm : s.arbiter.active = some m)
    (hkind : m.kind = .follow) (hphase : m.phase = some .following)
    (hhold : s.optics.tracking = .closed ∧ s.optics.holdAddress = none ∨
      s.optics.tracking = .hold ∧ s.optics.holdAddress.all (fun h => decide (a ≤ h)) = true) :
    takeFix a s = followTest a (fixTaken a c s) := by
  have hplanner : plannerOnFix a s (fixTaken a c s) = fixTaken a c s := by
    simp [plannerOnFix, hstep, hidle, hrecovery, activePhase, hm, hphase]
  have harbiter : arbiterOnFix a s (fixTaken a c s) = followTest a (fixTaken a c s) := by
    simp [arbiterOnFix, hm, hkind, hphase]
  rw [takeFix_eq hp, hplanner, holdOnFix_below hhold, harbiter, recoveryOnFix_idle (by simp [hrecovery])]

/-! ### The test of a FOLLOW that plays (R135) -/

section Test

variable (hm : s.arbiter.active = some m) (hkind : m.kind = .follow) (hphase : m.phase = some .following)
  (htrack : OnATrack s) (haside : s.supervisor.drive.setsAside = false) (howner : s.planner.owner = .none)

include hm hkind hphase htrack haside howner

/-- In an AVOID zone it ends, and the drive holds at its last open address. -/
theorem followTest_endsInAvoid (havoid : (s.zones.decode a).access = .avoid) :
    EndedHolding m .zoneLimit a (m.lastOpen.getD a) s (followTest a s) := by
  have htest : followTest a s
      = holdAt (m.lastOpen.getD a) (endMotion m .zoneLimit (some a) (setActive none s)) := by
    simp [followTest, hm, hkind, hphase, havoid]
  rw [htest]
  exact endedHolding_congr (endedHolding (by simpa [OnATrack] using htrack) (by simpa using haside) (by simp)
    (by simpa using howner)) fun q => by simp

/-- At its end address or above it, it ends, and the drive holds at the end address. -/
theorem followTest_endsAtEnd (hopen : (s.zones.decode a).access = .opened) (hend : m.endAddr = some z) (hpast : z ≤ a) :
    EndedHolding m .ended a z s (followTest a s) := by
  have htest : followTest a s
      = holdAt z (endMotion { m with lastOpen := some a } .ended (some a) (setActive none s)) := by
    simp [followTest, hm, hkind, hphase, hopen, hend, hpast]
  have hended : EndedHolding { m with lastOpen := some a } .ended a z (setActive none s) (followTest a s) := by
    rw [htest]
    exact endedHolding (by simpa [OnATrack] using htrack) (by simpa using haside) (by simp) (by simpa using howner)
  obtain ⟨hslot, hreports, hnone, hdrive, hheld⟩ := endedHolding_congr (u := s) hended fun q => by simp
  exact ⟨hslot, hreports, hnone, hdrive, hheld⟩

end Test

/-- Settles O42: the fix leaves the FOLLOW's test to the arbiter, and the test has three outcomes. -/
theorem playingFollowEndsOrPlaysOn : Obligations.PlayingFollowEndsOrPlaysOn := by
  intro p tag address k c z m s hcomes hrest hstep howner hm hkind hphase _ hend hcourse a
  obtain ⟨htakes, hk, hmax, hp, hsettled, hfocus, hhold, hrun, hsettle, hsuspended⟩ := hcomes
  obtain ⟨hdrive, hidle, hrecovery, -⟩ := hrest
  have hfree : FreeOrHolding s := hhold.imp id And.left
  obtain ⟨v, hv⟩ : ∃ v, v = fixTaken a c s := ⟨_, rfl⟩
  have hjudge : judge address.toNat true s = (followTest a v, .fix) := by
    rw [judge_fixes (by simp [hdrive]) (by simp [hdrive]) hk hmax hfocus (hfree.imp And.left id) hrun hsettle hsuspended
      (jumps_eq_false hp hcourse), takeFix_playing hp hstep hidle hrecovery hm hkind hphase hhold, hv]
  have hquiet : react (followTest a v) = followTest a v :=
    react_planned (planLeaves_followTest a v) (by simpa [Settled, hv] using hsettled)
  have hmv : v.arbiter.active = some m := by simp [hv, hm]
  have htrack : OnATrack v := by simpa [OnATrack, hv] using hfree.onATrack
  have haside : v.supervisor.drive.setsAside = false := by simp [hv, hdrive, DriveState.setsAside]
  have hownerv : v.planner.owner = .none := by simp [hv, howner]
  have hdecode : v.zones.decode a = s.zones.decode a := by rw [hv, fixTaken_decode]
  have hreports (q : Port) : reportsOf q s = reportsOf q v := by simp [hv]
  refine ⟨_, exec_fixReport htakes hjudge hquiet, answer_reply .., fun havoid => ?avoid, fun hopen hpast => ?ends,
    fun hopen hbefore => ?plays⟩
  case avoid =>
    exact endedHolding_answer (endedHolding_congr
      (followTest_endsInAvoid hmv hkind hphase htrack haside hownerv (by rw [hdecode, havoid])) hreports)
  case ends =>
    exact endedHolding_answer (endedHolding_congr
      (followTest_endsAtEnd hmv hkind hphase htrack haside hownerv (by rw [hdecode, hopen]) hend hpast) hreports)
  case plays =>
    rw [followTest_plays hmv hkind hphase (by rw [hdecode, hopen]) hend hbefore]
    refine ⟨by simp [hv, setActive], by simp [hv], by simp [hv], by simp [hv], reportsStay_answer fun q => ?_⟩
    rw [setActive_port]
    exact (hreports q).symm

end Sys2Proof.Proofs
end

section
/-! A RELEASE with the disc turning (R85, R124, R128, R163): it ends every motion and brakes. -/

namespace Sys2Proof.Proofs

set_option Elab.async false

open Sys2Proof.Machine Sys2Proof.Safety Sys2Proof.Laws

variable {s : State} {m : Motion} {p : Port} {tag : Byte}

/-! ### Every motion is ended (R128) -/

/-- A RELEASE ends every live motion, so that none is left in a slot or in the list. -/
theorem superseded_byRelease (hkind : m.kind = .release) (s : State) : (superseded m s).arbiter.active = none ∧
    (superseded m s).arbiter.attached = none ∧ (superseded m s).arbiter.waiting = [] := by
  have hsupersedes : Supersedes m s (superseded m s) := superseded_of m s
  have hends (x : Motion) : ends m.kind x = true := by rw [hkind]; rfl
  refine ⟨?_, ?_, ?_⟩
  · rw [hsupersedes.active]
    simp [hends]
  · rw [hsupersedes.attached]
    simp [hends]
  · rw [hsupersedes.waiting]
    simp [hends]

/-- The ends of motions leave the release latch. -/
theorem endMotions_latch (ms : List (Motion × Result)) (f : Option Nat) (s : State) :
    (endMotions ms f s).arbiter.releaseLatch = s.arbiter.releaseLatch := by
  induction ms generalizing s with
  | nil => rfl
  | cons e ms ih => exact (ih (endMotion e.1 e.2 f s)).trans (by rw [endMotion_arbiter])

/-- Each is reported PREEMPTED with reason RELEASE. -/
theorem endedReports_release (q : Port) (s : State) : endedReports .release q s =
    ((liveMotions s).filter (fun m => m.port == q)).map (fun m => m.report (.preempted .release) (lastGood s)) := by
  rw [endedReports, ← List.filterMap_eq_map, List.filterMap_filter]
  simp [endedWith]

/-! ### The mechanics begin (R163) -/

/-- The RELEASE has the slot, and its mechanics begin from here. -/
def releaseBegins (m : Motion) (s : State) : State :=
  setActive (some (m.activeIn .braking)) (beginSession (superseded m s))

/-- A RELEASE that finds no older one begins its mechanics at once. -/
theorem accept_releases (hkind : m.kind = .release) (hnot : s.supervisor.drive ≠ .released)
    (hfirst : ∀ x, s.arbiter.active = some x → x.kind ≠ .release) :
    accept m s = releaseMechanics (releaseBegins m s) := by
  have hdrive : (superseded m s).supervisor.drive ≠ .released := by rw [(superseded_of m s).supervisor]; exact hnot
  have hwaits : completesAtOnce .release (superseded m s) = false := by
    unfold completesAtOnce
    split
    case h_3 => exact absurd ‹_› hdrive
    all_goals simp_all
  rw [accept_places, place, hkind, hwaits]
  cases hactive : s.arbiter.active with
  | none => simp [activateRelease, releaseBegins]
  | some x => simp [activateRelease, hfirst x hactive, releaseBegins]

section ReleaseBegins

variable (m : Motion) (s : State)

theorem releaseBegins_spindle : (releaseBegins m s).spindle = s.spindle := by
  simp [releaseBegins, beginSession, (superseded_of m s).spindle]
theorem releaseBegins_clock : (releaseBegins m s).clock = s.clock := by
  simp [releaseBegins, beginSession, (superseded_of m s).clock]
theorem releaseBegins_reports (q : Port) :
    reportsOf q (releaseBegins m s) = reportsOf q s ++ endedReports m.kind q s := by
  simp [releaseBegins, beginSession, (superseded_of m s).reports]
theorem releaseBegins_arbiter (hkind : m.kind = .release) : (releaseBegins m s).arbiter = { (superseded m s).arbiter with
    active := some (m.activeIn .braking), attached := none, waiting := [] } := by
  obtain ⟨-, hattached, hwaiting⟩ := superseded_byRelease hkind s
  simp [releaseBegins, beginSession, setActive, ← hattached, ← hwaiting]
theorem releaseBegins_latch (hkind : m.kind = .release) : (releaseBegins m s).arbiter.releaseLatch = true := by
  simp [releaseBegins, beginSession, superseded, supersede, ticketed, hkind, endMotions_latch]

end ReleaseBegins

/-- The drive is on its way to RELEASED: braked and dark, with no identification, no recovery and no step of ACQUIRE. -/
structure Releases (s t : State) : Prop where
  drive : t.supervisor = { s.supervisor with
    drive := .releasing, ident := none, sagTimer := none, focusLostInSag := false, suspendedPhase := none }
  arbiter : t.arbiter = (setPhase .braking s).arbiter
  step : t.planner.acquireStep = .none
  spindle : Braked s t
  loops : t.optics.focus = .off ∧ t.optics.tracking = .off ∧ t.optics.profile = none
  recovery : t.recovery.phase = .none
  reports : ∀ q, reportsOf q t = reportsOf q s

theorem releaseMechanics_releases (hdriven : Driven s.spindle) (hturns : 30 ≤ s.spindle.measured) :
    Releases s (releaseMechanics s) := by
  obtain ⟨u, hu⟩ : ∃ u, u = sledStop (lasersOff (brake (endRecovery (endSagHold (abandonIdent (disown s)))))) := ⟨_, rfl⟩
  have hspindle : u.spindle = s.spindle.brake s.clock := by simp [hu, brake, brakeSpindle]
  obtain ⟨m, hm⟩ := setDrive_spindle_stop (s := u) .releasing (by simp [hspindle, (brake_stops _ _).1])
  have hbraked : Braked s (setPhase .braking (setDrive .releasing u)) :=
    braked_of_spindle (m := m) hdriven hturns (by rw [setPhase_spindle, hm, hspindle])
  have heq : releaseMechanics s = setPhase .braking (setDrive .releasing u) := by
    rw [releaseMechanics, ← hu]
    exact if_neg (by rw [spindleStopped, hbraked.1]; decide)
  rw [heq]
  refine ⟨?_, by simp [hu, setPhase, disown], by simp [hu, disown], hbraked, by simp [hu, lasersOff_optics], ?_,
    fun q => by simp [hu]⟩
  · simp [hu, endSagHold, abandonIdent, endSwitch, endIdent]
  · simp [hu, endRecovery]

/-! ### The statement -/

/-- The motion that a RELEASE brings. -/
abbrev newRelease (p : Port) (tag : Byte) (s : State) : Motion :=
  Motion.accepted p tag .release none none none s.arbiter.arrivals

theorem exec_release (h : Takes 0x32 p s) (hpass : motionRefusal .release p tag none none s = none) :
    exec (.release p tag) s = .next ((settledWith (newRelease p tag s) s).answer p tag .accepted
      (placedReply (newRelease p tag s) (settledWith (newRelease p tag s) s))) :=
  exec_takes (k := .release) rfl rfl h (requestMotion_accepts (plainChecks_eq.trans hpass))

/-- Settles O38: the RELEASE ends what there is, and its mechanics find a disc that turns. -/
theorem releaseEndsEverythingAndBrakes : Obligations.ReleaseEndsEverythingAndBrakes := by
  intro p tag s htakes hpass hnot hfirst hturns hdriven
  have hexec := exec_release htakes hpass
  obtain ⟨m, hm⟩ : ∃ m, m = newRelease p tag s := ⟨_, rfl⟩
  rw [← hm] at hexec
  have hkind : m.kind = .release := by rw [hm]; rfl
  have hport : m.port = p := by rw [hm]; rfl
  have htag : m.tag = tag := by rw [hm]; rfl
  obtain ⟨v, hv⟩ : ∃ v, v = releaseBegins m s := ⟨_, rfl⟩
  have hspindle : v.spindle = s.spindle := by rw [hv, releaseBegins_spindle]
  have hclock : v.clock = s.clock := by rw [hv, releaseBegins_clock]
  obtain ⟨t, ht⟩ : ∃ t, t = releaseMechanics v := ⟨_, rfl⟩
  have hreleases : Releases v t :=
    ht ▸ releaseMechanics_releases (by rw [hspindle]; exact hdriven) (by rw [hspindle]; exact hturns)
  have harbiter : t.arbiter = v.arbiter := by
    rw [hreleases.arbiter, hv]
    simp [setPhase, setActive, releaseBegins, Motion.activeIn]
  have hslots : t.arbiter = { (superseded m s).arbiter with
      active := some (m.activeIn .braking), attached := none, waiting := [] } := by
    rw [harbiter, hv, releaseBegins_arbiter m s hkind]
  have hsettled : settledWith m s = t := by
    rw [settledWith, accept_releases hkind hnot hfirst, ← hv, ← ht,
      react_settled ⟨by rw [hslots], by rw [hreleases.drive], by simp [hreleases.step]⟩]
  have hreply : placedReply m t = [1, 0xFF, 0xFF, 0xFF, 0xFF] := by
    rw [placedReply_plain (by rw [hm]; rfl) (by rw [hm]; rfl),
      placedStatus_active (x := m.activeIn .braking) (by rw [hslots]) (by simp [Motion.named, Motion.activeIn])]
    rfl
  rw [hsettled, hreply] at hexec
  refine ⟨_, m.activeIn .braking, hexec, ?live, by simp [hslots], hport, htag, hkind, rfl, answer_reply .., fun q => ?reports,
    ?latch, by simp [hreleases.drive], by simp [hreleases.drive], ?braked, by simp [hreleases.loops],
    by simp [hreleases.loops], by simp [hreleases.loops], by simp [hreleases.recovery]⟩
  case live => simp [liveMotions, hslots]
  case reports => rw [reports_answer, hreleases.reports, hv, releaseBegins_reports, hkind, endedReports_release]; rfl
  case latch => rw [answer_arbiter, harbiter, hv, releaseBegins_latch m s hkind]
  case braked =>
    have hbraked := hreleases.spindle
    rw [Braked, hclock] at hbraked
    rw [Braked, answer_spindle]
    exact hbraked

end Sys2Proof.Proofs
end

section
/-! SUPPLY STATE (R90, R146, R157 to R159, R174 to R176, R184): a sag while the disc plays, moves or recovers, and the return
of the supply. -/

namespace Sys2Proof.Proofs

set_option Elab.async false

open Sys2Proof.Machine Sys2Proof.Safety Sys2Proof.Laws

variable {s t u v : State} {p : Port} {tag value : Byte} {x : SupplyState}

/-! ### The report (R157) -/

/-- The part that has recorded a supply state, its notice offered with the drive state before the report acts (entry 28). -/
def supplyStored (x : SupplyState) (s : State) : State :=
  offer (.supply x s.supervisor.drive s.clock) (s.setSupervisor { s.supervisor with supply := x })

section SupplyStored

variable (x : SupplyState) (s : State)

@[simp] theorem supplyStored_supervisor : (supplyStored x s).supervisor = { s.supervisor with supply := x } := by
  simp [supplyStored]
@[simp] theorem supplyStored_clock : (supplyStored x s).clock = s.clock := by simp [supplyStored]
@[simp] theorem supplyStored_arbiter : (supplyStored x s).arbiter = s.arbiter := by simp [supplyStored]
@[simp] theorem supplyStored_planner : (supplyStored x s).planner = s.planner := by simp [supplyStored]
@[simp] theorem supplyStored_monitor : (supplyStored x s).monitor = s.monitor := by simp [supplyStored]
@[simp] theorem supplyStored_optics : (supplyStored x s).optics = s.optics := by simp [supplyStored]
@[simp] theorem supplyStored_sled : (supplyStored x s).sled = s.sled := by simp [supplyStored]
@[simp] theorem supplyStored_spindle : (supplyStored x s).spindle = s.spindle := by simp [supplyStored]
@[simp] theorem supplyStored_recovery : (supplyStored x s).recovery = s.recovery := by simp [supplyStored]

theorem supplyStored_mask (q : Port) : ((supplyStored x s).port q).mask = (s.port q).mask := by
  have hkeeps := (Keeps.refl (s.setSupervisor { s.supervisor with supply := x })).offer
    (n := .supply x s.supervisor.drive s.clock)
  exact (hkeeps.port q).mask.trans (by rw [State.setSupervisor_port])

theorem supplyStored_noticed {q : Port} (hq : admits (s.port q).mask 8 = true) :
    Laws.Noticed (.supply x s.supervisor.drive s.clock) q (supplyStored x s) :=
  noticed_offer _ (by rw [State.setSupervisor_port]; exact hq)

end SupplyStored

theorem supply?_code (x : SupplyState) : supply? x.code = some x := by cases x <;> rfl

theorem supply?_above (h : 1 < value.toNat) : supply? value = none := by
  have h0 : value ≠ 0 := by rintro rfl; exact absurd h (by decide)
  have h1 : value ≠ 1 := by rintro rfl; exact absurd h (by decide)
  rw [supply?, if_neg h0, if_neg h1]

theorem exec_supply (h : Takes 0x31 p s) (hreport : supplyReport x s = t) (hwaits : react t = t) :
    exec (.supplyState p tag x.code) s = .next (t.answer p tag .accepted (mechanismData t)) := by
  refine exec_takes (k := .supplyState) rfl rfl h ?_
  change requestSupply x.code s = _
  simp [requestSupply, supply?_code, hreport, hwaits]

theorem supplyReport_same (h : x = s.supervisor.supply) : supplyReport x s = s := if_pos h

theorem supplyReport_changes (h : x ≠ s.supervisor.supply) : supplyReport x s = supplyActs x (supplyStored x s) := if_neg h

theorem supplyActs_sags (h : s.supervisor.drive = .onTrack ∨ s.supervisor.drive = .moving ∨
    s.supervisor.drive = .recovering) : supplyActs .sag s = beginSagHold s := by
  rcases h with h | h | h <;> simp [supplyActs, h]

theorem supplyActs_returns (h : s.supervisor.drive = .sagHold) : supplyActs .normal s = endSagWithRecovery s := by
  simp [supplyActs, h]

/-! ### The mechanism in a sag (R59, R77, R90, R101) -/

/-- The planner in a sag: a fine leg that runs goes on, any other leg is over (R59). -/
def legInSag (pl : Planner) : Planner := if pl.legStage = .running ∧ pl.legKind = .fine then pl else pl.legOver

theorem sagLeg_eq (s : State) : sagLeg s = s.setPlanner (legInSag s.planner) := by
  unfold sagLeg legInSag
  split <;> rfl

theorem stop_notCreep (sl : Sled) : sl.stop.state ≠ .creep := by
  unfold Sled.stop
  cases hstate : sl.state
  case homing => by_cases hpaused : sl.paused = true <;> simp [hpaused]
  all_goals simp [hstate]

/-- A sled that does not creep takes no part in an open command (R102). -/
theorem openTracking_sled (h : s.sled.state ≠ .creep) : (openTracking s).sled = s.sled := by
  have hfollows : s.sled.follows .off = s.sled := by
    cases hstate : s.sled.state <;> simp_all [Sled.follows]
  unfold openTracking
  split <;> simp [trackingOff_sled, hfollows]

/-- The spindle coasts, the sled is stopped, tracking opens. -/
def sagOpens (s : State) : State := sagLeg (openTracking (sledStop (coastSpindle s)))

section SagOpens

variable (s : State)

@[simp] theorem sagOpens_clock : (sagOpens s).clock = s.clock := by simp [sagOpens, sagLeg_eq]
@[simp] theorem sagOpens_arbiter : (sagOpens s).arbiter = s.arbiter := by simp [sagOpens, sagLeg_eq]
@[simp] theorem sagOpens_planner : (sagOpens s).planner = legInSag s.planner := by simp [sagOpens, sagLeg_eq]
@[simp] theorem sagOpens_recovery : (sagOpens s).recovery = s.recovery := by simp [sagOpens, sagLeg_eq]
@[simp] theorem sagOpens_supervisor : (sagOpens s).supervisor = s.supervisor := by simp [sagOpens, sagLeg_eq]
@[simp] theorem sagOpens_spindle : (sagOpens s).spindle = s.spindle.coast := by
  simp [sagOpens, sagLeg_eq, coastSpindle]
@[simp] theorem sagOpens_sled : (sagOpens s).sled = s.sled.stop := by
  have hstopped : (sledStop (coastSpindle s)).sled = s.sled.stop := by simp [sledStop]
  rw [sagOpens, sagLeg_eq, State.setPlanner_sled, openTracking_sled (by rw [hstopped]; exact stop_notCreep _), hstopped]
@[simp] theorem sagOpens_port (q : Port) : (sagOpens s).port q = s.port q := by simp [sagOpens, sagLeg_eq]
theorem sagOpens_optics : (sagOpens s).optics = (openTracking (sledStop (coastSpindle s))).optics := by
  simp [sagOpens, sagLeg_eq]
theorem sagOpens_monitor : (sagOpens s).monitor = (openTracking (sledStop (coastSpindle s))).monitor := by
  simp [sagOpens, sagLeg_eq]

end SagOpens

/-- What an open command leaves of the loops: those of OFF as they were, a jump with its open pending, OFF otherwise (R90). -/
theorem openTracking_loops (s : State) : (openTracking s).optics.focus = s.optics.focus ∧
    (openTracking s).optics.closers = s.optics.closers ∧ (s.optics.tracking = .off → (openTracking s).optics = s.optics) ∧
    (s.optics.tracking = .jump → (openTracking s).optics.tracking = .jump ∧ (openTracking s).optics.openPending = true) ∧
    (s.optics.tracking ≠ .jump → (openTracking s).optics.tracking = .off) := by
  refine ⟨by simp, by simp, ?_⟩
  unfold openTracking
  split <;> simp_all [trackingOff]

/-! ### A sag hold begins (R158) -/

/-- The sag hold before the drive state changes. -/
def sagSuspends (s : State) : State :=
  let s1 := s.setSupervisor { s.supervisor with
    sagTimer := some s.clock
    focusLostInSag := s.optics.focus != .locked
    suspendedPhase := phaseToSuspend s }
  let s2 := setPhase .suspended (endRecovery (s1.setPlanner { s1.planner with acquireStep := .none }))
  if s2.planner.owner = .internal then disown s2 else s2

section SagSuspends

variable (s : State)

/-- The planner is all that the withdrawal of an internal return changes of it. -/
theorem sagSuspends_eq : ∃ pl : Planner, sagSuspends s = (setPhase .suspended (endRecovery (s.setSupervisor { s.supervisor with
      sagTimer := some s.clock
      focusLostInSag := s.optics.focus != .locked
      suspendedPhase := phaseToSuspend s }))).setPlanner pl ∧
    pl.owner = (if s.planner.owner = .internal then .none else s.planner.owner) ∧ pl.acquireStep = .none ∧
    pl.legStage = s.planner.legStage ∧ pl.legKind = s.planner.legKind := by
  unfold sagSuspends
  dsimp only
  split
  · rename_i howner
    refine ⟨_, rfl, ?_, rfl, rfl, rfl⟩
    rw [if_pos (by simpa using howner)]
  · rename_i howner
    refine ⟨_, rfl, ?_, rfl, rfl, rfl⟩
    rw [if_neg (by simpa using howner)]
    rfl

end SagSuspends

/-- What a sag hold records of the drive before its state changes (R157, R158). -/
theorem sagSuspends_supervisor (s : State) : (sagSuspends (sagOpens s)).supervisor = { s.supervisor with
    sagTimer := some s.clock, focusLostInSag := s.optics.focus != .locked, suspendedPhase := phaseToSuspend s } := by
  obtain ⟨pl, hsuspends, -⟩ := sagSuspends_eq (sagOpens s)
  have hfocus : (sagOpens s).optics.focus = s.optics.focus := by simp [sagOpens_optics]
  rw [hsuspends]
  simp [phaseToSuspend, recovering, activePhase, hfocus]

theorem beginSagHold_eq (h : ∀ m ∈ liveMotions s, m.cancelPending = false) :
    beginSagHold s = setDrive .sagHold (sagSuspends (sagOpens s)) := by
  have hlive : ∀ m ∈ liveMotions (sagOpens s), m.cancelPending = false := by
    rw [liveMotions_congr (sagOpens_arbiter s)]
    exact h
  rw [beginSagHold, ← sagOpens, endWaitingCancel_none hlive]
  rfl

theorem beginSagHold_supervisor (h : ∀ m ∈ liveMotions s, m.cancelPending = false) :
    (beginSagHold s).supervisor = { s.supervisor with
      drive := .sagHold, sagTimer := some s.clock, focusLostInSag := s.optics.focus != .locked
      suspendedPhase := phaseToSuspend s } := by
  rw [beginSagHold_eq h, setDrive_supervisor, sagSuspends_supervisor]

/-- In COAST a new target is only stored (R77). -/
theorem coast_kept (now : Time) : KeptAt now (fun sp => sp.state = .coast) where
  speeds _ _ _ h := h
  target sp x b _ h := by
    by_cases hx : x = sp.target
    · rw [setTarget_same hx]
      exact h
    · rw [setTarget_coasting hx h]
      exact h

theorem coast_driven {sp : Spindle} (h : Driven sp) : sp.coast.state = .coast := by
  unfold Spindle.coast
  cases hstate : sp.state <;> simp_all [Driven]

theorem coast_target (sp : Spindle) : sp.coast.target = sp.target := by
  unfold Spindle.coast
  split <;> rfl

/-- What the stop command leaves of a sled that is not HOMING (R101). -/
theorem stop_notHoming {sl : Sled} (h : sl.state ≠ .homing) : sl.stop.position = sl.position ∧
    (sl.state = .leg → sl.stop.state = .leg ∧ sl.stop.stopPending = true) ∧ (sl.state ≠ .leg → sl.stop.state = .idle) := by
  unfold Sled.stop
  cases hstate : sl.state <;> simp_all

theorem legInSag_stage (pl : Planner) : if pl.legStage = .running ∧ pl.legKind = .fine then
    (legInSag pl).legStage = .running ∧ (legInSag pl).legKind = .fine else (legInSag pl).legStage = .idle := by
  unfold legInSag
  split <;> simp_all [Planner.legOver]

theorem legInSag_owner (pl : Planner) : (legInSag pl).owner = pl.owner := by
  unfold legInSag
  split <;> rfl

/-- A sag while the drive is ON_TRACK, MOVING or RECOVERING begins a sag hold. -/
theorem beginSagHold_holds (hdrive : s.supervisor.drive ≠ .sagHold)
    (hcancel : ∀ m ∈ liveMotions s, m.cancelPending = false) : SagHeld s (beginSagHold (supplyStored .sag s)) := by
  obtain ⟨v, hv⟩ : ∃ v, v = supplyStored .sag s := ⟨_, rfl⟩
  obtain ⟨pl, hsuspends, howner, hstep, hstage, hkind⟩ := sagSuspends_eq (sagOpens v)
  obtain ⟨w, hw⟩ : ∃ w, w = sagSuspends (sagOpens v) := ⟨_, rfl⟩
  have heq : beginSagHold v = setDrive .sagHold w := by
    rw [hw]
    exact beginSagHold_eq (by rw [hv, liveMotions_congr (supplyStored_arbiter ..)]; exact hcancel)
  rw [← hw] at hsuspends
  obtain ⟨hfocus, hclosers, hoff, hjump, hopens⟩ := openTracking_loops (sledStop (coastSpindle v))
  have hoptics : w.optics = (openTracking (sledStop (coastSpindle v))).optics := by simp [hsuspends, sagOpens_optics]
  have hsame : (sledStop (coastSpindle v)).optics = s.optics := by simp [hv]
  rw [← hoptics, hsame] at hfocus hclosers hoff hjump hopens
  have hmonitor : w.monitor = (openTracking (sledStop (coastSpindle v))).monitor := by simp [hsuspends, sagOpens_monitor]
  have hspindle : w.spindle = s.spindle.coast := by simp [hsuspends, hv]
  have hsupervisor : w.supervisor = { s.supervisor with
      supply := .sag, sagTimer := some s.clock, focusLostInSag := s.optics.focus != .locked
      suspendedPhase := phaseToSuspend s } := by
    rw [hw, sagSuspends_supervisor, hv]
    simp [phaseToSuspend, recovering, activePhase]
  have hmask (q : Port) : (w.port q).mask = (s.port q).mask := by simp [hsuspends, hv, supplyStored_mask]
  have hplanner : w.planner = pl := by simp [hsuspends]
  rw [← hv, heq]
  constructor
  case drive => simp [hsupervisor]
  case suspended => simp [hsupervisor, phaseToSuspend, recovering]
  case motion => simp [hsuspends, setPhase, hv]
  case recovery => simp [hsuspends, endRecovery, hv]
  case owner => simp [hplanner, howner, hstep, hv, legInSag_owner]
  case leg =>
    rw [setDrive_planner, hplanner, hstage, hkind, sagOpens_planner, hv, supplyStored_planner]
    exact legInSag_stage s.planner
  case loops =>
    rw [setDrive_optics]
    exact ⟨hfocus, hclosers, hoff, hjump, hopens⟩
  case fix =>
    rw [lastGood_congr (setDrive_monitor ..), fixFresh_congr (setDrive_monitor ..), lastGood_congr hmonitor,
      fixFresh_congr hmonitor]
    refine ⟨(lastGood_openTracking _).trans (lastGood_congr (by simp [hv])), fun htrack => ?_⟩
    rw [openTracking_onTrack (by simpa [OnATrack, hv] using htrack), fixFresh_trackingOff]
  case sled =>
    rw [setDrive_sled, show w.sled = s.sled.stop by simp [hsuspends, hv]]
    exact stop_notHoming
  case spindle =>
    refine ⟨fun hdriven => kept_setDrive (coast_kept _) (by rw [hspindle]; exact coast_driven hdriven), fun hmoving => ?_⟩
    rw [setDrive_spindle (by decide) (by simpa [hsupervisor] using hmoving), hspindle, coast_target]
  case notices =>
    refine ⟨fun q hq => ?_, fun q hq => Noticed.setDrive (n := .supply .sag s.supervisor.drive s.clock) ?_
      (by simp [Notice.code]) (by simp [Notice.code]) (by simp [Notice.code])⟩
    · have hnotice := setDrive_noticed (s := w) (d := .sagHold) (by rw [hsupervisor]; exact hdrive.symm)
        (by rw [hmask]; exact hq)
      rw [show w.clock = s.clock by simp [hsuspends, hv], hsupervisor] at hnotice
      rw [setDrive_supervisor, hsupervisor]
      exact hnotice
    · exact (supplyStored_noticed .sag s hq).congr (by simp [hsuspends, hv])

/-! ### REFOCUS in a drive whose loops may stand in any way (R90, R175) -/

/-- REFOCUS has begun, tracking is opened and the sled stopped: here it searches. -/
def refocusing (s : State) : State := sledStop (openTracking (s.setRecovery { s.recovery with
  phase := .refocus, refocusCount := s.recovery.refocusCount + 1, window := none }))

section Refocusing

variable (s : State)

@[simp] theorem refocusing_clock : (refocusing s).clock = s.clock := by simp [refocusing]
@[simp] theorem refocusing_arbiter : (refocusing s).arbiter = s.arbiter := by simp [refocusing]
@[simp] theorem refocusing_planner : (refocusing s).planner = s.planner := by simp [refocusing]
@[simp] theorem refocusing_spindle : (refocusing s).spindle = s.spindle := by simp [refocusing]
@[simp] theorem refocusing_supervisor : (refocusing s).supervisor = s.supervisor := by simp [refocusing]
@[simp] theorem refocusing_port (q : Port) : (refocusing s).port q = s.port q := by simp [refocusing]
@[simp] theorem refocusing_recovery : (refocusing s).recovery = { s.recovery with
    phase := .refocus, refocusCount := s.recovery.refocusCount + 1, window := none } := by simp [refocusing]
@[simp] theorem refocusing_focus : (refocusing s).optics.focus = s.optics.focus := by simp [refocusing]

theorem openTracking_lasers : (openTracking s).optics.profile = s.optics.profile ∧
    (openTracking s).optics.switch = s.optics.switch := by
  unfold openTracking
  split <;> simp [trackingOff]

theorem refocusing_lasers : (refocusing s).optics.profile = s.optics.profile ∧
    (refocusing s).optics.switch = s.optics.switch := by
  rw [refocusing, sledStop_optics]
  exact openTracking_lasers _

theorem refocusing_tracking (h : s.optics.tracking ≠ .jump) : (refocusing s).optics.tracking = .off := by
  rw [refocusing, sledStop_optics]
  exact (openTracking_loops _).2.2.2.2 h

end Refocusing

theorem refocusing_phase (s : State) : PhaseBegins .refocus s (refocusing s) where
  supervisor := by simp
  arbiter := by simp
  planner := by simp
  map := by simp [refocusing]
  spindle := by simp
  recovery := by simp
  last := by
    rw [refocusing, lastGood_congr (sledStop_monitor _), lastGood_openTracking]
    exact lastGood_congr (by simp)
  port := refocusing_port s

/-- What REFOCUS does, by the answer of the search that it commands. -/
theorem beginRefocus_answers (hcount : s.recovery.refocusCount < s.recovery.retryLimit) {answer : Answer}
    (hsearch : focusSearch .recovery s.recovery.retryLimit (refocusing s) = (u, answer)) :
    (answer = .begun → beginRefocus s = u) ∧ (answer = .done → beginRefocus s = beginRetrack u) := by
  have hlimit : (refocusing s).recovery.retryLimit = s.recovery.retryLimit := by rw [refocusing_recovery]
  have hbegins : beginRefocus s = refocusSearch (s.setRecovery { s.recovery with
      phase := .refocus, refocusCount := s.recovery.refocusCount + 1, window := none }) := by
    rw [beginRefocus, enterPhase, if_neg (Nat.not_le.2 hcount)]
  rw [hbegins, refocusSearch, ← refocusing]
  rw [hlimit, hsearch]
  exact ⟨by rintro rfl; rfl, by rintro rfl; rfl⟩

/-- A search that finds focus LOCKED leads to RETRACK at once (R175). -/
theorem beginRefocus_finds (hcount : s.recovery.refocusCount < s.recovery.retryLimit) (hfocus : s.optics.focus = .locked) :
    beginRefocus s = beginRetrack (refocusing s) :=
  (beginRefocus_answers hcount (by rw [focusSearch, if_pos (by simpa using hfocus)])).2 rfl

theorem beginRefocus_seeks (hcount : s.recovery.refocusCount < s.recovery.retryLimit) (hfocus : s.optics.focus ≠ .locked)
    (hswitch : s.optics.switch = none) (hprofile : s.optics.profile ≠ none) :
    beginRefocus s = beginSearch .recovery s.recovery.retryLimit (refocusing s) := by
  obtain ⟨hsameProfile, hsameSwitch⟩ := refocusing_lasers s
  refine (beginRefocus_answers hcount ?_).1 rfl
  rw [focusSearch, if_neg (by simpa using hfocus), if_neg (by simp [hsameSwitch, hswitch]),
    if_neg (by simpa [hsameProfile] using hprofile)]

/-! ### The supply returns (R159, R184) -/

/-- The recovery that the return of the supply opens, the spindle driven again. -/
def sagEnds (s : State) : State := openRecovery s.supervisor.suspendedPhase (endSagHold (driveSpindleAgain s))

theorem endSagWithRecovery_refocuses (h : s.supervisor.focusLostInSag = true ∨ s.optics.focus ≠ .locked) :
    endSagWithRecovery s = beginRefocus (sagEnds s) := by
  rw [endSagWithRecovery, if_pos h]
  rfl

theorem endSagWithRecovery_retracks (hkept : s.supervisor.focusLostInSag = false) (hfocus : s.optics.focus = .locked) :
    endSagWithRecovery s = beginRetrack (sagEnds s) := by
  rw [endSagWithRecovery, if_neg (by simp [hkept, hfocus])]
  rfl

/-- A coasting spindle that is driven again takes the state of its band, its lock limit armed (R77). -/
theorem driveAgain_coasting {sp : Spindle} {now : Time} (h : sp.state = .coast) :
    (sp.driveAgain now).state ≠ .coast ∧ (sp.driveAgain now).lockLimit = some now := by
  refine ⟨?_, by simp [Spindle.driveAgain, h]⟩
  simp only [Spindle.driveAgain, h, if_true, byBand_eq]
  split <;> simp

theorem openRecovery_tells {kept : Option Phase} {q : Port} (hdrive : s.supervisor.drive ≠ .recovering)
    (hq : admits (s.port q).mask 2 = true) :
    Laws.Noticed (.drive .recovering s.supervisor.drive s.supervisor.cls s.clock) q (openRecovery kept s) := by
  obtain ⟨u, hu⟩ : ∃ u, u = setPhase .recovering ((s.setRecovery { s.recovery with
      refocusCount := 0, retrackCount := 0, refixCount := 0, respinCount := 0
      retryLimit := s.recovery.retryCount, fixReported := false, window := none
      returnAddr := lastGood s, keptPhase := kept }).setPlanner { s.planner with acquireStep := .none }) := ⟨_, rfl⟩
  have hsupervisor : u.supervisor = s.supervisor := by simp [hu]
  have hclock : u.clock = s.clock := by simp [hu]
  have hport : u.port q = s.port q := by simp [hu, setPhase]
  have hnotice := setDrive_noticed (s := u) (d := .recovering) (q := q) (by rw [hsupervisor]; exact hdrive.symm)
    (by rw [hport]; exact hq)
  rw [hsupervisor, hclock] at hnotice
  rw [openRecovery, ← hu]
  exact hnotice

/-- The recovery opened after the report of NORMAL, from the state `s` that the report found in SAG_HOLD. -/
structure SagEnds (s t : State) : Prop where
  supervisor : t.supervisor = { s.supervisor with
    drive := .recovering, supply := .normal, sagTimer := none, focusLostInSag := false, suspendedPhase := none }
  arbiter : t.arbiter = { s.arbiter with
    active := s.arbiter.active.map (fun m => { m with phase := some .recovering }) }
  recovery : t.recovery = { s.recovery with
    refocusCount := 0, retrackCount := 0, refixCount := 0, respinCount := 0
    retryLimit := s.recovery.retryCount, fixReported := false, window := none
    returnAddr := lastGood s, keptPhase := s.supervisor.suspendedPhase }
  step : t.planner.acquireStep = .none
  optics : t.optics = s.optics
  clock : t.clock = s.clock
  spindle : t.spindle = s.spindle.driveAgain s.clock
  drives : Safety.Noticed (.drive .recovering .sagHold s.supervisor.cls s.clock) s t
  supplies : Safety.Noticed (.supply .normal .sagHold s.clock) s t

theorem sagEnds_ends (hdrive : s.supervisor.drive = .sagHold) : SagEnds s (sagEnds (supplyStored .normal s)) := by
  obtain ⟨u, hu⟩ : ∃ u, u = endSagHold (driveSpindleAgain (supplyStored .normal s)) := ⟨_, rfl⟩
  have heq : sagEnds (supplyStored .normal s) = openRecovery s.supervisor.suspendedPhase u := by
    rw [sagEnds, supplyStored_supervisor, hu]
  have hdriveu : u.supervisor.drive = .sagHold := by simp [hu, endSagHold, hdrive]
  have hport (q : Port) : u.port q = (supplyStored .normal s).port q := by simp [hu]
  rw [heq]
  constructor
  case supervisor => simp [hu, endSagHold]
  case arbiter => simp [hu]
  case recovery =>
    rw [openRecovery_recovery, lastGood_congr (show u.monitor = s.monitor by simp [hu])]
    simp [hu]
  case step => simp
  case optics => simp [hu]
  case clock => simp [hu]
  case spindle =>
    rw [openRecovery, setDrive_spindle (by decide) (by simp [hdriveu])]
    simp [hu, driveSpindleAgain]
  case drives =>
    intro q hq
    have hnotice := openRecovery_tells (s := u) (q := q) (kept := s.supervisor.suspendedPhase) (by simp [hdriveu])
      (by rw [hport, supplyStored_mask]; exact hq)
    rwa [hdriveu, show u.supervisor.cls = s.supervisor.cls by simp [hu, endSagHold],
      show u.clock = s.clock by simp [hu]] at hnotice
  case supplies =>
    intro q hq
    have hnotice := supplyStored_noticed .normal s hq
    rw [hdrive] at hnotice
    exact openRecovery_noticed (hnotice.congr (hport q)) (by simp [Notice.code]) (by simp [Notice.code])
      (by simp [Notice.code])

/-- The phases of a recovery that has been opened, from `s`: the last of them begun, with the counts they leave. -/
structure PhasesBegun (ph : RecoveryPhase) (refocus retrack : Nat) (s t : State) : Prop where
  supervisor : t.supervisor = s.supervisor
  arbiter : t.arbiter = s.arbiter
  planner : t.planner = s.planner
  spindle : t.spindle = s.spindle
  recovery : t.recovery = { s.recovery with
    phase := ph, window := t.recovery.window, refocusCount := refocus, retrackCount := retrack }
  port : ∀ q, t.port q = s.port q

theorem PhaseBegins.retracks (h : PhaseBegins .retrack s t) (hrefocus : s.recovery.refocusCount = 0)
    (hretrack : s.recovery.retrackCount = 0) : PhasesBegun .retrack 0 1 s t where
  supervisor := h.supervisor
  arbiter := h.arbiter
  planner := h.planner
  spindle := h.spindle
  recovery := by simpa [hrefocus, hretrack] using h.recovery
  port := h.port

/-- RETRACK after a REFOCUS that found focus LOCKED. -/
theorem PhaseBegins.refocusesRetracks (h : PhaseBegins .retrack (refocusing s) t) (hrefocus : s.recovery.refocusCount = 0)
    (hretrack : s.recovery.retrackCount = 0) : PhasesBegun .retrack 1 1 s t where
  supervisor := h.supervisor.trans (by simp)
  arbiter := h.arbiter.trans (by simp)
  planner := h.planner.trans (by simp)
  spindle := h.spindle.trans (by simp)
  recovery := by simpa [hrefocus, hretrack] using h.recovery
  port := fun q => (h.port q).trans (by simp)

/-- What the recovery that begins at the return of the supply does with loops that have kept focus, or found it (R159, R176). -/
structure LoopsRetrack (s t : State) : Prop where
  closes : s.optics.tracking = .off ∨ s.supervisor.focusLostInSag = true ∧ s.optics.tracking ≠ .jump →
    Requester.recovery ∈ t.optics.closers ∧ t.optics.tracking = .off ∧ t.recovery.window = none
  windows : s.optics.tracking ≠ .off → s.supervisor.focusLostInSag = false →
    t.optics = s.optics ∧ t.recovery.window = some s.clock

/-- RETRACK commands the close where tracking is OFF. -/
theorem beginRetrack_closing (hcount : s.recovery.retrackCount < s.recovery.retryLimit) (hfocus : s.optics.focus = .locked)
    (htrack : s.optics.tracking = .off) : Requester.recovery ∈ (beginRetrack s).optics.closers ∧
      (beginRetrack s).optics.tracking = .off ∧ (beginRetrack s).recovery.window = none := by
  rw [beginRetrack_closes hcount hfocus htrack]
  simp [htrack]

/-- With focus kept the recovery begins at RETRACK. -/
theorem sagReturns_kept {o : State} (h : SagEnds s o) (hretries : 1 ≤ s.recovery.retryCount)
    (hkept : s.supervisor.focusLostInSag = false) (hfocus : s.optics.focus = .locked) :
    PhasesBegun .retrack 0 1 o (beginRetrack o) ∧ LoopsRetrack s (beginRetrack o) := by
  have hcount : o.recovery.retrackCount < o.recovery.retryLimit := by rw [h.recovery]; exact hretries
  have hlocked : o.optics.focus = .locked := by rw [h.optics, hfocus]
  refine ⟨(beginRetrack_phase hcount (.inl hlocked)).retracks (by rw [h.recovery]) (by rw [h.recovery]), ?_, ?_⟩
  case refine_1 =>
    intro hoff
    have htrack : s.optics.tracking = .off := hoff.resolve_right (by simp [hkept])
    exact beginRetrack_closing hcount hlocked (by rw [h.optics, htrack])
  case refine_2 =>
    intro htrack _
    rw [beginRetrack_windows hcount (by rw [h.optics]; exact htrack)]
    simp [h.optics, h.clock]

/-- With focus lost in the hold and found again, REFOCUS leads to RETRACK at once. -/
theorem sagReturns_found {o : State} (h : SagEnds s o) (hretries : 1 ≤ s.recovery.retryCount)
    (hlost : s.supervisor.focusLostInSag = true) (hfocus : s.optics.focus = .locked) :
    PhasesBegun .retrack 1 1 o (beginRefocus o) ∧ LoopsRetrack s (beginRefocus o) := by
  have hrefocus : o.recovery.refocusCount < o.recovery.retryLimit := by rw [h.recovery]; exact hretries
  have hlocked : (refocusing o).optics.focus = .locked := by rw [refocusing_focus, h.optics, hfocus]
  have hcount : (refocusing o).recovery.retrackCount < (refocusing o).recovery.retryLimit := by
    rw [refocusing_recovery, h.recovery]
    exact hretries
  rw [beginRefocus_finds hrefocus (by rw [h.optics, hfocus])]
  refine ⟨(beginRetrack_phase hcount (.inl hlocked)).refocusesRetracks (by rw [h.recovery]) (by rw [h.recovery]), ?_, ?_⟩
  case refine_1 =>
    intro hoff
    have hnotJump : s.optics.tracking ≠ .jump := hoff.elim (fun htrack => by simp [htrack]) And.right
    exact beginRetrack_closing hcount hlocked (refocusing_tracking _ (by rw [h.optics]; exact hnotJump))
  case refine_2 =>
    intro _ hkept
    simp [hlost] at hkept

/-- With focus not LOCKED the recovery begins at REFOCUS, which searches. -/
theorem sagReturns_lost {o : State} (h : SagEnds s o) (hretries : 1 ≤ s.recovery.retryCount)
    (hfocus : s.optics.focus ≠ .locked) (hprofile : s.optics.profile ≠ none) (hswitch : s.optics.switch = none) :
    PhasesBegun .refocus 1 0 o (beginRefocus o) ∧ SearchBegun .recovery s.recovery.retryCount s (beginRefocus o) := by
  have hcount : o.recovery.refocusCount < o.recovery.retryLimit := by rw [h.recovery]; exact hretries
  have hseeks := beginRefocus_seeks hcount (by rw [h.optics]; exact hfocus) (by rw [h.optics, hswitch])
    (by rw [h.optics]; exact hprofile)
  obtain ⟨-, hsearch⟩ := beginSearch_unlocked (r := .recovery) (n := o.recovery.retryLimit) (s := refocusing o)
    (by rw [refocusing_focus, h.optics]; exact hfocus)
  have hbegins := refocusing_phase o
  rw [hseeks]
  refine ⟨⟨?_, ?_, ?_, ?_, ?_, fun q => ?_⟩, ?_⟩
  · simp
  · simp
  · simp
  · simp
  · simp [h.recovery]
  · simp
  · simpa [SearchBegun, h.clock, show o.recovery.retryLimit = s.recovery.retryCount by rw [h.recovery]] using hsearch

/-! ### The command (R157) -/

theorem sagHeld_answer {st : Status} {data : List Byte} (h : SagHeld s t) : SagHeld s (t.answer p tag st data) where
  drive := by simpa using h.drive
  suspended := by simpa using h.suspended
  motion := by simpa using h.motion
  recovery := by simpa using h.recovery
  owner := by simpa using h.owner
  leg := by simpa using h.leg
  loops := by simpa using h.loops
  fix := by
    rw [lastGood_congr (answer_monitor ..), fixFresh_congr (answer_monitor ..)]
    exact h.fix
  sled := by simpa using h.sled
  spindle := by simpa using h.spindle
  notices := by
    refine ⟨?_, noticed_answer h.notices.2⟩
    rw [DriveNoticed, answer_supervisor]
    exact noticed_answer h.notices.1

/-- A sag hold begins at the report of SAG, and nothing follows it. -/
theorem exec_sags (h : Takes 0x31 p s) (hsupply : s.supervisor.supply = .normal)
    (hdrive : s.supervisor.drive = .onTrack ∨ s.supervisor.drive = .moving ∨ s.supervisor.drive = .recovering)
    (hwaiting : s.arbiter.waiting = []) (hident : s.supervisor.ident = none)
    (hcancel : ∀ m ∈ liveMotions s, m.cancelPending = false) :
    ∃ t, exec (.supplyState p tag 1) s = .next t ∧
      (t.port p).reply = some ⟨.accepted, tag, [s.supervisor.clamp.code, 1, 6]⟩ ∧ SagHeld s t := by
  obtain ⟨t, ht⟩ : ∃ t, t = beginSagHold (supplyStored .sag s) := ⟨_, rfl⟩
  have hreport : supplyReport .sag s = t := by
    rw [supplyReport_changes (by simp [hsupply]), supplyActs_sags (by simpa using hdrive), ht]
  have hheld : SagHeld s t := ht ▸ beginSagHold_holds (by rcases hdrive with h | h | h <;> simp [h]) hcancel
  have hsupervisor := beginSagHold_supervisor (s := supplyStored .sag s)
    (by rw [liveMotions_congr (supplyStored_arbiter ..)]; exact hcancel)
  rw [← ht, supplyStored_supervisor] at hsupervisor
  have hsettled : Settled t := ⟨by rw [hheld.motion, hwaiting], by rw [hsupervisor, hident], by simp [hheld.owner.2]⟩
  have hdata : mechanismData t = [s.supervisor.clamp.code, 1, 6] := by
    rw [mechanismData, hsupervisor]
    rfl
  refine ⟨_, exec_supply (x := .sag) h hreport (react_settled hsettled), ?_, sagHeld_answer hheld⟩
  rw [answer_reply, hdata]

/-- The drive recovers from a sag, the phases begun with these counts, from the state `s` of the hold. -/
structure SagReturned (ph : RecoveryPhase) (refocus retrack : Nat) (s t : State) : Prop where
  supervisor : t.supervisor = { s.supervisor with
    drive := .recovering, supply := .normal, sagTimer := none, focusLostInSag := false, suspendedPhase := none }
  arbiter : t.arbiter = { s.arbiter with
    active := s.arbiter.active.map (fun m => { m with phase := some .recovering }) }
  step : t.planner.acquireStep = .none
  recovery : t.recovery = { s.recovery with
    phase := ph, window := t.recovery.window, refocusCount := refocus, retrackCount := retrack, refixCount := 0
    respinCount := 0, retryLimit := s.recovery.retryCount, fixReported := false
    returnAddr := lastGood s, keptPhase := s.supervisor.suspendedPhase }
  spindle : t.spindle = s.spindle.driveAgain s.clock
  notices : DriveNoticed s t ∧ Safety.Noticed (.supply .normal .sagHold s.clock) s t

theorem sagReturned {ph : RecoveryPhase} {refocus retrack : Nat} {o : State} (hdrive : s.supervisor.drive = .sagHold)
    (hends : SagEnds s o) (hbegun : PhasesBegun ph refocus retrack o t) : SagReturned ph refocus retrack s t where
  supervisor := hbegun.supervisor.trans hends.supervisor
  arbiter := hbegun.arbiter.trans hends.arbiter
  step := by rw [hbegun.planner, hends.step]
  recovery := by
    have hrecovery := hbegun.recovery
    rw [hends.recovery] at hrecovery
    exact hrecovery
  spindle := hbegun.spindle.trans hends.spindle
  notices := by
    refine ⟨fun q hq => ?_, fun q hq => Laws.Noticed.congr (hends.supplies q hq) (hbegun.port q)⟩
    rw [hbegun.supervisor, hends.supervisor, hdrive]
    exact Laws.Noticed.congr (hends.drives q hq) (hbegun.port q)

theorem sagReturned_answer {ph : RecoveryPhase} {refocus retrack : Nat} {st : Status} {data : List Byte}
    (h : SagReturned ph refocus retrack s t) : SagReturned ph refocus retrack s (t.answer p tag st data) where
  supervisor := by simpa using h.supervisor
  arbiter := by simpa using h.arbiter
  step := by simpa using h.step
  recovery := by
    rw [answer_recovery]
    exact h.recovery
  spindle := by simpa using h.spindle
  notices := by
    refine ⟨?_, noticed_answer h.notices.2⟩
    rw [DriveNoticed, answer_supervisor]
    exact noticed_answer h.notices.1

/-- The recovery of a return begins at the phase that focus asks for (R159, R184). -/
theorem sagReturns (hdrive : s.supervisor.drive = .sagHold) (hretries : 1 ≤ s.recovery.retryCount)
    (hfocus : s.optics.focus = .locked ∨ (s.optics.focus ≠ .locked ∧ s.optics.profile ≠ none ∧ s.optics.switch = none))
    (ht : t = endSagWithRecovery (supplyStored .normal s)) :
    ∃ ph refocus retrack, SagReturned ph refocus retrack s t ∧
      (s.optics.focus = .locked → ph = .retrack ∧ retrack = 1 ∧
        refocus = (if s.supervisor.focusLostInSag = true then 1 else 0) ∧ LoopsRetrack s t) ∧
      (s.optics.focus ≠ .locked → ph = .refocus ∧ refocus = 1 ∧ retrack = 0 ∧
        SearchBegun .recovery s.recovery.retryCount s t) := by
  have hends : SagEnds s (sagEnds (supplyStored .normal s)) := sagEnds_ends hdrive
  by_cases hlocked : s.optics.focus = .locked
  · by_cases hlost : s.supervisor.focusLostInSag = true
    · rw [endSagWithRecovery_refocuses (.inl (by simpa using hlost))] at ht
      obtain ⟨hbegun, hloops⟩ := sagReturns_found hends hretries hlost hlocked
      rw [← ht] at hbegun hloops
      exact ⟨_, _, _, sagReturned hdrive hends hbegun, fun _ => ⟨rfl, rfl, by simp [hlost], hloops⟩,
        fun hnot => absurd hlocked hnot⟩
    · have hkept : s.supervisor.focusLostInSag = false := by simpa using hlost
      rw [endSagWithRecovery_retracks (by simpa using hkept) (by simpa using hlocked)] at ht
      obtain ⟨hbegun, hloops⟩ := sagReturns_kept hends hretries hkept hlocked
      rw [← ht] at hbegun hloops
      exact ⟨_, _, _, sagReturned hdrive hends hbegun, fun _ => ⟨rfl, rfl, by simp [hkept], hloops⟩,
        fun hnot => absurd hlocked hnot⟩
  · obtain ⟨-, hprofile, hswitch⟩ := hfocus.resolve_left hlocked
    rw [endSagWithRecovery_refocuses (.inr (by simpa using hlocked))] at ht
    obtain ⟨hbegun, hsearch⟩ := sagReturns_lost hends hretries hlocked hprofile hswitch
    rw [← ht] at hbegun hsearch
    exact ⟨_, _, _, sagReturned hdrive hends hbegun, fun hyes => absurd hyes hlocked, fun _ => ⟨rfl, rfl, rfl, hsearch⟩⟩

/-- The recovery begins at the report of NORMAL, and nothing follows it. -/
theorem exec_returns {ph : RecoveryPhase} {refocus retrack : Nat} (h : Takes 0x31 p s)
    (hsupply : s.supervisor.supply = .sag) (hdrive : s.supervisor.drive = .sagHold) (hsettled : Settled s)
    (ht : t = endSagWithRecovery (supplyStored .normal s)) (hreturned : SagReturned ph refocus retrack s t) :
    exec (.supplyState p tag 0) s = .next (t.answer p tag .accepted [s.supervisor.clamp.code, 0, 5]) := by
  have hreport : supplyReport .normal s = t := by
    rw [supplyReport_changes (by simp [hsupply]), supplyActs_returns (by simpa using hdrive), ht]
  have hwaits : Settled t := by
    refine ⟨?_, ?_, by simp [hreturned.step]⟩
    · rw [hreturned.arbiter]
      exact hsettled.1
    · rw [hreturned.supervisor]
      exact hsettled.2.1
  have hdata : mechanismData t = [s.supervisor.clamp.code, 0, 5] := by
    rw [mechanismData, hreturned.supervisor]
    rfl
  rw [← hdata]
  exact exec_supply (x := .normal) h hreport (react_settled hwaits)

/-- Settles O45: a sag is `beginSagHold` and the return of the supply a recovery at the phase its loops ask for, each after
the record and the notice of the report, and nothing follows either. -/
theorem supplyStateSagsAndReturns : Obligations.SupplyStateSagsAndReturns := by
  intro p tag value s h
  refine ⟨fun habove => ?_, ?_, ?_, ?_⟩
  case refine_1 =>
    refine exec_takes (k := .supplyState) rfl rfl h ?_
    change requestSupply value s = _
    simp [requestSupply, supply?_above habove]
  case refine_2 =>
    rintro rfl hsettled
    exact exec_supply h (supplyReport_same rfl) (react_settled hsettled)
  case refine_3 =>
    rintro rfl hsupply hdrive hwaiting hident hcancel
    exact exec_sags h hsupply hdrive hwaiting hident hcancel
  case refine_4 =>
    rintro rfl hsupply hdrive hsettled hretries hcoast hfocus
    obtain ⟨t, ht⟩ : ∃ t, t = endSagWithRecovery (supplyStored .normal s) := ⟨_, rfl⟩
    obtain ⟨ph, refocus, retrack, hreturned, hlocked, hlost⟩ := sagReturns hdrive hretries hfocus ht
    obtain ⟨hdriven, hlimit⟩ := driveAgain_coasting (now := s.clock) hcoast
    have hexec := exec_returns (tag := tag) h hsupply hdrive hsettled ht hreturned
    have hanswered := sagReturned_answer (p := p) (tag := tag) (st := .accepted)
      (data := [s.supervisor.clamp.code, 0, 5]) hreturned
    have hrecovery := hanswered.recovery
    refine ⟨_, hexec, answer_reply .., by rw [hanswered.supervisor], by rw [hanswered.supervisor],
      by rw [hanswered.supervisor], by rw [hanswered.supervisor], by rw [hanswered.supervisor], by rw [hanswered.arbiter],
      by rw [hrecovery], by rw [hrecovery], by rw [hrecovery], by rw [hrecovery], by rw [hrecovery], by rw [hrecovery],
      by rw [hanswered.spindle]; exact hdriven, by rw [hanswered.spindle]; exact hlimit, hanswered.notices.1,
      hanswered.notices.2, fun hfound => ?_, fun hnone => ?_⟩
    · obtain ⟨hph, hretrack, hrefocus, hloops⟩ := hlocked hfound
      refine ⟨by rw [hrecovery, hph], by rw [hrecovery, hretrack], by rw [hrecovery, hrefocus], ?_, ?_⟩
      · simpa using hloops.closes
      · simpa using hloops.windows
    · obtain ⟨hph, hrefocus, hretrack, hsearch⟩ := hlost hnone
      refine ⟨by rw [hrecovery, hph], by rw [hrecovery, hrefocus], by rw [hrecovery, hretrack], ?_⟩
      simpa using hsearch

end Sys2Proof.Proofs
end

section
/-! The notice mask, the holdoff, the recovery settings and the resume point (R116, R185, R199, R201): what each request
stores. -/

namespace Sys2Proof.Proofs

set_option Elab.async false

open Sys2Proof.Machine Sys2Proof.Safety Sys2Proof.Laws

/-! ### The notice mask (R199) -/

/-- The constant of R199 covers the ten notice kinds. -/
theorem noticeKinds_getLsbD (i : Nat) : (0x03FF : BitVec 16).getLsbD i = decide (i < 10) :=
  Nat.testBit_two_pow_sub_one 10 i

theorem storedMask_getLsbD_zero (v : BitVec 16) : (storedMask v).getLsbD 0 = true := by simp [storedMask]

theorem storedMask_getLsbD {i : Nat} (v : BitVec 16) (hi : 1 ≤ i) :
    (storedMask v).getLsbD i = (decide (i < 10) && v.getLsbD i) := by
  have hlow : (1 : BitVec 16).getLsbD i = false := by
    simp [BitVec.getLsbD_one, Nat.one_le_iff_ne_zero.1 hi]
  rw [storedMask, BitVec.getLsbD_or, BitVec.getLsbD_and, noticeKinds_getLsbD, hlow, Bool.or_false, Bool.and_comm]

/-! ### Clamped values (R185) -/

theorem clampRetry_eq (v : Byte) : clampRetry v = max 1 (min 8 v.toNat) := clampTo_eq (by decide)

theorem clampMonitorTime_eq (v : Byte) : clampMonitorTime v = max 20 (min 250 v.toNat) := clampTo_eq (by decide)

/-! ### The resume point (R116) -/

section Resume

variable {s : State} {k : DiscClass}

theorem resumeAt_noDisc (address : Option Addr) (h : s.supervisor.cls = none) :
    resumeAt address s = (s, .noDisc, []) := by
  rw [resumeAt, h]

theorem resumeAt_clears (h : s.supervisor.cls = some k) :
    resumeAt none s = (s.setMonitor { s.monitor with resume := none }, .accepted, [0xFF, 0xFF, 0xFF]) := by
  rw [resumeAt, h]
  rfl

theorem resumeAt_clamps (a : Addr) (h : s.supervisor.cls = some k) :
    resumeAt (some a) s = (s.setMonitor { s.monitor with resume := some (min a.toNat k.maxAddress) }, .accepted,
      bytes3 (min a.toNat k.maxAddress)) := by
  rw [resumeAt, h]
  rfl

end Resume

/-- Settles O17: each request stores its value as its rule shapes it, and answers with what it has stored. -/
theorem settingsAreStored : Obligations.SettingsAreStored := by
  refine ⟨fun p tag value mask s => ⟨fun h => ?mask, fun h => exec_takes rfl rfl h rfl⟩,
    fun p tag retry time s h => ?recovery,
    fun p tag address s h => ⟨fun hnone => exec_takes rfl rfl h (resumeAt_noDisc address hnone),
      fun k hk => ⟨?clears, ?clamps⟩⟩⟩
  case mask =>
    exact ⟨storedMask mask, exec_takes rfl rfl h rfl, storedMask_getLsbD_zero mask, fun i => storedMask_getLsbD mask⟩
  case recovery =>
    rw [← clampRetry_eq, ← clampMonitorTime_eq]
    exact exec_takes rfl rfl h rfl
  case clears =>
    rintro rfl
    exact exec_takes rfl rfl h (resumeAt_clears hk)
  case clamps =>
    rintro a rfl
    exact exec_takes rfl rfl h (resumeAt_clamps a hk)

end Sys2Proof.Proofs
end

section
/-! A report that is no fix (R105 to R108, R159): refused for its flag, IGNORED, or BAD and counted. -/

namespace Sys2Proof.Proofs

set_option Elab.async false

open Sys2Proof.Machine Sys2Proof.Safety Sys2Proof.Laws

variable {s w : State} {p : Port} {tag flag : Byte} {address : Addr} {k : DiscClass} {a : Nat} {good : Bool}
  {d : Disposition}

/-! ### The check flag (R105, R191) -/

theorem goodFlag?_above (h : 1 < flag.toNat) : goodFlag? flag = none := by
  have h0 : flag ≠ 0 := by rintro rfl; exact absurd h (by decide)
  have h1 : flag ≠ 1 := by rintro rfl; exact absurd h (by decide)
  rw [goodFlag?, if_neg h0, if_neg h1]

theorem goodFlag?_upToOne (h : flag.toNat ≤ 1) : ∃ good, goodFlag? flag = some good := by
  by_cases h0 : flag = 0
  · exact ⟨true, if_pos h0⟩
  · have h1 : flag = 1 := by bv_omega
    exact ⟨false, by rw [goodFlag?, if_neg h0, if_pos h1]⟩

theorem exec_report_refused (htakes : Takes 0x20 p s) (hflag : 1 < flag.toNat) :
    exec (.addressReport p tag address flag) s = .next (s.answer p tag .outOfRange []) := by
  refine exec_takes (k := .addressReport) rfl rfl htakes ?_
  change reportAddress address flag s = _
  rw [reportAddress, goodFlag?_above hflag]

/-- A report that nothing follows is answered with its disposition. -/
theorem exec_report_judged (htakes : Takes 0x20 p s) (hflag : goodFlag? flag = some good)
    (hjudge : judge address.toNat good s = (w, d)) (hreact : react w = w) :
    exec (.addressReport p tag address flag) s = .next (w.answer p tag .accepted [d.code]) := by
  refine exec_takes (k := .addressReport) rfl rfl htakes ?_
  change reportAddress address flag s = _
  simp only [reportAddress, hflag, hjudge, hreact]

/-! ### What the address monitor makes of it (R106 to R108, R159) -/

theorem reportClass_held (h : s.supervisor.drive ≠ .identifying) : reportClass s = s.supervisor.cls := if_neg h

theorem judge_noClass (h : reportClass s = none) : judge a good s = (s, .ignored) := by
  rw [judge, h]

theorem judge_bad (hk : reportClass s = some k) (h : good = false ∨ k.maxAddress < a) :
    judge a good s = (countBad s, .bad) := by
  simp only [judge, hk, if_pos h]

theorem judge_setAside (hk : reportClass s = some k) (hmax : a ≤ k.maxAddress) (h : setsReportAside s = true) :
    judge a true s = (s, .ignored) := by
  simp [judge, hk, Nat.not_lt.2 hmax, h]

theorem setsReportAside_iff : setsReportAside s = true ↔
    s.optics.focus ≠ .locked ∨ s.optics.tracking = .off ∨ s.optics.tracking = .jump ∨ s.planner.legStage = .running ∨
      s.planner.legStage = .settling ∨ activePhase s = some .suspended ∨ s.supervisor.drive = .sagHold := by
  simp [setsReportAside, or_assoc]

/-! ### The count of BAD reports (R107) -/

theorem countBad_attached {r : Motion} (h : s.arbiter.attached = some r) :
    countBad s = setAttached (some { r with bad := bump 65535 r.bad }) s := by
  rw [countBad, h]

theorem countBad_active {m : Motion} (hnone : s.arbiter.attached = none) (h : s.arbiter.active = some m) :
    countBad s = setActive (some { m with bad := bump 65535 m.bad }) s := by
  rw [countBad, hnone, h]
  rfl

theorem countBad_noMotion (hnone : s.arbiter.attached = none) (h : s.arbiter.active = none) : countBad s = s := by
  rw [countBad, hnone, h]
  change s.setArbiter { s.arbiter with active := none } = s
  rw [← h]
  rfl

theorem countBad_waiting (s : State) : (countBad s).arbiter.waiting = s.arbiter.waiting := by
  unfold countBad
  dsimp only
  split <;> rfl

theorem react_countBad (h : Settled s) : react (countBad s) = countBad s :=
  react_settled (by simpa [Settled, countBad_waiting] using h)

theorem exec_report_bad (htakes : Takes 0x20 p s) (hsettled : Settled s) (hk : reportClass s = some k)
    (hbad : flag = 1 ∨ flag = 0 ∧ k.maxAddress < address.toNat) :
    exec (.addressReport p tag address flag) s = .next ((countBad s).answer p tag .accepted [3]) := by
  obtain ⟨good, hflag, hjudged⟩ : ∃ good, goodFlag? flag = some good ∧ (good = false ∨ k.maxAddress < address.toNat) := by
    rcases hbad with rfl | ⟨rfl, habove⟩
    · exact ⟨false, rfl, .inl rfl⟩
    · exact ⟨true, rfl, .inr habove⟩
  exact exec_report_judged htakes hflag (judge_bad hk hjudged) (react_countBad hsettled)

/-- Settles O43: the flag is checked first, then the class, then what makes the report BAD or sets it aside. -/
theorem otherReportsAreNoFix : Obligations.OtherReportsAreNoFix := by
  intro p tag flag address s htakes
  refine ⟨exec_report_refused htakes, fun hsettled hdrive => ⟨fun hflag hnone => ?noClass,
    fun k hk => ⟨fun hbad => ?bad, fun hflag hmax hset => ?setAside⟩⟩⟩
  case noClass =>
    obtain ⟨good, hgood⟩ := goodFlag?_upToOne hflag
    exact exec_report_judged htakes hgood (judge_noClass ((reportClass_held hdrive).trans hnone)) (react_settled hsettled)
  case bad =>
    have hexec := exec_report_bad (tag := tag) htakes hsettled ((reportClass_held hdrive).trans hk) hbad
    refine ⟨fun r hr => ?_, fun m hnone hm => ?_, fun hnone hm => ?_⟩
    · rwa [countBad_attached hr] at hexec
    · rwa [countBad_active hnone hm] at hexec
    · rwa [countBad_noMotion hnone hm] at hexec
  case setAside =>
    subst hflag
    exact exec_report_judged htakes rfl (judge_setAside ((reportClass_held hdrive).trans hk) hmax
      (setsReportAside_iff.2 hset)) (react_settled hsettled)

end Sys2Proof.Proofs
end

section
/-! The size of a report queue (R121, R123, R195, R196): one notice of each kind, and one completion report for each ticket. -/

namespace Sys2Proof.Proofs

set_option Elab.async false

open Sys2Proof.Machine Sys2Proof.Safety Sys2Proof.Laws

variable {s : State} {p : Port} {q : List Report}

/-- The kinds of the notices in a queue, in its order. -/
def noticeKinds (q : List Report) : List Nat :=
  q.filterMap (fun r => match r with
    | .completion _ => none
    | .notice n _ => some n.code)

@[simp] theorem noticeKinds_completion (c : Completion) (q : List Report) :
    noticeKinds (.completion c :: q) = noticeKinds q := rfl

@[simp] theorem noticeKinds_notice (n : Notice) (r : Nat) (q : List Report) :
    noticeKinds (.notice n r :: q) = n.code :: noticeKinds q := rfl

/-- An entry of a queue is a completion report or a notice (R195). -/
theorem queue_length (q : List Report) : q.length = (completionsIn q).length + (noticeKinds q).length := by
  induction q with
  | nil => rfl
  | cons r q ih => cases r <;> simp [ih] <;> omega

theorem count_noticeKinds (code : Nat) (q : List Report) : (noticeKinds q).count code = noticeCount code q := by
  induction q with
  | nil => rfl
  | cons r q ih =>
    cases r with
    | completion c => simpa [noticeCount, Report.isNotice] using ih
    | notice n k => simpa [noticeCount, Report.isNotice, List.countP_cons, List.count_cons] using ih

/-- There are ten kinds of notice (R197). -/
theorem noticeCode_lt (n : Notice) : n.code < 10 := by cases n <;> simp [Notice.code]

/-- With one notice of a kind a queue holds ten notices at most (R195). -/
theorem noticeKinds_length (h : OneOfEachKind q) : (noticeKinds q).length ≤ 10 := by
  have hnodup : (noticeKinds q).Nodup := List.nodup_iff_count_le_one.2 fun code => (count_noticeKinds code q).trans_le (h code)
  have hkinds : noticeKinds q ⊆ List.range 10 := fun code hcode => by
    obtain ⟨r, -, hr⟩ := List.mem_filterMap.1 hcode
    cases r with
    | completion c => simp at hr
    | notice n k => exact List.mem_range.2 (Option.some.inj hr ▸ noticeCode_lt n)
  simpa using (hnodup.subperm hkinds).length_le

/-- Each completion report stands for a ticket of its own (R123, R196). -/
theorem completions_length (h : TicketsOk s) (p : Port) :
    (completionsIn (s.port p).queue).length ≤ (s.port p).tickets.length := by
  obtain ⟨-, -, hmotions, hreports⟩ := h p
  have hcount (tag : Byte) : ((completionsIn (s.port p).queue).map Completion.tag).count tag
      ≤ if tag ∈ (s.port p).tickets then 1 else 0 := by
    have hreport : ((completionsIn (s.port p).queue).map Completion.tag).count tag = reportCount tag (s.port p).queue := by
      rw [List.count, List.countP_map]
      rfl
    have hmotion := hmotions tag
    rw [motionCount] at hmotion
    rw [hreport, hreports tag]
    omega
  have hnodup : ((completionsIn (s.port p).queue).map Completion.tag).Nodup := List.nodup_iff_count_le_one.2 fun tag =>
    (hcount tag).trans (by split <;> omega)
  have hticket : (completionsIn (s.port p).queue).map Completion.tag ⊆ (s.port p).tickets := fun tag htag => by
    by_contra hnot
    have hpos := List.count_pos_iff.2 htag
    have hzero := hcount tag
    rw [if_neg hnot] at hzero
    omega
  simpa using (hnodup.subperm hticket).length_le

theorem queueOk_port (h : QueuesOk s) (p : Port) : QueueOk (s.port p) := by
  obtain ⟨hcontrol, hstream, hmechanism⟩ := h
  cases p with
  | control => exact hcontrol
  | stream => exact hstream
  | mechanism => exact hmechanism

/-- Settles O26: every step is safe, and a queue holds one notice of each kind and one completion report for each ticket. -/
theorem ticketsMotionsAndReportsAgree : Obligations.TicketsMotionsAndReportsAgree := by
  intro s hqueues htickets
  refine ⟨fun p => ?size, fun t hstep => ?kept⟩
  case size =>
    have hlimit : (s.port p).tickets.length ≤ 2 := (htickets p).1
    have hcompletions := completions_length htickets p
    have hnotices := noticeKinds_length (queueOk_port hqueues p).1
    have hlength := queue_length (s.port p).queue
    omega
  case kept =>
    have hsafe : Safe s t := step_safe hstep
    exact ⟨hsafe.queues hqueues, hsafe.tickets hqueues htickets⟩

end Sys2Proof.Proofs
end

section
/-! The end of a read (R121, R196, R198, R200): what leaves the queue, the line and the tickets of the port, and the records. -/

namespace Sys2Proof.Proofs

set_option Elab.async false

open Sys2Proof.Machine Sys2Proof.Safety Sys2Proof.Laws

variable {s : State} {p : Port} {a b : PortState} {c : Completion} {n : Notice} {r : Nat} {rest : List Report}

/-! ### The port (R196, R198, R200) -/

/-- The port once the reply that read its head has been sent (R188, R198). -/
def readEnds (a : PortState) : PortState := { a.turnaroundEnds.endRead with decoder := .finished, reply := none }

/-- After a removal the line waits its holdoff with an empty queue, and stays with another (R200). -/
theorem afterRemoval_line (hattention : b.attention = a.attention) (hleft : b.holdoffLeft = a.holdoffLeft)
    (hholdoff : b.holdoff = a.holdoff) : ReadLeavesLine a b.afterRemoval b.queue := by
  refine ⟨(afterRemoval_same b).1, fun hmore => ?_, fun hempty hzero => ?_, fun hempty hnonzero => ?_⟩
  · simp [PortState.afterRemoval, hmore, hattention, hleft]
  · simp [PortState.afterRemoval, hempty, hholdoff, hzero]
  · have hwait : ¬ a.holdoff = 0#8 := hnonzero
    simp [PortState.afterRemoval, hempty, hholdoff, hwait]

/-- The head has left: the line follows the queue that is left (R198, R200). -/
theorem readEnds_leaves (hrenewed : a.headRenewed = false) (hleaves : a.turnaroundEnds.headLeaves = b.afterRemoval)
    (hattention : b.attention = a.attention) (hleft : b.holdoffLeft = a.holdoffLeft) (hholdoff : b.holdoff = a.holdoff) :
    ReadLeavesLine a (readEnds a) b.queue ∧ (readEnds a).tickets = b.tickets := by
  have hnot : a.turnaroundEnds.headRenewed = false := hrenewed
  have hends : readEnds a = { b.afterRemoval with
      reading := false, headRenewed := false, decoder := .finished, reply := none } := by
    simp [readEnds, PortState.endRead, hnot, hleaves]
  rw [hends]
  exact ⟨afterRemoval_line hattention hleft hholdoff, (afterRemoval_same b).2⟩

/-- A completion report leaves the head with its ticket (R196). -/
theorem readEnds_completion (hq : a.queue = .completion c :: rest) (hrenewed : a.headRenewed = false) :
    ReadLeavesLine a (readEnds a) rest ∧ (readEnds a).tickets = a.tickets.erase c.tag := by
  refine readEnds_leaves (b := { a.turnaroundEnds with queue := rest, tickets := a.tickets.erase c.tag }) hrenewed ?_
    rfl rfl rfl
  simp [PortState.headLeaves, PortState.turnaroundEnds, hq]

/-- A notice leaves the head, the tickets as they are (R198). -/
theorem readEnds_notice (hq : a.queue = .notice n r :: rest) (hrenewed : a.headRenewed = false) :
    ReadLeavesLine a (readEnds a) rest ∧ (readEnds a).tickets = a.tickets := by
  refine readEnds_leaves (b := { a.turnaroundEnds with queue := rest }) hrenewed ?_ rfl rfl rfl
  simp [PortState.headLeaves, PortState.turnaroundEnds, hq]

/-- A notice renewed while it was read stays at the head, with repeat count 0 (R198). -/
theorem readEnds_renewed (hq : a.queue = .notice n r :: rest) (hrenewed : a.headRenewed = true) :
    ReadLeavesLine a (readEnds a) (.notice n 0 :: rest) ∧ (readEnds a).tickets = a.tickets := by
  have hends : readEnds a = { a with
      queue := .notice n 0 :: rest, reading := false, headRenewed := false, decoder := .finished, reply := none } := by
    simp [readEnds, PortState.endRead, PortState.turnaroundEnds, PortState.headStays, hq, hrenewed]
  rw [hends]
  exact ⟨⟨rfl, fun _ => ⟨rfl, rfl⟩, by simp, by simp⟩, rfl⟩

/-! ### The part (R121, R196) -/

@[simp] theorem discardDone_port (p q : Port) (tag : Byte) (s : State) : (discardDone p tag s).port q = s.port q := by
  simp [discardDone]

theorem softResetDue_unarmed (h : (s.port p).resetArmed = false) : softResetDue p s = s := by simp [softResetDue, h]

section Reads

variable (hdecoder : (s.port p).decoder = .turnaround ∨ (s.port p).decoder = .replying)
  (harmed : (s.port p).resetArmed = false) (hreading : (s.port p).reading = true)

include hdecoder harmed hreading

/-- The end of a reply that read the head: the port, and the record of a completion report. -/
theorem exec_replyComplete_reads : exec (.replyComplete p) s = .next
    ((s.port p).readCompletion.elim (s.setPort p (readEnds (s.port p)))
      fun tag => discardDone p tag (s.setPort p (readEnds (s.port p)))) := by
  obtain ⟨x, hx⟩ : ∃ x, x = (s.port p).turnaroundEnds := ⟨_, rfl⟩
  have hends : x.decoder = .replying := by
    rcases hdecoder with h | h <;> simp [hx, PortState.turnaroundEnds, h]
  have hreadingx : x.reading = true := by rw [hx]; exact hreading
  have harmedx : x.endRead.resetArmed = false := by rw [endRead_resetArmed, hx]; exact harmed
  have hcompletion : x.readCompletion = (s.port p).readCompletion := by rw [hx]; rfl
  change execReplyComplete p s = _
  simp only [execReplyComplete, ← hx, State.setPort_port, if_true, hends, endReport, hreadingx, hcompletion, readEnds]
  cases (s.port p).readCompletion with
  | none =>
    simp only [State.setPort_port, if_true]
    rw [softResetDue_unarmed (by simpa using harmedx)]
    cases p <;> rfl
  | some tag =>
    simp only [discardDone_port, State.setPort_port, if_true]
    rw [softResetDue_unarmed (by simpa using harmedx)]
    cases p <;> rfl

theorem exec_readsCompletion (hq : (s.port p).queue = .completion c :: rest) :
    exec (.replyComplete p) s = .next (discardDone p c.tag (s.setPort p (readEnds (s.port p)))) := by
  have hcompletion : (s.port p).readCompletion = some c.tag := by simp [PortState.readCompletion, hreading, hq]
  rw [exec_replyComplete_reads hdecoder harmed hreading, hcompletion]
  rfl

theorem exec_readsNotice (hq : (s.port p).queue = .notice n r :: rest) :
    exec (.replyComplete p) s = .next (s.setPort p (readEnds (s.port p))) := by
  have hcompletion : (s.port p).readCompletion = none := by simp [PortState.readCompletion, hreading, hq]
  rw [exec_replyComplete_reads hdecoder harmed hreading, hcompletion]
  rfl

end Reads

/-- The record of the port's motion of that tag is discarded, and no other (R121). -/
theorem mem_discardDone {tag : Byte} {m : Motion} : m ∈ (discardDone p tag s).arbiter.done ↔
    m ∈ s.arbiter.done ∧ ¬ (m.port = p ∧ m.tag = tag) := by simp [discardDone, imp_iff_not_or]

/-- Settles O9: the end of the reply by the head that it read. -/
theorem reportsLeaveAsTheyAreRead : Obligations.ReportsLeaveAsTheyAreRead := by
  intro p rest s hdecoder harmed hreading
  refine ⟨fun c hrenewed hq => ?completion, fun n r hq => ?notice⟩
  case completion =>
    obtain ⟨hline, htickets⟩ := readEnds_completion hq hrenewed
    refine ⟨_, exec_readsCompletion hdecoder harmed hreading hq, by simp [readEnds], by simpa using hline,
      by simpa using htickets, fun m => ?_, fun q hne => by simp [hne], ?_⟩
    · rw [mem_discardDone, State.setPort_arbiter]
    · cases p <;> rfl
  case notice =>
    refine ⟨_, exec_readsNotice hdecoder harmed hreading hq, by simp [readEnds], fun hrenewed => ?_, fun hrenewed => ?_, ?_,
      by simp⟩
    · simpa using (readEnds_notice hq hrenewed).1
    · simpa using (readEnds_renewed hq hrenewed).1
    · cases hrenewed : (s.port p).headRenewed with
      | false => simpa using (readEnds_notice hq hrenewed).2
      | true => simpa using (readEnds_renewed hq hrenewed).2

end Sys2Proof.Proofs
end

section
/-! READ REPORT (R190, R196 to R198): the description of the head of the queue. -/

namespace Sys2Proof.Proofs

set_option Elab.async false

open Sys2Proof.Machine Sys2Proof.Safety Sys2Proof.Laws

variable {s : State} {p : Port} {r : Report} {rest : List Report}

theorem readHead_empty (hq : (s.port p).queue = []) : readHead p s = (s, .empty, []) := by
  rw [readHead, hq]

/-- The head is described with what will remain after it, and is being read from here on (R198). -/
theorem readHead_describes (hq : (s.port p).queue = r :: rest) : readHead p s
    = (s.setPort p { s.port p with reading := true, headRenewed := false }, .accepted, r.data rest.length) := by
  rw [readHead, hq]

/-- Settles O15: the reply by the head of the queue, and the contents and numbers as Machine/Operands.lean writes them. -/
theorem readReportDescribesTheHead : Obligations.ReadReportDescribesTheHead := by
  refine ⟨fun p tag s htakes => ⟨fun hq => ?empty, fun c rest hq => ?completion, fun n r rest hq => ?notice⟩,
    fun _ => ⟨rfl, rfl⟩, fun _ _ _ => ⟨rfl, rfl⟩, fun _ _ _ _ => ⟨rfl, rfl⟩, fun _ _ _ _ => ⟨rfl, rfl⟩,
    fun _ _ _ _ _ _ => ⟨rfl, rfl⟩, fun _ _ _ => ⟨rfl, rfl⟩, fun _ _ _ _ => ⟨rfl, rfl⟩, fun _ _ _ _ _ => ⟨rfl, rfl⟩,
    fun _ _ _ => ⟨rfl, rfl⟩, fun _ _ _ _ => ⟨rfl, rfl⟩, rfl, rfl, rfl, rfl, rfl, rfl, rfl, rfl⟩
  case empty => exact exec_takes (k := .readReport) rfl rfl htakes (readHead_empty hq)
  case completion => exact exec_takes (k := .readReport) rfl rfl htakes (readHead_describes hq)
  case notice => exact exec_takes (k := .readReport) rfl rfl htakes (readHead_describes hq)

end Sys2Proof.Proofs
end

section
/-! The answer to a motion request (R119, R123 to R125, R192): its refusal, or its ticket, its record and its status. -/

namespace Sys2Proof.Proofs

set_option Elab.async false

open Sys2Proof.Machine Sys2Proof.Safety Sys2Proof.Laws

variable {s t : State} {p : Port} {tag : Byte} {kind : MotionKind} {m : Motion} {st : Status}

/-! ### Refusals (R124) -/

theorem requestMotion_refuses {failure : Option Status} (h : failure = some st) :
    requestMotion m failure s = (s, st, []) := by
  rw [h]
  rfl

/-- The checks of a FOLLOW are those that motionRefusal states, with the end address that it stores (R119). -/
theorem followChecks_eq {start : Addr} {e : Option Addr} :
    moveChecks p tag .follow start (fun k => start.toNat ≤ storedEnd k e) s
      = motionRefusal .follow p tag (some start.toNat) (endStored e s) s := by
  refine moveChecks_eq (by decide) fun k hk => ?_
  rw [← followEnd_eq]
  simp [followEnd, hk]

/-- Settles O30: each request by its checks, which are those of motionRefusal. -/
theorem motionRequestsAreRefusedInOrder : Obligations.MotionRequestsAreRefusedInOrder := by
  intro p tag speed target e st s
  refine ⟨fun htakes hrefused => ?seek, fun htakes hrefused => ?follow, fun htakes hrefused => ?stop,
    fun htakes hrefused => ?rejoin, fun htakes hrefused => ?release⟩
  case seek =>
    have hchecks : moveChecks p tag .seek target (fun _ => true) s = some st :=
      (moveChecks_eq (by decide) (by simp)).trans hrefused
    exact exec_takes (k := .seek) rfl rfl htakes (requestMotion_refuses hchecks)
  case follow =>
    exact exec_takes (k := .follow) rfl rfl htakes (requestMotion_refuses (followChecks_eq.trans hrefused))
  case stop => exact exec_takes (k := .stop) rfl rfl htakes (requestMotion_refuses (plainChecks_eq.trans hrefused))
  case rejoin =>
    have hchecks : moveChecks p tag .rejoin target (fun _ => true) s = some st :=
      (moveChecks_eq (by decide) (by simp)).trans hrefused
    exact exec_takes (k := .rejoin) rfl rfl htakes (requestMotion_refuses hchecks)
  case release => exact exec_takes (k := .release) rfl rfl htakes (requestMotion_refuses (plainChecks_eq.trans hrefused))

/-! ### Acceptance (R120, R123, R125) -/

/-- The new motion is one record more, under its own port and tag, and no other (R120). -/
theorem motionCount_withWaiting (m : Motion) (s : State) (q : Port) (g : Byte) :
    motionCount q g (withWaiting m (takeTicket m s)) = motionCount q g s + if m.named q g then 1 else 0 := by
  simp only [motionCount, doneCount, liveMotions, withWaiting, State.setArbiter_arbiter, takeTicket_arbiter,
    List.countP_append, List.countP_cons]
  omega

/-- The state that has the new motion in its list has its ticket besides. -/
theorem settingsSame_withWaiting (m : Motion) (s : State) : SettingsSame s (withWaiting m (takeTicket m s)) where
  clock := takeTicket_clock m s
  entries := by simp [withWaiting]
  defaultCap := by simp [withWaiting]
  retryCount := by simp [withWaiting]
  amTime := by simp [withWaiting]
  clamp := by simp [withWaiting]
  supply := by simp [withWaiting]
  mask q := by rw [withWaiting_port, takeTicket_mask]
  holdoff q := by
    rw [withWaiting_port, takeTicket_port]
    split <;> simp [*]

theorem settingsSame_trans {u : State} (h : SettingsSame s t) (k : SettingsSame t u) : SettingsSame s u where
  clock := k.clock.trans h.clock
  entries := k.entries.trans h.entries
  defaultCap := k.defaultCap.trans h.defaultCap
  retryCount := k.retryCount.trans h.retryCount
  amTime := k.amTime.trans h.amTime
  clamp := k.clamp.trans h.clamp
  supply := k.supply.trans h.supply
  mask q := (k.mask q).trans (h.mask q)
  holdoff q := ⟨(k.holdoff q).1.trans (h.holdoff q).1, (k.holdoff q).2.trans (h.holdoff q).2⟩

/-- The status that the reply tells is that of the live motion of the tag, or DONE when none is live (R125). -/
theorem placedStatus_tells (p : Port) (tag : Byte) (t : State) :
    (∃ m ∈ liveMotions t, m.port = p ∧ m.tag = tag ∧ m.status = placedStatus p tag t) ∨
      (∀ m ∈ liveMotions t, ¬ (m.port = p ∧ m.tag = tag)) ∧ placedStatus p tag t = .done := by
  cases hfind : (liveMotions t).find? (Motion.named p tag) with
  | some m =>
    have hnamed : m.port = p ∧ m.tag = tag := by simpa [Motion.named] using List.find?_some hfind
    exact .inl ⟨m, List.mem_of_find?_eq_some hfind, hnamed.1, hnamed.2, by rw [placedStatus, hfind]⟩
  | none =>
    refine .inr ⟨fun m hm hnamed => ?_, by rw [placedStatus, hfind]⟩
    exact List.find?_eq_none.1 hfind m hm (by simp [Motion.named, hnamed])

/-- An accepted motion has its ticket and its record, and the reply tells its status, whatever place it has found. -/
theorem settledWith_taken (m : Motion) (s : State) (speed : Byte)
    (hspeed : (m.speed.map Multiple.code).getD 0xFF = speed) : MotionTaken m.port m.tag speed m.endAddr s
      ((settledWith m s).answer m.port m.tag .accepted (placedReply m (settledWith m s))) := by
  have hkeeps : Keeps [] (withWaiting m (takeTicket m s)) (settledWith m s) := (accept_keeps m s).react
  have htickets (q : Port) : ((settledWith m s).port q).tickets = ((takeTicket m s).port q).tickets := by
    rw [(hkeeps.port q).tickets, withWaiting_port]
  have hcount (q : Port) (g : Byte) :
      motionCount q g (settledWith m s) = motionCount q g s + if m.named q g then 1 else 0 := by
    rw [← motionCount_withWaiting]
    exact hkeeps.motions q g
  have hanswer (q : Port) (g : Byte) (d : List Byte) :
      motionCount q g ((settledWith m s).answer m.port m.tag .accepted d) = motionCount q g (settledWith m s) := by
    simp only [motionCount, doneCount, liveMotions_answer, answer_arbiter]
  refine ⟨?tickets, fun q hq => ?others, ?arrivals, ?record, fun q g hother => ?records,
    settingsSame_answer (settingsSame_trans (settingsSame_withWaiting m s) (settingsSame_of_keeps hkeeps)),
    placedStatus m.port m.tag (settledWith m s), ?reply, ?status⟩
  case tickets =>
    have hticket := htickets m.port
    rw [takeTicket_port, if_pos rfl] at hticket
    simpa using hticket
  case others =>
    have hticket := htickets q
    rw [takeTicket_port, if_neg hq] at hticket
    simpa [hq] using hticket
  case arrivals => rw [answer_arbiter, hkeeps.arrivals]; simp [withWaiting]
  case record => rw [hanswer, hcount, if_pos (by simp [Motion.named])]
  case records =>
    have hnot : ¬ m.named q g = true := fun h => by
      obtain ⟨rfl, rfl⟩ : m.port = q ∧ m.tag = g := by simpa [Motion.named] using h
      exact hother ⟨rfl, rfl⟩
    rw [hanswer, hcount, if_neg hnot, Nat.add_zero]
  case reply => rw [answer_reply, placedReply, hspeed]
  case status =>
    rw [liveMotions_answer]
    exact placedStatus_tells m.port m.tag (settledWith m s)

/-- Settles O31: each request that passes brings its motion, which `settledWith_taken` follows to its place. -/
theorem motionRequestsTakeATicket : Obligations.MotionRequestsTakeATicket := by
  intro p tag speed target e s
  refine ⟨fun htakes hpass => ?seek, fun htakes hpass => ?follow, fun htakes hpass => ?stop, fun htakes hpass => ?rejoin,
    fun htakes hpass => ?release⟩
  case seek => exact ⟨_, exec_seek htakes hpass, settledWith_taken (newSeek p tag speed target s) s _ rfl⟩
  case follow => exact ⟨_, exec_follow htakes hpass, settledWith_taken (newFollow p tag speed target e s) s _ rfl⟩
  case stop => exact ⟨_, exec_stop htakes hpass, settledWith_taken (newStop p tag s) s _ rfl⟩
  case rejoin => exact ⟨_, exec_rejoin htakes hpass, settledWith_taken (newRejoin p tag target s) s _ rfl⟩
  case release => exact ⟨_, exec_release htakes hpass, settledWith_taken (newRelease p tag s) s _ rfl⟩

end Sys2Proof.Proofs
end

section
/-! A FOLLOW taken while the drive holds within reach of its start (R131, R134, R135): it plays at once. -/

namespace Sys2Proof.Proofs

set_option Elab.async false

open Sys2Proof.Machine Sys2Proof.Safety Sys2Proof.Laws

variable {s t : State} {m : Motion} {e : FollowEntry}

/-- The entry to FOLLOWING leaves the held speed (R70, R134). -/
theorem followTest_held (a : Nat) (s : State) : (followTest a s).spindle.held = s.spindle.held := by
  unfold followTest
  split
  · dsimp only
    split
    · split
      · simp [holdAt]
      · split <;> simp [holdAt]
    · rfl
  · rfl

theorem enterFollowing_held (e : FollowEntry) (s : State) : (enterFollowing e s).spindle.held = s.spindle.held := by
  unfold enterFollowing
  split
  · rw [followTest_held]
    simp [markRejoin, setPhase]
  · rfl

/-- A motion that starts leaves the zone table as it decodes, and the masks (R25, R199). -/
theorem started_decode (m : Motion) (s : State) (a : Nat) : (started m s).zones.decode a = s.zones.decode a := by
  have hkeeps := (Keeps.refl (takePlanner m .acquire (endRecovery (setWaiting [] (setWaiting [m] (takeTicket m s)))))).nowMoving
  refine decode_congr (hkeeps.entries.trans ?_) (hkeeps.defaultCap.trans ?_) a <;> simp

theorem started_mask (m : Motion) (s : State) (q : Port) : ((started m s).port q).mask = (s.port q).mask := by
  have hkeeps := (Keeps.refl (takePlanner m .acquire (endRecovery (setWaiting [] (setWaiting [m] (takeTicket m s)))))).nowMoving
  rw [started, (hkeeps.port q).mask, takePlanner_mask]
  simp [takeTicket_mask]

/-- A FOLLOW taken while the drive holds plays from a fresh fix in the reach window of its start (R131, R134, R135). -/
theorem settledWith_plays {g z pg pa : Nat} {k : DiscClass} {f : Fix} (hkind : m.kind = .follow) (htarget : m.target = some g)
    (hend : m.endAddr = some z) (hentry : m.rejoinEnded = false) (hhold : Holding s) (hloops : LoopsOk s.optics)
    (hfix : s.monitor.fix = some f) (hfreshf : f.fresh = true) (hreach : InReach g f.address)
    (hk : s.supervisor.cls = some k) (hpg : s.map.predict g = some pg) (hpa : s.map.predict f.address = some pa)
    (hbefore : f.address < z) (hopen : (s.zones.decode f.address).access = .opened) :
    PlaysFrom (m.activeIn .acquire) .start f.address z s (settledWith m s) ∧
      (settledWith m s).spindle.held = m.speed.getD s.spindle.held := by
  obtain ⟨hfresh, hlast⟩ := fresh_fix hfix hfreshf
  have haside : s.supervisor.drive.setsAside = false := by simp [hhold.1.1, DriveState.setsAside]
  have hfree : FreeOrHolding s := hhold.2.2.2.imp (fun h => ⟨h, hloops.absent (.inr h)⟩) id
  rw [settledWith_plans (.inr (.inl hkind)) hhold hfresh]
  obtain ⟨v, hv⟩ : ∃ v, v = started m s := ⟨_, rfl⟩
  rw [← hv]
  have hcan : CanPlan k g f.address pg pa v := hv ▸ started_canPlan htarget hlast hk hpg hpa haside
  have howner : v.planner.owner = .active := by simp [hv]
  have hreturning : v.planner.returning = false := by simp [hv]
  have hactive : v.arbiter.active = some (m.activeIn .acquire) := by simp [hv]
  have hsupervisor : v.supervisor = { s.supervisor with drive := .moving } := by rw [hv, started_supervisor m s haside]
  constructor
  · obtain ⟨hplays, -⟩ := plan_plays (z := z) hcan howner hactive hreach hkind hend
      (by rw [hv, started_decode, hopen]) hbefore (by simpa [hv, FreeOrHolding] using hfree) (by rw [hsupervisor]; rfl)
    rw [show (m.activeIn .acquire).rejoinEnded = false from hentry, hreturning] at hplays
    exact playsFrom_congr hplays fun q => by rw [hv, started_mask]
  · have heq : plan v = enterFollowing .start (aimed pg pa v) := by
      simp [plan_reached hcan hreach, targetReached, howner, hactive, hkind, Motion.activeIn, hreturning]
    obtain ⟨-, -, haimed, -⟩ := aimed_spindle (by rw [hsupervisor]; exact hk : v.supervisor.cls = some k) pg pa
    rw [heq, enterFollowing_held, haimed, hv, started_held]

/-- Settles O35: the FOLLOW starts, and its first plan, within reach, lets it play. -/
theorem followWithinReachPlays : Obligations.FollowWithinReachPlays := by
  intro p tag speed start e f z s htakes hpass hloops hhold hfix hfreshf hlow hhigh hthere hhere hend hbefore hopen
  obtain ⟨k, hk⟩ := class_of_accepted (by decide) hpass
  obtain ⟨pg, hpg⟩ := Option.isSome_iff_exists.1 hthere
  obtain ⟨pa, hpa⟩ := Option.isSome_iff_exists.1 hhere
  obtain ⟨m, hm⟩ : ∃ m, m = newFollow p tag speed start e s := ⟨_, rfl⟩
  have hport : m.port = p := by rw [hm]; rfl
  have htag : m.tag = tag := by rw [hm]; rfl
  have hkind : m.kind = .follow := by rw [hm]; rfl
  have hspeed : m.speed = some (clampSpeed speed) := by rw [hm]; rfl
  have hlegs : m.legs = 0 := by rw [hm]; rfl
  have hmend : m.endAddr = some z := by rw [hm]; exact hend
  obtain ⟨hplays, hheld⟩ := settledWith_plays hkind (by rw [hm]; rfl) hmend (by rw [hm]; rfl) hhold hloops hfix hfreshf
    ⟨hlow, hhigh⟩ hk hpg hpa hbefore hopen
  have hexec := exec_follow (speed := speed) htakes hpass
  rw [← hm] at hexec
  obtain ⟨t, ht⟩ : ∃ t, t = settledWith m s := ⟨_, rfl⟩
  rw [← ht] at hplays hheld hexec
  have hreply : placedReply m t = [1, (clampSpeed speed).code] ++ addrField (some z) := by
    rw [placedReply, placedStatus_active hplays.slot (by simp [Motion.named, Motion.activeIn]), hmend, hspeed]
    rfl
  obtain ⟨htracking, hnothing, hcopy⟩ := hplays.loops
  refine ⟨_, playingAt f.address (m.activeIn .acquire), hexec, by rw [answer_arbiter, hplays.slot]; rfl, hport, htag, hkind,
    rfl, rfl, hmend, rfl, hlegs, by rw [answer_reply, hreply], by rw [answer_planner, hplays.owner],
    by rw [answer_supervisor, hplays.drive], by rw [answer_optics, htracking], by rw [answer_optics, hnothing],
    by rw [answer_recovery, hcopy], by rw [answer_spindle, hheld, hspeed]; rfl, fun q hq => ?_⟩
  rw [answer_queue, ← htag]
  exact hplays.notice q hq

end Sys2Proof.Proofs
end

section
/-! CANCEL (R139, R140, R142): the motion that it does not find or does not end, a pending one, and one that plays or
approaches. -/

namespace Sys2Proof.Proofs

set_option Elab.async false

open Sys2Proof.Machine Sys2Proof.Safety Sys2Proof.Laws

variable {s t : State} {p : Port} {tag which : Byte} {m : Motion} {a : Nat} {st : Status}

/-! ### Refusals (R139) -/

theorem exec_cancel_refused (htakes : Takes 0x13 p s) (hcancel : cancel p which s = (s, st)) (hst : st ≠ .accepted) :
    exec (.cancel p tag which) s = .next (s.answer p tag st []) := by
  refine exec_takes (k := .cancel) rfl rfl htakes ?_
  change requestCancel p which s = _
  simp [requestCancel, hcancel, hst]

theorem cancel_unknown (h : ∀ m ∈ liveMotions s, ¬ (m.port = p ∧ m.tag = which)) :
    cancel p which s = (s, .unknownTag) := by
  have hfind : (liveMotions s).find? (Motion.named p which) = none :=
    List.find?_eq_none.2 fun m hm hnamed => h m hm (by simpa [Motion.named] using hnamed)
  simp [cancel, hfind]

theorem cancel_ofStop (hfind : (liveMotions s).find? (Motion.named p which) = some m) (hkind : m.kind = .stop) :
    cancel p which s = (s, .notCancellable) := by
  simp [cancel, hfind, hkind]

/-! ### A pending motion (R139) -/

/-- The only motion there is, pending, leaves the list. -/
theorem cancel_ofWaiting (hactive : s.arbiter.active = none) (hattached : s.arbiter.attached = none)
    (hwaiting : s.arbiter.waiting = [m]) (hnamed : m.named p which = true) (hkind : m.kind ≠ .stop) :
    cancel p which s = (endMotion m .cancelled (lastGood s) (setWaiting [] s), .accepted) := by
  have hlive : liveMotions s = [m] := by simp [liveMotions, hactive, hattached, hwaiting]
  simp [cancel, hlive, hnamed, hkind, hactive, hattached, cancelWaiting, hwaiting]

/-! ### A motion that plays or approaches (R140, R142) -/

/-- The only motion there is, active with no leg in flight, ends, and the drive holds where it stands. -/
theorem cancelActive_holds (hattached : s.arbiter.attached = none)
    (hphase : m.phase = some .following ∨ m.phase = some .approach) (hlast : lastGood s = some a) :
    cancelActive m s = holdAt a (endMotion m .cancelled (some a) (setActive none (withdraw s))) := by
  have hleave (u : State) : leaveMechanism m.phase u = holdHere u := by rcases hphase with h | h <;> rw [h] <;> rfl
  have hwaits : waits m.phase s = false := by rcases hphase with h | h <;> rw [h] <;> exact waits_none rfl
  have hcancelled : lastGood (cancelled m s) = some a := by
    rw [cancelled, lastGood_congr (endMotion_monitor ..), lastGood_congr (setActive_monitor ..), withdraw_last, hlast]
  rw [cancelActive_ends hattached hwaits, hleave, holdHere, hcancelled, cancelled, hlast]

theorem cancelActive_endsHolding (hattached : s.arbiter.attached = none)
    (hphase : m.phase = some .following ∨ m.phase = some .approach) (hlast : lastGood s = some a)
    (htrack : OnATrack s) (haside : s.supervisor.drive.setsAside = false) :
    EndedHolding m .cancelled a a s (cancelActive m s) := by
  rw [cancelActive_holds hattached hphase hlast]
  refine endedHolding_congr (endedHolding (by simpa [OnATrack] using htrack) (by simpa using haside) (by simp) (by simp))
    fun q => by simp

/-- With nothing pending no motion is left, and nothing follows. -/
theorem cancelActive_leavesNone (hattached : s.arbiter.attached = none)
    (hphase : m.phase = some .following ∨ m.phase = some .approach) (hlast : lastGood s = some a) (hsettled : Settled s) :
    NoMotion (cancelActive m s) ∧ react (cancelActive m s) = cancelActive m s := by
  obtain ⟨hwaiting, hident, -⟩ := hsettled
  rw [cancelActive_holds hattached hphase hlast]
  exact ⟨noMotion_iff.2 (by simp [holdAt, hattached, hwaiting]),
    react_cancelled (by simp [holdAt, hwaiting]) (by simp [holdAt, hident]) (by simp [holdAt])⟩

/-- Settles O39: CANCEL by what it finds under the tag. -/
theorem cancelEndsTheNamedMotion : Obligations.CancelEndsTheNamedMotion := by
  intro p tag which s htakes
  refine ⟨fun hnone => exec_cancel_refused htakes (cancel_unknown hnone) (by decide),
    fun m hfind hkind => exec_cancel_refused htakes (cancel_ofStop hfind hkind) (by decide),
    fun m hactive hattached hwaiting hport htag hkind hident hstep => ?pending,
    fun m a hm hattached hport htag hkind hphase _ hsettled hdrive hlast htrack => ?working⟩
  case pending =>
    obtain ⟨w, hw⟩ : ∃ w, w = endMotion m .cancelled (lastGood s) (setWaiting [] s) := ⟨_, rfl⟩
    have hcancel := cancel_ofWaiting hactive hattached hwaiting (by simp [Motion.named, hport, htag] : m.named p which) hkind
    have hquiet : react w = w := react_settled ⟨by simp [hw], by simpa [hw] using hident, by simpa [hw] using hstep⟩
    have hexec := exec_cancel (tag := tag) htakes (hw ▸ hcancel)
    rw [hquiet] at hexec
    refine ⟨_, hexec, noMotion_iff.2 (by simp [hw, hactive, hattached]), answer_reply .., ?_, by simp [hw], by simp [hw]⟩
    rw [answer_queue, hw, ← hport]
    exact (reportsOf_endMotion_own (setWaiting [] s) m .cancelled (lastGood s)).trans (by simp [reportsOf])
  case working =>
    have hfind : (liveMotions s).find? (Motion.named p which) = some m := by
      simp [liveMotions, hm, Motion.named, hport, htag]
    have haside : s.supervisor.drive.setsAside = false := by rcases hdrive with h | h <;> simp [h, DriveState.setsAside]
    have hended := cancelActive_endsHolding hattached hphase hlast (.inl htrack) haside
    obtain ⟨hleft, hquiet⟩ := cancelActive_leavesNone hattached hphase hlast hsettled
    have hexec := exec_cancel (tag := tag) htakes (cancel_ofActive hfind hkind hm)
    rw [hquiet] at hexec
    obtain ⟨-, hreports, howner, hdrive, hhold⟩ := endedHolding_answer (tag := tag) (p := p) (st := .accepted) (data := []) hended
    refine ⟨_, hexec, (liveMotions_congr (answer_arbiter ..)).trans hleft, answer_reply .., ?_, howner, hdrive, hhold.1,
      hhold.2.1⟩
    rw [hreports, if_pos hport.symm]
    rfl

end Sys2Proof.Proofs
end

section
/-! CLEAR FAULT (R64, R150 to R152, R161, R162, R167): the records, and where a FAULTED drive moves on to. -/

namespace Sys2Proof.Proofs

set_option Elab.async false

open Sys2Proof.Machine Sys2Proof.Safety Sys2Proof.Laws

variable {s t u : State} {p : Port} {tag : Byte} {i : Ident} {origin : IdentOrigin}

/-! ### The unreached record stands through a start (R64, R151) -/

@[simp] theorem identPosition_planner (s : State) : (identPosition s).planner = s.planner := by
  unfold identPosition
  dsimp only
  split <;> simp [identSpin, identAt, changeIdent]

theorem homingCommand_unreached (s : State) : (homingCommand s).1.planner.unreached = s.planner.unreached := by
  unfold homingCommand
  dsimp only
  split <;> split <;> rfl

theorem identHome_unreached (s : State) : (identHome s).planner.unreached = s.planner.unreached := by
  have hhomes := homingCommand_unreached (identAt .homing none s)
  unfold identHome
  dsimp only
  split
  · rw [identPosition_planner, hhomes]
    rfl
  · rw [hhomes]
    rfl

theorem startIdent_unreached (origin : IdentOrigin) (s : State) :
    (startIdent origin s).planner.unreached = s.planner.unreached := by
  rw [startIdent_eq, identBegin]
  split_ifs
  · rw [identStarted_planner]
  · rw [identHome_unreached, identStarted_planner]
  · rw [identPosition_planner, identStarted_planner]

/-! ### A brake that is over or goes on (R160, R162) -/

/-- The slots that a STOPPED drive leaves (R143). -/
theorem enterStopped_leaves (s : State) : (enterStopped s).planner = s.planner ∧
    (enterStopped s).arbiter.waiting = s.arbiter.waiting ∧
    (enterStopped s).arbiter.releaseLatch = s.arbiter.releaseLatch := by
  unfold enterStopped
  dsimp only
  split
  · split <;> simp [endMotion_arbiter]
  · simp

/-- STOPPED with the spindle stopped, PARKING until it stops: the drive state changes, and at most a STOP ends (R143, R162). -/
theorem parkOrStop_leaves (hdrive : s.supervisor.drive ≠ .moving) :
    (parkOrStop s).supervisor = { s.supervisor with
      drive := if s.spindle.state = .stopped then .stopped else .parking } ∧
    (parkOrStop s).planner = s.planner ∧ (parkOrStop s).arbiter.waiting = s.arbiter.waiting ∧
    (parkOrStop s).arbiter.releaseLatch = s.arbiter.releaseLatch := by
  by_cases hstopped : s.spindle.state = .stopped
  · have heq : parkOrStop s = enterStopped s := if_pos (by simp [spindleStopped, hstopped])
    rw [heq, if_pos hstopped]
    exact ⟨(enterStopped_stops hdrive).supervisor, enterStopped_leaves s⟩
  · have heq : parkOrStop s = setDrive .parking s := if_neg (by simp [spindleStopped, hstopped])
    rw [heq, if_neg hstopped]
    exact ⟨by simp, by simp, by simp, by simp⟩

/-! ### Where the drive moves on to (R167) -/

/-- The drive has been emptied by a CLEAR FAULT (R150, R167). -/
abbrev ClearedToEmpty (t : State) : Prop :=
  RecordsCleared t ∧ t.supervisor.drive = .empty ∧ t.supervisor.cls = none ∧ t.map = PosMap.empty ∧
    t.monitor.fix = none ∧ t.arbiter.releaseLatch = false

/-- The drive has gone to STOPPED or PARKING, by its spindle (R162, R167). -/
abbrev ClearedToStop (s t : State) : Prop :=
  RecordsCleared t ∧ t.supervisor.cls = s.supervisor.cls ∧ t.arbiter.releaseLatch = s.arbiter.releaseLatch ∧
    t.supervisor.drive = if s.spindle.state = .stopped then .stopped else .parking

theorem clearRecords_settled (h : Settled s) : Settled (clearRecords s) := h

theorem clearRecords_notMoving (h : s.supervisor.drive = .faulted) : (clearRecords s).supervisor.drive ≠ .moving := by
  simp [clearRecords, h]

/-- With no disc clamped the drive is emptied. -/
theorem identifyOrEmpty_empties (hsettled : Settled s) (hclamp : s.supervisor.clamp ≠ .clamped) :
    react (identifyOrEmpty (clearRecords s)) = identifyOrEmpty (clearRecords s) ∧
      ClearedToEmpty (identifyOrEmpty (clearRecords s)) := by
  have heq : identifyOrEmpty (clearRecords s) = enterEmpty (clearRecords s) := if_neg hclamp
  have hempties := enterEmpty_empties (clearRecords s)
  obtain ⟨hwaiting, hident, -⟩ := clearRecords_settled hsettled
  rw [heq]
  refine ⟨react_settled ⟨by rw [hempties.arbiter]; exact hwaiting, by rw [hempties.supervisor]; exact hident,
    by simp [hempties.step]⟩, ⟨by rw [hempties.supervisor]; rfl, ?_⟩, by rw [hempties.supervisor], by rw [hempties.supervisor],
    hempties.map, hempties.fix.1, by rw [hempties.arbiter]⟩
  have hgone : (enterEmpty (clearRecords s)).planner.unreached = (clearRecords s).planner.unreached := by
    simp [enterEmpty, discGone, forgetStart, disown]
  exact hgone

/-- With a disc clamped an identification of origin CLEAR_FAULT starts, the class still held (R151; in a sag: entry 25). -/
theorem identifyOrEmpty_identifies (hsettled : Settled s) (hdrive : s.supervisor.drive = .faulted)
    (hclamp : s.supervisor.clamp = .clamped) (hopen : IdentOpen s) :
    react (identifyOrEmpty (clearRecords s)) = identifyOrEmpty (clearRecords s) ∧
      RecordsCleared (identifyOrEmpty (clearRecords s)) ∧
      (identifyOrEmpty (clearRecords s)).supervisor.cls = s.supervisor.cls ∧
      ∃ i, IdentBegun .clearFault i s (identifyOrEmpty (clearRecords s)) := by
  have heq : identifyOrEmpty (clearRecords s) = startIdent .clearFault (clearRecords s) := if_pos hclamp
  obtain ⟨hwaiting, -, hstep⟩ := clearRecords_settled hsettled
  have hmoving : (clearRecords s).supervisor.drive ≠ .moving := clearRecords_notMoving hdrive
  obtain ⟨i, hstarts⟩ := startIdent_starts (origin := .clearFault) hwaiting hstep hmoving (by exact hopen)
  have hsupervisor := hstarts.moves.supervisor
  rw [identStarted_supervisor] at hsupervisor
  obtain ⟨hdriven, hrecord, hsag, hhoming, hhome, hposition, hthere⟩ := hstarts.begun
  rw [heq]
  exact ⟨hstarts.waits, ⟨by rw [hsupervisor]; rfl, startIdent_unreached ..⟩, by rw [hsupervisor]; rfl, i,
    ⟨hdriven, hrecord, hsag, hhoming, hhome, hposition, hthere⟩⟩

/-- Where no identification is due the drive stops, its class and its latch as they are. -/
theorem parkOrStop_clears (hsettled : Settled s) (hdrive : s.supervisor.drive = .faulted) :
    react (parkOrStop (clearRecords s)) = parkOrStop (clearRecords s) ∧ ClearedToStop s (parkOrStop (clearRecords s)) := by
  have hmoving : (clearRecords s).supervisor.drive ≠ .moving := clearRecords_notMoving hdrive
  obtain ⟨hsupervisor, hplanner, hwaiting, hlatch⟩ := parkOrStop_leaves hmoving
  refine ⟨react_unmoved (clearRecords_settled hsettled) hwaiting (by rw [hsupervisor]) (by rw [hplanner]),
    ⟨by rw [hsupervisor]; rfl, by rw [hplanner]; rfl⟩, by rw [hsupervisor]; rfl, hlatch, by rw [hsupervisor]; rfl⟩

/-! ### Which of them it is (R124, R167; entry 34) -/

/-- A latch that still stands with a class held is read as R124 reads it (entry 34). -/
abbrev LatchIdentifies (s : State) : Prop := s.arbiter.releaseLatch = true ∧ Config.latchedFaultIdentifies = true

/-- The fault that CLEAR FAULT clears leads to an identification, or to EMPTY with no disc clamped. -/
abbrev LeadsToIdent (s : State) : Prop := ClearFaultIdentifies s ∨ LatchIdentifies s

theorem leaveFaulted_identifies (h : LeadsToIdent s) :
    leaveFaulted s.supervisor.fault (clearRecords s) = identifyOrEmpty (clearRecords s) := by
  unfold leaveFaulted
  split
  case h_1 => rfl
  case h_2 => rfl
  case h_3 hunreadable hhome =>
    refine if_pos ?_
    rcases h with (hnone | ⟨f, hf, hkind | hkind⟩) | hlatch
    · exact .inl hnone
    · exact absurd (by simp [hf, hkind]) hunreadable
    · exact absurd (by simp [hf, hkind]) hhome
    · exact .inr hlatch

theorem leaveFaulted_stops (h : ¬ LeadsToIdent s) :
    leaveFaulted s.supervisor.fault (clearRecords s) = parkOrStop (clearRecords s) := by
  obtain ⟨hnot, hlatch⟩ := not_or.1 h
  obtain ⟨hcls, hkinds⟩ := not_or.1 hnot
  unfold leaveFaulted
  split
  case h_1 hkind =>
    obtain ⟨f, hf, hunreadable⟩ := Option.map_eq_some_iff.1 hkind
    exact absurd ⟨f, hf, .inl hunreadable⟩ hkinds
  case h_2 hkind =>
    obtain ⟨f, hf, hhome⟩ := Option.map_eq_some_iff.1 hkind
    exact absurd ⟨f, hf, .inr hhome⟩ hkinds
  case h_3 => exact if_neg (not_or.2 ⟨hcls, hlatch⟩)

/-! ### The request -/

theorem exec_clearFault (htakes : Takes 0x1B p s) : exec (.clearFault p tag) s
    = .next ((clearFault s).answer p tag .accepted [(clearFault s).supervisor.drive.code]) :=
  exec_takes (k := .clearFault) rfl rfl htakes rfl

section Faulted

variable (hdrive : s.supervisor.drive = .faulted) (hsettled : Settled s)

include hdrive

/-- In FAULTED the drive leaves, and nothing follows. -/
theorem clearFault_leaves (hleave : leaveFaulted s.supervisor.fault (clearRecords s) = t) (hquiet : react t = t) :
    clearFault s = t := by
  rw [clearFault, if_pos hdrive, hleave, hquiet]

include hsettled

theorem clearFault_empties (h : LeadsToIdent s) (hclamp : s.supervisor.clamp ≠ .clamped) :
    ClearedToEmpty (clearFault s) := by
  obtain ⟨hquiet, hempties⟩ := identifyOrEmpty_empties hsettled hclamp
  rw [clearFault_leaves hdrive (leaveFaulted_identifies h) hquiet]
  exact hempties

theorem clearFault_identifies (h : LeadsToIdent s) (hclamp : s.supervisor.clamp = .clamped) (hopen : IdentOpen s) :
    RecordsCleared (clearFault s) ∧ (clearFault s).supervisor.cls = s.supervisor.cls ∧
      ∃ i, IdentBegun .clearFault i s (clearFault s) := by
  obtain ⟨hquiet, hbegun⟩ := identifyOrEmpty_identifies hsettled hdrive hclamp hopen
  rw [clearFault_leaves hdrive (leaveFaulted_identifies h) hquiet]
  exact hbegun

theorem clearFault_stops (h : ¬ LeadsToIdent s) : ClearedToStop s (clearFault s) := by
  obtain ⟨hquiet, hstops⟩ := parkOrStop_clears hsettled hdrive
  rw [clearFault_leaves hdrive (leaveFaulted_stops h) hquiet]
  exact hstops

end Faulted

theorem recordsCleared_answer {st : Status} {d : List Byte} (h : RecordsCleared t) :
    RecordsCleared (t.answer p tag st d) := by simpa [RecordsCleared] using h

theorem clearedToEmpty_answer {st : Status} {d : List Byte} (h : ClearedToEmpty t) :
    ClearedToEmpty (t.answer p tag st d) := by simpa [ClearedToEmpty, RecordsCleared] using h

theorem clearedToStop_answer {st : Status} {d : List Byte} (h : ClearedToStop s t) :
    ClearedToStop s (t.answer p tag st d) := by simpa [ClearedToStop, RecordsCleared] using h

/-- Settles O21: CLEAR FAULT outside FAULTED, and in it by what the fault leads to and by the clamp. -/
theorem clearFaultClearsAndMovesOn : Obligations.ClearFaultClearsAndMovesOn := by
  intro p tag s htakes
  refine ⟨fun hdrive => ?outside, fun hdrive hsettled => ⟨_, exec_clearFault htakes,
    settingsSame_answer (settingsSame_of_keeps (Keeps.refl s).clearFault), by rw [answer_reply, answer_supervisor],
    fun hident hclamp => clearedToEmpty_answer (clearFault_empties hdrive hsettled (.inl hident) hclamp),
    fun hident hclamp hopen => ?identifies,
    fun hnot => ⟨fun hlatch => ?stops, fun hlatch hclamp => ?latched, fun hlatch hclamp hopen => ?latchedDisc⟩⟩⟩
  case outside =>
    have heq : clearFault s = clearRecords s := if_neg hdrive
    rw [exec_clearFault htakes, heq]
    rfl
  case identifies =>
    obtain ⟨hrecords, -, i, hbegun⟩ := clearFault_identifies hdrive hsettled (.inl hident) hclamp hopen
    exact ⟨recordsCleared_answer hrecords, i, identBegun_answer hbegun⟩
  case stops =>
    have hno : ¬ LeadsToIdent s := by simp [LeadsToIdent, LatchIdentifies, hnot, hlatch]
    exact clearedToStop_answer (clearFault_stops hdrive hsettled hno)
  case latched =>
    by_cases hchoice : LeadsToIdent s
    · exact .inr (clearedToEmpty_answer (clearFault_empties hdrive hsettled hchoice hclamp))
    · exact .inl (clearedToStop_answer (clearFault_stops hdrive hsettled hchoice))
  case latchedDisc =>
    by_cases hchoice : LeadsToIdent s
    · obtain ⟨hrecords, hcls, i, hbegun⟩ := clearFault_identifies hdrive hsettled hchoice hclamp hopen
      exact .inr ⟨recordsCleared_answer hrecords, by rw [answer_supervisor, hcls], i, identBegun_answer hbegun⟩
    · exact .inl (clearedToStop_answer (clearFault_stops hdrive hsettled hchoice))

end Sys2Proof.Proofs
end

section
/-! A disturbance within a recovery restarts it at the phase it names, or exhausts that phase (R171, R174 to R179, R182). -/

namespace Sys2Proof.Proofs

set_option Elab.async false

open Sys2Proof.Machine Sys2Proof.Safety Sys2Proof.Laws

variable {k : Disturbance} {s t u v : State} {f : FaultKind} {q : Port}

/-! ### The phase a disturbance names (R174, R179) -/

/-- How many entries of the phase it names the recovery has used. -/
def entriesUsed : Disturbance → Recovery → Nat
  | .focusLost, r => r.refocusCount
  | .trackSlip, r | .addressJump, r => r.retrackCount
  | .addressStarved, r => r.refixCount
  | .spindleSlip, r => r.respinCount

/-- The fault of the phase it names, once that is exhausted. -/
def exhaustion : Disturbance → FaultKind
  | .focusLost | .trackSlip | .addressJump => .focusUnrecoverable
  | .addressStarved => .addressUnrecoverable
  | .spindleSlip => .spindleUnlocked

theorem beginPhase_exhausted (h : s.recovery.retryLimit ≤ entriesUsed k s.recovery) :
    beginPhase k.phase s = raiseFault (exhaustion k) s := by
  cases k <;> exact if_pos h

/-! ### No window runs as a phase begins (R174; but for a RETRACK that finds tracking on, R176) -/

theorem beginRefix_noWindow (hcount : s.recovery.refixCount < s.recovery.retryLimit) :
    (beginRefix s).recovery.window = none := by
  rw [beginRefix_starts hcount]
  simp

theorem beginRespin_noWindow (hcount : s.recovery.respinCount < s.recovery.retryLimit)
    (hspin : s.spindle.state ≠ .locked) : (beginRespin s).recovery.window = none := by
  rw [beginRespin_starts hcount hspin]
  simp

theorem beginRetrack_noWindow (hcount : s.recovery.retrackCount < s.recovery.retryLimit)
    (hfocus : s.optics.focus = .locked) (htrack : s.optics.tracking = .off) :
    (beginRetrack s).recovery.window = none := by
  rw [beginRetrack_closes hcount hfocus htrack]
  simp

theorem beginRefocus_noWindow (hcount : s.recovery.refocusCount < s.recovery.retryLimit)
    (hfocus : s.optics.focus ≠ .locked) (htrack : s.optics.tracking = .off) (hswitch : s.optics.switch = none)
    (hprofile : s.optics.profile ≠ none) : (beginRefocus s).recovery.window = none := by
  rw [beginRefocus_searches hcount hfocus htrack hswitch hprofile]
  simp

/-! ### The recovery that goes on (R171, R179, R182) -/

/-- The recovery that a disturbance restarts, before the phase it names begins: nothing reported, no window, an internal
return withdrawn (R179, R182). -/
def reopened (s : State) : State :=
  let s1 := s.setRecovery { s.recovery with window := none, fixReported := false }
  if s1.planner.owner = .internal then withdraw s1 else s1

section Reopened

variable (s)

@[simp] theorem reopened_supervisor : (reopened s).supervisor = s.supervisor := by unfold reopened; dsimp only; split <;> simp
@[simp] theorem reopened_arbiter : (reopened s).arbiter = s.arbiter := by unfold reopened; dsimp only; split <;> simp
@[simp] theorem reopened_optics : (reopened s).optics = s.optics := by unfold reopened; dsimp only; split <;> simp
@[simp] theorem reopened_monitor : (reopened s).monitor = s.monitor := by unfold reopened; dsimp only; split <;> simp
@[simp] theorem reopened_spindle : (reopened s).spindle = s.spindle := by unfold reopened; dsimp only; split <;> simp
@[simp] theorem reopened_clock : (reopened s).clock = s.clock := by unfold reopened; dsimp only; split <;> simp
@[simp] theorem reopened_port (q : Port) : (reopened s).port q = s.port q := by unfold reopened; dsimp only; split <;> simp
@[simp] theorem reopened_recovery :
    (reopened s).recovery = { s.recovery with window := none, fixReported := false } := by
  unfold reopened
  dsimp only
  split <;> simp

theorem reopened_owner :
    (reopened s).planner.owner = if s.planner.owner = .internal then .none else s.planner.owner := by
  unfold reopened
  dsimp only [State.setRecovery]
  split <;> simp

theorem reopened_step (h : s.planner.acquireStep ≠ .spin) : (reopened s).planner.acquireStep ≠ .spin := by
  unfold reopened
  dsimp only [State.setRecovery]
  split
  · simp
  · exact h

end Reopened

/-- The recovery that a disturbance of kind k restarts, once the leg in flight is marked and the disturbance recorded. -/
def reopenedOn (k : Disturbance) (v : State) : State := reopened (recordDisturbance k k.phase (disturbLeg v))

section ReopenedOn

variable (k v)

@[simp] theorem reopenedOn_supervisor : (reopenedOn k v).supervisor = v.supervisor := by simp [reopenedOn]
@[simp] theorem reopenedOn_arbiter : (reopenedOn k v).arbiter = v.arbiter := by simp [reopenedOn]
@[simp] theorem reopenedOn_monitor : (reopenedOn k v).monitor = v.monitor := by simp [reopenedOn]
@[simp] theorem reopenedOn_clock : (reopenedOn k v).clock = v.clock := by simp [reopenedOn]
@[simp] theorem reopenedOn_reports (q : Port) : reportsOf q (reopenedOn k v) = reportsOf q v := by
  rw [reopenedOn, reportsOf_congr q (reopened_port ..), reportsOf_recordDisturbance,
    reportsOf_congr q (disturbLeg_port (s := v) q)]

theorem historyWith_disturbLeg : historyWith k (disturbLeg v) = historyWith k v := by
  simp [historyWith, lastGood_congr (disturbLeg_monitor v)]

theorem roughWith_disturbLeg : roughWith k (disturbLeg v) = roughWith k v := by
  simp [roughWith, historyWith_disturbLeg]

theorem reopenedOn_recovery : (reopenedOn k v).recovery = { v.recovery with
    history := historyWith k v, rough := roughWith k v
    roughExit := if roughWith k v then some (later v.clock 20000) else v.recovery.roughExit
    window := none, fixReported := false } := by
  simp [reopenedOn, recordDisturbance_recovery, historyWith_disturbLeg, roughWith_disturbLeg]

theorem reopenedOn_optics : ∃ b, (reopenedOn k v).optics = { v.optics with robustGain := b } := by
  obtain ⟨b, hb⟩ := recordDisturbance_optics k k.phase (disturbLeg v)
  exact ⟨b, by simp [reopenedOn, hb]⟩

theorem disturbLeg_owner : (disturbLeg v).planner.owner = v.planner.owner := by
  unfold disturbLeg
  split <;> rfl

theorem disturbLeg_step : (disturbLeg v).planner.acquireStep = v.planner.acquireStep := by
  unfold disturbLeg
  split <;> rfl

theorem reopenedOn_owner :
    (reopenedOn k v).planner.owner = if v.planner.owner = .internal then .none else v.planner.owner := by
  rw [reopenedOn, reopened_owner, recordDisturbance_planner, disturbLeg_owner]

theorem reopenedOn_mask (q : Port) : ((reopenedOn k v).port q).mask = (v.port q).mask := by
  have hkeeps : Keeps [] v (recordDisturbance k k.phase (disturbLeg v)) := (Keeps.refl v).disturbLeg.recordDisturbance
  rw [reopenedOn, reopened_port, (hkeeps.port q).mask]

end ReopenedOn

theorem reopenedOn_step (h : v.planner.acquireStep ≠ .spin) : (reopenedOn k v).planner.acquireStep ≠ .spin :=
  reopened_step _ (by rwa [recordDisturbance_planner, disturbLeg_step])

theorem reopenedOn_kept {P : Spindle → Prop} (hkept : KeptAt v.clock P) (h : P v.spindle) : P (reopenedOn k v).spindle := by
  rw [reopenedOn, reopened_spindle]
  exact recordDisturbance_kept (by simpa using hkept) (by simpa using h)

theorem reopenedOn_noticed (hq : admits (v.port q).mask 4 = true) :
    Laws.Noticed (.disturbance k v.clock (lastGood v) k.phase (roughWith k v)
      (recentCount (historyWith k v) v.clock)) q (reopenedOn k v) := by
  have hnotice := recordDisturbance_noticed (k := k) (ph := k.phase) (s := disturbLeg v) (q := q) (by simpa using hq)
  rw [historyWith_disturbLeg, roughWith_disturbLeg, disturbLeg_clock, lastGood_congr (disturbLeg_monitor v)] at hnotice
  exact hnotice.congr (reopened_port ..)

/-! ### A disturbance that is taken in a recovery (R170, R179) -/

/-- A disturbance restarts the recovery in progress here, and nothing else follows it. -/
structure MayRestart (s : State) : Prop where
  drive : s.supervisor.drive = .recovering ∨ s.supervisor.drive = .moving
  phase : s.recovery.phase ≠ .none
  settled : Settled s

/-- What the event of a disturbance leaves as it is before the disturbance is taken, the planner's work included. -/
structure UpsetsLoops (s v : State) : Prop extends Upsets s v where
  owner : v.planner.owner = s.planner.owner
  step : v.planner.acquireStep = s.planner.acquireStep

theorem UpsetsLoops.refl (s : State) : UpsetsLoops s s := ⟨Upsets.refl s, rfl, rfl⟩

theorem MayRestart.raises (h : MayRestart s) : raises s = true := by
  rcases h.drive with hd | hd <;> simp [Machine.raises, hd]

theorem MayRestart.notFaulted (h : MayRestart s) : s.supervisor.drive ≠ .faulted := by
  rcases h.drive with hd | hd <;> simp [hd]

/-- The disturbance goes on with the recovery at the phase it names. -/
theorem MayRestart.takes (h : MayRestart s) (hv : UpsetsLoops s v) (k : Disturbance) :
    takeDisturbance k v = beginPhase k.phase (reopenedOn k v) := by
  have hgoes : ((disturbLeg v).supervisor.drive = .recovering ∨ (disturbLeg v).supervisor.drive = .moving) ∧
      recovering (disturbLeg v) = true := by
    simpa [recovering, hv.supervisor, hv.recovery] using ⟨h.drive, h.phase⟩
  unfold takeDisturbance
  dsimp only
  rw [if_pos hgoes]
  rfl

/-- A phase that begins in it makes the recovery one restarted. -/
theorem UpsetsLoops.restarted (hv : UpsetsLoops s v) (ht : PhaseBegins k.phase (reopenedOn k v) t)
    (hwindow : t.recovery.window = none) : RecoveryRestarted k k.phase s t := by
  have hrecovery := ht.recovery
  rw [reopenedOn_recovery, hwindow, hv.recovery] at hrecovery
  have hhistory : historyWith k v = historyWith k s := by simp [historyWith, hv.last, hv.clock, hv.recovery]
  have hrough : roughWith k v = roughWith k s := by simp [roughWith, hhistory, hv.clock, hv.recovery]
  constructor
  · rw [ht.supervisor, reopenedOn_supervisor, hv.supervisor]
  · rw [ht.arbiter, reopenedOn_arbiter, hv.arbiter]
  · rw [hrecovery]
  · rw [hrecovery]
    exact ⟨rfl, rfl, rfl, rfl⟩
  · rw [hrecovery]
    exact ⟨rfl, rfl, rfl⟩
  · rw [hrecovery]
    exact ⟨rfl, rfl, rfl⟩
  · rw [ht.planner, reopenedOn_owner, hv.owner]
  · rw [hrecovery, hhistory, historyWith, appendHistory]
    by_cases hfull : s.recovery.history.length < 8
    · rw [if_pos hfull, if_neg (show ¬ Config.historyCapacity ≤ _ from Nat.not_le.2 hfull)]
    · rw [if_neg hfull, if_pos (show Config.historyCapacity ≤ _ from Nat.not_lt.1 hfull)]
  · rw [hrecovery, hhistory, hrough]
    rfl
  · rw [ht.last, lastGood_congr (reopenedOn_monitor ..), hv.last]
  · intro q hq
    have hnotice := (reopenedOn_noticed (k := k) (v := v) (q := q) (by rw [hv.port]; exact hq)).congr (ht.port q)
    rw [hhistory, hrough, hv.clock, hv.last] at hnotice
    rw [hrecovery, hhistory, hrough]
    exact hnotice

/-- A fault raised once notices have joined the queues parks the drive that stood before them. -/
theorem raiseFault_parksFrom (h : s.supervisor.drive ≠ .faulted) (hsupervisor : u.supervisor = s.supervisor)
    (harbiter : u.arbiter = s.arbiter) (hlast : lastGood u = lastGood s) (hclock : u.clock = s.clock)
    (hreports : ∀ q, reportsOf q u = reportsOf q s) (hmask : ∀ q, (u.port q).mask = (s.port q).mask) :
    FaultParked f s (raiseFault f u) := by
  have hparks := raiseFault_parks f (s := u) (by rw [hsupervisor]; exact h)
  constructor
  · rw [← hsupervisor]
    exact hparks.drive
  · rw [← hlast, ← hclock]
    exact hparks.record
  · exact hparks.motions
  · intro q
    have hjoined := hparks.reports q
    rw [show completionsIn (u.port q).queue = completionsIn (s.port q).queue from hreports q, hlast,
      liveMotions_congr harbiter] at hjoined
    exact hjoined
  · exact hparks.loops
  · rw [← hlast]
    exact hparks.fix
  · exact hparks.spindle
  · exact hparks.ended
  · intro q hq
    rw [← hlast, ← hclock]
    exact hparks.notice q (by rw [hmask q]; exact hq)

/-- The fault of the phase that is exhausted parks the drive. -/
theorem MayRestart.parks (h : MayRestart s) (hv : UpsetsLoops s v) : FaultParked f s (raiseFault f (reopenedOn k v)) :=
  raiseFault_parksFrom h.notFaulted (by rw [reopenedOn_supervisor, hv.supervisor])
    (by rw [reopenedOn_arbiter, hv.arbiter]) (by rw [lastGood_congr (reopenedOn_monitor ..), hv.last])
    (by rw [reopenedOn_clock, hv.clock])
    (fun q => by rw [reopenedOn_reports, reportsOf_congr q (hv.port q)])
    (fun q => by rw [reopenedOn_mask, hv.port q])

/-- What a disturbance that is taken in a recovery comes to: the phase it names begins with its count raised, or is
exhausted and the drive parked; nothing follows either. -/
structure Restarts (k : Disturbance) (s t : State) : Prop where
  settled : Settled t
  restarted : entriesUsed k s.recovery < s.recovery.retryLimit → RecoveryRestarted k k.phase s t
  parked : s.recovery.retryLimit ≤ entriesUsed k s.recovery → FaultParked (exhaustion k) s t

theorem entriesUsed_reopenedOn (hv : UpsetsLoops s v) :
    entriesUsed k (reopenedOn k v).recovery = entriesUsed k s.recovery := by
  rw [reopenedOn_recovery, hv.recovery]
  cases k <;> rfl

theorem retryLimit_reopenedOn (hv : UpsetsLoops s v) :
    (reopenedOn k v).recovery.retryLimit = s.recovery.retryLimit := by
  rw [reopenedOn_recovery, hv.recovery]

/-- A phase that begins where its entries last is all that a disturbance needs to restart a recovery or exhaust it. -/
theorem MayRestart.restarts (h : MayRestart s) (hv : UpsetsLoops s v)
    (hbegins : entriesUsed k s.recovery < s.recovery.retryLimit →
      PhaseBegins k.phase (reopenedOn k v) (beginPhase k.phase (reopenedOn k v)) ∧
      (beginPhase k.phase (reopenedOn k v)).recovery.window = none) :
    Restarts k s (takeDisturbance k v) := by
  obtain ⟨hwaiting, hident, hstep⟩ := h.settled
  rw [h.takes hv]
  rcases Nat.lt_or_ge (entriesUsed k s.recovery) s.recovery.retryLimit with hleft | hfull
  · obtain ⟨hphase, hwindow⟩ := hbegins hleft
    refine ⟨⟨?_, ?_, ?_⟩, fun _ => hv.restarted hphase hwindow, fun hfull => absurd hleft (Nat.not_lt.2 hfull)⟩
    · rw [hphase.arbiter, reopenedOn_arbiter, hv.arbiter, hwaiting]
    · rw [hphase.supervisor, reopenedOn_supervisor, hv.supervisor, hident]
    · rw [hphase.planner]
      exact reopenedOn_step (by rwa [hv.step])
  · have hparks : FaultParked (exhaustion k) s (raiseFault (exhaustion k) (reopenedOn k v)) := h.parks hv
    have hstill : (raiseFault (exhaustion k) (reopenedOn k v)).planner.acquireStep = .none :=
      raiseFault_step (by rw [reopenedOn_supervisor, hv.supervisor]; exact h.notFaulted)
    rw [beginPhase_exhausted (by rwa [entriesUsed_reopenedOn hv, retryLimit_reopenedOn hv])]
    exact ⟨⟨(noMotion_iff.1 hparks.motions.1).2.2, hparks.ended.1, by simp [hstill]⟩,
      fun hleft => absurd hfull (Nat.not_le.2 hleft), fun _ => hparks⟩

/-! ### FOCUS_LOST (R88, R175) -/

theorem loseFocus_upsetsLoops (s : State) : UpsetsLoops s (loseFocus (disturbLeg s)) := by
  refine ⟨loseFocus_upsets s, ?_, ?_⟩
  · rw [loseFocus_eq, State.setPlanner_planner, ← disturbLeg_owner s, cutShort]
    split <;> rfl
  · rw [loseFocus_eq, State.setPlanner_planner, ← disturbLeg_step s, cutShort]
    split <;> rfl

/-- A drop that lasts takes the recovery to REFOCUS, with its search, or exhausts it. -/
theorem focusDrop_restarts {us : Nat} (h : MayRestart s) (hlong : (if s.optics.robustGain then 5000 else 2000) < us)
    (hfocus : s.optics.focus = .locked) (hprofile : s.optics.profile ≠ none) (hswitch : s.optics.switch = none) :
    ∃ t, exec (.focusDrop us) s = .next t ∧ Restarts .focusLost s t ∧
      (s.recovery.refocusCount < s.recovery.retryLimit →
        SearchBegun .recovery s.recovery.retryLimit s t ∧ t.optics.tracking = .off ∧ fixFresh t = false) := by
  obtain ⟨v, hv⟩ : ∃ v, v = loseFocus (disturbLeg s) := ⟨_, rfl⟩
  have hups : UpsetsLoops s v := hv ▸ loseFocus_upsetsLoops s
  have hoptics : v.optics = { s.optics with
      focus := .lost, tracking := .off, holdAddress := none, openPending := false
      closers := [], storedJump := none, attemptTimer := none, attempt := 0 } := by
    rw [hv, loseFocus_eq]
    simp [loopsOpen_optics]
  obtain ⟨b, hb⟩ := reopenedOn_optics .focusLost v
  have hcount (hleft : s.recovery.refocusCount < s.recovery.retryLimit) :
      (reopenedOn .focusLost v).recovery.refocusCount < (reopenedOn .focusLost v).recovery.retryLimit := by
    simpa [reopenedOn_recovery, hups.recovery] using hleft
  have hlost : (reopenedOn .focusLost v).optics.focus ≠ .locked := by simp [hb, hoptics]
  have hoff : (reopenedOn .focusLost v).optics.tracking = .off := by simp [hb, hoptics]
  have hnone : (reopenedOn .focusLost v).optics.switch = none := by simp [hb, hoptics, hswitch]
  have hlit : (reopenedOn .focusLost v).optics.profile ≠ none := by simp [hb, hoptics, hprofile]
  have hbegins (hleft : s.recovery.refocusCount < s.recovery.retryLimit) :=
    beginRefocus_phase (hcount hleft) hlost hoff hnone hlit
  have hrestarts : Restarts .focusLost s (takeDisturbance .focusLost v) :=
    h.restarts hups fun hleft => ⟨(hbegins hleft).1, beginRefocus_noWindow (hcount hleft) hlost hoff hnone hlit⟩
  refine ⟨_, ?_, hrestarts, fun hleft => ?_⟩
  · have hlow : s.optics.focus = .locked ∧ dropTimeUs s.optics.robustGain < us := ⟨hfocus, hlong⟩
    change execFocusDrop us s = _
    rw [execFocusDrop, if_pos hlow, focusLost, if_pos h.raises, ← hv, react_settled hrestarts.settled]
  · obtain ⟨-, hsearch, htrack, -, hmonitor⟩ := hbegins hleft
    rw [h.takes hups]
    rw [SearchBegun, retryLimit_reopenedOn hups, reopenedOn_clock, hups.clock] at hsearch
    refine ⟨hsearch, htrack, ?_⟩
    · change fixFresh (beginRefocus _) = false
      rw [fixFresh_congr hmonitor, fixFresh_congr (reopenedOn_monitor ..), hv, loseFocus_eq,
        fixFresh_congr (State.setPlanner_monitor ..), loopsOpen, fixFresh_trackingOff]

/-! ### TRACK_SLIP (R91, R176) -/

theorem trackingOff_upsetsLoops (s : State) : UpsetsLoops s (trackingOff s) :=
  ⟨⟨by simp, by simp, by simp, by simp, by simp, lastGood_trackingOff s, fun q => by simp⟩, by simp, by simp⟩

/-- An excursion that lasts takes the recovery to RETRACK, with its close, or exhausts it. -/
theorem offTrack_restarts {us : Nat} (h : MayRestart s) (hlong : (if s.optics.robustGain then 3000 else 1000) < us)
    (hfocus : s.optics.focus = .locked) (htrack : OnATrack s) :
    ∃ t, exec (.offTrack us) s = .next t ∧ Restarts .trackSlip s t ∧
      (s.recovery.retrackCount < s.recovery.retryLimit →
        Requester.recovery ∈ t.optics.closers ∧ t.optics.tracking = .off ∧ fixFresh t = false) := by
  obtain ⟨v, hv⟩ : ∃ v, v = trackingOff s := ⟨_, rfl⟩
  have hups : UpsetsLoops s v := hv ▸ trackingOff_upsetsLoops s
  have hoptics : v.optics = { s.optics with tracking := .off, holdAddress := none, openPending := false } :=
    hv ▸ trackingOff_optics s
  obtain ⟨b, hb⟩ := reopenedOn_optics .trackSlip v
  have hlocked : (reopenedOn .trackSlip v).optics.focus = .locked := by simp [hb, hoptics, hfocus]
  have hopened : (reopenedOn .trackSlip v).optics.tracking = .off := by simp [hb, hoptics]
  have hcount (hleft : s.recovery.retrackCount < s.recovery.retryLimit) :
      (reopenedOn .trackSlip v).recovery.retrackCount < (reopenedOn .trackSlip v).recovery.retryLimit := by
    simpa [reopenedOn_recovery, hups.recovery] using hleft
  have hcloses (hleft : s.recovery.retrackCount < s.recovery.retryLimit) :=
    beginRetrack_closes (hcount hleft) hlocked hopened
  have hrestarts : Restarts .trackSlip s (takeDisturbance .trackSlip v) :=
    h.restarts hups fun hleft => ⟨beginRetrack_phase (hcount hleft) (.inl hlocked),
      beginRetrack_noWindow (hcount hleft) hlocked hopened⟩
  refine ⟨_, ?_, hrestarts, fun hleft => ?_⟩
  · have hslips : (s.optics.tracking = .closed ∨ s.optics.tracking = .hold) ∧ offTrackTimeUs s.optics.robustGain < us ∧
        raises s := ⟨htrack, hlong, h.raises⟩
    change execOffTrack us s = _
    rw [execOffTrack, if_pos hslips, ← hv, react_settled hrestarts.settled]
  · rw [h.takes hups]
    change Requester.recovery ∈ (beginRetrack _).optics.closers ∧ (beginRetrack _).optics.tracking = .off ∧
      fixFresh (beginRetrack _) = false
    have hmonitor : (beginRetrack (reopenedOn .trackSlip v)).monitor = v.monitor := by
      rw [hcloses hleft]
      simp
    rw [fixFresh_congr hmonitor, hv, fixFresh_trackingOff, ← hv, hcloses hleft, State.setOptics_optics, hb, hoptics]
    exact ⟨by simp, rfl, rfl⟩

/-! ### ADDRESS_STARVED (R114, R177) -/

/-- The restart of the address-monitor timer is nothing that a restarted recovery or a park speaks of. -/
theorem Restarts.restartMonitor (h : Restarts k s t) : Restarts k s (restartMonitor t) where
  settled := h.settled
  restarted hleft :=
    have hr := h.restarted hleft
    ⟨hr.drive, hr.motion, hr.phase, hr.counts, hr.limits, hr.kept, hr.owner, hr.history, hr.rough, hr.fix,
      fun q hq => by rw [restartMonitor_port, restartMonitor_recovery]; exact hr.notice q hq⟩
  parked hfull :=
    have hp := h.parked hfull
    ⟨hp.drive, hp.record, hp.motions, fun q => by rw [restartMonitor_port]; exact hp.reports q, hp.loops, hp.fix,
      hp.spindle, hp.ended, fun q hq => by rw [restartMonitor_port]; exact hp.notice q hq⟩

/-- An address monitor whose timer runs out takes the recovery to REFIX, or exhausts it. -/
theorem starved_restarts (h : MayRestart s) (hrun : monitorRunning s = true) :
    let u := passTime (s.monitor.limit - s.monitor.elapsed) s
    ∃ t, exec .addressMonitorTimerExpiry s = .next t ∧ Restarts .addressStarved u t ∧
      (s.recovery.refixCount < s.recovery.retryLimit →
        t.optics.focus = s.optics.focus ∧ t.optics.tracking = s.optics.tracking) := by
  intro u
  have husupervisor : u.supervisor = s.supervisor := passTime_supervisor_same h.settled.2.1
  have hu : MayRestart u := ⟨by rw [husupervisor]; exact h.drive, h.phase,
    settled_congr h.settled rfl (by rw [husupervisor]) rfl⟩
  have hups : UpsetsLoops u u := UpsetsLoops.refl u
  obtain ⟨b, hb⟩ := reopenedOn_optics .addressStarved u
  have hcount (hleft : s.recovery.refixCount < s.recovery.retryLimit) :
      (reopenedOn .addressStarved u).recovery.refixCount < (reopenedOn .addressStarved u).recovery.retryLimit := by
    rw [reopenedOn_recovery]
    exact hleft
  have hrestarts : Restarts .addressStarved u (takeDisturbance .addressStarved u) :=
    hu.restarts hups fun hleft => ⟨beginRefix_phase (hcount hleft), beginRefix_noWindow (hcount hleft)⟩
  refine ⟨_, ?_, hrestarts.restartMonitor, fun hleft => ?_⟩
  · change execAddressMonitorTimerExpiry s = _
    rw [execAddressMonitorTimerExpiry, if_pos hrun]
    change Host.Outcome.next (react (restartMonitor (if raises u then takeDisturbance .addressStarved u else u))) = _
    rw [if_pos hu.raises, react_settled hrestarts.restartMonitor.settled]
  · rw [restartMonitor_optics, hu.takes hups]
    change (beginRefix _).optics.focus = _ ∧ (beginRefix _).optics.tracking = _
    rw [beginRefix_starts (hcount hleft), State.setRecovery_optics, hb]
    exact ⟨rfl, rfl⟩

/-! ### SPINDLE_SLIP (R75, R178) -/

/-- A slip of the spindle takes the recovery to RESPIN, or exhausts it. -/
theorem spindleSlip_restarts {rpm : Nat} (h : MayRestart s) (hlocked : s.spindle.state = .locked)
    (hout : ¬ Within 10 (min rpm 9999) s.spindle.target) :
    ∃ t, exec (.tachometerReading rpm) s = .next t ∧ Restarts .spindleSlip s t ∧
      (s.recovery.respinCount < s.recovery.retryLimit →
        t.spindle.measured = min rpm 9999 ∧ t.spindle.lockLimit = some s.clock) := by
  obtain ⟨hslips, hslipped⟩ := read_slips hlocked hout
  obtain ⟨v, hv⟩ : ∃ v, v = s.setSpindle (s.spindle.read s.clock rpm) := ⟨_, rfl⟩
  have hups : UpsetsLoops s v := by
    rw [hv]
    exact ⟨⟨rfl, rfl, rfl, rfl, rfl, rfl, fun q => State.setSpindle_port ..⟩, rfl, rfl⟩
  obtain ⟨hmeasured, hstate, hlimit⟩ : Slipped s.clock (min rpm 9999) (reopenedOn .spindleSlip v).spindle :=
    reopenedOn_kept (hups.clock ▸ slipped_kept s.clock _) (by rw [hv]; exact hslipped)
  have hcount (hleft : s.recovery.respinCount < s.recovery.retryLimit) :
      (reopenedOn .spindleSlip v).recovery.respinCount < (reopenedOn .spindleSlip v).recovery.retryLimit := by
    simpa [reopenedOn_recovery, hups.recovery] using hleft
  have hrestarts : Restarts .spindleSlip s (takeDisturbance .spindleSlip v) :=
    h.restarts hups fun hleft => ⟨beginRespin_phase (hcount hleft) hstate,
      beginRespin_noWindow (hcount hleft) hstate⟩
  refine ⟨_, ?_, hrestarts, fun hleft => ?_⟩
  · have hraises : raises v = true := by rw [Machine.raises, hups.supervisor]; exact h.raises
    change Host.Outcome.next (react (readingReports s.spindle rpm (s.setSpindle (s.spindle.read s.clock rpm)))) = _
    rw [← hv, readingReports, if_pos hslips, if_pos hraises, react_settled hrestarts.settled]
  · rw [h.takes hups]
    change (beginRespin _).spindle.measured = _ ∧ (beginRespin _).spindle.lockLimit = _
    rw [beginRespin_starts (hcount hleft) hstate, State.setRecovery_spindle]
    exact ⟨hmeasured, hlimit⟩

/-- Settles O51: each disturbance by the phase it names, which begins while its entries last and is exhausted then. -/
theorem disturbancesRestartRecovery : Obligations.DisturbancesRestartRecovery := by
  intro s hdrive hphase hsettled
  have hmay : MayRestart s := ⟨hdrive, hphase, hsettled⟩
  refine ⟨fun us hlong hfocus hprofile hswitch => ?drop, fun us hlong hfocus htrack => ?slip, fun hrun => ?starved,
    fun rpm hlocked hout => ?spindle⟩
  case drop =>
    obtain ⟨t, hexec, hrestarts, hloops⟩ := focusDrop_restarts hmay hlong hfocus hprofile hswitch
    exact ⟨t, hexec, fun hleft => ⟨hrestarts.restarted hleft, hloops hleft⟩, hrestarts.parked⟩
  case slip =>
    obtain ⟨t, hexec, hrestarts, hloops⟩ := offTrack_restarts hmay hlong hfocus htrack
    exact ⟨t, hexec, fun hleft => ⟨hrestarts.restarted hleft, hloops hleft⟩, hrestarts.parked⟩
  case starved =>
    obtain ⟨t, hexec, hrestarts, hloops⟩ := starved_restarts hmay hrun
    exact ⟨t, hexec, fun hleft => ⟨hrestarts.restarted hleft, hloops hleft⟩, hrestarts.parked⟩
  case spindle =>
    obtain ⟨t, hexec, hrestarts, hspindle⟩ := spindleSlip_restarts hmay hlocked hout
    exact ⟨t, hexec, fun hleft => ⟨hrestarts.restarted hleft, hspindle hleft⟩, hrestarts.parked⟩

end Sys2Proof.Proofs
end

section
/-! Frames on the link (R186 to R192): what a request's own frame spells, how a frame is refused, and the frame of a reply. -/

namespace Sys2Proof.Proofs

set_option Elab.async false

open Sys2Proof.Machine Sys2Proof.Safety Sys2Proof.Laws

/-! ### Bytes (R186, R190) -/

/-- A byte is the number its eight clocks spell (R186). -/
theorem byte_clocks (b : Byte) : byte (bitsValue (clocks b)) = b := by
  revert b
  decide

theorem received_short {bits : List Bool} (h : bits.length < 8) : received bits = [] := by
  unfold received
  split
  · simp only [List.length_cons] at h
    omega
  · rfl

theorem received_clocks (b : Byte) (bits : List Bool) : received (clocks b ++ bits) = b :: received bits :=
  congrArg (· :: received bits) (byte_clocks b)

/-- The clocks of whole bytes carry them, and a byte whose clocks do not all come is discarded (R186). -/
theorem received_flatMap_clocks (f : List Byte) {rest : List Bool} (h : rest.length < 8) :
    received (f.flatMap clocks ++ rest) = f := by
  induction f with
  | nil => exact received_short h
  | cons b f ih => rw [List.flatMap_cons, List.append_assoc, received_clocks, ih]

/-- An address read back from its three bytes (R190). -/
theorem addrOfBytes_bytesOfAddr (a : Addr) : addrOfBytes ((a.setWidth 24).extractLsb' 16 8)
    ((a.setWidth 24).extractLsb' 8 8) ((a.setWidth 24).extractLsb' 0 8) = a := by
  apply BitVec.eq_of_getLsbD_eq
  intro i hi
  simp only [addrOfBytes, BitVec.getLsbD_setWidth, BitVec.getLsbD_append, BitVec.getLsbD_extractLsb']
  grind

/-- A word read back from its two bytes (R190). -/
theorem wordOfBytes_bytesOfWord (w : BitVec 16) : w.extractLsb' 8 8 ++ w.extractLsb' 0 8 = w := by
  apply BitVec.eq_of_getLsbD_eq
  intro i hi
  simp only [BitVec.getLsbD_append, BitVec.getLsbD_extractLsb']
  grind

/-! ### The check byte (R187, R189) -/

theorem sumBytes_append (a b : List Byte) : sumBytes (a ++ b) = sumBytes a + sumBytes b := by
  induction a with
  | nil => simp [sumBytes]
  | cons x a ih => rw [List.cons_append, sumBytes, sumBytes, ih, BitVec.add_assoc]

/-- The check byte makes the sum of a frame 0 (R187). -/
theorem sumBytes_checked (body : List Byte) : sumBytes (body ++ [checkByte body]) = 0 := by
  simp [sumBytes_append, sumBytes, checkByte]

/-! ### A request's own frame (R187, R191) -/

section Spelled

variable {i : Instr} {p : Port} {tag : Byte} {k : Kind}

/-- The parameter bytes of a request spell it again, with every operand as it was (R190, R191). -/
theorem request_paramBytes (hport : requestPortTag i = some (p, tag)) (hkind : requestKind i = some k) :
    k.request p tag (paramBytes i) = some i := by
  cases i <;> simp only [requestPortTag, Option.some.injEq, Prod.mk.injEq, reduceCtorEq] at hport <;>
    obtain ⟨rfl, rfl⟩ := hport <;> cases hkind
  case setNoticeMask p tag mask => exact congrArg (fun m => some (Instr.setNoticeMask p tag m)) (wordOfBytes_bytesOfWord mask)
  case seek p tag target speed => exact congrArg (fun a => some (Instr.seek p tag a speed)) (addrOfBytes_bytesOfAddr target)
  case follow p tag start speed e =>
    have hstart (e : Option Addr) :=
      congrArg (fun a => some (Instr.follow p tag a speed e)) (addrOfBytes_bytesOfAddr start)
    cases e with
    | none => exact hstart none
    | some e =>
      exact (hstart _).trans (congrArg (fun a => some (Instr.follow p tag start speed (some a)))
        (addrOfBytes_bytesOfAddr e))
  case setZone p tag index enabled base mask cap access =>
    exact congrArg₂ (fun b m => some (Instr.setZone p tag index enabled b m cap access)) (addrOfBytes_bytesOfAddr base)
      (addrOfBytes_bytesOfAddr mask)
  case mapImport p tag address coordinate =>
    exact congrArg₂ (fun a c => some (Instr.mapImport p tag a c)) (addrOfBytes_bytesOfAddr address)
      (wordOfBytes_bytesOfWord coordinate)
  case addressReport p tag address flag =>
    exact congrArg (fun a => some (Instr.addressReport p tag a flag)) (addrOfBytes_bytesOfAddr address)
  case resumeAt p tag address =>
    cases address with
    | none => rfl
    | some a => exact congrArg (fun a => some (Instr.resumeAt p tag (some a))) (addrOfBytes_bytesOfAddr a)
  case rejoin p tag target => exact congrArg (fun a => some (Instr.rejoin p tag a)) (addrOfBytes_bytesOfAddr target)
  all_goals rfl

/-- The parameter bytes of a request are as many as its kind allows (R191). -/
theorem paramBytes_length (hkind : requestKind i = some k) : (paramBytes i).length ∈ k.lengths := by
  cases i <;> simp only [requestKind, Option.some.injEq, reduceCtorEq] at hkind <;> subst hkind
  case follow e => cases e <;> simp [paramBytes, bytesOfAddr, Kind.lengths]
  case resumeAt a => cases a <;> simp [paramBytes, bytesOfAddr, Kind.lengths]
  all_goals exact List.mem_singleton.2 rfl

/-- A kind allows no length that a byte does not hold (R187, R191). -/
theorem lengthByte_toNat {n : Nat} (h : n ∈ k.lengths) : (BitVec.ofNat 8 n).toNat = n := by
  have hle := lengths_le k h
  rw [BitVec.toNat_ofNat]
  omega

/-- A frame as the bytes that the checks look at (R187). -/
theorem frameOf_eq (code tag : Byte) (params : List Byte) : frameOf code tag params
    = code :: tag :: BitVec.ofNat 8 params.length :: (params
      ++ [checkByte (code :: tag :: BitVec.ofNat 8 params.length :: params)]) := rfl

/-- The frame of a request passes the checks and spells it (R187, R189). -/
theorem decodeFrame_frameOf (hport : requestPortTag i = some (p, tag)) (hkind : requestKind i = some k) :
    decodeFrame p (frameOf k.code tag (paramBytes i)) = .ok i := by
  have hlength := paramBytes_length hkind
  rw [frameOf_eq]
  refine decodeFrame_of k (sumBytes_checked (_ :: _ :: _ :: paramBytes i)) ?_ ?_
  · rwa [lengthByte_toNat hlength]
  · rw [List.dropLast_concat]
    exact request_paramBytes hport hkind

theorem frameComplete_frameOf (hkind : requestKind i = some k) :
    frameComplete (frameOf k.code tag (paramBytes i)) = true := by
  have hlength := paramBytes_length hkind
  simp [frameOf_eq, frameComplete, lengthByte_toNat hlength]

end Spelled

/-- Settles O3: the frame that `encodeFrame` writes holds as many parameters as the kind allows, and
they spell the request. -/
theorem frameRoundTrip : Obligations.FrameRoundTrip := by
  intro i p tag hport
  obtain ⟨k, hkind⟩ := requestKind_of_port hport
  refine ⟨frameOf k.code tag (paramBytes i), ?_, frameComplete_frameOf hkind, decodeFrame_frameOf hport hkind⟩
  simp [encodeFrame, requestCode, hkind, hport]

/-- Settles O4: the clocks byte by byte, and each written frame and each list of numbers as the model evaluates it. -/
theorem writtenFramesSpellTheirRequests : Obligations.WrittenFramesSpellTheirRequests := by
  refine ⟨fun f rest h => received_flatMap_clocks f h, rfl, ?_, ?_, ?_, ?_, ?_, ?_, ?_, ?_, ?_,
    rfl, rfl, rfl, rfl, rfl, rfl, rfl, rfl, rfl, rfl, rfl, rfl, rfl⟩ <;> decide

/-! ### The checks of a complete frame (R189) -/

section Checked

variable {p : Port} {code tag len : Byte} {rest : List Byte} {i : Instr} {k : Kind} {s : State}

theorem decodeFrame_linkError (hsum : sumBytes (code :: tag :: len :: rest) ≠ 0) :
    decodeFrame p (code :: tag :: len :: rest) = .error .linkError := if_pos hsum

theorem decodeFrame_tooLong (hsum : sumBytes (code :: tag :: len :: rest) = 0) (hlen : 12 < len.toNat) :
    decodeFrame p (code :: tag :: len :: rest) = .error .badLength := by
  rw [decodeFrame, if_neg (not_not.2 hsum), if_pos hlen]

theorem decodeFrame_unknownKind (hsum : sumBytes (code :: tag :: len :: rest) = 0) (hlen : len.toNat ≤ 12)
    (hcode : kindOf code = none) : decodeFrame p (code :: tag :: len :: rest) = .error .unknownKind := by
  simp [decodeFrame, hsum, Nat.not_lt.2 hlen, hcode]

theorem decodeFrame_lengthNotAllowed (hsum : sumBytes (k.code :: tag :: len :: rest) = 0)
    (hlen : len.toNat ∉ k.lengths) : decodeFrame p (k.code :: tag :: len :: rest) = .error .badLength := by
  by_cases hlong : 12 < len.toNat
  · exact decodeFrame_tooLong hsum hlong
  · simp [decodeFrame, hsum, hlong, hlen]

/-- A frame whose bytes sum to 0 and whose length its kind allows spells a request of that kind, that port and that tag
(R189, R191). -/
theorem decodeFrame_allowed (hsum : sumBytes (k.code :: tag :: len :: rest) = 0) (hlen : len.toNat ∈ k.lengths)
    (hrest : rest.length = len.toNat + 1) : ∃ i, decodeFrame p (k.code :: tag :: len :: rest) = .ok i ∧
      requestPortTag i = some (p, tag) ∧ requestKind i = some k := by
  have hparams : rest.dropLast.length ∈ k.lengths := by rwa [List.length_dropLast, hrest]
  obtain ⟨i, hi⟩ := request_of_length p tag rest.dropLast k hparams
  exact ⟨i, decodeFrame_of k hsum hlen hi, request_some k hi⟩

theorem frameComplete_of (hrest : rest.length = len.toNat + 1) : frameComplete (code :: tag :: len :: rest) = true :=
  beq_iff_eq.2 hrest

/-- A complete frame that fails a check is answered with the tag byte as received and no data (R189). -/
theorem exec_frameRefused {e : FrameRefusal} (hdecoder : (s.port p).decoder = .receiving)
    (hrest : rest.length = len.toNat + 1) (hdecode : decodeFrame p (code :: tag :: len :: rest) = .error e) :
    exec (.unknownKind p (code :: tag :: len :: rest)) s = .next (s.answer p tag (frameStatus e) []) := by
  change execUnknownKind p (code :: tag :: len :: rest) s = _
  rw [execUnknownKind, if_neg (by simp [hdecoder, frameComplete_of hrest]), hdecode]
  rfl

/-- A complete frame that passes the checks runs the request it spells (entry 8). -/
theorem exec_frameSpelled {f : List Byte} (hdecoder : (s.port p).decoder = .receiving) (hcomplete : frameComplete f = true)
    (hdecode : decodeFrame p f = .ok i) : exec (.unknownKind p f) s = exec i s := by
  obtain ⟨_, _, _, _, _, hport, _⟩ := decodeFrame_ok hdecode
  change execUnknownKind p f s = _
  rw [execUnknownKind, if_neg (by simp [hdecoder, hcomplete]), hdecode, ← execRequest_eq hport s]

/-- A request on a port that does not serve its kind (R189). -/
theorem exec_wrongPort (hport : requestPortTag i = some (p, tag)) (hkind : requestKind i = some k)
    (hdecoder : (s.port p).decoder = .receiving) (hserved : servedOn k.code p = false) :
    exec i s = .next (s.answer p tag .wrongPort []) := by
  rw [exec_request hport hkind, serve_wrong hdecoder hserved]

end Checked

/-- Settles O5: each check by what `decodeFrame` answers, and the port of a request by what `serve` comes to. -/
theorem frameChecksRefuseInOrder : Obligations.FrameChecksRefuseInOrder := by
  refine ⟨fun p code tag len rest s hdecoder hrest => ⟨fun hsum => ?sum, fun hsum hlen => ?length,
    fun hsum hlen hcode => ?unknown, fun ls hsum hls hlen hserved => ?port⟩,
    fun i p tag s hport => ⟨fun code hcode hdecoder hserved => ?served, fun hdecoder => ?idle⟩⟩
  case sum => exact exec_frameRefused hdecoder hrest (decodeFrame_linkError hsum)
  case length =>
    refine exec_frameRefused (e := .badLength) hdecoder hrest ?_
    rcases hlen with hlong | ⟨ls, hls, hnot⟩
    · exact decodeFrame_tooLong hsum hlong
    · obtain ⟨k, rfl, rfl⟩ := allowedLengths_some hls
      exact decodeFrame_lengthNotAllowed hsum hnot
  case unknown =>
    exact exec_frameRefused hdecoder hrest (decodeFrame_unknownKind hsum hlen (Option.map_eq_none_iff.1 hcode))
  case port =>
    obtain ⟨k, rfl, rfl⟩ := allowedLengths_some hls
    obtain ⟨i, hdecode, hport, hkind⟩ := decodeFrame_allowed (p := p) hsum hlen hrest
    rw [exec_frameSpelled hdecoder (frameComplete_of hrest) hdecode]
    exact exec_wrongPort hport hkind hdecoder hserved
  case served =>
    obtain ⟨k, hkind, rfl⟩ := Option.map_eq_some_iff.1 hcode
    exact exec_wrongPort hport hkind hdecoder hserved
  case idle =>
    obtain ⟨k, hkind⟩ := requestKind_of_port hport
    rw [exec_request hport hkind, serve_ignored hdecoder]

/-- Settles O6: the request that the frame spells runs as its own command. -/
theorem spelledFrameRunsItsRequest : Obligations.SpelledFrameRunsItsRequest :=
  fun _ _ _ _ hdecoder hcomplete hdecode => exec_frameSpelled hdecoder hcomplete hdecode

end Sys2Proof.Proofs
end

section
/-! What commands do to the three ports (R186 to R188, R192, R195, R196): completion reports join behind those that are there,
and a transaction goes on but for the command's own. -/

namespace Sys2Proof.Proofs

set_option Elab.async false

open Sys2Proof.Machine Sys2Proof.Safety Sys2Proof.Laws

/-- A port whose transaction goes on, and whose queue loses and moves no completion report. -/
structure PortGrows (a b : PortState) : Prop where
  decoder : b.decoder = a.decoder
  reply : b.reply = a.reply
  completions : ∃ l, completionsIn b.queue = completionsIn a.queue ++ l

theorem PortGrows.of_same {a b : PortState} (hdecoder : b.decoder = a.decoder) (hreply : b.reply = a.reply)
    (hqueue : b.queue = a.queue) : PortGrows a b := ⟨hdecoder, hreply, [], by rw [hqueue, List.append_nil]⟩

theorem PortGrows.refl (a : PortState) : PortGrows a a := .of_same rfl rfl rfl

theorem PortGrows.trans {a b c : PortState} (h : PortGrows a b) (k : PortGrows b c) : PortGrows a c where
  decoder := k.decoder.trans h.decoder
  reply := k.reply.trans h.reply
  completions := by
    obtain ⟨l, hl⟩ := h.completions
    obtain ⟨m, hm⟩ := k.completions
    exact ⟨l ++ m, by rw [hm, hl, List.append_assoc]⟩

/-- The three ports from state `s` to state `t`. -/
def PortsGrow (s t : State) : Prop := ∀ q, PortGrows (s.port q) (t.port q)

namespace PortsGrow

variable {s t u : State}

theorem of_port (h : ∀ q, t.port q = s.port q) : PortsGrow s t := fun q => by
  rw [h q]
  exact .refl _

theorem refl (s : State) : PortsGrow s s := .of_port fun _ => rfl

theorem trans (h : PortsGrow s t) (k : PortsGrow t u) : PortsGrow s u := fun q => (h q).trans (k q)

/-- The operations of the blocks leave the transactions, and only add completion reports. -/
theorem keeps (h : PortsGrow s t) (k : Keeps [] t u) : PortsGrow s u :=
  h.trans fun q => ⟨(k.port q).decoder, (k.port q).reply, (k.port q).completions⟩

theorem react (h : PortsGrow s t) : PortsGrow s (react t) := h.keeps (Keeps.refl t).react

theorem passTime {dt : Nat} (h : PortsGrow s t) : PortsGrow s (passTime dt t) :=
  h.trans fun q => by
    rw [passTime_port]
    exact .of_same rfl rfl rfl

theorem runTo {since : Time} {n : Nat} (h : PortsGrow s t) : PortsGrow s (runTo since n t) := h.passTime

theorem setPort {p : Port} {x : PortState} (hx : PortGrows (s.port p) x) : PortsGrow s (s.setPort p x) := fun q => by
  rw [State.setPort_port]
  split
  · next hq => rwa [hq]
  · exact .refl _

theorem setSled {x : Sled} (h : PortsGrow s t) : PortsGrow s (t.setSled x) := h.trans (.of_port fun q => t.setSled_port x q)

theorem setSpindle {x : Spindle} (h : PortsGrow s t) : PortsGrow s (t.setSpindle x) :=
  h.trans (.of_port fun q => t.setSpindle_port x q)

theorem setSupervisor {x : Supervisor} (h : PortsGrow s t) : PortsGrow s (t.setSupervisor x) :=
  h.trans (.of_port fun q => t.setSupervisor_port x q)

end PortsGrow

/-! ### Requests -/

section Requests

variable {s : State}

/-- An accepted motion takes a ticket, and those it ends report behind the reports that wait (R125 to R128). -/
theorem accept_grows (m : Motion) (s : State) : PortsGrow s (accept m s) := by
  have hticket : PortsGrow s (withWaiting m (takeTicket m s)) := fun q => by
    rw [withWaiting_port, takeTicket_port]
    split
    · next hq => exact hq ▸ .of_same rfl rfl rfl
    · exact .refl _
  exact hticket.keeps (accept_keeps m s)

theorem requestMotion_grows (m : Motion) (failure : Option Status) (s : State) :
    PortsGrow s (requestMotion m failure s).1 := by
  cases failure with
  | some st => exact .refl s
  | none => exact (accept_grows m s).react

theorem requestCancel_grows (p : Port) (which : Byte) (s : State) : PortsGrow s (requestCancel p which s).1 := by
  unfold requestCancel
  dsimp only
  split
  · exact ((PortsGrow.refl s).keeps (Keeps.refl s).cancel).react
  · exact .refl s

theorem readHead_grows (p : Port) (s : State) : PortsGrow s (readHead p s).1 := by
  unfold readHead
  split
  · exact .refl s
  · exact .setPort (.of_same rfl rfl rfl)

theorem zoneRewritten_grows (x : ZoneTable) (s : State) : PortsGrow s (zoneRewritten (s.setZones x)) :=
  (PortsGrow.of_port fun q => s.setZones_port x q).keeps (Keeps.refl _).zoneRewritten

theorem writeZone_grows {i en : Byte} {b k : Addr} {c a : Byte} (s : State) : PortsGrow s (writeZone i en b k c a s).1 := by
  unfold writeZone
  split
  · exact .refl s
  · split
    · exact .refl s
    · exact (zoneRewritten_grows _ s).react

theorem importRecord_grows (a : Addr) (c : BitVec 16) (s : State) : PortsGrow s (importRecord a c s).1 := by
  unfold importRecord
  split
  · exact .refl s
  · split
    · exact .refl s
    · split
      · exact .refl s
      · exact .of_port fun q => s.setMap_port _ q

theorem reportAddress_grows (a : Addr) (f : Byte) (s : State) : PortsGrow s (reportAddress a f s).1 := by
  unfold reportAddress
  split
  · exact .refl s
  · exact ((PortsGrow.refl s).keeps (Keeps.refl s).judge).react

theorem resumeAt_grows (a : Option Addr) (s : State) : PortsGrow s (resumeAt a s).1 := by
  unfold resumeAt
  split
  · exact .refl s
  · exact .of_port fun q => s.setMonitor_port _ q

theorem requestClamp_grows (v : Byte) (s : State) : PortsGrow s (requestClamp v s).1 := by
  unfold requestClamp
  split
  · exact .refl s
  · exact ((PortsGrow.refl s).setSupervisor.keeps (clampReport_keeps _ s)).react

theorem requestSupply_grows (v : Byte) (s : State) : PortsGrow s (requestSupply v s).1 := by
  unfold requestSupply
  split
  · exact .refl s
  · exact ((PortsGrow.refl s).setSupervisor.keeps (supplyReport_keeps _ s)).react

/-- What the owner of a request does leaves every transaction, and only adds completion reports. -/
theorem ownerOf_grows (i : Instr) (s : State) : PortsGrow s (ownerOf i s).1 := by
  cases i with
  | readReport p tag => exact readHead_grows p s
  | setNoticeMask p tag m => exact .setPort (.of_same rfl rfl rfl)
  | setHoldoff p tag v => exact .setPort (.of_same rfl rfl rfl)
  | softReset p tag => exact .setPort (.of_same rfl rfl rfl)
  | seek p tag t v => exact requestMotion_grows _ _ s
  | follow p tag t v e => exact requestMotion_grows _ _ s
  | stop p tag => exact requestMotion_grows _ _ s
  | rejoin p tag t => exact requestMotion_grows _ _ s
  | release p tag => exact requestMotion_grows _ _ s
  | cancel p tag w => exact requestCancel_grows p w s
  | setZone p tag i en b m c a => exact writeZone_grows s
  | setDefaultZone p tag c => exact (zoneRewritten_grows _ s).react
  | mapImport p tag a c => exact importRecord_grows a c s
  | recoverySettings p tag r t => exact .of_port fun q => s.setRecovery_port _ q
  | clearFault p tag => exact (PortsGrow.refl s).keeps (Keeps.refl s).clearFault
  | addressReport p tag a f => exact reportAddress_grows a f s
  | resumeAt p tag a => exact resumeAt_grows a s
  | clampState p tag v => exact requestClamp_grows v s
  | supplyState p tag v => exact requestSupply_grows v s
  | _ => exact .refl s

/-! ### Replies (R187, R188, R192) -/

/-- An answer with data is an acceptance (R192). -/
def DataOnlyAccepted (r : State × Status × List Byte) : Prop := r.2.1 ≠ .accepted → r.2.2 = []

theorem dataOnlyAccepted_accepted {u : State} {d : List Byte} : DataOnlyAccepted (u, .accepted, d) := fun h => absurd rfl h

theorem dataOnlyAccepted_bare {u : State} {st : Status} : DataOnlyAccepted (u, st, []) := fun _ => rfl

theorem requestMotion_dataOnlyAccepted (m : Motion) (failure : Option Status) (s : State) :
    DataOnlyAccepted (requestMotion m failure s) := by
  cases failure with
  | some st => exact dataOnlyAccepted_bare
  | none => exact dataOnlyAccepted_accepted

theorem readHead_dataOnlyAccepted (p : Port) (s : State) : DataOnlyAccepted (readHead p s) := by
  unfold readHead
  split
  · exact dataOnlyAccepted_bare
  · exact dataOnlyAccepted_accepted

theorem requestCancel_dataOnlyAccepted (p : Port) (which : Byte) (s : State) :
    DataOnlyAccepted (requestCancel p which s) := by
  unfold requestCancel
  dsimp only
  split <;> exact dataOnlyAccepted_bare

theorem writeZone_dataOnlyAccepted {i en : Byte} {b k : Addr} {c a : Byte} (s : State) :
    DataOnlyAccepted (writeZone i en b k c a s) := by
  unfold writeZone
  split
  · exact dataOnlyAccepted_bare
  · split
    · exact dataOnlyAccepted_bare
    · exact dataOnlyAccepted_accepted

theorem readZone_dataOnlyAccepted (index : Byte) (s : State) : DataOnlyAccepted (s, readZone index s) := by
  unfold readZone
  split
  · split
    · exact dataOnlyAccepted_accepted
    · exact dataOnlyAccepted_bare
  · split
    · exact dataOnlyAccepted_accepted
    · exact dataOnlyAccepted_bare

theorem importRecord_dataOnlyAccepted (a : Addr) (c : BitVec 16) (s : State) : DataOnlyAccepted (importRecord a c s) := by
  unfold importRecord
  split
  · exact dataOnlyAccepted_bare
  · split
    · exact dataOnlyAccepted_bare
    · split
      · exact dataOnlyAccepted_bare
      · exact dataOnlyAccepted_accepted

theorem reportAddress_dataOnlyAccepted (a : Addr) (f : Byte) (s : State) : DataOnlyAccepted (reportAddress a f s) := by
  unfold reportAddress
  split
  · exact dataOnlyAccepted_bare
  · exact dataOnlyAccepted_accepted

theorem resumeAt_dataOnlyAccepted (a : Option Addr) (s : State) : DataOnlyAccepted (resumeAt a s) := by
  unfold resumeAt
  split
  · exact dataOnlyAccepted_bare
  · exact dataOnlyAccepted_accepted

theorem requestClamp_dataOnlyAccepted (v : Byte) (s : State) : DataOnlyAccepted (requestClamp v s) := by
  unfold requestClamp
  split
  · exact dataOnlyAccepted_bare
  · exact dataOnlyAccepted_accepted

theorem requestSupply_dataOnlyAccepted (v : Byte) (s : State) : DataOnlyAccepted (requestSupply v s) := by
  unfold requestSupply
  split
  · exact dataOnlyAccepted_bare
  · exact dataOnlyAccepted_accepted

/-- A request that is refused is answered with no data (R192). -/
theorem ownerOf_dataOnlyAccepted (i : Instr) (s : State) : DataOnlyAccepted (ownerOf i s) := by
  cases i with
  | readReport p tag => exact readHead_dataOnlyAccepted p s
  | seek p tag t v => exact requestMotion_dataOnlyAccepted _ _ s
  | follow p tag t v e => exact requestMotion_dataOnlyAccepted _ _ s
  | stop p tag => exact requestMotion_dataOnlyAccepted _ _ s
  | rejoin p tag t => exact requestMotion_dataOnlyAccepted _ _ s
  | release p tag => exact requestMotion_dataOnlyAccepted _ _ s
  | cancel p tag w => exact requestCancel_dataOnlyAccepted p w s
  | setZone p tag i en b m c a => exact writeZone_dataOnlyAccepted s
  | readZone p tag i => exact readZone_dataOnlyAccepted i s
  | mapImport p tag a c => exact importRecord_dataOnlyAccepted a c s
  | addressReport p tag a f => exact reportAddress_dataOnlyAccepted a f s
  | resumeAt p tag a => exact resumeAt_dataOnlyAccepted a s
  | clampState p tag v => exact requestClamp_dataOnlyAccepted v s
  | supplyState p tag v => exact requestSupply_dataOnlyAccepted v s
  | _ => exact dataOnlyAccepted_accepted

/-- A reply waits behind its turnaround byte (R188). -/
theorem answer_port_self (s : State) (p : Port) (tag : Byte) (st : Status) (d : List Byte) : (s.answer p tag st d).port p
    = { s.port p with decoder := .turnaround, reply := some ⟨st, tag, d⟩ } := by simp

/-- Settles O7: the owner of the request answers, and leaves every port but for the reports it adds. -/
theorem everyRequestTakenIsAnswered : Obligations.EveryRequestTakenIsAnswered := by
  intro i p tag code s hport hcode htakes
  obtain ⟨k, hkind, rfl⟩ := Option.map_eq_some_iff.1 hcode
  obtain ⟨⟨u, st, data⟩, howner⟩ : ∃ r, ownerOf i s = r := ⟨_, rfl⟩
  have hgrow : PortsGrow s u := by simpa [howner] using ownerOf_grows i s
  have hdata : DataOnlyAccepted (u, st, data) := howner ▸ ownerOf_dataOnlyAccepted i s
  refine ⟨u.answer p tag st data, st, data,
    checkByte ([st.code, tag, byte data.length] ++ data), exec_takes hport hkind htakes howner, ?_⟩
  rw [answer_port_self]
  refine ⟨rfl, rfl, hdata, rfl, rfl, sumBytes_checked _, fun q hq => ?_⟩
  rw [answer_port, if_neg hq]
  exact ⟨(hgrow q).decoder, (hgrow q).reply⟩

end Requests

/-! ### Events of the loops, the sled, the spindle and the timers -/

section Events

variable {s t : State}

theorem execProfileSwitchComplete_grows (h : execProfileSwitchComplete s = .next t) : PortsGrow s t := by
  unfold execProfileSwitchComplete at h
  split at h
  · cases h
    exact .refl s
  · rename_i k since hs
    cases h
    have hends : PortsGrow s (switchEnds k (runTo since 50 s)) :=
      (PortsGrow.refl s).runTo.keeps ((Keeps.refl _).switchEnds (by simp [runTo, hs]))
    apply PortsGrow.react
    split
    · exact hends.keeps (Keeps.trySearch Keeps.tryFails (Keeps.refl _))
    · exact hends

theorem execFocusCapture_grows (h : execFocusCapture s = .next t) : PortsGrow s t := by
  unfold execFocusCapture at h
  split at h
  · next hcapture =>
    obtain ⟨hsearch, -⟩ := hcapture
    cases h
    exact ((PortsGrow.refl s).keeps ((Keeps.refl s).captured hsearch).reportLock).react
  · cases h
    exact .refl s

theorem execAttemptTimerExpiry_grows (h : execAttemptTimerExpiry s = .next t) : PortsGrow s t := by
  unfold execAttemptTimerExpiry at h
  split at h
  · cases h
    exact .refl s
  · rename_i since hs
    cases h
    exact ((PortsGrow.refl s).runTo.keeps ((Keeps.refl _).attemptFails (by simp [runTo, hs]))).react

theorem execFocusDrop_grows {n : Nat} (h : execFocusDrop n s = .next t) : PortsGrow s t := by
  unfold execFocusDrop at h
  split at h
  · next hdrop =>
    obtain ⟨hlocked, -⟩ := hdrop
    cases h
    exact ((PortsGrow.refl s).keeps ((Keeps.refl s).focusLost (by simp [hlocked]))).react
  · cases h
    exact .refl s

theorem execOffTrack_grows {n : Nat} (h : execOffTrack n s = .next t) : PortsGrow s t := by
  unfold execOffTrack at h
  split at h <;> cases h
  · exact ((PortsGrow.refl s).keeps (Keeps.refl s).trackingOff.takeDisturbance).react
  · exact .refl s

theorem execTrackCrossing_grows (h : execTrackCrossing s = .next t) : PortsGrow s t := by
  unfold execTrackCrossing at h
  split at h
  · rename_i hjump
    cases h
    have hcount : Keeps [] s (s.setOptics { s.optics with crossings := s.optics.crossings + 1 }) := (Keeps.refl s).optics
    apply PortsGrow.react
    split
    · exact (PortsGrow.refl s).keeps (hcount.jumpEnds hjump)
    · exact (PortsGrow.refl s).keeps hcount
  · cases h
    exact .refl s

theorem execTrackingClosed_grows (h : execTrackingClosed s = .next t) : PortsGrow s t := by
  unfold execTrackingClosed at h
  split at h
  · next hclosed =>
    obtain ⟨-, hlocked, hoff⟩ := hclosed
    cases h
    exact ((PortsGrow.refl s).keeps ((Keeps.refl s).closed hlocked hoff).reportCloses).react
  · cases h
    exact .refl s

theorem homingStep_grows (closed : Bool) (s : State) : PortsGrow s (homingStep closed s) := by
  unfold homingStep
  dsimp only
  split
  · exact (PortsGrow.refl s).setSled
  · split
    · exact (PortsGrow.refl s).setSled.keeps (Keeps.refl _).homingComplete
    · split
      · exact (PortsGrow.refl s).setSled.keeps (Keeps.refl _).raiseFault
      · exact (PortsGrow.refl s).setSled

theorem legReported_grows (full : Bool) (s : State) : PortsGrow s (legReported full s) := by
  have hlanded : PortsGrow s (if s.sled.requester = some .planner then
      sledLegEnds full (s.setSled (s.sled.legOver s.optics.tracking)) else s.setSled (s.sled.legOver s.optics.tracking)) := by
    split
    · exact (PortsGrow.refl s).setSled.keeps (Keeps.refl _).sledLegEnds
    · exact (PortsGrow.refl s).setSled
  unfold legReported
  dsimp only
  generalize (if s.sled.requester = some .planner then _ else _ : State) = u at hlanded ⊢
  split
  · split
    · exact hlanded.keeps (Keeps.refl u).identSpin
    · exact hlanded.keeps (Keeps.refl u).identPosition
  · exact hlanded

theorem legStep_grows (x : Nat) (closed : Bool) (s : State) : PortsGrow s (legStep x closed s) := by
  unfold legStep
  extract_lets moved corrected position taken sled moves
  have hmoves : PortsGrow s moves := (PortsGrow.refl s).setSled
  split
  · exact hmoves.trans (legReported_grows true moves)
  · split
    · exact hmoves.trans (legReported_grows false moves)
    · exact hmoves

theorem execSledStep_grows {c : Bool} (h : execSledStep c s = .next t) : PortsGrow s t := by
  unfold execSledStep at h
  split at h
  · split at h <;> cases h
    · exact .refl s
    · exact (homingStep_grows c s).react
  · cases h
    exact (legStep_grows _ c s).react
  · cases h
    exact (PortsGrow.refl s).setSled

theorem execHomeSwitchClose_grows (h : execHomeSwitchClose s = .next t) : PortsGrow s t := by
  have hclosed : PortsGrow s (s.setSled { s.sled with homeClosed := true }) := (PortsGrow.refl s).setSled
  unfold execHomeSwitchClose at h
  dsimp only at h
  split at h
  · cases h
    exact hclosed
  · cases h
    exact hclosed
  · split at h
    · cases h
      exact hclosed
    · cases h
      apply PortsGrow.react
      split
      · exact hclosed.setSled.trans (legReported_grows false _)
      · exact hclosed.setSled

theorem execCreepThreshold_grows (h : execCreepThreshold s = .next t) : PortsGrow s t := by
  unfold execCreepThreshold at h
  split at h
  · split at h <;> cases h
    · exact (PortsGrow.refl s).setSled
    · exact .refl s
  · cases h
    exact .refl s

theorem execTachometerReading_grows {rpm : Nat} (h : execTachometerReading rpm s = .next t) : PortsGrow s t := by
  cases h
  exact ((PortsGrow.refl s).setSpindle.keeps (Keeps.refl _).readingReports).react

theorem execLockTestComplete_grows (h : execLockTestComplete s = .next t) : PortsGrow s t := by
  unfold execLockTestComplete at h
  split at h <;> cases h
  · exact .refl s
  · exact ((PortsGrow.refl s).runTo.keeps (Keeps.refl _).enterLocked).react

theorem execLockLimitExpiry_grows (h : execLockLimitExpiry s = .next t) : PortsGrow s t := by
  unfold execLockLimitExpiry at h
  split at h <;> cases h
  · exact .refl s
  · exact ((PortsGrow.refl s).runTo.keeps (Keeps.refl _).lockFails).react

theorem execStopLimitExpiry_grows (h : execStopLimitExpiry s = .next t) : PortsGrow s t := by
  unfold execStopLimitExpiry at h
  split at h <;> cases h
  · exact .refl s
  · exact ((PortsGrow.refl s).runTo.keeps (Keeps.refl _).stopFails).react

theorem execAddressMonitorTimerExpiry_grows (h : execAddressMonitorTimerExpiry s = .next t) : PortsGrow s t := by
  unfold execAddressMonitorTimerExpiry at h
  split at h <;> cases h
  · have htime : PortsGrow s (passTime (s.monitor.limit - s.monitor.elapsed) s) := (PortsGrow.refl s).passTime
    refine (htime.keeps (Keeps.restartMonitor ?_)).react
    split
    · exact (Keeps.refl _).takeDisturbance
    · exact Keeps.refl _
  · exact .refl s

theorem execSettleEnd_grows (h : execSettleEnd s = .next t) : PortsGrow s t := by
  unfold execSettleEnd at h
  split at h <;> cases h
  · exact ((PortsGrow.refl s).runTo.keeps (Keeps.refl _).settleEnds).react
  · exact .refl s

theorem execCandidateWindowEnd_grows (h : execCandidateWindowEnd s = .next t) : PortsGrow s t := by
  unfold execCandidateWindowEnd at h
  split at h <;> cases h
  · exact .refl s
  · exact ((PortsGrow.refl s).passTime.keeps (Keeps.refl _).tryFails).react

theorem execSagTimerExpiry_grows (h : execSagTimerExpiry s = .next t) : PortsGrow s t := by
  unfold execSagTimerExpiry at h
  split at h <;> cases h
  · exact .refl s
  · exact ((PortsGrow.refl s).runTo.keeps (Keeps.refl _).sagPark).react

theorem execRetrackWindowEnd_grows (h : execRetrackWindowEnd s = .next t) : PortsGrow s t := by
  unfold execRetrackWindowEnd at h
  split at h
  · cases h
    exact .refl s
  · split at h <;> cases h
    · exact ((PortsGrow.refl s).runTo.keeps (Keeps.refl _).beginRefix).react
    · exact .refl s

theorem execRoughExit_grows (h : execRoughExit s = .next t) : PortsGrow s t := by
  unfold execRoughExit at h
  split at h <;> cases h
  · exact .refl s
  · exact ((PortsGrow.refl s).passTime.keeps (Keeps.refl _).recovery.setRough).react

end Events

/-! ### Completion reports over every command (R195, R196) -/

section Appends

variable {s t : State} {p q : Port}

/-- The completion reports of a port keep their places, and those that join stand behind them (R196). -/
def ReportsAppend (p : Port) (s t : State) : Prop :=
  ∃ l, completionsIn (t.port p).queue = completionsIn (s.port p).queue ++ l

theorem PortsGrow.append (h : PortsGrow s t) (p : Port) : ReportsAppend p s t := (h p).completions

theorem ReportsAppend.trans {u : State} (h : ReportsAppend p s t) (k : ReportsAppend p t u) : ReportsAppend p s u := by
  obtain ⟨l, hl⟩ := h
  obtain ⟨m, hm⟩ := k
  exact ⟨l ++ m, by rw [hm, hl, List.append_assoc]⟩

theorem ReportsAppend.of_queue (h : (t.port p).queue = (s.port p).queue) : ReportsAppend p s t :=
  ⟨[], by rw [h, List.append_nil]⟩

/-- A write to one port that leaves its queue. -/
theorem setPort_append {x : PortState} (h : x.queue = (s.port q).queue) : ReportsAppend p s (s.setPort q x) := by
  refine .of_queue ?_
  rw [State.setPort_port]
  split
  · next hp => rw [h, hp]
  · rfl

theorem exec_request_append {i : Instr} {tag : Byte} (hi : requestPortTag i = some (q, tag)) (h : exec i s = .next t) :
    ReportsAppend p s t := by
  obtain ⟨k, hk⟩ := requestKind_of_port hi
  rw [exec_request hi hk, serve] at h
  split at h
  · cases h
    exact .of_queue rfl
  · split at h <;> cases h
    · exact setPort_append rfl
    · exact ((ownerOf_grows i s).append p).trans (setPort_append rfl)

theorem execUnknownKind_append {f : List Byte} (h : execUnknownKind q f s = .next t) : ReportsAppend p s t := by
  unfold execUnknownKind at h
  split at h
  · cases h
    exact .of_queue rfl
  · split at h
    · cases h
      exact setPort_append rfl
    · rename_i i hi
      obtain ⟨_, _, _, _, _, hport, _⟩ := decodeFrame_ok hi
      rw [execRequest_eq hport] at h
      exact exec_request_append hport h

theorem execSelectFall_append (h : execSelectFall q s = .next t) : ReportsAppend p s t := by
  unfold execSelectFall at h
  split at h <;> cases h
  · exact setPort_append rfl
  · exact .of_queue rfl

theorem exec_selectRelease (harmed : (s.port q).resetArmed = false) :
    exec (.selectRelease q) s = .next (s.setPort q (s.port q).released) := by
  change execSelectRelease q s = _
  rw [execSelectRelease, softResetDue_unarmed (by simpa [PortState.released] using harmed)]

/-- The end of a reply at another port takes nothing from this one's queue (R198). -/
theorem execReplyComplete_append (harmed : (s.port q).resetArmed = false) (hother : p ≠ q)
    (h : execReplyComplete q s = .next t) : ReportsAppend p s t := by
  have hread (u : State) : (endReport q u).port p = u.port p := by
    rcases endReport_cases q u with h | ⟨a, h⟩ <;> simp [h, hother]
  unfold execReplyComplete at h
  dsimp only at h
  split at h <;> cases h
  · rw [softResetDue_unarmed (by simp [(endReport_finds q _).armed, PortState.turnaroundEnds, harmed])]
    exact .of_queue (by simp [hother, hread])
  · exact .of_queue rfl

theorem execHoldoffExpiry_append (h : execHoldoffExpiry q s = .next t) : ReportsAppend p s t := by
  unfold execHoldoffExpiry at h
  split at h <;> cases h
  · exact ((PortsGrow.refl s).passTime.append p).trans (setPort_append (holdoffEnds_same _).2)
  · exact .of_queue rfl

end Appends

/-- Settles O29: requests and the mechanism's events only add reports, and those of the link leave the queue of the port. -/
theorem completionReportsKeepTheirPlaces : Obligations.CompletionReportsKeepTheirPlaces := by
  intro i s t p h hreset hread harmed
  change ReportsAppend p s t
  cases i with
  | powerOnReset => exact absurd rfl hreset
  | replyComplete q =>
    have hother : p ≠ q := fun hp => hread (hp ▸ rfl)
    exact execReplyComplete_append (harmed q) hother h
  | selectRelease q =>
    rw [exec_selectRelease (harmed q)] at h
    cases h
    exact setPort_append rfl
  | selectFall q => exact execSelectFall_append h
  | unknownKind q f => exact execUnknownKind_append h
  | holdoffExpiry q => exact execHoldoffExpiry_append h
  | addressMonitorTimerExpiry => exact (execAddressMonitorTimerExpiry_grows h).append p
  | settleEnd => exact (execSettleEnd_grows h).append p
  | tachometerReading rpm => exact (execTachometerReading_grows h).append p
  | lockTestComplete => exact (execLockTestComplete_grows h).append p
  | lockLimitExpiry => exact (execLockLimitExpiry_grows h).append p
  | stopLimitExpiry => exact (execStopLimitExpiry_grows h).append p
  | profileSwitchComplete => exact (execProfileSwitchComplete_grows h).append p
  | focusCapture => exact (execFocusCapture_grows h).append p
  | attemptTimerExpiry => exact (execAttemptTimerExpiry_grows h).append p
  | focusDrop n => exact (execFocusDrop_grows h).append p
  | offTrack n => exact (execOffTrack_grows h).append p
  | trackCrossing => exact (execTrackCrossing_grows h).append p
  | sledStep c => exact (execSledStep_grows h).append p
  | homeSwitchClose => exact (execHomeSwitchClose_grows h).append p
  | creepThreshold => exact (execCreepThreshold_grows h).append p
  | candidateWindowEnd => exact (execCandidateWindowEnd_grows h).append p
  | sagTimerExpiry => exact (execSagTimerExpiry_grows h).append p
  | retrackWindowEnd => exact (execRetrackWindowEnd_grows h).append p
  | roughExit => exact (execRoughExit_grows h).append p
  | trackingClosed => exact (execTrackingClosed_grows h).append p
  | _ => exact exec_request_append rfl h

end Sys2Proof.Proofs
end

section
/-! The select line, the end of a reply and the end of a holdoff (R188, R200), READ STATUS (R193), and the invariants at reset
(R202). -/

namespace Sys2Proof.Proofs

set_option Elab.async false

open Sys2Proof.Machine Sys2Proof.Safety Sys2Proof.Laws

/-! ### The select line and the end of a reply (R188) -/

section Decoder

variable {s : State} {p : Port}

/-- The end of a reply that read no report, with no reset armed: its port is FINISHED (R188; entry 6). -/
theorem exec_replyComplete_noRead (hdecoder : (s.port p).decoder = .turnaround ∨ (s.port p).decoder = .replying)
    (harmed : (s.port p).resetArmed = false) (hreading : (s.port p).reading = false) :
    exec (.replyComplete p) s = .next (s.setPort p { s.port p with decoder := .finished, reply := none }) := by
  have hends : (s.port p).turnaroundEnds.decoder = .replying := by
    rcases hdecoder with h | h <;> simp [PortState.turnaroundEnds, h]
  have hnoRead : endReport p (s.setPort p (s.port p).turnaroundEnds) = s.setPort p (s.port p).turnaroundEnds := by
    simp [endReport, PortState.turnaroundEnds, hreading]
  change execReplyComplete p s = _
  simp only [execReplyComplete, State.setPort_port, if_true, hends, hnoRead]
  rw [softResetDue_unarmed (by simpa [PortState.turnaroundEnds] using harmed)]
  cases p <;> rfl

theorem exec_replyComplete_ignored (hturnaround : (s.port p).decoder ≠ .turnaround)
    (hreplying : (s.port p).decoder ≠ .replying) : exec (.replyComplete p) s = .next s := by
  change execReplyComplete p s = _
  rw [execReplyComplete, if_neg]
  simpa [PortState.turnaroundEnds, hturnaround] using hreplying

end Decoder

/-- Settles O8: each event by the decoder state that it finds. -/
theorem selectLineMovesTheDecoder : Obligations.SelectLineMovesTheDecoder := fun _ _ =>
  ⟨fun hidle => if_pos hidle, fun hbusy => if_neg hbusy, exec_selectRelease, exec_replyComplete_noRead,
    exec_replyComplete_ignored⟩

/-- Settles O10: the time that is left passes, and leaves the queue on which the line then depends. -/
theorem holdoffEnds : Obligations.HoldoffEnds := by
  refine fun p s => ⟨fun hholdoff => ⟨_, if_pos hholdoff, ?_⟩, fun hother => if_neg hother⟩
  rw [passTime_port]
  simp [PortState.holdoffEnds, PortState.run, hholdoff]

/-! ### READ STATUS (R193) -/

section Status

variable (s : State)

theorem fixBytes_length (f : Option Fix) : (fixBytes f).length = 11 := by cases f <;> rfl

theorem activeBytes_length (m : Option Motion) : (activeBytes m).length = 4 := by cases m <;> rfl

theorem attachedBytes_length (m : Option Motion) : (attachedBytes m).length = 1 := by cases m <;> rfl

theorem positionBytes_length (x : Option Nat) : (positionBytes x).length = 2 := by cases x <;> rfl

/-- The counts of READ STATUS at offsets 30 to 33: motions that wait, and the tickets of each port. -/
def countBytes : List Byte := [byte s.arbiter.waiting.length, byte s.control.tickets.length,
  byte s.stream.tickets.length, byte s.mechanism.tickets.length]

theorem countBytes_length : (countBytes s).length = 4 := rfl

/-- The bytes from offset 14 on: the fix, the motions, the counts, the sled and the trim. -/
theorem statusData_fix : (statusData s).drop 14 = fixBytes s.monitor.fix ++ (activeBytes s.arbiter.active
    ++ (attachedBytes s.arbiter.attached ++ (countBytes s ++ (positionBytes s.sled.position
    ++ bytes2 s.planner.trim)))) := by
  simp only [statusData, List.append_assoc]
  rfl

theorem statusData_active : (statusData s).drop 25 = activeBytes s.arbiter.active
    ++ (attachedBytes s.arbiter.attached ++ (countBytes s ++ (positionBytes s.sled.position
    ++ bytes2 s.planner.trim))) := by
  rw [← List.drop_drop (i := 11) (j := 14), statusData_fix, List.drop_left' (fixBytes_length _)]

theorem statusData_attached : (statusData s).drop 29 = attachedBytes s.arbiter.attached ++ (countBytes s
    ++ (positionBytes s.sled.position ++ bytes2 s.planner.trim)) := by
  rw [← List.drop_drop (i := 4) (j := 25), statusData_active, List.drop_left' (activeBytes_length _)]

theorem statusData_counts : (statusData s).drop 30 = countBytes s ++ (positionBytes s.sled.position
    ++ bytes2 s.planner.trim) := by
  rw [← List.drop_drop (i := 1) (j := 29), statusData_attached, List.drop_left' (attachedBytes_length _)]

theorem statusData_position : (statusData s).drop 34 = positionBytes s.sled.position ++ bytes2 s.planner.trim := by
  rw [← List.drop_drop (i := 4) (j := 30), statusData_counts, List.drop_left' (countBytes_length s)]

theorem statusData_trim : (statusData s).drop 36 = bytes2 s.planner.trim := by
  rw [← List.drop_drop (i := 2) (j := 34), statusData_position, List.drop_left' (positionBytes_length _)]

theorem statusData_length : (statusData s).length = 38 := by
  have h := congrArg List.length (statusData_trim s)
  simp only [List.length_drop, bytes2, List.length_cons, List.length_nil] at h
  omega

/-- The byte at offset 29 (R193). -/
theorem statusData_attachedTag {b : Byte} (h : attachedBytes s.arbiter.attached = [b]) : (statusData s)[29]? = some b := by
  rw [← List.head?_drop, statusData_attached, h]
  rfl

end Status

/-- Settles O14: the data are the fixed bytes and then block after block, each at its offset. -/
theorem readStatusReportsTheState : Obligations.ReadStatusReportsTheState := by
  intro p tag s htakes
  refine ⟨statusData s, exec_takes (k := .readStatus) rfl rfl htakes rfl, statusData_length s, rfl, rfl, rfl, rfl,
    fun f hf => ?fix, fun hf => ?noFix, fun m hm => ?active, fun hm => ?noActive,
    fun m hm => statusData_attachedTag s (by rw [hm]; rfl), fun hm => statusData_attachedTag s (by rw [hm]; rfl),
    ?counts, fun x hx => ?position, fun hx => ?noPosition, statusData_trim s⟩
  case fix => rw [statusData_fix, List.take_left' (fixBytes_length _), hf]; rfl
  case noFix => rw [statusData_fix, List.take_left' (fixBytes_length _), hf]; rfl
  case active => rw [statusData_active, List.take_left' (activeBytes_length _), hm]; rfl
  case noActive => rw [statusData_active, List.take_left' (activeBytes_length _), hm]; rfl
  case counts => rw [statusData_counts, List.take_left' (countBytes_length s)]; rfl
  case position => rw [statusData_position, List.take_left' (positionBytes_length _), hx]; rfl
  case noPosition => rw [statusData_position, List.take_left' (positionBytes_length _), hx]; rfl

/-! ### The invariants at reset (R202) -/

theorem ticketsOk_reset : TicketsOk State.reset := by
  intro p
  cases p <;> exact ⟨Nat.zero_le 2, List.nodup_nil, fun _ => rfl, fun _ => rfl⟩

theorem loopsOk_reset : LoopsOk Optics.reset := by constructor <;> decide

/-- Settles O28: each invariant of the values that State.reset writes. -/
theorem invariantsHoldAtReset : Obligations.InvariantsHoldAtReset := by
  refine ⟨rfl, ?_, ?_, .inl rfl, ?_, rfl, ?_, rfl, ⟨reset_queue _ _ _, reset_queue _ _ _, reset_queue _ _ _⟩,
    ticketsOk_reset, loopsOk_reset, fun f hf => ?_, fun x hx => ?_, rfl, fun r hr => ?_, fun i hi => ?_⟩
  · decide
  · decide
  · decide
  · decide
  · cases hf
  · cases hx
  · cases hr
  · cases hi

end Sys2Proof.Proofs
end

section
/-! A step: the command at the front of the queue, or what an empty queue lets happen (entries 1, 2, 4 and 6). -/

namespace Sys2Proof.Proofs

set_option Elab.async false

open Sys2Proof.Machine

/-- Settles O1: a queue with a command at its front is the branch of `step` that runs it. -/
theorem stepRunsFrontCommand : Obligations.StepRunsFrontCommand := fun _ _ _ => rfl

section Idle

variable {s : State}

/-- With no command waiting a step is the idle one (entry 1). -/
theorem step_idle (h : s.pending = []) : step s = idle s := by rw [step, h]

theorem idle_noneDue (h : due s = []) : idle s = .next (passTime 1 (turnaroundsMayEnd s)) := by rw [idle, h]

theorem idle_oneDue {c : Instr} (h : due s = [c]) : idle s = exec c s := by rw [idle, h]

/-- Of several due timers one fires: the free choice is taken modulo their number, so it names one of them (entry 2). -/
theorem idle_severalDue (h : 2 ≤ (due s).length) :
    ∃ c ∈ due s, idle s = exec c { s with picks := s.picks + 1 } := by
  match hdue : due s with
  | [] | [_] => simp [hdue] at h
  | c :: d :: more =>
    have hlt : Config.dueChoice s.picks % (c :: d :: more).length < (c :: d :: more).length :=
      Nat.mod_lt _ (Nat.succ_pos _)
    refine ⟨_, List.getElem_mem hlt, ?_⟩
    rw [idle, hdue]
    dsimp only
    rw [List.getD_eq_getElem _ _ hlt]

/-- What the free choice of entry 6 does to a port: its turnaround byte ends or goes on, and nothing else changes. -/
theorem turnaroundMayEnd_decoder (n : Nat) (q : Port) (p : PortState) :
    turnaroundMayEnd n q p = { p with
      decoder := if p.decoder = .turnaround ∧ Config.turnaroundClocked n (portCode q) = true then .replying
        else p.decoder } := by
  unfold turnaroundMayEnd
  split
  case isTrue h => rw [PortState.turnaroundEnds, if_pos h.1]
  case isFalse => rfl

end Idle

/-- Settles O2: the three cases of the list of due timers, and for a millisecond the choice of each port's turnaround. -/
theorem idleStepPassesTimeOrFiresATimer : Obligations.IdleStepPassesTimeOrFiresATimer := by
  intro s hempty
  rw [step_idle hempty]
  refine ⟨fun hnone => ⟨fun q => Config.turnaroundClocked s.picks (portCode q), ?_⟩, fun c => idle_oneDue, idle_severalDue⟩
  rw [idle_noneDue hnone, turnaroundsMayEnd]
  simp only [turnaroundMayEnd_decoder]
  rfl

end Sys2Proof.Proofs
end
